-- ==== Sys2Proof/Word.lean ====
section
/-!
DEFINITION. The word types of the MN2260 and their plainest arithmetic: bytes, 16-bit words, 24-bit
byte addresses and car numbers, ring distance and saturating counts.
-/

namespace Sys2Proof

/-- A byte of memory or of a burst. -/
abbrev Byte := BitVec 8

/-- A 16-bit word: a memory word, a frame number or a free-running ring index (00 Conventions, R1, R86). -/
abbrev Word := BitVec 16

/-- A byte address of the 16 MB space (00 Conventions). -/
abbrev Addr := BitVec 24

/-- The 24-bit identity a car announces in its JOIN; 0 is no car (R11, R13). -/
abbrev CarNumber := BitVec 24

/-- The identity of a drift node as a JOIN carries it, 0 meaning none (1.5). -/
abbrev NodeId := BitVec 12

/-- The 6-bit sequence number of a message (R110, R134). -/
abbrev Seq := BitVec 6

/-- A roster index (R26). -/
abbrev ShortId := Fin 48

/-- A place of the message pool (R93). -/
abbrev PoolId := Fin 96

/-- How far `x` lies ahead of `base`, modulo 65536 (R3, R86, R148). -/
def ahead (base x : Word) : Nat := (x - base).toNat

/-- Counting up to 65535 and no further (R6, R13, R30, R51). -/
def satInc (n : Nat) : Nat := min (n + 1) 65535

/-- A value taken into the range `lo`–`hi` (00 Conventions, R172). -/
def clamp (lo hi n : Nat) : Nat := max lo (min hi n)

end Sys2Proof
end

