-- ==== Sys2Proof/Config.lean ====
section
/-!
DEFINITION. What the part fixes: the sizes and addresses of the manual, and its free values.
-/

namespace Sys2Proof.Config

/-- The base of the anchor block: the anchor command word (R156, 11.2). -/
def anchorCommand : Addr := 0xFFFFE0

/-- The anchor status word (11.2). -/
def anchorStatus : Addr := 0xFFFFE2

/-- The first word of the setup address (11.2). -/
def setupAddress : Addr := 0xFFFFE4

/-- The START code of the anchor command word (R168). -/
def startCode : Word := 0x0C01

/-- The HALT code of the anchor command word (R168). -/
def haltCode : Word := 0x0C02

/-- The size of the guarded region in bytes (R156). -/
def guardedSize : Nat := 2048

/-- Bytes of transmit staging (R109). -/
def stagingBytes : Nat := 1024

/-- Places of receive staging (R134). -/
def stagingPlaces : Nat := 4

/-- Places of the announcement queue (R32). -/
def annPlaces : Nat := 8

/-- Records a car's class queues may hold (R93). -/
def carRecords : Nat := 24

/-- Free records that only STOP messages may take (R93). -/
def stopReserve : Nat := 8

/-- Down grants a car may hold in a frame (R72). -/
def grantLimit : Nat := 8

/-- The scheduled slots of a frame (R71). -/
def scheduled : Nat := 36

/-- What a byte of memory that nothing has written reads as. DESIGN CHOICE (log 1), unsafe: the manual
gives no contents for the SRAM at power-on. -/
def blankByte : Byte := 0

/-- Whether the RESET pulse of under 4 REFCLK cycles that is the `n`-th such pulse is taken whole (R185:
"such a pulse is either taken whole, with every effect of a reset, or ignored whole"). A FREE VALUE:
nothing constrains it (log 13). -/
opaque shortPulseTaken : Nat → Bool

/-- Whether the Message Pool lets a handed record wait over the next command before it joins its class queue, at
the `n`-th such choice (R95: a drain may be "taken between the allocation step and the join"; R106 speaks of "a
record allocated but not yet joined"). A FREE VALUE: nothing constrains it (log 21). -/
opaque joinWaits : Nat → Bool

/-- The address of a fetch turn for a gathered byte that lies beyond the pieces, each an address and a length
(R88, R113): no piece holds the byte, and the manual does not say what is read. A FREE VALUE: nothing constrains
it (log 43). -/
opaque strayAddr : List (BitVec 24 × Nat) → Nat → BitVec 24

/-- The byte that such a turn brings into staging, which may depend on the word it read (R88, R113). A FREE
VALUE: nothing constrains it (log 43). -/
opaque strayByte : List (BitVec 24 × Nat) → Nat → BitVec 16 → BitVec 8

end Sys2Proof.Config
end

