-- ==== Sys2Proof/Syntax.lean ====
section
/-!
DEFINITION. The commands of the MN2260: one constructor of `Instr` for each row of
spec/opcode_table.json, with the operands the manual gives the event.
-/

namespace Sys2Proof

/-- The rate classes, A < B < C < D (3.7). -/
inductive RateClass
  | A | B | C | D
  deriving DecidableEq, Repr

/-- The two downlink rings (chapter 5). -/
inductive RingId
  | urgent | general
  deriving DecidableEq, Repr

/-- A node-controller access: both lanes at an even address, or one lane (8.2). -/
inductive Access
  | word (addr : Addr)
  | byte (addr : Addr)
  deriving DecidableEq, Repr

/-- The outcome of a HEARD answer (R5). -/
inductive HeardOutcome
  | ok | crcFail | nothing
  deriving DecidableEq, Repr

/-- A HEARD answer (R5): `q`, `cls` and `bytes` have a meaning only with outcome OK. -/
structure Heard where
  outcome : HeardOutcome
  q : BitVec 6
  cls : RateClass
  bytes : List Byte
  deriving DecidableEq, Repr

/-- What brings a reset about (R175, R185): power-on, which samples the straps, or a pulse of the RESET
pin that lasts `cycles` REFCLK cycles. -/
inductive ResetCause
  | powerOn (straps : BitVec 2)
  | pin (cycles : Nat)
  deriving DecidableEq, Repr

/-- The arrivals that fall on one frame start (R2, R9, R69): the Frame Timer's own work, the Uplink
Assembler's taking of the result of slot 39, the Roster Table's grant waits and FAULTED misses, the
Message Pool's ageing, the Slot Planner's build and the Roster Image Writer's pass. -/
inductive FrameWork
  | timer | result | roster | ageing | build | image
  deriving DecidableEq, Repr

/-- The commands. Each constructor names the rule its table row names. -/
inductive Instr
  /-- R175. `accessBegun` says whether the access of the turn in progress had begun (R167, log 12). -/
  | reset (cause : ResetCause) (accessBegun : Bool)
  /-- R1. `order` is the order in which the blocks take a frame start (log 8). -/
  | slotBoundary (order : List FrameWork)
  /-- R5. `late` says that the modem answers an order whose slot has ended or that a reset has withdrawn
  (R6, R25, log 49). -/
  | sent (late : Bool := false)
  /-- R5. `late` as for `sent`. -/
  | heard (outcome : HeardOutcome) (q : BitVec 6) (cls : RateClass) (bytes : List Byte) (late : Bool := false)
  /-- R5. `late` as for `sent`. -/
  | fault (late : Bool := false)
  /-- R103. -/
  | messageExpiry
  /-- R34. -/
  | grantWaitExpiry
  /-- R20. -/
  | silenceStarts
  /-- R20. -/
  | silenceEnds
  /-- R136. -/
  | uplinkSlotResult
  /-- R157. -/
  | hostRead (access : Access)
  /-- R161. A byte write carries its byte in the low half of `data`. -/
  | hostWrite (access : Access) (data : Word)
  /-- R164. -/
  | guardedWrite (access : Access) (data : Word)
  /-- R170. -/
  | start
  /-- R168. -/
  | halt
  /-- R174. `resultFirst` says whether slot 39's result is taken before the drains (R132, R154, log 27). -/
  | haltTaken (resultFirst : Bool)
  /-- R87. -/
  | tailWordWrite (ring : RingId) (value : Word)
  /-- R152. -/
  | uplinkConsumerWrite (value : Word)
  /-- R179. -/
  | eventConsumerWrite (value : Word)
  /-- R180. -/
  | levelWordWrite (value : Word)
  /-- R158. -/
  | hostCycleEnd
  /-- R146. -/
  | uplinkDepositDone
  /-- R149. -/
  | uplinkEntryWriteDone
  /-- R151. -/
  | headWordWriteDone
  /-- R112. -/
  | fragmentFetchDone
  /-- R90. -/
  | descriptorReadDone
  /-- R91. -/
  | gatherReadDone
  /-- R100. -/
  | statusWriteBackDone
  /-- R101. -/
  | doneWordWriteDone
  /-- R105. -/
  | doneWordReadDone
  /-- R170. -/
  | setupReadDone
  /-- R169. -/
  | anchorStatusWriteDone
  /-- R50. -/
  | imageWriteDone
  /-- R178. -/
  | eventRecordWriteDone
  /-- R40. The directive is the one the Admission Engine has handed over (R96, log 20). -/
  | evict
  /-- R41. -/
  | setWeight
  /-- R60. -/
  | setCap
  /-- R97. -/
  | purge
  /-- R19. -/
  | silence
  /-- R22. -/
  | quietEnd
  /-- R185. -/
  | resetRisingEdge (straps : BitVec 2)
  deriving DecidableEq, Repr

end Sys2Proof
end

