-- ==== Sys2Proof/WellFormed.lean ====
section
/-!
DEFINITION. Which commands are well formed: what the surroundings can send at all. The machine gives a
meaning to every command, well formed or not; statements may ask for well-formedness.
-/

namespace Sys2Proof

/-- The payload of a burst of a class, in bytes (R62). -/
def RateClass.payload : RateClass → Nat
  | .A => 64
  | .B => 128
  | .C => 192
  | .D => 256

/-- A word access has an even address (8.2: "A word access uses both lanes at an even address"). -/
def Access.wellFormed : Access → Bool
  | .word a => !a.getLsbD 0
  | .byte _ => true

/-- A modem's answer of outcome OK carries at most the payload of the class it reports (R62). -/
def heardWellFormed : HeardOutcome → RateClass → List Byte → Bool
  | .ok, c, bs => bs.length ≤ c.payload
  | _, _, _ => true

/-- A pulse of the RESET pin lasts at least one REFCLK cycle (R185). -/
def ResetCause.wellFormed : ResetCause → Bool
  | .powerOn _ => true
  | .pin n => 0 < n

/-- No block takes one frame start twice (R2: "Each frame start is one event"). -/
def orderWellFormed (order : List FrameWork) : Bool := order.Nodup

/-- The check of each command. -/
def Instr.wellFormed : Instr → Bool
  | .reset cause _ => cause.wellFormed
  | .slotBoundary order => orderWellFormed order
  | .sent _ => true
  | .heard o _ c bs _ => heardWellFormed o c bs
  | .fault _ => true
  | .messageExpiry => true
  | .grantWaitExpiry => true
  | .silenceStarts => true
  | .silenceEnds => true
  | .uplinkSlotResult => true
  | .hostRead a => a.wellFormed
  | .hostWrite a _ => a.wellFormed
  | .guardedWrite a _ => a.wellFormed
  | .start => true
  | .halt => true
  | .haltTaken _ => true
  | .tailWordWrite _ _ => true
  | .uplinkConsumerWrite _ => true
  | .eventConsumerWrite _ => true
  | .levelWordWrite _ => true
  | .hostCycleEnd => true
  | .uplinkDepositDone => true
  | .uplinkEntryWriteDone => true
  | .headWordWriteDone => true
  | .fragmentFetchDone => true
  | .descriptorReadDone => true
  | .gatherReadDone => true
  | .statusWriteBackDone => true
  | .doneWordWriteDone => true
  | .doneWordReadDone => true
  | .setupReadDone => true
  | .anchorStatusWriteDone => true
  | .imageWriteDone => true
  | .eventRecordWriteDone => true
  | .evict => true
  | .setWeight => true
  | .setCap => true
  | .purge => true
  | .silence => true
  | .quietEnd => true
  | .resetRisingEdge _ => true

end Sys2Proof
end

