-- ==== Sys2Proof/Decode.lean ====
section
/-!
DEFINITION. Reading a command from the bits of its table row. No row of spec/opcode_table.json gives
any bits (98_reader: "n_rows_with_fixed" 0, "n_rows_with_fields" 0): the commands are events, not words.
-/

namespace Sys2Proof

/-- The command that a word of `_nbits` bits spells by the table's bits: none, since no row gives any
(log 41). -/
def decodeTableWord (_nbits _w : Nat) : Option Instr := none

end Sys2Proof
end

