-- ==== Sys2Proof/Machine/State.lean ====
section
/-!
DEFINITION. The state of the MN2260: every register, list, counter, mode and pin the manual gives the
part, the node's memory, and the queue of waiting commands; and the state right after reset.
-/

namespace Sys2Proof.Machine

/-- Why the part stops. The manual names no such condition of the part's own. -/
inductive Fault
  /-- Raised by a host command while the cycle before it has not completed. 8.2: the node controller "does
  not begin a cycle until the one before has completed toward it", and no effect is given. Safe: the model
  stops where the manual says nothing (log 7). -/
  | hostCycleOverlap
  deriving DecidableEq, Repr

/-- Why a command is refused. -/
inductive Refusal
  /-- Raised by `exec` for a command without a meaning yet. Safe. No arm of `exec` raises it. -/
  | notModelled (mnemonic : String)
  deriving DecidableEq, Repr

/-! ### Codes and modes -/

/-- The node states (chapter 9). -/
inductive NodeState
  | passive | loading | running | halting
  deriving DecidableEq, Repr

/-- The level of the RESET pin, and for a low level whether its pulse is taken (R167, R185). -/
inductive ResetPin
  | high | lowTaken | lowIgnored
  deriving DecidableEq, Repr

/-- The state codes of the anchor status word (11.1); `none` is the value before any change. -/
inductive StatusCode
  | none | loading | running | rejected | abandoned | halting | halted
  deriving DecidableEq, Repr

/-- The reason codes of the anchor status word (11.1). -/
inductive Reason
  | none | sum | size | align | overlap
  deriving DecidableEq, Repr

/-- The radio substate (1.6). -/
inductive Substate
  | off | on | silent | faulted
  deriving DecidableEq, Repr

/-- The silence state (R18). -/
inductive Silence
  | none
  | pending (first stop : Word)
  | active (stop : Word)
  deriving DecidableEq, Repr

/-- The states of a roster entry (2.1). -/
inductive EntryState
  | free | granted | active | fading | draining
  deriving DecidableEq, Repr

/-- Why an entry is DRAINING (2.1). -/
inductive DrainReason
  | lost | left | evicted | halted
  deriving DecidableEq, Repr

/-- The message classes (00 Terms). -/
inductive MsgClass
  | stop | control | bulk
  deriving DecidableEq, Repr

/-- The descriptor statuses (5.6, 11.1). -/
inductive Status
  | ok | failed | expired | purged | noCar | queueFull | tooLong | lengthMismatch | badDescriptor
  | wrongRing | lost | left | evicted | halted
  deriving DecidableEq, Repr

/-- The uplink statuses (11.1). -/
inductive UplinkStatus
  | ok | sumBad | truncated | aborted
  deriving DecidableEq, Repr

/-- The event kinds (10.1). -/
inductive EventKind
  | carJoined | joinRefused | joinAbandoned | carLeft | carLost | carAlarm | stopDelivered | stopFailed
  | messageFailed | uplinkReady | silenceBegun | silenceEnded | radioFault | radioRestored | guardWrite
  | eventsLost
  deriving DecidableEq, Repr

/-- One value for each message class. -/
structure PerClass (α : Type) where
  stop : α
  control : α
  bulk : α
  deriving DecidableEq, Repr

/-! ### Bus Path and arbiter (chapter 8) -/

/-- The watched words (R156). -/
inductive Watched
  | anchor | tail (ring : RingId) | uplinkConsumer | eventConsumer | level
  deriving DecidableEq, Repr

/-- The window map (R156). -/
structure WindowMap where
  guarded : Addr
  urgentTail : Addr
  generalTail : Addr
  uplinkConsumer : Addr
  eventConsumer : Addr
  level : Addr
  deriving DecidableEq, Repr

/-- The Bus Path's own state (R156, R165). -/
structure BusPath where
  map : Option WindowMap
  armed : Bool
  guardedWrites : Nat
  deriving DecidableEq, Repr

/-- A node-controller cycle in progress (R157). `write` is the data of a write. `handTo` and `withheld`
are what the Bus Path decided when it took the cycle (R163, R164). `held` says that READY holds it. -/
structure HostCycle where
  access : Access
  write : Option Word
  handTo : Option Watched
  withheld : Bool
  held : Bool
  deriving DecidableEq, Repr

/-- The kinds of part turn; each belongs to one requester (R159). -/
inductive TurnKind
  | deposit | entryWord | headWord
  | fetch
  | setupRead | anchorStatus
  | descRead | gatherRead | doneRead | writeBack | doneWord (ring : RingId)
  | imageWord
  | eventWord
  deriving DecidableEq, Repr

/-- The internal requesters (R159). -/
inductive Requester
  | uplink | transmit | anchor | admission | image | event
  deriving DecidableEq, Repr

/-- What a write turn stores: a word, or one byte on its own lane (R160). -/
inductive TurnData
  | word (w : Word)
  | byte (b : Byte)
  deriving DecidableEq, Repr

/-- The turn in progress (R159, R160). `write` is latched at the grant (log 14). An abandoned turn
completes on the memory side and is dropped by its requester. -/
structure Turn where
  kind : TurnKind
  addr : Addr
  write : Option TurnData
  abandoned : Bool
  deriving DecidableEq, Repr

/-- The Memory Turn Arbiter (R159): one pending request per requester, the turn in progress and the
lowest-level mark. -/
structure Arbiter where
  uplink : Option TurnKind
  transmit : Option TurnKind
  anchor : Option TurnKind
  admission : Option TurnKind
  image : Option TurnKind
  event : Option TurnKind
  turn : Option Turn
  lastLow : Requester
  deriving DecidableEq, Repr

/-! ### Anchor Unit (chapter 9) -/

/-- The place and size of a ring (9.3). -/
structure RingPlace where
  base : Addr
  size : Nat
  deriving DecidableEq, Repr

/-- The setup values (9.3, R172). -/
structure Setup where
  nodeId : Nat
  pollPeriod : Nat
  fadeAfter : Nat
  loseAfter : Nat
  retryLimit : Nat
  dutyLimit : Nat
  defaultWeight : Nat
  urgent : RingPlace
  general : RingPlace
  uplink : RingPlace
  event : RingPlace
  bufferBase : Addr
  bufferSize : Nat
  uplinkStart : Word
  eventStart : Word
  guarded : Addr
  deriving DecidableEq, Repr

/-- A load in progress (R170): the setup address words and record words read so far, the running sum, and
the setup values once the checks have passed. -/
structure Load where
  address : List Word
  record : List Word
  sum : Word
  passed : Option Setup
  deriving DecidableEq, Repr

/-- The value of the anchor status word (R169). -/
structure AnchorStatus where
  code : StatusCode
  reason : Reason
  deriving DecidableEq, Repr

/-- The teardown report marks (R174). -/
structure TeardownMarks where
  admission : Bool
  uplink : Bool
  image : Bool
  event : Bool
  deriving DecidableEq, Repr

/-- The Anchor Unit (chapter 9). -/
structure AnchorUnit where
  node : NodeState
  haltReq : Bool
  status : AnchorStatus
  statusOwed : Bool
  load : Option Load
  setup : Option Setup
  marks : TeardownMarks
  deriving DecidableEq, Repr

/-! ### Frame Timer and Burst Port (chapter 1) -/

/-- A pair of car number and short id in the announcement queue; short id 63 is a refusal or an eviction
notice (R32). -/
structure Announcement where
  car : CarNumber
  sid : BitVec 6
  deriving DecidableEq, Repr

/-- What the beacon of the current frame carried (R11, R12). -/
structure Carried where
  grants : List Announcement
  resumed : Bool
  deriving DecidableEq, Repr

/-- The Frame Timer (R1). -/
structure FrameTimer where
  slot : Nat
  frame : Word
  underWay : Bool
  substate : Substate
  silence : Silence
  faultRun : Nat
  resumed : Bool
  faultedSlots : Nat
  accessGarbled : Nat
  carried : Option Carried
  beaconDue : Bool
  schedWithheld : Bool
  deriving DecidableEq, Repr

/-- An order to the modem (R5). -/
inductive Order
  | send (cls : RateClass) (bytes : List Byte)
  | listen
  deriving DecidableEq, Repr

/-- An answer of the modem (R5). -/
inductive Answer
  | sent
  | heard (h : Heard)
  | fault
  deriving DecidableEq, Repr

/-- The Burst Port (1.3): the order of the current slot and the answer taken to it. -/
structure BurstPort where
  order : Option Order
  answer : Option Answer
  deriving DecidableEq, Repr

/-- How a slot was settled (R6): it had no order, was answered, or was faulted. -/
inductive Settled
  | noOrder | answered | faulted
  deriving DecidableEq, Repr

/-- What an up slot gave (R7). -/
inductive UpOutcome
  | heard (h : Heard)
  | nothing
  | withheld
  deriving DecidableEq, Repr

/-- The result of an up slot on its way to the Uplink Assembler (R7, R136). -/
structure UpResult where
  owner : ShortId
  slot : Nat
  frame : Word
  outcome : UpOutcome
  deriving DecidableEq, Repr

/-- The frame-start work and the up slot results not yet taken by their blocks (R2, R7; log 8, 9). -/
structure FrameWorkDue where
  frame : Word
  timer : Bool
  roster : Bool
  ageing : Bool
  build : Bool
  image : Bool
  lastSlot : Settled
  results : List UpResult
  deriving DecidableEq, Repr

/-! ### Roster (chapter 2) -/

/-- A present uplink context (R134). -/
structure UplinkContext where
  seq : Seq
  expected : Nat
  index : Word
  truncated : Bool
  sum : Word
  deriving DecidableEq, Repr

/-- A roster entry (2.1); its short id is its index. -/
structure Entry where
  state : EntryState
  car : CarNumber
  prevNode : NodeId
  lastHeard : Word
  miss : Nat
  grantWait : Nat
  quality : Nat
  cls : RateClass
  capability : RateClass
  cap : RateClass
  weight : Nat
  credit : Int
  queues : PerClass (List PoolId)
  nextSeq : PerClass Seq
  context : Option UplinkContext
  ackBit : Bool
  alarm : Bool
  drain : Option DrainReason
  dirty : Bool
  deriving DecidableEq, Repr

/-- The Roster Table (chapter 2). -/
structure Roster where
  entries : Vector Entry 48
  ann : List Announcement
  joinsRefused : Nat
  deriving DecidableEq, Repr

/-- A record of the roster image: an entry's or the node summary (R48). -/
inductive ImageRecord
  | entry (k : ShortId)
  | summary
  deriving DecidableEq, Repr

/-- The record write in hand (R50): the record, the words of its fields as snapshot, and the next of its
seventeen word turns, 0 to 16. -/
structure RecordWrite where
  record : ImageRecord
  fields : List Word
  word : Nat
  deriving DecidableEq, Repr

/-- The Roster Image Writer (R48). `counters` are those of the 48 entries, `summaryCounter` the summary's. -/
structure ImageWriter where
  counters : Vector Word 48
  summaryCounter : Word
  writing : Option RecordWrite
  owed : Bool
  postHalt : Bool
  deriving DecidableEq, Repr

/-! ### Planner (chapter 4) -/

/-- A DOWN slot entry (R66). -/
structure DownGrant where
  sid : ShortId
  cls : MsgClass
  record : PoolId
  rate : RateClass
  offset : Nat
  len : Nat
  deriving DecidableEq, Repr

/-- A slot entry (R66). -/
inductive SlotUse
  | idle
  | up (owner : ShortId)
  | down (grant : DownGrant)
  deriving DecidableEq, Repr

/-- A car's working figures of a frame (R66). -/
structure Figures where
  rate : RateClass
  grants : Nat
  hasUp : Bool
  granted : PerClass Nat
  deriving DecidableEq, Repr

/-- The plan (R66): `slots` holds the entries of slots 4 to 39 in order. -/
structure Plan where
  frame : Word
  slots : List SlotUse
  downs : Nat
  ups : Nat
  gap : Nat
  figures : Vector Figures 48
  deriving DecidableEq, Repr

/-- The Slot Planner (R66, R73). -/
structure Planner where
  plan : Plan
  h1 : Nat
  h2 : Nat
  h3 : Nat
  deriving DecidableEq, Repr

/-! ### Admission and pool (chapter 5) -/

/-- A run of bytes of memory (5.2). -/
structure Piece where
  addr : Addr
  len : Nat
  deriving DecidableEq, Repr

/-- The fields of a MESSAGE descriptor (5.2); `cls` is absent for a value that names no class. -/
structure MsgFields where
  cls : Option MsgClass
  car : CarNumber
  len : Nat
  hdr : Nat
  sumStart : Option Nat
  stamp : Option Nat
  lifetime : Nat
  deriving DecidableEq, Repr

/-- A directive with its arguments clamped (R96). The PURGE selector is absent for ALL. -/
inductive Directive
  | evict (car : CarNumber)
  | setWeight (car : CarNumber) (weight : Nat)
  | setCap (car : CarNumber) (cap : RateClass)
  | purge (car : CarNumber) (cls : Option MsgClass)
  | silence (lead length : Nat)
  | quietEnd
  deriving DecidableEq, Repr

/-- A descriptor as read (5.2, 11.2). A DIRECTIVE whose code is unknown carries no directive. -/
inductive Descriptor
  | message (m : MsgFields)
  | data (last indirect : Bool) (count : Nat) (addr : Addr) (len : Nat)
  | directive (d : Option Directive)
  | unknown
  deriving DecidableEq, Repr

/-- The gather fetch state (R91). -/
structure GatherFetch where
  addr : Addr
  count : Nat
  entries : Nat
  words : List Word
  deriving DecidableEq, Repr

/-- A gather table (R91): its address and its number of entries. -/
structure GatherTable where
  addr : Addr
  count : Nat
  deriving DecidableEq, Repr

/-- Where an open item stands (R89–R93): its descriptors are being read or it waits on its tail, its
gather table is being read, it is stalled for pool room, or its directive is handed to its owner (R96). -/
inductive ItemStage
  | collecting
  | gathering (g : GatherFetch)
  | stalled
  | handed (d : Directive)
  deriving DecidableEq, Repr

/-- The open item of a ring (R86, R90). `table` is the gather table its pieces come from, when they come from one
(R91); `broken` marks a structural break that skips DATA descriptors. -/
structure OpenItem where
  first : Word
  count : Nat
  fields : MsgFields
  pieces : List Piece
  table : Option GatherTable
  broken : Bool
  stage : ItemStage
  deriving DecidableEq, Repr

/-- An entry of a ring's item list (R86). -/
structure ListItem where
  first : Word
  count : Nat
  written : Bool
  deriving DecidableEq, Repr

/-- A downlink ring as the Admission Engine holds it (R86). `words` are the words read so far of the
descriptor just before `read`; `kept` is a descriptor already read that begins the next item (log 18). -/
structure DownRing where
  tail : Word
  read : Word
  admitted : Word
  done : Word
  items : List ListItem
  item : Option OpenItem
  words : Option (List Word)
  kept : Option Descriptor
  doneOwed : Bool
  deriving DecidableEq, Repr

/-- An entry of the write-back list (R98, R99). -/
inductive WriteBack
  | item (ring : RingId) (first : Word) (status : Status)
  | record (p : PoolId)
  deriving DecidableEq, Repr

/-- The Admission Engine (chapter 5). -/
structure Admission where
  urgent : DownRing
  general : DownRing
  inHand : Option RingId
  nextAdm : Word
  writeBacks : List WriteBack
  loadReads : List Word
  deriving DecidableEq, Repr

/-- The states of a message record (R93), and `handed`: allocated and handed to the Message Pool, which has not
yet taken it into its class queue (R94, R95, R106, log 21). -/
inductive RecordState
  | handed | queued | current | retiring
  deriving DecidableEq, Repr

/-- A message record (5.4). `table` is the gather table that the record refers to and whose entries its pieces are
(R88, R91). -/
structure MsgRecord where
  state : RecordState
  sid : ShortId
  cls : MsgClass
  ring : RingId
  first : Word
  count : Nat
  adm : Word
  len : Nat
  hdr : Nat
  sumStart : Option Nat
  stamp : Option Nat
  lifetime : Nat
  age : Nat
  pieces : List Piece
  table : Option GatherTable
  seq : Option Seq
  acked : Nat
  sentTo : Nat
  watermark : Nat
  sum : Word
  attempts : Nat
  outcome : Option Status
  deriving DecidableEq, Repr

/-- An answer list (R111): the records granted to a car in a frame, with the seq each then had. -/
structure AnswerList where
  sid : ShortId
  frame : Word
  records : List (PoolId × Seq)
  deriving DecidableEq, Repr

/-- The Message Pool (R93, R111). `handed` holds the records handed over and not yet taken into their queues, in
order of admission, and `waited` says that it has let them wait over a command (R95, log 21). -/
structure Pool where
  records : Vector (Option MsgRecord) 96
  answers : List AnswerList
  handed : List PoolId
  waited : Bool
  deriving DecidableEq, Repr

/-! ### Transmit Assembler (chapter 6) -/

/-- The condition of a fragment entry (R109). -/
inductive FragCond
  | waiting | fetching | ready | empty | done
  deriving DecidableEq, Repr

/-- A fragment entry of the fetch queue (R109). `table` is the gather table its record refers to, which its fetch
reads again (R88); `live` is cleared when its record leaves CURRENT (R121); `whole` is set when its completed
burst was given to the Burst Port (R119). -/
structure FragEntry where
  slot : Nat
  sid : ShortId
  record : PoolId
  cls : MsgClass
  rate : RateClass
  seq : Seq
  offset : Nat
  len : Nat
  hdr : Nat
  stamp : Option Nat
  table : Option GatherTable
  last : Bool
  sumPresent : Bool
  cond : FragCond
  live : Bool
  whole : Bool
  deriving DecidableEq, Repr

/-- A gather table that a fragment's fetch is reading again (R88, log 43): the table, the pieces of the entries
read so far, and the words of the entry in hand. -/
structure TableRead where
  table : GatherTable
  pieces : List Piece
  words : List Word
  deriving DecidableEq, Repr

/-- A staged fragment (R112): the space taken, the gather table its fetch has yet to read to its end (R88), the
bytes taken in so far, and the completed burst (R118). -/
structure Staged where
  slot : Nat
  size : Nat
  reread : Option TableRead
  bytes : List Byte
  burst : Option (List Byte)
  deriving DecidableEq, Repr

/-- The Transmit Assembler (R109). -/
structure Transmit where
  queue : List FragEntry
  staging : List Staged
  late : List PoolId
  lateFragments : Nat
  deriving DecidableEq, Repr

/-! ### Uplink Assembler (chapter 7) -/

/-- The finished mark of a car (R134). -/
structure FinishedMark where
  seq : Seq
  len : Nat
  deriving DecidableEq, Repr

/-- A receive staging place in use (R146): its ring index, the buffer offset of its first byte still to be
written, and those bytes. -/
structure RecvPlace where
  index : Word
  offset : Nat
  bytes : List Byte
  deriving DecidableEq, Repr

/-- The states of a claim record (R148). -/
inductive ClaimState
  | inProgress | decided | aborted | written
  deriving DecidableEq, Repr

/-- A claim record (R140, R145, R150). -/
structure Claim where
  index : Word
  sid : ShortId
  car : CarNumber
  seq : Seq
  state : ClaimState
  status : Option UplinkStatus
  len : Nat
  stored : Nat
  sum : Word
  frame : Word
  deriving DecidableEq, Repr

/-- The Uplink Assembler (R134). -/
structure Uplink where
  finished : Vector (Option FinishedMark) 48
  staging : List RecvPlace
  producer : Word
  head : Word
  consumer : Word
  claims : List Claim
  entryWrites : List Word
  entryWord : Option Nat
  headOwed : Bool
  deriving DecidableEq, Repr

/-! ### Event Writer (chapter 10) -/

/-- An event record (10.1). -/
structure EventRecord where
  kind : EventKind
  level : Nat
  sid : BitVec 6
  car : CarNumber
  frame : Word
  data1 : Word
  data2 : Word
  deriving DecidableEq, Repr

/-- The Event Writer (R176) and the ATTN output. -/
structure EventWriter where
  fill : Word
  producer : Word
  consumer : Word
  held : List (EventKind × Nat)
  writes : List EventRecord
  word : Nat
  level : Nat
  lostCount : Nat
  lostKind : Option EventKind
  eventsLost : Nat
  attn : Bool
  deriving DecidableEq, Repr

/-! ### The whole -/

/-- The blocks of the part (00 Block overview). -/
structure Part where
  anchor : AnchorUnit
  bus : BusPath
  arb : Arbiter
  timer : FrameTimer
  port : BurstPort
  due : FrameWorkDue
  roster : Roster
  image : ImageWriter
  planner : Planner
  adm : Admission
  pool : Pool
  tx : Transmit
  uplink : Uplink
  ev : EventWriter
  deriving DecidableEq, Repr

/-- The state of the machine: the queue of waiting commands, the count of free values drawn (log 13, 21), the
pins, the memory, the node-controller cycle in progress and the blocks of the part. -/
structure State where
  pending : List Instr
  free : Nat
  resetPin : ResetPin
  straps : BitVec 2
  mem : List Host.Cell
  host : Option HostCycle
  hostData : Word
  part : Part
  deriving DecidableEq, Repr

/-! ### Reset values -/

/-- The same value for each message class. -/
def PerClass.all {α : Type} (x : α) : PerClass α := { stop := x, control := x, bulk := x }

/-- A FREE entry of a node whose default weight is `weight` (R26). -/
def Entry.blank (weight : Nat) : Entry where
  state := .free
  car := 0
  prevNode := 0
  lastHeard := 0
  miss := 0
  grantWait := 0
  quality := 0
  cls := .A
  capability := .A
  cap := .D
  weight := weight
  credit := 0
  queues := PerClass.all []
  nextSeq := PerClass.all 0
  context := none
  ackBit := false
  alarm := false
  drain := none
  dirty := false

/-- The working figures of a car without grants (R66). -/
def Figures.none : Figures where
  rate := .A
  grants := 0
  hasUp := false
  granted := PerClass.all 0

/-- The empty plan of frame `f` (R66, log 28). -/
def Plan.blank (f : Word) : Plan where
  frame := f
  slots := List.replicate Config.scheduled .idle
  downs := 0
  ups := 0
  gap := 0
  figures := Vector.replicate 48 Figures.none

/-- A downlink ring whose four indices stand at `x` (R105, R107). -/
def DownRing.fresh (x : Word) : DownRing where
  tail := x
  read := x
  admitted := x
  done := x
  items := []
  item := none
  words := none
  kept := none
  doneOwed := false

/-- Nothing due. -/
def FrameWorkDue.nothing : FrameWorkDue where
  frame := 0
  timer := false
  roster := false
  ageing := false
  build := false
  image := false
  lastSlot := .noOrder
  results := []

/-- The Anchor Unit after reset (R175). DESIGN CHOICE (log 37): the held status value is code 0 and the four
teardown report marks are clear, for which R175 gives no value. -/
def AnchorUnit.reset : AnchorUnit where
  node := .passive
  haltReq := false
  status := { code := .none, reason := .none }
  statusOwed := false
  load := none
  setup := none
  marks := { admission := false, uplink := false, image := false, event := false }

/-- The arbiter after reset and after a successful LOADING (R159). -/
def Arbiter.reset : Arbiter where
  uplink := none
  transmit := none
  anchor := none
  admission := none
  image := none
  event := none
  turn := none
  lastLow := .event

/-- The Frame Timer after reset (R1, R15, R18, R25) and, but for the node state, after a load (R23). -/
def FrameTimer.reset : FrameTimer where
  slot := 0
  frame := 0
  underWay := false
  substate := .off
  silence := .none
  faultRun := 0
  resumed := false
  faultedSlots := 0
  accessGarbled := 0
  carried := none
  beaconDue := false
  schedWithheld := false

/-- The Roster Table with every entry FREE (R26). -/
def Roster.fresh (weight : Nat) : Roster where
  entries := Vector.replicate 48 (Entry.blank weight)
  ann := []
  joinsRefused := 0

/-- The Roster Image Writer after reset (R48). -/
def ImageWriter.reset : ImageWriter where
  counters := Vector.replicate 48 0
  summaryCounter := 0
  writing := none
  owed := false
  postHalt := false

/-- The Slot Planner after reset and after a successful LOADING (R66, R73, R85). DESIGN CHOICE (log 28): the empty
plan holds the frame number 0, which R66 leaves open. -/
def Planner.reset : Planner where
  plan := Plan.blank 0
  h1 := 0
  h2 := 0
  h3 := 0

/-- The Admission Engine with its rings at `u` and `g` (R105, R107). -/
def Admission.fresh (u g : Word) : Admission where
  urgent := DownRing.fresh u
  general := DownRing.fresh g
  inHand := none
  nextAdm := 0
  writeBacks := []
  loadReads := []

/-- The Message Pool with 96 free records (R105, R107). -/
def Pool.reset : Pool where
  records := Vector.replicate 96 none
  answers := []
  handed := []
  waited := false

/-- The Transmit Assembler after reset (R109, R133). -/
def Transmit.reset : Transmit where
  queue := []
  staging := []
  late := []
  lateFragments := 0

/-- The Uplink Assembler with its indices at `x` (R153, R155). -/
def Uplink.fresh (x : Word) : Uplink where
  finished := Vector.replicate 48 none
  staging := []
  producer := x
  head := x
  consumer := x
  claims := []
  entryWrites := []
  entryWord := none
  headOwed := false

/-- The Event Writer with its indices at `x` (R176). -/
def EventWriter.fresh (x : Word) : EventWriter where
  fill := x
  producer := x
  consumer := x
  held := []
  writes := []
  word := 0
  level := 0
  lostCount := 0
  lostKind := none
  eventsLost := 0
  attn := false

/-- Every block at its reset values (R175). -/
def Part.reset : Part where
  anchor := AnchorUnit.reset
  bus := { map := none, armed := false, guardedWrites := 0 }
  arb := Arbiter.reset
  timer := FrameTimer.reset
  port := { order := none, answer := none }
  due := FrameWorkDue.nothing
  roster := Roster.fresh 4
  image := ImageWriter.reset
  planner := Planner.reset
  adm := Admission.fresh 0 0
  pool := Pool.reset
  tx := Transmit.reset
  uplink := Uplink.fresh 0
  ev := EventWriter.fresh 0

/-- The machine right after power-on: no command waits, nothing is listed in memory, and the part holds
its reset values (R175). The straps read 0 and the data lines 0 (DESIGN CHOICE, log 2, 3). -/
def State.reset : State where
  pending := []
  free := 0
  resetPin := .high
  straps := 0
  mem := []
  host := none
  hostData := 0
  part := Part.reset

end Sys2Proof.Machine
end

