-- ==== Sys2Proof/Machine/Bits.lean ====
section
/-!
DEFINITION. Byte order and bit fields (R183, R184) and the one's complement sum (R115).
-/

namespace Sys2Proof.Machine

/-- The byte at the lower address of a memory word (00 Conventions). -/
def lowByte (w : Word) : Byte := w.setWidth 8

/-- The byte at the higher address of a memory word (00 Conventions). -/
def highByte (w : Word) : Byte := (w >>> 8).setWidth 8

/-- The word whose bytes are `lo` at the lower and `hi` at the higher address (00 Conventions). -/
def wordOf (lo hi : Byte) : Word := hi ++ lo

/-- The two bytes of a value sent most significant byte first (R184). -/
def airWord (w : Word) : List Byte := [highByte w, lowByte w]

/-- The three bytes of a 24-bit value sent most significant byte first (R184). -/
def airTriple (x : BitVec 24) : List Byte :=
  [(x >>> 16).setWidth 8, (x >>> 8).setWidth 8, x.setWidth 8]

/-- Byte `i` of a burst, 0 where the burst has ended. -/
def byteAt (bs : List Byte) (i : Nat) : Byte := bs.getD i 0

/-- The 16-bit field at byte `i` of a burst (R184). -/
def airWordAt (bs : List Byte) (i : Nat) : Word := byteAt bs i ++ byteAt bs (i + 1)

/-- The 24-bit field at byte `i` of a burst (R184). -/
def airTripleAt (bs : List Byte) (i : Nat) : BitVec 24 :=
  byteAt bs i ++ byteAt bs (i + 1) ++ byteAt bs (i + 2)

/-- The 32-bit field at byte `i` of a burst (R184). -/
def airQuadAt (bs : List Byte) (i : Nat) : BitVec 32 :=
  byteAt bs i ++ byteAt bs (i + 1) ++ byteAt bs (i + 2) ++ byteAt bs (i + 3)

/-- Byte `i` of a record read as words in ascending address (R183). -/
def recordByte (ws : List Word) (i : Nat) : Byte :=
  let w := ws.getD (i / 2) 0
  if i % 2 = 0 then lowByte w else highByte w

/-- The 16-bit field at the even offset `i` of a record (R183). -/
def recordWord (ws : List Word) (i : Nat) : Word := ws.getD (i / 2) 0

/-- The 24-bit field at the even offset `i` of a record; the byte after it is ignored (R183). -/
def recordTriple (ws : List Word) (i : Nat) : BitVec 24 :=
  recordByte ws (i + 2) ++ recordByte ws (i + 1) ++ recordByte ws i

/-- A Bool as a bit of a field. -/
def bit (b : Bool) : Nat := if b then 1 else 0

/-- A word of a record from its two bytes given as numbers. -/
def wordFrom (lo hi : Nat) : Word := wordOf (BitVec.ofNat 8 lo) (BitVec.ofNat 8 hi)

/-- One's complement addition: the carry out of the top bit is added back into the bottom bit (R115). -/
def onesAdd (x y : Word) : Word :=
  let t := x.toNat + y.toNat
  BitVec.ofNat 16 (if t < 65536 then t else t - 65535)

/-- A byte at distance `i` from the first summed byte, added into a running sum: even distances are high
halves, odd ones low halves (R115). -/
def sumByte (sum : Word) (i : Nat) (b : Byte) : Word :=
  onesAdd sum (if i % 2 = 0 then b ++ (0 : Byte) else (0 : Byte) ++ b)

/-- Bytes from distance `i` on, added into a running sum in order (R115, R141). -/
def sumBytes (sum : Word) (i : Nat) : List Byte → Word
  | [] => sum
  | b :: bs => sumBytes (sumByte sum i b) (i + 1) bs

/-- The even address of the word that holds a byte (R160). -/
def wordBase (a : Addr) : Addr := a &&& 0xFFFFFE

end Sys2Proof.Machine
end

