-- ==== Sys2Proof/Machine/Operands.lean ====
section
/-!
DEFINITION. The layouts of chapter 11: how the part reads descriptors, gather entries, setup records,
JOINs and poll responses, and how it writes events, uplink entries, the roster image and bursts.
-/

namespace Sys2Proof.Machine

/-! ### Codes (11.1) -/

/-- The code of a rate class (R184). -/
def rateCode : RateClass → Nat
  | .A => 0
  | .B => 1
  | .C => 2
  | .D => 3

/-- The rate class of a code; a value above 3 is taken as D (R96). -/
def rateOfCode : Nat → RateClass
  | 0 => .A
  | 1 => .B
  | 2 => .C
  | _ => .D

/-- Whether class `x` is at most class `y`, in the order A < B < C < D (R58). -/
def rateLe (x y : RateClass) : Bool := rateCode x ≤ rateCode y

/-- The lower of two classes (R58). -/
def rateMin (x y : RateClass) : RateClass := if rateLe x y then x else y

/-- The class above, D staying D. -/
def rateUp : RateClass → RateClass
  | .A => .B
  | .B => .C
  | .C => .D
  | .D => .D

/-- The class below, A staying A. -/
def rateDown : RateClass → RateClass
  | .A => .A
  | .B => .A
  | .C => .B
  | .D => .C

/-- The data one fragment carries at a class with prototype length `h` (R62). -/
def fragmentData (c : RateClass) (h : Nat) : Nat := c.payload - 8 - h

/-- The message class of a code in memory (11.1). -/
def classOfMemory : Nat → Option MsgClass
  | 1 => some .stop
  | 2 => some .control
  | 3 => some .bulk
  | _ => none

/-- The message class of a 2-bit code on the air; 3 names no class (R184). -/
def classOfAir : Nat → Option MsgClass
  | 0 => some .stop
  | 1 => some .control
  | 2 => some .bulk
  | _ => none

/-- The code of a message class on the air (11.1). -/
def airClass : MsgClass → Nat
  | .stop => 0
  | .control => 1
  | .bulk => 2

/-- The status codes of a descriptor (11.1); none is 0 (R183). -/
def statusCode : Status → Nat
  | .ok => 1
  | .failed => 2
  | .expired => 3
  | .purged => 4
  | .noCar => 5
  | .queueFull => 6
  | .tooLong => 7
  | .lengthMismatch => 8
  | .badDescriptor => 9
  | .wrongRing => 10
  | .lost => 11
  | .left => 12
  | .evicted => 13
  | .halted => 14

/-- The uplink status codes (11.1). -/
def uplinkCode : UplinkStatus → Nat
  | .ok => 1
  | .sumBad => 2
  | .truncated => 3
  | .aborted => 4

/-- The event kind codes (11.1). -/
def kindCode : EventKind → Nat
  | .carJoined => 1
  | .joinRefused => 2
  | .joinAbandoned => 3
  | .carLeft => 4
  | .carLost => 5
  | .carAlarm => 6
  | .stopDelivered => 7
  | .stopFailed => 8
  | .messageFailed => 9
  | .uplinkReady => 10
  | .silenceBegun => 11
  | .silenceEnded => 12
  | .radioFault => 13
  | .radioRestored => 14
  | .guardWrite => 15
  | .eventsLost => 16

/-- The state codes of the anchor status word (11.1). -/
def stateCode : StatusCode → Nat
  | .none => 0
  | .loading => 1
  | .running => 2
  | .rejected => 3
  | .abandoned => 4
  | .halting => 5
  | .halted => 6

/-- The reason codes of the anchor status word (11.1). -/
def reasonCode : Reason → Nat
  | .none => 0
  | .sum => 1
  | .size => 2
  | .align => 3
  | .overlap => 4

/-- The anchor status word: state code in the low byte, reason code in the high byte (11.2). -/
def statusWord (st : AnchorStatus) : Word := wordFrom (stateCode st.code) (reasonCode st.reason)

/-- The roster state codes (11.1). -/
def entryStateCode : EntryState → Nat
  | .free => 0
  | .granted => 1
  | .active => 2
  | .fading => 3
  | .draining => 4

/-- The drain reason codes, 0 for none (11.1). -/
def drainCode : Option DrainReason → Nat
  | none => 0
  | some .lost => 1
  | some .left => 2
  | some .evicted => 3
  | some .halted => 4

/-- The radio substate codes (11.1). -/
def substateCode : Substate → Nat
  | .off => 0
  | .on => 1
  | .silent => 2
  | .faulted => 3

/-- The silence state codes (11.1). -/
def silenceCode : Silence → Nat
  | .none => 0
  | .pending _ _ => 1
  | .active _ => 2

/-- The status a drain gives to records (R42). -/
def drainStatus : DrainReason → Status
  | .lost => .lost
  | .left => .left
  | .evicted => .evicted
  | .halted => .halted

/-! ### Descriptors (5.2, 11.2) -/

/-- The directive of a code, its arguments clamped (R96). -/
def directiveOf (code : Nat) (car : CarNumber) (a1 a2 : Nat) : Option Directive :=
  match code with
  | 1 => some (.evict car)
  | 2 => some (.setWeight car (clamp 1 16 a1))
  | 3 => some (.setCap car (rateOfCode a1))
  | 4 => some (.purge car (match a1 with
      | 0 => some .stop
      | 1 => some .control
      | 2 => some .bulk
      | _ => none))
  | 5 => some (.silence (clamp 1 255 a1) (clamp 1 4095 a2))
  | 6 => some .quietEnd
  | _ => none

/-- A descriptor from its eight words (11.2). -/
def parseDescriptor (ws : List Word) : Descriptor :=
  let b := fun i => (recordByte ws i).toNat
  let w := fun i => (recordWord ws i).toNat
  match b 0 with
  | 1 => .message
      { cls := classOfMemory (b 2)
        car := recordTriple ws 4
        len := w 8
        hdr := b 3
        sumStart := if w 0x0A = 0xFFFF then none else some (w 0x0A)
        stamp := if b 0x0C = 0xFF then none else some (b 0x0C)
        lifetime := w 0x0E }
  | 2 => .data ((recordByte ws 2).getLsbD 0) ((recordByte ws 2).getLsbD 1) (b 3) (recordTriple ws 4) (w 8)
  | 3 => .directive (directiveOf (b 2) (recordTriple ws 4) (w 8) (w 0x0A))
  | _ => .unknown

/-- A gather table entry from its four words (11.2). -/
def parseGatherEntry (ws : List Word) : Piece :=
  { addr := recordTriple ws 0, len := (recordWord ws 4).toNat }

/-! ### The setup record (9.3, 11.2) -/

/-- The one's complement sum of words (R170, R171). -/
def onesSum (ws : List Word) : Word := ws.foldl onesAdd 0

/-- A ring of the setup record whose base lies at offset `i` and whose size lies four bytes on. -/
def setupRing (ws : List Word) (i : Nat) : RingPlace :=
  { base := recordTriple ws i, size := (recordWord ws (i + 4)).toNat }

/-- The setup values of a record, each numeric field clamped (R172). -/
def parseSetup (ws : List Word) : Setup :=
  let b := fun i => (recordByte ws i).toNat
  let fade := clamp 1 7 (b 3)
  { nodeId := clamp 1 4095 (recordWord ws 0).toNat
    pollPeriod := clamp 1 8 (b 2)
    fadeAfter := fade
    loseAfter := clamp (fade + 1) 31 (b 4)
    retryLimit := clamp 1 15 (b 5)
    dutyLimit := clamp 12 144 (b 6)
    defaultWeight := clamp 1 16 (b 7)
    urgent := setupRing ws 0x08
    general := setupRing ws 0x10
    uplink := setupRing ws 0x18
    event := setupRing ws 0x20
    bufferBase := recordTriple ws 0x28
    bufferSize := (recordWord ws 0x2C).toNat
    uplinkStart := recordWord ws 0x2E
    eventStart := recordWord ws 0x30
    guarded := recordTriple ws 0x34 }

/-- Whether a ring size is a power of two from `lo` to `hi` (R171). -/
def ringSizeOk (lo hi n : Nat) : Bool :=
  [8, 16, 32, 64, 128, 256].contains n && lo ≤ n && n ≤ hi

/-- Check 2 of R171. -/
def setupSizesOk (u : Setup) : Bool :=
  ringSizeOk 8 64 u.urgent.size && ringSizeOk 16 256 u.general.size && ringSizeOk 8 64 u.uplink.size
    && ringSizeOk 16 256 u.event.size
    && (256 ≤ u.bufferSize && u.bufferSize ≤ 16384 && u.bufferSize % 256 = 0)

/-- Check 3 of R171. -/
def setupAlignOk (u : Setup) : Bool :=
  u.urgent.base.toNat % 16 = 0 && u.general.base.toNat % 16 = 0 && u.uplink.base.toNat % 16 = 0
    && u.event.base.toNat % 16 = 0 && u.bufferBase.toNat % 256 = 0 && u.guarded.toNat % 2048 = 0

/-- The extent of a ring region: a 16-byte header and its slots of 16 bytes (9.3). -/
def ringArea (r : RingPlace) : Nat × Nat := (r.base.toNat, 16 + 16 * r.size)

/-- The six areas of check 4, each a base and a length (R171). -/
def setupAreas (u : Setup) : List (Nat × Nat) :=
  [ringArea u.urgent, ringArea u.general, ringArea u.uplink, ringArea u.event,
   (u.bufferBase.toNat, u.uplink.size * u.bufferSize), (u.guarded.toNat, Config.guardedSize)]

/-- Two areas share no byte. -/
def areasApart (x y : Nat × Nat) : Bool := x.1 + x.2 ≤ y.1 || y.1 + y.2 ≤ x.1

/-- Check 4 of R171: no two areas overlap and none runs past 0xFFFFDF. -/
def setupAreasOk (u : Setup) : Bool :=
  (setupAreas u).Pairwise (fun x y => areasApart x y) &&
    (setupAreas u).all (fun x => x.1 + x.2 ≤ Config.anchorCommand.toNat)

/-- The first check of R171 that a record fails, or none. -/
def setupFailure (ws : List Word) (sum : Word) : Option Reason :=
  let u := parseSetup ws
  if sum ≠ 0xFFFF then some .sum
  else if !setupSizesOk u then some .size
  else if !setupAlignOk u then some .align
  else if !setupAreasOk u then some .overlap
  else none

/-- The setup address held in the two words of the anchor block (11.2). -/
def setupBase (lo hi : Word) : Addr := lowByte hi ++ lo

/-- Why the setup record at an address is not read at all, or none (R170). -/
def setupPlaceFailure (a : Addr) : Option Reason :=
  if a.getLsbD 0 then some .align
  else if Config.anchorCommand.toNat < a.toNat + 64 then some .overlap
  else none

/-- The window map of setup values (R166, 11.2). -/
def windowMap (u : Setup) : WindowMap where
  guarded := u.guarded
  urgentTail := u.urgent.base
  generalTail := u.general.base
  uplinkConsumer := u.uplink.base + 2
  eventConsumer := u.event.base + 2
  level := u.event.base + 4

/-- The address of entry `i` of a ring (11.2). -/
def ringEntry (r : RingPlace) (i : Word) : Addr := r.base + 16 + BitVec.ofNat 24 (16 * (i.toNat % r.size))

/-! ### Bursts the part takes (11.3) -/

/-- A JOIN's content (1.5). -/
structure JoinBurst where
  car : CarNumber
  prevNode : NodeId
  capability : RateClass
  deriving DecidableEq, Repr

/-- A payload read as a JOIN: kind, length and a car number other than 0 (R13). -/
def parseJoin (bs : List Byte) : Option JoinBurst :=
  if bs.length = 8 ∧ (byteAt bs 0 >>> 6) = 2 ∧ airTripleAt bs 1 ≠ 0 then
    some { car := airTripleAt bs 1
           prevNode := (airWordAt bs 4).setWidth 12
           capability := rateOfCode ((byteAt bs 6).toNat % 4) }
  else none

/-- An ack entry of a poll response (6.7). -/
structure AckEntry where
  cls : Option MsgClass
  seq : Seq
  offset : Nat
  deriving DecidableEq, Repr

/-- An uplink fragment of a poll response (7.2). -/
structure UpFragment where
  seq : Seq
  last : Bool
  sumPresent : Bool
  offset : Nat
  len : Nat
  data : List Byte
  trailer : Word
  deriving DecidableEq, Repr

/-- A valid poll response (R135). -/
structure PollResponse where
  alarm : Bool
  leaving : Bool
  acks : List AckEntry
  fragment : Option UpFragment
  deriving DecidableEq, Repr

/-- The ack entry at byte `i` (11.3). -/
def ackAt (bs : List Byte) (i : Nat) : AckEntry where
  cls := classOfAir ((byteAt bs i).toNat / 64)
  seq := (byteAt bs i).setWidth 6
  offset := (airWordAt bs (i + 1)).toNat % 16384

/-- The fragment whose header lies at byte `i` (11.3). -/
def fragmentAt (bs : List Byte) (i : Nat) : UpFragment :=
  let h := airQuadAt bs i
  let n := (h >>> 1).toNat % 512
  { seq := (h >>> 26).setWidth 6
    last := h.getLsbD 25
    sumPresent := h.getLsbD 24
    offset := (h >>> 10).toNat % 16384
    len := n
    data := (bs.drop (i + 4)).take n
    trailer := airWordAt bs (i + 4 + n) }

/-- A payload read as the poll response of a slot's owner: the four tests of R135. -/
def parsePoll (owner : ShortId) (bs : List Byte) : Option PollResponse :=
  let acks := (byteAt bs 1).toNat % 8
  let hasFragment := (byteAt bs 1).getLsbD 5
  let body := 4 + 4 * acks
  let f := fragmentAt bs body
  let need := if hasFragment then body + 6 + f.len else body
  if (byteAt bs 0 >>> 6) = 3 ∧ (byteAt bs 0).toNat % 64 = owner.val ∧ acks ≤ 3 ∧ need ≤ bs.length then
    some { alarm := (byteAt bs 1).getLsbD 7
           leaving := (byteAt bs 1).getLsbD 6
           acks := (List.range acks).map (fun j => ackAt bs (4 + 4 * j))
           fragment := if hasFragment then some f else none }
  else none

/-! ### Bursts the part sends (11.3) -/

/-- The six-byte downlink header (11.3, R117). -/
def downHeader (kind sid cls seq offset : Nat) (last sumPresent : Bool) (len : Nat) : List Byte :=
  let tail := BitVec.ofNat 32 (offset * 2 ^ 18 + bit last * 2 ^ 17 + bit sumPresent * 2 ^ 16 + len * 2 ^ 7)
  [BitVec.ofNat 8 (kind * 64 + sid), BitVec.ofNat 8 (cls * 64 + seq),
   (tail >>> 24).setWidth 8, (tail >>> 16).setWidth 8, (tail >>> 8).setWidth 8, tail.setWidth 8]

/-- The header of a fragment entry's burst with `len` data bytes (R117). -/
def fragHeader (e : FragEntry) (last sumPresent : Bool) (len : Nat) : List Byte :=
  downHeader 1 e.sid.val (airClass e.cls) e.seq.toNat e.offset last sumPresent len

/-- The empty burst of a fragment entry (R117). -/
def emptyBurst (e : FragEntry) : List Byte := fragHeader e false false 0 ++ [0, 0]

/-- The whole burst of a fragment entry: header, staged contents, trailer (R117, R118). -/
def wholeBurst (e : FragEntry) (contents : List Byte) (trailer : Word) : List Byte :=
  fragHeader e e.last e.sumPresent e.len ++ contents ++ airWord trailer

/-- A place of the grant list; an unused one is car 0 and short id 63 (R11). -/
def grantBytes : Option Announcement → List Byte
  | some a => airTriple a.car ++ [a.sid.setWidth 8]
  | none => [0, 0, 0, 63]

/-- The content of a beacon (1.4). -/
structure Beacon where
  nodeId : Nat
  frame : Word
  silencePending : Bool
  resumed : Bool
  rosterFull : Bool
  countdown : Nat
  length : Nat
  pollPeriod : Nat
  grants : List Announcement
  slotMap : List Byte
  deriving DecidableEq, Repr

/-- The 64 bytes of a beacon: header, payload and a trailer of zero (1.4, 11.3). -/
def beaconBytes (b : Beacon) : List Byte :=
  downHeader 0 63 0 0 0 false false 56
    ++ airWord (BitVec.ofNat 16 b.nodeId) ++ airWord b.frame
    ++ [BitVec.ofNat 8 (bit b.silencePending * 128 + bit b.resumed * 64 + bit b.rosterFull * 32),
        BitVec.ofNat 8 b.countdown]
    ++ airWord (BitVec.ofNat 16 b.length) ++ [BitVec.ofNat 8 b.pollPeriod]
    ++ grantBytes b.grants[0]? ++ grantBytes b.grants[1]?
    ++ b.slotMap ++ [0, 0, 0] ++ [0, 0]

/-! ### Records the part writes (11.2) -/

/-- The eight words of an event record (11.2). -/
def eventWords (e : EventRecord) : List Word :=
  [wordFrom (kindCode e.kind) e.level, wordFrom e.sid.toNat 0, e.car.setWidth 16,
   (e.car >>> 16).setWidth 16, e.frame, e.data1, e.data2, 0]

/-- The eight words of an uplink entry (11.2). -/
def uplinkWords (c : Claim) : List Word :=
  [c.car.setWidth 16, wordFrom (c.car >>> 16).toNat c.sid.val,
   wordFrom c.seq.toNat ((c.status.map uplinkCode).getD 0),
   BitVec.ofNat 16 c.len, BitVec.ofNat 16 c.stored, c.frame, c.sum, 0]

/-- The fifteen field words, offsets 02 to 1F, of an entry's image record (11.2). -/
def entryFields (e : Entry) : List Word :=
  [wordFrom (entryStateCode e.state) (drainCode e.drain),
   e.car.setWidth 16, wordFrom (e.car >>> 16).toNat e.miss,
   e.prevNode.setWidth 16, e.lastHeard,
   wordFrom e.grantWait e.quality,
   wordFrom (rateCode e.cls) (rateCode e.capability),
   wordFrom (rateCode e.cap) e.weight,
   wordOf (BitVec.ofInt 8 e.credit)
     (BitVec.ofNat 8 (bit e.context.isSome + 2 * bit e.ackBit + 4 * bit e.alarm)),
   wordFrom e.queues.stop.length e.queues.control.length, wordFrom e.queues.bulk.length 0,
   0, 0, 0, 0]

/-- What the node summary shows (R51). -/
structure Summary where
  node : NodeState
  substate : Substate
  silence : Silence
  frame : Word
  free : Nat
  joinsRefused : Nat
  guardedWrites : Nat
  eventsLost : Nat
  lateFragments : Nat
  faultedSlots : Nat
  accessGarbled : Nat
  deriving DecidableEq, Repr

/-- The countdown while PENDING, the frames remaining while ACTIVE, 0 in NONE (R18, 11.2). -/
def silenceDistance (sil : Silence) (f : Word) : Nat :=
  match sil with
  | .none => 0
  | .pending first _ => ahead f first
  | .active stop => ahead f stop

/-- The node state code of the summary, 2 RUNNING or 5 HALTING (11.2). -/
def nodeCode : NodeState → Nat
  | .running => 2
  | .halting => 5
  | .loading => 1
  | .passive => 0

/-- The fifteen field words of the node summary (11.2). -/
def summaryFields (u : Summary) : List Word :=
  [wordFrom (nodeCode u.node) (substateCode u.substate),
   wordFrom (silenceCode u.silence) 0, BitVec.ofNat 16 (silenceDistance u.silence u.frame),
   u.frame, wordFrom u.free 0, BitVec.ofNat 16 u.joinsRefused, BitVec.ofNat 16 u.guardedWrites,
   BitVec.ofNat 16 u.eventsLost, BitVec.ofNat 16 u.lateFragments, BitVec.ofNat 16 u.faultedSlots,
   BitVec.ofNat 16 u.accessGarbled, 0, 0, 0, 0]

end Sys2Proof.Machine
end

