-- ==== Sys2Proof/Machine/Ops.lean ====
section
/-!
DEFINITION. The named operations over memory, roster entries, message records and the announcement
queue that the blocks share.
-/

namespace Sys2Proof.Machine

/-! ### Memory (R160, R183) -/

/-- The byte at an address; an unlisted one reads as `Config.blankByte` (log 1). -/
def Mem.read : List Host.Cell → Nat → Byte
  | [], _ => Config.blankByte
  | (x, b) :: m, a => if x = a then b else Mem.read m a

/-- Store a byte, keeping the canonical form: addresses rise and no listed byte is the blank one. -/
def Mem.write : List Host.Cell → Nat → Byte → List Host.Cell
  | [], a, b => if b = Config.blankByte then [] else [(a, b)]
  | (x, c) :: m, a, b =>
    if a < x then (if b = Config.blankByte then (x, c) :: m else (a, b) :: (x, c) :: m)
    else if a = x then (if b = Config.blankByte then m else (a, b) :: m)
    else (x, c) :: Mem.write m a b

/-- The canonical form: addresses strictly rise, lie in the 16 MB space, and no entry is blank. -/
abbrev Mem.wf (m : List Host.Cell) : Prop :=
  m.Pairwise (fun x y => x.1 < y.1) ∧ ∀ c ∈ m, c.1 < 16777216 ∧ c.2 ≠ Config.blankByte

/-- The word that holds a byte address, low byte at the even address (00 Conventions). -/
def Mem.readWord (m : List Host.Cell) (a : Addr) : Word :=
  wordOf (Mem.read m (wordBase a).toNat) (Mem.read m ((wordBase a).toNat + 1))

/-- Store a word with both lanes at the even address (R160). -/
def Mem.writeWord (m : List Host.Cell) (a : Addr) (w : Word) : List Host.Cell :=
  Mem.write (Mem.write m (wordBase a).toNat (lowByte w)) ((wordBase a).toNat + 1) (highByte w)

/-- Store a byte with its own lane (R160). -/
def Mem.writeByte (m : List Host.Cell) (a : Addr) (b : Byte) : List Host.Cell := Mem.write m a.toNat b

/-- What a write turn does to memory (R160). -/
def Mem.store (m : List Host.Cell) (a : Addr) : TurnData → List Host.Cell
  | .word w => Mem.writeWord m a w
  | .byte b => Mem.writeByte m a b

/-! ### Values per message class -/

/-- The value of a class. -/
def PerClass.get {α : Type} (x : PerClass α) : MsgClass → α
  | .stop => x.stop
  | .control => x.control
  | .bulk => x.bulk

/-- The value of a class replaced. -/
def PerClass.put {α : Type} (x : PerClass α) (c : MsgClass) (v : α) : PerClass α :=
  match c with
  | .stop => { x with stop := v }
  | .control => { x with control := v }
  | .bulk => { x with bulk := v }

/-- The classes in the order STOP, CONTROL, BULK (R99, R124). -/
def classes : List MsgClass := [.stop, .control, .bulk]

/-- The short ids in ascending order. -/
def shortIds : List ShortId := List.finRange 48

/-- The places of the pool in ascending order. -/
def poolIds : List PoolId := List.finRange 96

/-- Short id 63: no car (00 Terms). -/
def noCarId : BitVec 6 := 63

/-- A short id as the air and the records carry it. -/
def sidBits (k : ShortId) : BitVec 6 := BitVec.ofNat 6 k.val

/-! ### Setup values (R172) -/

/-- The setup values while none has been loaded: the default weight reads 4 (R26, R172). DESIGN CHOICE (log 47): the
manual gives no other field a value then; each takes the least its range allows, and an address or an index 0. -/
def unloadedSetup : Setup where
  nodeId := 1
  pollPeriod := 1
  fadeAfter := 1
  loseAfter := 2
  retryLimit := 1
  dutyLimit := 12
  defaultWeight := 4
  urgent := { base := 0, size := 8 }
  general := { base := 0, size := 16 }
  uplink := { base := 0, size := 8 }
  event := { base := 0, size := 16 }
  bufferBase := 0
  bufferSize := 256
  uplinkStart := 0
  eventStart := 0
  guarded := 0

/-- The setup values in force. -/
def Part.setup (p : Part) : Setup := p.anchor.setup.getD unloadedSetup

/-- Where a downlink ring lies. -/
def Setup.downRing (u : Setup) : RingId → RingPlace
  | .urgent => u.urgent
  | .general => u.general

/-! ### Roster entries (2.1) -/

/-- An entry is live in GRANTED, ACTIVE and FADING (2.1). -/
def Entry.live (e : Entry) : Bool := e.state = .granted || e.state = .active || e.state = .fading

/-- An entry whose car takes down slots: ACTIVE or FADING (R68). -/
def Entry.onAir (e : Entry) : Bool := e.state = .active || e.state = .fading

/-- The records of a car's class queues in all (R93). -/
def Entry.queued (e : Entry) : Nat :=
  e.queues.stop.length + e.queues.control.length + e.queues.bulk.length

/-- A car's records in class order, head first (R99). -/
def Entry.queueIds (e : Entry) : List PoolId := e.queues.stop ++ e.queues.control ++ e.queues.bulk

/-- The fields of an entry that the image shows (2.10). -/
structure Shown where
  state : EntryState
  car : CarNumber
  prevNode : NodeId
  lastHeard : Word
  miss : Nat
  grantWait : Nat
  quality : Nat
  cls : RateClass
  capability : RateClass
  cap : RateClass
  weight : Nat
  credit : Int
  counts : PerClass Nat
  hasContext : Bool
  ackBit : Bool
  alarm : Bool
  drain : Option DrainReason
  deriving DecidableEq, Repr

/-- The shown fields of an entry. -/
def Entry.shown (e : Entry) : Shown where
  state := e.state
  car := e.car
  prevNode := e.prevNode
  lastHeard := e.lastHeard
  miss := e.miss
  grantWait := e.grantWait
  quality := e.quality
  cls := e.cls
  capability := e.capability
  cap := e.cap
  weight := e.weight
  credit := e.credit
  counts :=
    { stop := e.queues.stop.length, control := e.queues.control.length, bulk := e.queues.bulk.length }
  hasContext := e.context.isSome
  ackBit := e.ackBit
  alarm := e.alarm
  drain := e.drain

/-- A write to an entry marks it dirty when a shown field changes, and only then (R47). -/
def Entry.write (old new : Entry) : Entry :=
  if old.shown = new.shown then new else { new with dirty := true }

/-- The entry of a short id. -/
def Part.entry (p : Part) (k : ShortId) : Entry := p.roster.entries[k]

/-- An entry replaced as it is given. -/
def Part.setEntry (p : Part) (k : ShortId) (e : Entry) : Part :=
  { p with roster := { p.roster with entries := p.roster.entries.set k e } }

/-- An entry written by a block (R47). -/
def Part.editEntry (p : Part) (k : ShortId) (f : Entry → Entry) : Part :=
  p.setEntry k ((p.entry k).write (f (p.entry k)))

/-- The live entry that holds a car number (R27). -/
def Part.liveEntry (p : Part) (car : CarNumber) : Option ShortId :=
  shortIds.find? (fun k => (p.entry k).live && (p.entry k).car = car)

/-- The FREE entry with the lowest short id (R29). -/
def Part.freeEntry (p : Part) : Option ShortId := shortIds.find? (fun k => (p.entry k).state = .free)

/-! ### Message records (5.4) -/

/-- The record of a pool place, if one is in use. -/
def Part.record (p : Part) (i : PoolId) : Option MsgRecord := p.pool.records[i]

/-- A pool place given a record, or freed. -/
def Part.setRecord (p : Part) (i : PoolId) (r : Option MsgRecord) : Part :=
  { p with pool := { p.pool with records := p.pool.records.set i r } }

/-- A record in use changed. -/
def Part.editRecord (p : Part) (i : PoolId) (f : MsgRecord → MsgRecord) : Part :=
  p.setRecord i ((p.record i).map f)

/-- The number of free records (R93). -/
def Part.freeRecords (p : Part) : Nat := poolIds.countP (fun i => (p.record i).isNone)

/-- The lowest free place of the pool (log 22). -/
def Part.freePlace (p : Part) : Option PoolId := poolIds.find? (fun i => (p.record i).isNone)

/-- The CURRENT record of a car's class queue (R95). -/
def Part.current (p : Part) (k : ShortId) (c : MsgClass) : Option (PoolId × MsgRecord) :=
  match ((p.entry k).queues.get c).head? with
  | none => none
  | some i =>
    match p.record i with
    | some r => if r.state = .current then some (i, r) else none
    | none => none

/-! ### Announcement queue (2.4) -/

/-- Append an announcement unless the same one is already waiting (R32). -/
def announce (q : List Announcement) (a : Announcement) : List Announcement :=
  if q.contains a then q else q ++ [a]

/-- Whether an outcome that would append `a` finds the place it needs (R28). -/
def canAnnounce (q : List Announcement) (a : Announcement) : Bool :=
  q.contains a || q.length < Config.annPlaces

end Sys2Proof.Machine
end

