-- ==== Sys2Proof/Machine/Flags.lean ====
section
/-!
DEFINITION. The flags the node controller is called by: event levels, the taking of submitted events,
and the ATTN output (chapter 10).
-/

namespace Sys2Proof.Machine

/-- The level of an event kind (10.1). -/
def kindLevel : EventKind → Nat
  | .carJoined => 2
  | .joinRefused => 3
  | .joinAbandoned => 1
  | .carLeft => 2
  | .carLost => 5
  | .carAlarm => 7
  | .stopDelivered => 4
  | .stopFailed => 7
  | .messageFailed => 3
  | .uplinkReady => 1
  | .silenceBegun => 2
  | .silenceEnded => 2
  | .radioFault => 6
  | .radioRestored => 3
  | .guardWrite => 2
  | .eventsLost => 4

/-- An event record of a kind, at the kind's level (10.1). -/
def eventOf (kind : EventKind) (sid : BitVec 6) (car : CarNumber) (frame data1 data2 : Word) : EventRecord where
  kind := kind
  level := kindLevel kind
  sid := sid
  car := car
  frame := frame
  data1 := data1
  data2 := data2

/-- An event that concerns no roster entry: short id 63 and car number 0 (10.1). -/
def nodeEvent (kind : EventKind) (frame data1 data2 : Word) : EventRecord :=
  eventOf kind noCarId 0 frame data1 data2

/-- The ring is full (R176). -/
def EventWriter.full (v : EventWriter) (size : Nat) : Bool := ahead v.consumer v.fill = size

/-- A record accepted into place `fill` (R177). -/
def EventWriter.accept (v : EventWriter) (r : EventRecord) : EventWriter :=
  { v with fill := v.fill + 1, held := v.held ++ [(r.kind, r.level)], writes := v.writes ++ [r] }

/-- GUARD_WRITE and UPLINK_READY are coalesced with a held record of the same kind (R177). -/
def EventWriter.coalesces (v : EventWriter) (k : EventKind) : Bool :=
  (k = .guardWrite || k = .uplinkReady) && v.held.any (fun h => h.1 = k)

/-- An event lost to a full ring (R177). -/
def EventWriter.lose (v : EventWriter) (k : EventKind) : EventWriter :=
  { v with
    lostKind := if v.lostCount = 0 then some k else v.lostKind
    lostCount := satInc v.lostCount
    eventsLost := satInc v.eventsLost }

/-- A submission as taken while RUNNING: coalesced, lost or accepted (R177). -/
def EventWriter.take (v : EventWriter) (size : Nat) (r : EventRecord) : EventWriter :=
  if v.coalesces r.kind then v
  else if v.full size then v.lose r.kind
  else v.accept r

/-- A submission. In HALTING only a boundary submission is taken; in PASSIVE and LOADING none (R177). -/
def Part.submit (p : Part) (boundary : Bool) (r : EventRecord) : Part :=
  if p.anchor.node = .running ∨ (p.anchor.node = .halting ∧ boundary = true) then
    { p with ev := p.ev.take p.setup.event.size r }
  else p

/-- The unconsumed records: those from consumer up to producer (R176). -/
def EventWriter.unconsumed (v : EventWriter) : List (EventKind × Nat) :=
  v.held.take (ahead v.consumer v.producer)

/-- An unconsumed event lies above the level word (R181). -/
def EventWriter.calls (v : EventWriter) : Bool := v.unconsumed.any (fun h => v.level < h.2)

/-- What ATTN is to be (R181): the node is RUNNING or HALTING and an unconsumed event calls. -/
def Part.attnDue (p : Part) : Bool :=
  (p.anchor.node = .running || p.anchor.node = .halting) && p.ev.calls

/-- ATTN judged again (R181). -/
def Part.judgeAttn (p : Part) : Part := { p with ev := { p.ev with attn := p.attnDue } }

/-- The node state changed, with ATTN judged again (R181). -/
def Part.setNode (p : Part) (n : NodeState) : Part :=
  Part.judgeAttn { p with anchor := { p.anchor with node := n } }

/-- A consumer value offered (R179): accepted when its distance from consumer is 1 or more and at most
that of producer. On acceptance the records passed leave the held list, and a lost count above 0 puts an
EVENTS_LOST record into the place just freed. -/
def EventWriter.consume (v : EventWriter) (frame c : Word) : EventWriter :=
  let n := ahead v.consumer c
  if 1 ≤ n ∧ n ≤ ahead v.consumer v.producer then
    let w := { v with consumer := c, held := v.held.drop n }
    if 0 < w.lostCount then
      { w.accept (nodeEvent .eventsLost frame (BitVec.ofNat 16 w.lostCount)
          (BitVec.ofNat 16 ((w.lostKind.map kindCode).getD 0))) with lostCount := 0, lostKind := none }
    else w
  else v

/-- An event consumer write taken by the Event Writer, ATTN judged again (R179, R181). -/
def Part.eventConsume (p : Part) (c : Word) : Part :=
  Part.judgeAttn { p with ev := p.ev.consume p.timer.frame c }

/-- A level word write taken by the Event Writer: clamped to 7, ATTN judged again (R180). -/
def Part.setLevel (p : Part) (w : Word) : Part :=
  Part.judgeAttn { p with ev := { p.ev with level := min w.toNat 7 } }

end Sys2Proof.Machine
end

