-- ==== Sys2Proof/Machine/Transmit.lean ====
section
/-!
DEFINITION. The Transmit Assembler (chapter 6): the fetch queue, staging, fetching word by word, the
message sum, bursts, late data and settlement.
-/

namespace Sys2Proof.Machine

/-! ### Fetch queue and staging (R109) -/

/-- Bytes of staging in use (R109). -/
def Transmit.used (t : Transmit) : Nat := (t.staging.map Staged.size).sum

/-- The bytes a fragment takes in staging: H plus its data length (R109). -/
def FragEntry.space (e : FragEntry) : Nat := e.hdr + e.len

/-- The fragment entry of a slot. -/
def Transmit.entryAt (t : Transmit) (slot : Nat) : Option FragEntry := t.queue.find? (fun e => e.slot = slot)

/-- The entry whose fetch is under way. -/
def Transmit.fetching (t : Transmit) : Option FragEntry := t.queue.find? (fun e => e.cond = .fetching)

/-- The fetch position: the first entry that is WAITING or FETCHING (R109). -/
def Transmit.position (t : Transmit) : Option FragEntry :=
  t.queue.find? (fun e => e.cond = .waiting || e.cond = .fetching)

/-- Change the entry of a slot. -/
def Transmit.editSlot (t : Transmit) (slot : Nat) (f : FragEntry → FragEntry) : Transmit :=
  { t with queue := t.queue.map (fun e => if e.slot = slot then f e else e) }

/-- Change the staged fragment of a slot. -/
def Transmit.editStaged (t : Transmit) (slot : Nat) (f : Staged → Staged) : Transmit :=
  { t with staging := t.staging.map (fun g => if g.slot = slot then f g else g) }

/-- Remove the staged fragments of some slots, freeing their space. -/
def Transmit.unstage (t : Transmit) (slots : List Nat) : Transmit :=
  { t with staging := t.staging.filter (fun g => !slots.contains g.slot) }

/-- The staged fragment opened for an entry (R112): a message whose pieces come from a gather table has the table
to be read again first (R88). -/
def FragEntry.opened (e : FragEntry) : Staged where
  slot := e.slot
  size := e.space
  reread := e.table.map (fun t => { table := t, pieces := [], words := [] })
  bytes := []
  burst := none

/-- Start of a fetch (R112): the entry at the fetch position is WAITING and staging has its whole space
free. The space is taken, the entry becomes FETCHING and a staged fragment is opened. -/
def Transmit.startFetch (t : Transmit) : Transmit :=
  match t.position with
  | none => t
  | some e =>
    if e.cond = .waiting ∧ t.used + e.space ≤ Config.stagingBytes then
      { t.editSlot e.slot (fun x => { x with cond := .fetching }) with
        staging := t.staging ++ [e.opened] }
    else t

/-- A fetch abandoned (R120): a pending request is withdrawn (log 23), and a turn already begun completes
and is dropped. -/
def Arbiter.dropFetch (a : Arbiter) : Arbiter :=
  { a with
    transmit := none
    turn := a.turn.map (fun t => if t.kind = .fetch then { t with abandoned := true } else t) }

/-! ### Fetching (R113, R114, R116) -/

/-- The address of a gathered byte and how many bytes of its piece lie from it on; none when the byte lies beyond
the pieces (R113). -/
def locate : List Piece → Nat → Option (Addr × Nat)
  | [], _ => none
  | q :: qs, g => if g < q.len then some (q.addr + BitVec.ofNat 24 g, q.len - g) else locate qs (g - q.len)

/-- A piece list as the free values see it. -/
def runs (ps : List Piece) : List (Addr × Nat) := ps.map (fun q => (q.addr, q.len))

/-- The gathered byte that stands at position `i` of a fragment: the prototype first, then the data from
the start offset (R113). -/
def FragEntry.gathered (e : FragEntry) (i : Nat) : Nat := if i < e.hdr then i else e.offset + i

/-- The next fetch turn of a fragment of which `i` bytes are staged: its address, and whether it takes both
bytes of the word (R113). Beyond the pieces the address is a free value (log 43). -/
def FragEntry.nextFetch (e : FragEntry) (pieces : List Piece) (i : Nat) : Addr × Bool :=
  match locate pieces (e.gathered i) with
  | none => (Config.strayAddr (runs pieces) (e.gathered i), false)
  | some (a, left) => (a, !a.getLsbD 0 && 2 ≤ left && i + 1 < e.space && e.gathered (i + 1) = e.gathered i + 1)

/-- The bytes a fetch turn takes of the word it read (R113). -/
def fetchedBytes (a : Addr) (both : Bool) (w : Word) : List Byte :=
  if both then [lowByte w, highByte w] else if a.getLsbD 0 then [highByte w] else [lowByte w]

/-- The bytes that the word of the next fetch turn brings into staging (R113); beyond the pieces one free value
(log 43). -/
def FragEntry.taken (e : FragEntry) (pieces : List Piece) (i : Nat) (w : Word) : List Byte :=
  match locate pieces (e.gathered i) with
  | none => [Config.strayByte (runs pieces) (e.gathered i) w]
  | some _ => fetchedBytes (e.nextFetch pieces i).1 (e.nextFetch pieces i).2 w

/-- A data byte at offset `y` taken into staging: at the watermark it raises the watermark, and from
sum_start on it is added into the running sum (R116). -/
def MsgRecord.takeByte (r : MsgRecord) (y : Nat) (b : Byte) : MsgRecord :=
  if y = r.watermark then
    { r with
      watermark := y + 1
      sum :=
        match r.sumStart with
        | some z => if z ≤ y then sumByte r.sum (y - z) b else r.sum
        | none => r.sum }
  else r

/-- Bytes from position `i` of a fragment taken into staging; the prototype bytes are not summed (R116). -/
def MsgRecord.takeBytes (e : FragEntry) : MsgRecord → Nat → List Byte → MsgRecord
  | r, _, [] => r
  | r, i, b :: bs =>
    MsgRecord.takeBytes e (if i < e.hdr then r else r.takeByte (e.offset + (i - e.hdr)) b) (i + 1) bs

/-- The stamp written into the staged prototype copy, its more significant byte first (R114). -/
def stampBytes (bs : List Byte) (stamp : Option Nat) (frame : Word) : List Byte :=
  match stamp with
  | none => bs
  | some s => (bs.set s (highByte frame)).set (s + 1) (lowByte frame)

/-- A word of a gather table that a fetch reads again (R88, log 43): each fourth word completes an entry. -/
def TableRead.next (x : TableRead) (w : Word) : TableRead :=
  if x.words.length < 3 then { x with words := x.words ++ [w] }
  else { x with pieces := x.pieces ++ [parseGatherEntry (x.words ++ [w])], words := [] }

/-- A word of the gather table of the fragment in hand (R88): with its last entry the pieces of the record are those
the table now holds, and the bytes are fetched next. -/
def Part.takeTableWord (p : Part) (e : FragEntry) (x : TableRead) (w : Word) : Part :=
  let y := x.next w
  if y.pieces.length < x.table.count then
    { p with tx := p.tx.editStaged e.slot (fun g => { g with reread := some y }) }
  else
    { p.editRecord e.record (fun r => { r with pieces := y.pieces }) with
      tx := p.tx.editStaged e.slot (fun g => { g with reread := none }) }

/-- Fetched bytes taken in (R112–R118): they go into staging and count into the record, the prototype copy is
stamped when it is complete, and after the last byte the entry becomes READY with its burst. -/
def Part.takeFetchedBytes (p : Part) (e : FragEntry) (g : Staged) (r : MsgRecord) (w : Word) : Part :=
  let i := g.bytes.length
  let got := e.taken r.pieces i w
  let r' := MsgRecord.takeBytes e r i got
  let joined := g.bytes ++ got
  let bytes :=
    if i < e.hdr ∧ e.hdr ≤ joined.length then stampBytes joined e.stamp p.planner.plan.frame else joined
  let complete := e.space ≤ bytes.length
  let burst :=
    if complete then some (wholeBurst e bytes (if e.sumPresent then ~~~r'.sum else 0)) else none
  let t := p.tx.editStaged e.slot (fun x => { x with bytes := bytes, burst := burst })
  let t := if complete then t.editSlot e.slot (fun x => { x with cond := .ready }) else t
  { p.editRecord e.record (fun _ => r') with tx := t }

/-- A completed fetch turn: a word of the gather table read again (R88), or the fragment's next bytes
(R112–R118). -/
def Part.takeFetched (p : Part) (w : Word) : Part :=
  match p.tx.fetching with
  | none => p
  | some e =>
    match p.tx.staging.find? (fun g => g.slot = e.slot), p.record e.record with
    | some g, some r =>
      match g.reread with
      | some x => p.takeTableWord e x w
      | none => p.takeFetchedBytes e g r w
    | _, _ => p

/-! ### Records that leave CURRENT (R121) -/

/-- The fragment entries of a record that has left CURRENT become EMPTY and free their staging; a fetch of
theirs is abandoned (R121). -/
def Part.dropFragments (p : Part) (i : PoolId) : Part :=
  let mine := p.tx.queue.filter (fun e => e.record = i && e.live && e.cond ≠ .done)
  let fetch := mine.any (fun e => e.cond = .fetching)
  let queue := p.tx.queue.map (fun e =>
    if e.record = i ∧ e.live = true then
      { e with live := false, cond := if e.cond = .done then .done else .empty }
    else e)
  { p with
    tx := { p.tx with queue := queue }.unstage (mine.map FragEntry.slot)
    arb := if fetch then p.arb.dropFetch else p.arb }

/-! ### Sending and settlement (R119, R120, R122) -/

/-- A fragment found late at the beginning of its slot (R120): counted once for its record, its record's
staging removed, its later entries EMPTY, its fetch abandoned. -/
def Part.lateFragment (p : Part) (e : FragEntry) : Part :=
  let mine := p.tx.queue.filter (fun x => x.record = e.record && x.live)
  let fetch := mine.any (fun x => x.cond = .fetching)
  let queue := p.tx.queue.map (fun x =>
    if x.slot = e.slot then { x with cond := .done }
    else if x.record = e.record ∧ x.live = true ∧ e.slot < x.slot then { x with cond := .empty }
    else x)
  let seen := p.tx.late.contains e.record
  { p with
    tx := { p.tx with
            queue := queue
            late := if seen then p.tx.late else p.tx.late ++ [e.record]
            lateFragments := if seen then p.tx.lateFragments else satInc p.tx.lateFragments }.unstage
              (mine.map FragEntry.slot)
    arb := if fetch then p.arb.dropFetch else p.arb }

/-- The order of a DOWN slot that R4 gives one (R119): the completed burst of a READY entry, an empty burst
of an EMPTY or late one. -/
def Part.beginDown (p : Part) (slot : Nat) : Part :=
  match p.tx.entryAt slot with
  | none => p
  | some e =>
    let give := fun (q : Part) (bs : List Byte) =>
      { q with port := { order := some (.send e.rate bs), answer := none } }
    match e.cond with
    | .ready =>
      let burst := (p.tx.staging.find? (fun g => g.slot = slot)).bind Staged.burst
      give { p with tx := p.tx.editSlot slot (fun x => { x with cond := .done, whole := true }) }
        (burst.getD (emptyBurst e))
    | .empty => give { p with tx := p.tx.editSlot slot (fun x => { x with cond := .done }) } (emptyBurst e)
    | .done => give p (emptyBurst e)
    | .waiting => give (p.lateFragment e) (emptyBurst e)
    | .fetching => give (p.lateFragment e) (emptyBurst e)

/-- sent_to after a fragment with data was SENT (R122). -/
def sentAfter (sentTo offset len : Nat) : Nat :=
  if offset ≤ sentTo then max sentTo (offset + len) else sentTo

/-- A DOWN slot settled or withheld (R122): its staging is freed and its entry DONE. SENT with data moves
sent_to of a record that has stayed CURRENT; anything else changes no record. A fetch still under way for
a slot that passes as withheld is abandoned, its staging being gone (log 23). -/
def Part.settleDown (p : Part) (slot : Nat) (sent : Bool) : Part :=
  match p.tx.entryAt slot with
  | none => p
  | some e =>
    let p' :=
      { p with
        tx := (p.tx.editSlot slot (fun x => { x with cond := .done })).unstage [slot]
        arb := if e.cond = .fetching then p.arb.dropFetch else p.arb }
    if sent && e.whole && e.live then
      p'.editRecord e.record (fun r => { r with sentTo := sentAfter r.sentTo e.offset e.len })
    else p'

/-! ### The hand-off of a plan (R110, R111, R123) -/

/-- The DOWN slot entries of a plan with their slot numbers, in slot order (R82). -/
def planDowns (slots : List SlotUse) : List (Nat × DownGrant) :=
  (List.range slots.length).filterMap (fun i =>
    match slots.getD i .idle with
    | .down g => some (i + 4, g)
    | _ => none)

/-- The fragment entry of one DOWN slot entry; its record takes the car's next seq if it has none (R110). -/
def Part.queueFragment (p : Part) (slot : Nat) (g : DownGrant) : Part :=
  match p.record g.record with
  | none => p
  | some r =>
    let fresh := (p.entry g.sid).nextSeq.get g.cls
    let seq := r.seq.getD fresh
    let p := if r.seq.isSome then p else
      (p.editRecord g.record (fun r => { r with seq := some fresh })).setEntry g.sid
        { p.entry g.sid with nextSeq := (p.entry g.sid).nextSeq.put g.cls (fresh + 1) }
    let last := g.offset + g.len = r.len
    let e : FragEntry :=
      { slot := slot, sid := g.sid, record := g.record, cls := g.cls, rate := g.rate, seq := seq
        offset := g.offset, len := g.len, hdr := r.hdr, stamp := r.stamp, table := r.table, last := last
        sumPresent := last && r.sumStart.isSome, cond := .waiting, live := true, whole := false }
    { p with tx := { p.tx with queue := p.tx.queue ++ [e] } }

/-- The answer list of a car from the fetch queue: the records granted to it, each once (R111). -/
def answerList (queue : List FragEntry) (frame : Word) (k : ShortId) : Option AnswerList :=
  let mine := (queue.filter (fun e => e.sid = k)).map (fun e => (e.record, e.seq))
  if mine.isEmpty then none else some { sid := k, frame := frame, records := mine.dedup }

/-- The hand-off of the plan (R110, R111, R123): what remains of the old frame's fetches is dropped, the
new fetch queue is built, and an answer list is made for each car with a DOWN slot. -/
def Part.handOff (p : Part) : Part :=
  let p := { p with tx := { p.tx with queue := [], staging := [], late := [] }, arb := p.arb.dropFetch }
  let p := (planDowns p.planner.plan.slots).foldl (fun q x => q.queueFragment x.1 x.2) p
  { p with
    pool := { p.pool with
      answers := p.pool.answers ++ shortIds.filterMap (answerList p.tx.queue p.planner.plan.frame) } }

/-- The Transmit Assembler emptied at a HALT, its counter kept (R132). -/
def Part.haltTransmit (p : Part) : Part :=
  { p with tx := { p.tx with queue := [], staging := [], late := [] }, arb := p.arb.dropFetch }

end Sys2Proof.Machine
end

