-- ==== Sys2Proof/Machine/Pool.lean ====
section
/-!
DEFINITION. The Message Pool (5.4–5.7, 6.7, 6.8): joining and leaving class queues, retirement, ageing,
answers and the restart on rejoin.
-/

namespace Sys2Proof.Machine

/-! ### Class queues and retirement (R95, R99) -/

/-- The record at the head of a class queue becomes CURRENT (R95). -/
def Part.promote (p : Part) (k : ShortId) (c : MsgClass) : Part :=
  match ((p.entry k).queues.get c).head? with
  | none => p
  | some i => p.editRecord i (fun r => if r.state = .queued then { r with state := .current } else r)

/-- The heads of a car's three class queues become CURRENT (R95). -/
def Part.promoteAll (p : Part) (k : ShortId) : Part := classes.foldl (fun q c => q.promote k c) p

/-- One record reaches RETIRING (R99): it leaves its class queue, its final status is recorded, it is
appended to the write-back list, and its fragments are dropped (R121). A record already RETIRING keeps the
status it holds. -/
def Part.retireOne (st : Status) (p : Part) (i : PoolId) : Part :=
  match p.record i with
  | none => p
  | some r =>
    if r.state = .retiring then p
    else
      let p := p.setRecord i (some { r with state := .retiring, outcome := some st })
      let p := p.editEntry r.sid (fun e => { e with queues := e.queues.put r.cls ((e.queues.get r.cls).erase i) })
      let p := { p with adm := { p.adm with writeBacks := p.adm.writeBacks ++ [WriteBack.record i] } }
      p.dropFragments i

/-- Records retired as one change, in the given order (R99): no record becomes CURRENT on the way; the new
heads of their cars' queues do so at the end (R95, R97). -/
def Part.retireAll (p : Part) (st : Status) (ids : List PoolId) : Part :=
  let cars := ids.filterMap (fun i => (p.record i).map MsgRecord.sid)
  cars.foldl Part.promoteAll (ids.foldl (Part.retireOne st) p)

/-- A handed record joins the tail of its class queue, CURRENT when the queue was empty and QUEUED otherwise (R95).
A record whose car's entry is DRAINING is retired on joining with the drain reason (R42, R106). -/
def Part.joinQueue (p : Part) (i : PoolId) : Part :=
  match p.record i with
  | none => p
  | some r =>
    let e := p.entry r.sid
    match e.state, e.drain with
    | .draining, some why => p.retireAll (drainStatus why) [i]
    | _, _ =>
      let q := e.queues.get r.cls
      let p := p.editEntry r.sid (fun e => { e with queues := e.queues.put r.cls (q ++ [i]) })
      p.editRecord i (fun r => { r with state := if q.isEmpty then .current else .queued })

/-- The handed records join their class queues in order of admission (R95). -/
def Part.joinHanded (p : Part) : Part :=
  p.pool.handed.foldl Part.joinQueue { p with pool := { p.pool with handed := [], waited := false } }

/-- The pool at the end of a command (R95, log 21): the handed records join, or, as the free value `n` says, wait over
one command more, in which a drain may come between. -/
def Part.takeHandoffs (p : Part) (n : Nat) : Part :=
  if p.pool.handed = [] then p
  else if p.pool.waited = false ∧ Config.joinWaits n = true then { p with pool := { p.pool with waited := true } }
  else p.joinHanded

/-! ### Ageing (R103) -/

/-- The age of a QUEUED or CURRENT record raised by one, saturating (R103). -/
def MsgRecord.aged (r : MsgRecord) : MsgRecord :=
  if r.state = .queued ∨ r.state = .current then { r with age := satInc r.age } else r

/-- A record whose lifetime is not 0 and whose age has reached it (R103). -/
def MsgRecord.expired (r : MsgRecord) : Bool :=
  (r.state = .queued || r.state = .current) && r.lifetime ≠ 0 && r.lifetime ≤ r.age

/-- The ageing of a frame start, with the records expired by it (R103). A record handed over before the frame start
joins its queue first, so that it is one frame old at the first frame start after its admission (log 21). -/
def Part.ageRecords (p : Part) : Part :=
  let p := p.joinHanded
  let p := poolIds.foldl (fun q i => q.editRecord i MsgRecord.aged) p
  let expired := (shortIds.flatMap (fun k => (p.entry k).queueIds)).filter
    (fun i => ((p.record i).map MsgRecord.expired).getD false)
  p.retireAll .expired expired

/-! ### PURGE (R97) -/

/-- The records of a car that a PURGE selects, in class order (R97). -/
def Entry.selected (e : Entry) : Option MsgClass → List PoolId
  | none => e.queueIds
  | some c => e.queues.get c

/-- A PURGE (R97): of one car, or of every live car in ascending short id for car number 0. -/
def Part.purge (p : Part) (car : CarNumber) (sel : Option MsgClass) : Part × Status :=
  if car = 0 then
    let ids := (shortIds.filter (fun k => (p.entry k).live)).flatMap (fun k => (p.entry k).selected sel)
    (p.retireAll .purged ids, .ok)
  else
    match p.liveEntry car with
    | none => (p, .noCar)
    | some k => (p.retireAll .purged ((p.entry k).selected sel), .ok)

/-! ### Answers (R124–R129) -/

/-- The answer of an up slot as the pool takes it (R124). -/
inductive PoolAnswer
  | valid (acks : List AckEntry)
  | missed
  | withheld
  deriving DecidableEq, Repr

/-- The ack selected for a CURRENT record (R124): the entries of its class and seq, each clamped to L and
to the watermark, and of them the highest. -/
def selectAck (acks : List AckEntry) (r : MsgRecord) : Option Nat :=
  ((acks.filter (fun a => a.cls = some r.cls && some a.seq = r.seq)).map
    (fun a => min (min a.offset r.len) r.watermark)).max?

/-- What an answer does to a record, apart from retiring it (R125–R127). -/
inductive AnswerEffect
  | complete
  | moved (r : MsgRecord)
  | wentBack (r : MsgRecord)
  | unchanged
  deriving DecidableEq, Repr

/-- A valid answer to a record named in the answer list (R125). -/
def answerNamed (r : MsgRecord) (sel : Option Nat) : AnswerEffect :=
  let a := sel.getD r.acked
  if a = r.len then .complete
  else if r.acked < a then .moved { r with acked := a, sentTo := a, attempts := 0 }
  else if r.acked < r.sentTo then .wentBack { r with sentTo := r.acked, attempts := r.attempts + 1 }
  else .unchanged

/-- A missed or withheld answer to a record named in the answer list (R126). -/
def answerAbsent (r : MsgRecord) (withheld : Bool) : AnswerEffect :=
  if withheld then .moved { r with sentTo := r.acked }
  else .wentBack { r with sentTo := r.acked, attempts := r.attempts + 1 }

/-- A valid answer to a record outside the answer list acts only forward (R127). -/
def answerOutside (r : MsgRecord) : Option Nat → AnswerEffect
  | none => .unchanged
  | some a =>
    if a = r.len then .complete
    else if r.acked < a then .moved { r with acked := a, sentTo := max r.sentTo a, attempts := 0 }
    else .unchanged

/-- The effect of an answer on a CURRENT record (R124–R127). -/
def answerEffect (ans : PoolAnswer) (named : Bool) (r : MsgRecord) : AnswerEffect :=
  match ans with
  | .valid acks =>
    let sel := if r.seq.isSome then selectAck acks r else none
    if named then answerNamed r sel else answerOutside r sel
  | .missed => if named then answerAbsent r false else .unchanged
  | .withheld => if named then answerAbsent r true else .unchanged

/-- A record completed (R128): retired OK; a STOP submits STOP_DELIVERED with the record's first index and
its age. -/
def Part.completeRecord (p : Part) (i : PoolId) (r : MsgRecord) (frame : Word) : Part :=
  let car := (p.entry r.sid).car
  let p := p.retireAll .ok [i]
  if r.cls = .stop then
    p.submit true (eventOf .stopDelivered (sidBits r.sid) car frame r.first (BitVec.ofNat 16 r.age))
  else p

/-- A record that went back, against the retry limit (R129): at the limit it retires FAILED and submits
STOP_FAILED or MESSAGE_FAILED with its first index and acked_to. -/
def Part.tryRetry (p : Part) (i : PoolId) (r : MsgRecord) (frame : Word) : Part :=
  let p := p.setRecord i (some r)
  if p.setup.retryLimit ≤ r.attempts then
    let car := (p.entry r.sid).car
    let kind := if r.cls = .stop then EventKind.stopFailed else EventKind.messageFailed
    (p.retireAll .failed [i]).submit true
      (eventOf kind (sidBits r.sid) car frame r.first (BitVec.ofNat 16 r.acked))
  else p

/-- The answer applied to the CURRENT record of one class (R124). A record is named when the answer list
holds it with the seq it still has. -/
def Part.answerClass (ans : PoolAnswer) (list : Option AnswerList) (k : ShortId) (frame : Word) (p : Part)
    (c : MsgClass) : Part :=
  match p.current k c with
  | none => p
  | some (i, r) =>
    let named := match list, r.seq with
      | some l, some s => l.records.contains (i, s)
      | _, _ => false
    match answerEffect ans named r with
    | .complete => p.completeRecord i r frame
    | .moved r' => p.setRecord i (some r')
    | .wentBack r' => p.tryRetry i r' frame
    | .unchanged => p

/-- An answer for a car and a frame (R124): applied class by class in the order STOP, CONTROL, BULK to the
CURRENT record of each; the answer list of that frame is then removed (R111). -/
def Part.answer (p : Part) (k : ShortId) (frame : Word) (ans : PoolAnswer) : Part :=
  let list := p.pool.answers.find? (fun l => l.sid = k && l.frame = frame)
  let p := classes.foldl (Part.answerClass ans list k frame) p
  { p with
    pool := { p.pool with answers := p.pool.answers.filter (fun l => !(l.sid = k && l.frame = frame)) } }

/-! ### Rejoin (R131) -/

/-- A CURRENT record restarted: its offsets go to 0 and its seq is absent; watermark, running sum and
attempts are kept (R131). -/
def MsgRecord.restarted (r : MsgRecord) : MsgRecord := { r with acked := 0, sentTo := 0, seq := none }

/-- Each CURRENT record of a rejoined car restarts, and its fragments are dropped (R131, R121). -/
def Part.restartCar (p : Part) (k : ShortId) : Part :=
  classes.foldl (fun q c =>
    match q.current k c with
    | none => q
    | some (i, r) => (q.setRecord i (some r.restarted)).dropFragments i) p

end Sys2Proof.Machine
end

