-- ==== Sys2Proof/Machine/Uplink.lean ====
section
/-!
DEFINITION. The Uplink Assembler (chapter 7): claims, the judgment of fragments, deposits, entry writes,
the head and the consumer word.
-/

namespace Sys2Proof.Machine

/-! ### Claims and owed entry writes (R147, R148, R151) -/

/-- Whether a staging place holds bytes bound for a ring index (R147). -/
def Uplink.bound (u : Uplink) (i : Word) : Bool := u.staging.any (fun g => g.index = i)

/-- Change the claim record of a ring index. -/
def Uplink.editClaim (u : Uplink) (i : Word) (f : Claim → Claim) : Uplink :=
  { u with claims := u.claims.map (fun c => if c.index = i then f c else c) }

/-- The message of a claim has ended and its entry write is not yet made (R148). -/
def Claim.ended (c : Claim) : Bool := c.state = .decided || c.state = .aborted

/-- The entry write of an ended claim joins the entry-write list once no place holds bytes bound for it
(R147). -/
def Uplink.oweEntry (u : Uplink) (i : Word) : Uplink :=
  if u.claims.any (fun c => c.index = i && c.ended) && !u.bound i && !u.entryWrites.contains i then
    { u with entryWrites := u.entryWrites ++ [i] }
  else u

/-- The leading WRITTEN claims removed, head moved past each (R151). -/
def Uplink.passHead (u : Uplink) : Uplink :=
  let n := (u.claims.takeWhile (fun c => c.state = .written)).length
  if n = 0 then u
  else { u with claims := u.claims.drop n, head := u.head + BitVec.ofNat 16 n, headOwed := true }

/-- A claim of the car whose entry write is not complete (R148, R44). -/
def Part.hasClaim (p : Part) (k : ShortId) : Bool :=
  p.uplink.claims.any (fun c => c.sid = k && c.state ≠ .written)

/-- A free ring entry (R140). -/
def Part.uplinkRoom (p : Part) : Bool := ahead p.uplink.consumer p.uplink.producer < p.setup.uplink.size

/-! ### Aborted deliveries (R150) -/

/-- The claim record of an aborted message (R150). -/
def Claim.abort (x : UplinkContext) (size : Nat) (frame : Word) (c : Claim) : Claim :=
  { c with
    state := .aborted, status := some .aborted, len := x.expected, stored := min x.expected size
    sum := x.sum, frame := frame }

/-- A present context is delivered ABORTED and removed; an absent one leaves the ring alone (R150). -/
def Part.abortUplink (p : Part) (k : ShortId) (frame : Word) : Part :=
  match (p.entry k).context with
  | none => p
  | some x =>
    let p := p.editEntry k (fun e => { e with context := none })
    { p with
      uplink := (p.uplink.editClaim x.index (Claim.abort x p.setup.bufferSize frame)).oweEntry x.index }

/-- The finished mark of a car set or removed (R134). -/
def Part.setFinished (p : Part) (k : ShortId) (m : Option FinishedMark) : Part :=
  { p with uplink := { p.uplink with finished := p.uplink.finished.set k m } }

/-! ### The judgment of a fragment (R139–R145) -/

/-- The sorts of a fragment (R139). -/
inductive FragmentSort
  | inOrder | duplicate | newMessage | rejected
  deriving DecidableEq, Repr

/-- The sort of a fragment from a live owner (R139). -/
def sortFragment (ctx : Option UplinkContext) (mark : Option FinishedMark) (f : UpFragment) : FragmentSort :=
  if f.len = 0 ∨ 16383 < f.offset + f.len then .rejected
  else
    match ctx with
    | some x =>
      if f.seq = x.seq then
        if x.expected < f.offset then .rejected
        else if f.offset + f.len ≤ x.expected then .duplicate
        else .inOrder
      else if f.offset = 0 then .newMessage
      else .rejected
    | none =>
      if mark.any (fun m => m.seq = f.seq) then
        if mark.any (fun m => f.offset + f.len ≤ m.len) then .duplicate else .rejected
      else if f.offset = 0 then .newMessage
      else .rejected

/-- The status of a complete message (R145). -/
def messageStatus (f : UpFragment) (sum : Word) (truncated : Bool) : UplinkStatus :=
  if f.sumPresent ∧ f.trailer ≠ ~~~sum then .sumBad
  else if truncated then .truncated
  else .ok

/-- A complete message decided (R145). -/
def Part.decideMessage (p : Part) (k : ShortId) (x : UplinkContext) (f : UpFragment) (frame : Word) : Part :=
  let p := p.editEntry k (fun e => { e with context := none })
  let p := p.setFinished k (some { seq := x.seq, len := x.expected })
  let decide := fun (c : Claim) =>
    { c with
      state := .decided, status := some (messageStatus f x.sum x.truncated), len := x.expected
      stored := min x.expected p.setup.bufferSize, sum := x.sum, frame := frame }
  { p with uplink := (p.uplink.editClaim x.index decide).oweEntry x.index }

/-- A fragment that brings new bytes (R141, R144): its new bytes below B go into a staging place, all of
them are summed, and a last fragment decides the message. None when no place is free for them. -/
def Part.takeFragment (p : Part) (k : ShortId) (x : UplinkContext) (f : UpFragment) (frame : Word) :
    Option Part :=
  let fresh := f.data.drop (x.expected - f.offset)
  let stored := fresh.take (p.setup.bufferSize - x.expected)
  if !stored.isEmpty && Config.stagingPlaces ≤ p.uplink.staging.length then none
  else
    let x' : UplinkContext :=
      { x with
        expected := f.offset + f.len
        truncated := x.truncated || stored.length < fresh.length
        sum := sumBytes x.sum x.expected fresh }
    let staging := if stored.isEmpty then p.uplink.staging else
      p.uplink.staging ++ [{ index := x.index, offset := x.expected, bytes := stored }]
    let p := { p with uplink := { p.uplink with staging := staging } }
    some (if f.last then p.decideMessage k x' f frame
      else p.editEntry k (fun e => { e with context := some x' }))

/-- A new message (R140): a message in progress is given up; then the entry at producer is claimed when the
ring has one and a place is free, and the fragment is taken. -/
def Part.newMessage (p : Part) (k : ShortId) (f : UpFragment) (frame now : Word) : Part × Bool :=
  let p := p.abortUplink k now
  if !p.uplinkRoom || Config.stagingPlaces ≤ p.uplink.staging.length then (p, false)
  else
    let i := p.uplink.producer
    let x : UplinkContext := { seq := f.seq, expected := 0, index := i, truncated := false, sum := 0 }
    let claim : Claim :=
      { index := i, sid := k, car := (p.entry k).car, seq := f.seq, state := .inProgress, status := none
        len := 0, stored := 0, sum := 0, frame := 0 }
    let p := { p with uplink := { p.uplink with producer := i + 1, claims := p.uplink.claims ++ [claim] } }
    let p := (p.setFinished k none).editEntry k (fun e => { e with context := some x })
    match p.takeFragment k x f frame with
    | some q => (q, true)
    | none => (p, false)

/-- A fragment from a live owner judged (R139–R142): the state after it and whether it was taken. `frame` is
the frame of the slot, `now` the current frame. -/
def Part.judgeFragment (p : Part) (k : ShortId) (f : UpFragment) (frame now : Word) : Part × Bool :=
  match sortFragment (p.entry k).context p.uplink.finished[k] f with
  | .rejected => (p, false)
  | .duplicate => (p, true)
  | .newMessage => p.newMessage k f frame now
  | .inOrder =>
    match (p.entry k).context with
    | none => (p, false)
    | some x =>
      match p.takeFragment k x f frame with
      | some q => (q, true)
      | none => (p, false)

/-! ### Deposits and entry writes (R146, R147, R149) -/

/-- The buffer address of a message offset (R146). -/
def bufferAddr (u : Setup) (i : Word) (offset : Nat) : Addr :=
  u.bufferBase + BitVec.ofNat 24 ((i.toNat % u.uplink.size) * u.bufferSize + offset)

/-- The next deposit of a place: a word when two bytes of it come from the place, else a byte (R146). -/
def RecvPlace.deposit (g : RecvPlace) (a : Addr) : TurnData :=
  match g.bytes with
  | b0 :: b1 :: _ => if a.getLsbD 0 then .byte b0 else .word (wordOf b0 b1)
  | [b0] => .byte b0
  | [] => .byte 0

/-- How many bytes a deposit writes. -/
def depositSize : TurnData → Nat
  | .word _ => 2
  | .byte _ => 1

/-- `n` bytes of the oldest place written (R146): the place is freed after its last byte, and an entry write
that waited for it may join the list (R147). -/
def Uplink.deposited (u : Uplink) (n : Nat) : Uplink :=
  match u.staging with
  | [] => u
  | g :: gs =>
    let rest := g.bytes.drop n
    if rest.isEmpty then Uplink.oweEntry { u with staging := gs } g.index
    else { u with staging := { g with offset := g.offset + n, bytes := rest } :: gs }

/-- The Uplink Assembler's next request (R147). -/
def Uplink.next (u : Uplink) : Option TurnKind :=
  if u.entryWord.isSome then some .entryWord
  else if !u.staging.isEmpty then some .deposit
  else if !u.entryWrites.isEmpty then some .entryWord
  else if u.headOwed then some .headWord
  else none

/-- A consumer value offered (R152): accepted when its distance from consumer is 1 or more and at most that
of head. -/
def Uplink.consume (u : Uplink) (c : Word) : Uplink :=
  let n := ahead u.consumer c
  if 1 ≤ n ∧ n ≤ ahead u.consumer u.head then { u with consumer := c } else u

end Sys2Proof.Machine
end

