-- ==== Sys2Proof/Machine/Roster.lean ====
section
/-!
DEFINITION. The Roster Table and the Link Quality Unit (chapters 2 and 3): draining and freeing, joining,
slot results, frame-start misses, samples and classes, and the directives they own.
-/

namespace Sys2Proof.Machine

/-! ### Draining (R33, R42–R45) -/

/-- The announcements left when an entry leaves the live states: its grants are removed (R33). -/
def dropGrants (q : List Announcement) (k : ShortId) : List Announcement := q.filter (fun a => a.sid ≠ sidBits k)

/-- A message record of the entry's car remains in the pool (R44). -/
def Part.hasRecord (p : Part) (k : ShortId) : Bool :=
  poolIds.any (fun i => ((p.record i).map (fun r => decide (r.sid = k))).getD false)

/-- A DRAINING entry with no record in the pool and no claimed uplink entry becomes FREE (R44). -/
def Part.tryFree (p : Part) (k : ShortId) : Part :=
  if (p.entry k).state = .draining ∧ p.hasRecord k = false ∧ p.hasClaim k = false then
    (p.setFinished k none).setEntry k { Entry.blank p.setup.defaultWeight with dirty := true }
  else p

/-- An entry enters DRAINING (R42): its uplink message is delivered ABORTED, its records retire with the
reason, its grants leave the queue; it is freed at once when nothing holds it (R44). -/
def Part.drain (p : Part) (k : ShortId) (why : DrainReason) (now : Word) : Part :=
  let p := p.abortUplink k now
  let p := p.retireAll (drainStatus why) (p.entry k).queueIds
  let p := { p with roster := { p.roster with ann := dropGrants p.roster.ann k } }
  let p := p.setEntry k { p.entry k with state := .draining, drain := some why, credit := 0, dirty := true }
  p.tryFree k

/-- The drain of one entry at a HALT (R45): a live entry drains HALTED, a DRAINING one takes the reason
HALTED, its records not yet RETIRING retire HALTED. -/
def Part.haltEntry (now : Word) (p : Part) (k : ShortId) : Part :=
  if (p.entry k).state = .free then p else p.drain k .halted now

/-- The Roster Table's HALT work (R45). DESIGN CHOICE (log 46): the entries are drained in ascending short id, so
the ABORTED deliveries of several cars (R150, R154) join the entry-write list in that order, which the manual leaves
open. -/
def Part.haltRoster (p : Part) (now : Word) : Part :=
  shortIds.foldl (Part.haltEntry now) { p with roster := { p.roster with ann := [] } }

/-! ### Link quality (R56–R59) -/

/-- The value S must reach to enter a class from below (R57). -/
def stepUpAt : RateClass → Nat
  | .A => 0
  | .B => 56
  | .C => 88
  | .D => 120

/-- The value S must fall below to leave a class downward (R57). -/
def stepDownAt : RateClass → Nat
  | .A => 0
  | .B => 40
  | .C => 72
  | .D => 104

/-- S_new = S_old + trunc((4Q − S_old) / 4), clamped to 0–252 (R56). -/
def smooth (s q : Nat) : Nat := (clamp 0 252 (Int.toNat ((s : Int) + Int.tdiv (4 * (q : Int) - s) 4)))

/-- The ceiling of an entry: the lower of its cap and its capability (R58). -/
def Entry.ceiling (e : Entry) : RateClass := rateMin e.cap e.capability

/-- The class after an applied sample, moved by at most one step (R57). -/
def stepClass (c ceiling : RateClass) (s : Nat) : RateClass :=
  if c ≠ .D ∧ stepUpAt (rateUp c) ≤ s ∧ rateLe (rateUp c) ceiling = true then rateUp c
  else if c ≠ .A ∧ s < stepDownAt c then rateDown c
  else c

/-- The highest class whose step-up threshold is at most S (R59). -/
def classOf (s : Nat) : RateClass :=
  if 120 ≤ s then .D else if 88 ≤ s then .C else if 56 ≤ s then .B else .A

/-- A sample applied: S and the class change together (R56, R57). -/
def Entry.sample (e : Entry) (q : Nat) : Entry :=
  { e with quality := smooth e.quality q, cls := stepClass e.cls e.ceiling (smooth e.quality q) }

/-- A quality sample handed over for an entry (R54): none for a withheld slot; a missed slot's Q = 0 is not
applied to a GRANTED entry; nothing is applied to a DRAINING or FREE one. -/
def Part.applySample (p : Part) (k : ShortId) (valid : Bool) (q : Nat) : Part :=
  let e := p.entry k
  if e.onAir ∨ (e.state = .granted ∧ valid = true) then p.editEntry k (fun e => e.sample q) else p

/-! ### Joining (R28–R32) -/

/-- A valid JOIN handed to the Roster Table: its content, the quality of the burst, and the frame and access slot in
which it was heard (R14). Of these the Roster Table's rules R28 to R32 use all but the slot. -/
structure Join where
  burst : JoinBurst
  q : Nat
  frame : Word
  slot : Nat
  deriving DecidableEq, Repr

/-- The CAR_JOINED event (R29, R31): previous node id; capability and rejoin flag. -/
def joinedEvent (j : Join) (k : ShortId) (rejoin : Bool) : EventRecord :=
  eventOf .carJoined (sidBits k) j.burst.car j.frame (j.burst.prevNode.setWidth 16)
    (BitVec.ofNat 16 (rateCode j.burst.capability + 256 * bit rejoin))

/-- The fields of a new entry (R29, R59). -/
def Entry.joined (weight : Nat) (j : Join) : Entry :=
  { Entry.blank weight with
    state := .granted
    car := j.burst.car
    prevNode := j.burst.prevNode
    capability := j.burst.capability
    lastHeard := j.frame
    quality := 4 * j.q
    cls := rateMin (classOf (4 * j.q)) (rateMin .D j.burst.capability)
    dirty := true }

/-- The fields of a rejoined entry (R31, R59). DEDUCED (log 36): the entry is marked dirty, as R31 and R59 say, also
when a second identical JOIN changes no shown field, where R47 would not mark it. -/
def Entry.rejoined (e : Entry) (j : Join) : Entry :=
  { e with
    state := .granted
    prevNode := j.burst.prevNode
    capability := j.burst.capability
    lastHeard := j.frame
    miss := 0
    grantWait := 0
    quality := 4 * j.q
    cls := rateMin (classOf (4 * j.q)) (rateMin e.cap j.burst.capability)
    credit := 0
    ackBit := false
    alarm := false
    dirty := true }

/-- An announcement appended to the queue (R32). -/
def Part.announce (p : Part) (a : Announcement) : Part :=
  { p with roster := { p.roster with ann := Machine.announce p.roster.ann a } }

/-- A new join (R29). -/
def Part.newJoin (p : Part) (k : ShortId) (j : Join) : Part :=
  let p := p.setEntry k (Entry.joined p.setup.defaultWeight j)
  (p.announce { car := j.burst.car, sid := sidBits k }).submit true (joinedEvent j k false)

/-- A rejoin (R31): CURRENT messages restart, a context is delivered ABORTED and the finished mark removed
(R150), the entry becomes GRANTED. -/
def Part.rejoin (p : Part) (k : ShortId) (j : Join) : Part :=
  let p := p.restartCar k
  let p := (p.abortUplink k j.frame).setFinished k none
  let p := p.setEntry k ((p.entry k).rejoined j)
  (p.announce { car := j.burst.car, sid := sidBits k }).submit true (joinedEvent j k true)

/-- A refusal (R30). -/
def Part.refuseJoin (p : Part) (j : Join) : Part :=
  let p := p.announce { car := j.burst.car, sid := noCarId }
  let p := { p with roster := { p.roster with joinsRefused := satInc p.roster.joinsRefused } }
  p.submit true (eventOf .joinRefused noCarId j.burst.car j.frame (j.burst.prevNode.setWidth 16) 0)

/-- A valid JOIN sorted (R28): rejoin, new join or refusal, each only when the announcement queue has the
place it needs; else the JOIN is not acted on. -/
def Part.join (p : Part) (j : Join) : Part :=
  match p.liveEntry j.burst.car with
  | some k => if canAnnounce p.roster.ann { car := j.burst.car, sid := sidBits k } then p.rejoin k j else p
  | none =>
    match p.freeEntry with
    | some k => if p.roster.ann.length < Config.annPlaces then p.newJoin k j else p
    | none => if canAnnounce p.roster.ann { car := j.burst.car, sid := noCarId } then p.refuseJoin j else p

/-- The announcements a SENT beacon carried leave the queue, by identity (R32). -/
def Part.dropCarried (p : Part) (sent : List Announcement) : Part :=
  { p with roster := { p.roster with ann := p.roster.ann.filter (fun a => !sent.contains a) } }

/-! ### Slot results (R35–R39) -/

/-- A miss of an ACTIVE or FADING entry taken in frame `now` (R37, R38): counted to 31 and tested against the
thresholds. -/
def Part.countMiss (p : Part) (k : ShortId) (now : Word) : Part :=
  let e := p.entry k
  let n := min 31 (e.miss + 1)
  let p := p.editEntry k (fun e => { e with miss := n })
  if p.setup.loseAfter ≤ n then
    (p.drain k .lost now).submit true
      (eventOf .carLost (sidBits k) e.car now e.lastHeard (BitVec.ofNat 16 n))
  else if p.setup.fadeAfter ≤ n then p.editEntry k (fun e => { e with state := .fading })
  else p

/-- An entry that gives a valid result in a slot of `frame` (R35, R36). -/
def Entry.answered (e : Entry) (frame : Word) : Entry :=
  { e with
    state := .active, miss := 0, lastHeard := frame
    grantWait := if e.state = .granted then 0 else e.grantWait }

/-- A missed up slot taken by the Roster Table in frame `now` (R35, R37, R43). -/
def Part.missedSlot (p : Part) (k : ShortId) (now : Word) : Part :=
  if (p.entry k).onAir then p.countMiss k now else p

/-- A valid response of a slot of `frame` taken by the Roster Table in frame `now`: an ACTIVE or FADING entry takes it as
a valid result (R36), with the leaving flag too, and so does a GRANTED one without that flag (R35). With the leaving
flag the entry is last heard in the slot's frame and drains LEFT, and CAR_LEFT names the frame in which it is submitted
(R35, R39, 10.1). -/
def Part.validSlot (p : Part) (k : ShortId) (frame now : Word) (leaving : Bool) : Part :=
  let e := p.entry k
  if e.live = false then p
  else
    let q := p.editEntry k (fun e => if leaving && e.state = .granted then { e with lastHeard := frame }
      else e.answered frame)
    if leaving then
      (q.drain k .left now).submit true
        (eventOf .carLeft (sidBits k) e.car now (e.prevNode.setWidth 16) 0)
    else q

/-! ### Frame-start work (R34, R38) -/

/-- A GRANTED entry abandoned (R34, R38). -/
def Part.abandon (p : Part) (k : ShortId) (frame : Word) : Part :=
  let e := p.entry k
  (p.drain k .lost frame).submit false
    (eventOf .joinAbandoned (sidBits k) e.car frame e.lastHeard 0)

/-- The Roster Table's work on one entry at the start of a frame that is not silent (R34, R38). `faulted`
says whether it reads the substate FAULTED. DEDUCED (log 25): the events and the completion frame of an aborted
delivery (R150) name the frame that begins, whichever of the Roster Table and the Frame Timer takes the frame start
first. DESIGN CHOICE (log 46): the miss of R38 is counted before the grant wait of R34 is examined, and an entry that
either abandons waits no frame more. -/
def Part.frameStartEntry (frame : Word) (faulted : Bool) (p : Part) (k : ShortId) : Part :=
  let e := p.entry k
  match e.state with
  | .granted =>
    let n := if faulted then min 31 (e.miss + 1) else e.miss
    let p := p.editEntry k (fun e => { e with miss := n })
    if 4 ≤ e.grantWait ∨ (faulted = true ∧ p.setup.loseAfter ≤ n) then p.abandon k frame
    else p.editEntry k (fun e => { e with grantWait := e.grantWait + 1 })
  | .active => if faulted then p.countMiss k frame else p
  | .fading => if faulted then p.countMiss k frame else p
  | .free => p
  | .draining => p

/-- Whether frame `f` is a silent frame (R18): the answer is the same before and after the transition. -/
def Silence.silent (sil : Silence) (f : Word) : Bool :=
  match sil with
  | .none => false
  | .pending first _ => first = f
  | .active stop => stop ≠ f

/-- The Roster Table takes the start of frame `f` (R34, R38). DESIGN CHOICE (log 46): the entries are taken in
ascending short id, so the CAR_LOST and JOIN_ABANDONED events of several cars come in that order, which the manual
leaves open. -/
def Part.rosterFrameStart (p : Part) (f : Word) : Part :=
  if p.timer.silence.silent f then p
  else shortIds.foldl (Part.frameStartEntry f (decide (p.timer.substate = .faulted))) p

/-! ### Directives of the Roster Table and the Link Quality Unit (R40, R41, R60) -/

/-- EVICT (R40). -/
def Part.evictCar (p : Part) (car : CarNumber) : Part × Status :=
  match p.liveEntry car with
  | none => (p, .noCar)
  | some k =>
    let p := p.drain k .evicted p.timer.frame
    let a : Announcement := { car := car, sid := noCarId }
    (if canAnnounce p.roster.ann a then p.announce a else p, .ok)

/-- SET_WEIGHT (R41). -/
def Part.setCarWeight (p : Part) (car : CarNumber) (w : Nat) : Part × Status :=
  match p.liveEntry car with
  | none => (p, .noCar)
  | some k => (p.editEntry k (fun e => { e with weight := w }), .ok)

/-- SET_CAP (R60): the class is lowered to the new ceiling at once, and never raised. -/
def Part.setCarCap (p : Part) (car : CarNumber) (cap : RateClass) : Part × Status :=
  match p.liveEntry car with
  | none => (p, .noCar)
  | some k =>
    (p.editEntry k (fun e => { e with cap := cap, cls := rateMin e.cls (rateMin cap e.capability) }), .ok)

end Sys2Proof.Machine
end

