-- ==== Sys2Proof/Machine/Planning.lean ====
section
/-!
DEFINITION. The Slot Planner (chapter 4): the credit update, the four passes, the layout and the duty
history.
-/

namespace Sys2Proof.Machine

/-- A build under way (R70): the tallies, the down grants and the up grant order so far, each car's
working figures, the roster with its credits, and the duty allowance. -/
structure Build where
  downs : Nat
  ups : Nat
  downList : List DownGrant
  upList : List ShortId
  figures : Vector Figures 48
  entries : Vector Entry 48
  allowance : Nat
  deriving DecidableEq, Repr

/-- The CURRENT record of a car's class in a pool, found from the entry (R68). -/
def currentOf (records : Vector (Option MsgRecord) 96) (e : Entry) (c : MsgClass) :
    Option (PoolId × MsgRecord) :=
  match (e.queues.get c).head? with
  | none => none
  | some i =>
    match records[i] with
    | some r => if r.state = .current then some (i, r) else none
    | none => none

/-- The unsent remainder of a car's CURRENT message of a class, 0 without one (R68). -/
def remainder (records : Vector (Option MsgRecord) 96) (e : Entry) (c : MsgClass) : Nat :=
  match currentOf records e c with
  | none => 0
  | some (_, r) => r.len - r.sentTo

/-! ### Counting (R71, R72) -/

/-- The gap of given tallies (4.2). -/
def gapOf (downs ups : Nat) : Nat := if 0 < downs ∧ 0 < ups then 1 else 0

/-- The slots used by given tallies fit the frame (R71). -/
def tallyFits (downs ups : Nat) : Bool := downs + ups + gapOf downs ups ≤ Config.scheduled

/-- The ups a down grant to a car leaves: one more when it holds no up slot (R72). -/
def Build.upsAfterDown (b : Build) (k : ShortId) : Nat := if b.figures[k].hasUp then b.ups else b.ups + 1

/-- A down grant to a car fits (R71). -/
def Build.downFits (b : Build) (k : ShortId) : Bool := tallyFits (b.downs + 1) (b.upsAfterDown k)

/-- A poll grant fits (R71). -/
def Build.pollFits (b : Build) : Bool := tallyFits b.downs (b.ups + 1)

/-- A down grant of the next fragment of a car's CURRENT message of a class (R79, R80): the start offset,
the length, the answer slot when the car holds no up slot, and the working figures. -/
def Build.grantDown (b : Build) (records : Vector (Option MsgRecord) 96) (k : ShortId) (c : MsgClass) : Build :=
  match currentOf records b.entries[k] c with
  | none => b
  | some (i, r) =>
    let g := b.figures[k]
    let start := r.sentTo + g.granted.get c
    let len := min (fragmentData g.rate r.hdr) (r.len - start)
    let grant : DownGrant := { sid := k, cls := c, record := i, rate := g.rate, offset := start, len := len }
    let g' : Figures :=
      { g with
        grants := g.grants + 1, hasUp := true, granted := g.granted.put c (g.granted.get c + len) }
    { b with
      downs := b.downs + 1
      ups := b.upsAfterDown k
      downList := b.downList ++ [grant]
      upList := if g.hasUp then b.upList else b.upList ++ [k]
      figures := b.figures.set k g' }

/-! ### Credit (R75, R79) -/

/-- Whether an entry earns in the credit update (R75). -/
def earns (records : Vector (Option MsgRecord) 96) (e : Entry) : Bool :=
  (e.onAir && 0 < remainder records e .control) || (e.state = .active && 0 < remainder records e .bulk)

/-- The credit of an entry after the update (R75). -/
def Entry.earned (records : Vector (Option MsgRecord) 96) (e : Entry) : Entry :=
  e.write { e with credit := if earns records e then min 64 (e.credit + e.weight) else 0 }

/-- The credit of an entry after a CONTROL or BULK grant (R79). -/
def Entry.charged (e : Entry) : Entry := e.write { e with credit := max (-64) (e.credit - 16) }

/-- The credit update of all 48 entries (R75). -/
def creditUpdate (records : Vector (Option MsgRecord) 96) (es : Vector Entry 48) : Vector Entry 48 :=
  shortIds.foldl (fun v (k : ShortId) => v.set k (v[k].earned records)) es

/-! ### The passes (R76–R79) -/

/-- How far an admission number lies behind the next one (R76). -/
def admAge (next adm : Word) : Nat := ahead adm next

/-- Insert a candidate behind every older one (R76). -/
def insertCandidate (x : ShortId × Nat) : List (ShortId × Nat) → List (ShortId × Nat)
  | [] => [x]
  | y :: ys => if y.2 < x.2 then x :: y :: ys else y :: insertCandidate x ys

/-- The STOP candidates, oldest admission first (R76). -/
def stopCandidates (records : Vector (Option MsgRecord) 96) (next : Word) (es : Vector Entry 48) :
    List ShortId :=
  let found := shortIds.filterMap (fun k =>
    if es[k].onAir then
      match currentOf records es[k] .stop with
      | some (_, r) => if r.sentTo < r.len then some (k, admAge next r.adm) else none
      | none => none
    else none)
  (found.foldr insertCandidate []).map Prod.fst

/-- The STOP pass (R76): each candidate's grant is made when it fits. -/
def Build.stopPass (b : Build) (records : Vector (Option MsgRecord) 96) (next : Word) : Build :=
  (stopCandidates records next b.entries).foldl
    (fun b k => if b.downFits k then b.grantDown records k .stop else b) b

/-- An entry the poll pass visits with a slot: GRANTED, or ACTIVE or FADING in its phase (R77). -/
def polled (period : Nat) (f : Word) (k : ShortId) (e : Entry) : Bool :=
  e.state = .granted || (e.onAir && k.val % period = f.toNat % period)

/-- A poll grant (R77). -/
def Build.grantPoll (b : Build) (k : ShortId) : Build :=
  { b with
    ups := b.ups + 1
    upList := b.upList ++ [k]
    figures := b.figures.set k { b.figures[k] with hasUp := true } }

/-- The poll pass (R77). -/
def Build.pollPass (b : Build) (period : Nat) (f : Word) : Build :=
  shortIds.foldl
    (fun b k =>
      if !b.figures[k].hasUp && polled period f k b.entries[k] && b.pollFits then b.grantPoll k else b) b

/-- Whether an entry is eligible at a pick of the pass for a class (R78). -/
def Build.eligible (b : Build) (records : Vector (Option MsgRecord) 96) (c : MsgClass) (k : ShortId) : Bool :=
  let e := b.entries[k]
  (e.state = .active || (c = .control && e.state = .fading))
    && b.figures[k].granted.get c < remainder records e c
    && b.figures[k].grants < Config.grantLimit
    && b.downFits k
    && 0 < b.allowance

/-- The eligible entry with the highest credit, the lowest short id among equals (R79). -/
def Build.pick (b : Build) (records : Vector (Option MsgRecord) 96) (c : MsgClass) : Option ShortId :=
  shortIds.foldl
    (fun best k =>
      if b.eligible records c k then
        match best with
        | none => some k
        | some j => if b.entries[j].credit < b.entries[k].credit then some k else best
      else best) none

/-- The pass for CONTROL or BULK (R78, R79): while any entry is eligible the pick is granted and charged.
`fuel` is the 36 slots of the frame, which no pass outlasts. -/
def Build.sharePass (records : Vector (Option MsgRecord) 96) (c : MsgClass) : Nat → Build → Build
  | 0, b => b
  | fuel + 1, b =>
    match b.pick records c with
    | none => b
    | some k =>
      let b := b.grantDown records k c
      Build.sharePass records c fuel
        { b with entries := b.entries.set k b.entries[k].charged, allowance := b.allowance - 1 }

/-! ### The build (R66–R82) -/

/-- The figures at the start of a build: each car's class as read (R61, R66). -/
def startFigures (es : Vector Entry 48) : Vector Figures 48 :=
  shortIds.foldl (fun v (k : ShortId) => v.set k { Figures.none with rate := es[k].cls }) (Vector.replicate 48 Figures.none)

/-- The layout (R81): down grants from slot 4 upward, up slots from slot 39 downward, idle between. -/
def Build.layout (b : Build) : List SlotUse :=
  b.downList.map SlotUse.down
    ++ List.replicate (Config.scheduled - b.downList.length - b.upList.length) SlotUse.idle
    ++ (b.upList.map SlotUse.up).reverse

/-- The passes of a build made while the substate reads ON (R70, R74–R79). -/
def buildPasses (p : Part) (f : Word) : Build :=
  let records := p.pool.records
  let es := creditUpdate records p.roster.entries
  let b : Build :=
    { downs := 0, ups := 0, downList := [], upList := [], figures := startFigures es, entries := es
      allowance := 0 }
  let b := b.stopPass records p.adm.nextAdm
  let spent := p.planner.h1 + p.planner.h2 + p.planner.h3 + b.downs
  let b := { b with allowance := p.setup.dutyLimit - spent }
  let b := b.pollPass p.setup.pollPeriod f
  let b := Build.sharePass records .control Config.scheduled b
  Build.sharePass records .bulk Config.scheduled b

/-- The plan of a build (R66, R81). -/
def Build.plan (b : Build) (f : Word) : Plan where
  frame := f
  slots := b.layout
  downs := b.downs
  ups := b.ups
  gap := gapOf b.downs b.ups
  figures := b.figures

/-- The duty history shifted, with the frame's entry: 0 for a silent frame, else the plan's DOWN slots
(R73). -/
def Planner.shift (q : Planner) (silent : Bool) (plan : Plan) : Planner :=
  { plan := plan, h1 := if silent then 0 else plan.downs, h2 := q.h1, h3 := q.h2 }

/-- The plan build for frame `f` and its hand-off to the Transmit Assembler (R67, R70, R82). -/
def Part.buildPlan (p : Part) (f : Word) : Part :=
  let silent := p.timer.silence.silent f
  let p :=
    if p.timer.substate = .on then
      let b := buildPasses p f
      { p with
        roster := { p.roster with entries := b.entries }
        planner := p.planner.shift silent (b.plan f) }
    else { p with planner := p.planner.shift silent (Plan.blank f) }
  p.handOff

/-- The slot entry of a slot number; slots 0 to 3 have none (R66). -/
def Plan.use (q : Plan) (slot : Nat) : SlotUse := if slot < 4 then .idle else q.slots.getD (slot - 4) .idle

end Sys2Proof.Machine
end

