-- ==== Sys2Proof/Machine/Image.lean ====
section
/-!
DEFINITION. The Roster Image Writer (2.10): snapshots, change counters and passes.
-/

namespace Sys2Proof.Machine

/-- The node summary as it stands (R51). -/
def Part.summary (p : Part) : Summary where
  node := p.anchor.node
  substate := p.timer.substate
  silence := p.timer.silence
  frame := p.timer.frame
  free := p.freeRecords
  joinsRefused := p.roster.joinsRefused
  guardedWrites := p.bus.guardedWrites
  eventsLost := p.ev.eventsLost
  lateFragments := p.tx.lateFragments
  faultedSlots := p.timer.faultedSlots
  accessGarbled := p.timer.accessGarbled

/-- The first dirty entry from a short id on (R49). -/
def Part.firstDirty (p : Part) (k : Nat) : Option ShortId :=
  shortIds.find? (fun i => k ≤ i.val && (p.entry i).dirty)

/-- The write of an entry's record begun (R50): the snapshot is taken, the dirty mark cleared and the change
counter made odd. -/
def Part.beginEntryRecord (p : Part) (k : ShortId) : Part :=
  let e := p.entry k
  let p := p.setEntry k { e with dirty := false }
  { p with
    image := { p.image with
      counters := p.image.counters.set k (p.image.counters[k] + 1)
      writing := some { record := .entry k, fields := entryFields e, word := 0 } } }

/-- The write of the node summary begun (R50, R51). -/
def Part.beginSummaryRecord (p : Part) : Part :=
  { p with
    image := { p.image with
      summaryCounter := p.image.summaryCounter + 1
      writing := some { record := .summary, fields := summaryFields p.summary, word := 0 } } }

/-- The pass goes on from a short id: to the next dirty entry, or to the summary (R49). -/
def Part.imageFrom (p : Part) (k : Nat) : Part :=
  match p.firstDirty k with
  | some i => p.beginEntryRecord i
  | none => p.beginSummaryRecord

/-- A pass begun (R49, R52). -/
def Part.beginPass (p : Part) : Part :=
  Part.imageFrom
    { p with image := { p.image with owed := false, postHalt := decide (p.anchor.node = .halting) } } 0

/-- The writer at a frame start or at a HALT: a pass is begun when it is idle, else owed (R49, R52). -/
def Part.passDue (p : Part) : Part :=
  match p.image.writing with
  | none => p.beginPass
  | some _ => { p with image := { p.image with owed := true } }

/-- In HALTING a pass is begun whenever the writer is idle, an entry is dirty and the image is not complete
(R52). -/
def Part.haltingPass (p : Part) : Part :=
  if p.anchor.node = .halting ∧ p.image.writing = none ∧ p.anchor.marks.image = false
      ∧ (p.firstDirty 0).isSome = true then
    p.beginPass
  else p

/-- A pass ended: an owed pass begins at once; in HALTING the image is complete when the pass was begun
after the HALT, every entry is FREE and none is dirty (R49, R52). -/
def Part.endPass (p : Part) : Part :=
  let complete :=
    p.anchor.node = .halting && p.image.postHalt && (p.firstDirty 0).isNone
      && shortIds.all (fun k => (p.entry k).state = .free)
  let p := { p with image := { p.image with writing := none } }
  if p.image.owed then p.beginPass
  else if complete then
    { p with anchor := { p.anchor with marks := { p.anchor.marks with image := true } } }
  else p

/-- The change counter of a record. -/
def ImageWriter.counter (w : ImageWriter) : ImageRecord → Word
  | .entry k => w.counters[k]
  | .summary => w.summaryCounter

/-- A record's change counter raised by one (R50). -/
def ImageWriter.bump (w : ImageWriter) : ImageRecord → ImageWriter
  | .entry k => { w with counters := w.counters.set k (w.counters[k] + 1) }
  | .summary => { w with summaryCounter := w.summaryCounter + 1 }

/-- The address of a record of the image (11.2). -/
def imageAddr (guarded : Addr) : ImageRecord → Addr
  | .entry k => guarded + BitVec.ofNat 24 (32 + 32 * k.val)
  | .summary => guarded

/-- The next word turn of the record in hand: its address and value (R50, 11.2). The counter goes first and
last, the fifteen field words between. -/
def ImageWriter.nextWord (w : ImageWriter) (guarded : Addr) (x : RecordWrite) : Addr × Word :=
  let base := imageAddr guarded x.record
  if x.word = 0 ∨ 16 ≤ x.word then (base, w.counter x.record)
  else (base + BitVec.ofNat 24 (2 * x.word), x.fields.getD (x.word - 1) 0)

/-- A completed image word write (R50): the next word, the counter made even before the last, and after the
last the next record or the end of the pass. -/
def Part.imageWritten (p : Part) : Part :=
  match p.image.writing with
  | none => p
  | some x =>
    if x.word < 15 then
      { p with image := { p.image with writing := some { x with word := x.word + 1 } } }
    else if x.word = 15 then
      { p with image := { p.image.bump x.record with writing := some { x with word := 16 } } }
    else
      match x.record with
      | .entry k => p.imageFrom (k.val + 1)
      | .summary => p.endPass

end Sys2Proof.Machine
end

