-- ==== Sys2Proof/Machine/Radio.lean ====
section
/-!
DEFINITION. The Frame Timer and the Burst Port (chapter 1), the taking of up slot results (R136), and the
frame start (R2).
-/

namespace Sys2Proof.Machine

/-! ### Silence (R18–R22) -/

/-- The earlier of two frame numbers, as seen from the current frame (R3). -/
def earlier (now x y : Word) : Word := if ahead now x ≤ ahead now y then x else y

/-- The later of two frame numbers, as seen from the current frame (R3). -/
def later (now x y : Word) : Word := if ahead now x ≤ ahead now y then y else x

/-- A SILENCE directive with lead `n` and length `m` in frame `f` (R19). -/
def Silence.order (sil : Silence) (f : Word) (n m : Nat) : Silence :=
  let first := f + BitVec.ofNat 16 n
  let stop := f + BitVec.ofNat 16 (n + m)
  match sil with
  | .none => .pending first stop
  | .pending s e => .pending (earlier f s first) (later f e stop)
  | .active e => .active (later f e stop)

/-- A QUIET_END directive in frame `f` (R22). -/
def Silence.quiet (sil : Silence) (f : Word) : Silence :=
  match sil with
  | .none => .none
  | .pending _ _ => .none
  | .active _ => .active (f + 1)

/-- The silence transition at the start of frame `f` is a beginning (R20). -/
def Silence.begins (sil : Silence) (f : Word) : Bool :=
  match sil with
  | .pending first _ => first = f
  | _ => false

/-- The silence transition at the start of frame `f` is an end (R20). -/
def Silence.ends (sil : Silence) (f : Word) : Bool :=
  match sil with
  | .active stop => stop = f
  | _ => false

/-- The silence transition for the frame `f` that begins (R20). -/
def Part.silenceTransition (p : Part) (f : Word) : Part :=
  match p.timer.silence with
  | .none => p
  | .pending first stop =>
    if first = f then
      Part.submit
        { p with timer := { p.timer with silence := .active stop, substate := .silent, faultRun := 0 } }
        true (nodeEvent .silenceBegun f stop (stop - f))
    else p
  | .active stop =>
    if stop = f then
      Part.submit
        { p with timer := { p.timer with silence := .none, substate := .on, faultRun := 0, resumed := true } }
        true (nodeEvent .silenceEnded f 0 0)
    else p

/-! ### The modem fault run (R16, R17) -/

/-- A settled slot counted into the modem fault run (R16): only in ON; the eighth fault in a row turns the
substate FAULTED and submits RADIO_FAULT. -/
def Part.countRun (p : Part) (slot : Nat) (frame : Word) (st : Settled) : Part :=
  if p.timer.substate = .on then
    match st with
    | .noOrder => p
    | .answered => { p with timer := { p.timer with faultRun := 0 } }
    | .faulted =>
      if 8 ≤ p.timer.faultRun + 1 then
        Part.submit { p with timer := { p.timer with faultRun := 8, substate := .faulted } }
          true (nodeEvent .radioFault frame (BitVec.ofNat 16 slot) 0)
      else { p with timer := { p.timer with faultRun := p.timer.faultRun + 1 } }
  else p

/-- A beacon settled SENT (R11, R12, R17): the announcements it carried leave the queue, a resumed mark it
carried is cleared, and a FAULTED substate returns to ON. -/
def Part.beaconSent (p : Part) : Part :=
  let c := p.timer.carried.getD { grants := [], resumed := false }
  let p := p.dropCarried c.grants
  let p := { p with timer := { p.timer with resumed := p.timer.resumed && !c.resumed } }
  if p.timer.substate = .faulted then
    Part.submit { p with timer := { p.timer with substate := .on, faultRun := 0 } }
      true (nodeEvent .radioRestored p.timer.frame 0 0)
  else p

/-! ### Access slots (R13, R14) -/

/-- A HEARD access slot examined as a JOIN (R13). -/
def Part.accessHeard (p : Part) (h : Heard) : Part :=
  let garbled := { p with timer := { p.timer with accessGarbled := satInc p.timer.accessGarbled } }
  match h.outcome with
  | .nothing => p
  | .crcFail => garbled
  | .ok =>
    match parseJoin h.bytes with
    | some b => p.join { burst := b, q := h.q.toNat, frame := p.timer.frame, slot := p.timer.slot }
    | none => garbled

/-! ### The burst port (R4–R7) -/

/-- An answer of the modem to the order of the current slot (R5): only the first answer to an order is the slot's;
one of the wrong kind is taken as FAULT. -/
def BurstPort.take (b : BurstPort) (a : Answer) : BurstPort :=
  match b.order, b.answer with
  | some (.send _ _), none =>
    { b with answer := some (match a with
        | .sent => .sent
        | .heard _ => .fault
        | .fault => .fault) }
  | some .listen, none =>
    { b with answer := some (match a with
        | .sent => .fault
        | .heard h => .heard h
        | .fault => .fault) }
  | _, _ => b

/-- How the slot that ends is settled (R6). -/
def BurstPort.settled (b : BurstPort) : Settled :=
  match b.order, b.answer with
  | none, _ => .noOrder
  | some _, none => .faulted
  | some _, some .fault => .faulted
  | some _, some _ => .answered

/-- What an up slot gave (R7): what was heard; NOTHING when faulted; WITHHELD without an order. -/
def BurstPort.upOutcome (b : BurstPort) : UpOutcome :=
  match b.settled, b.answer with
  | .noOrder, _ => .withheld
  | .answered, some (.heard h) => .heard h
  | _, _ => .nothing

/-- The slot that ends is settled and its result handed on (R6, R7): counted when faulted; a beacon to the
Frame Timer, an access slot to its handling, a down slot to the Transmit Assembler, an up slot to the
results the Uplink Assembler has yet to take. -/
def Part.settleSlot (p : Part) : Part × Settled :=
  let port := p.port
  let slot := p.timer.slot
  let st := port.settled
  let p := { p with
    port := { order := none, answer := none }
    timer := if st = .faulted then { p.timer with faultedSlots := satInc p.timer.faultedSlots } else p.timer }
  let p :=
    if slot = 0 then (if st = .answered then p.beaconSent else p)
    else if slot ≤ 3 then
      match port.answer with
      | some (.heard h) => p.accessHeard h
      | _ => p
    else
      match p.planner.plan.use slot with
      | .idle => p
      | .down _ => p.settleDown slot (decide (st = .answered))
      | .up k =>
        { p with
          due := { p.due with
            results := p.due.results
              ++ [{ owner := k, slot := slot, frame := p.timer.frame, outcome := port.upOutcome }] } }
  (p, st)

/-- The Burst Port presents an order (R5). -/
def Part.present (p : Part) (o : Order) : Part := { p with port := { order := some o, answer := none } }

/-- A slot from 1 to 39 begins with the order R4 gives it: none unless the substate is ON, and none for a
scheduled slot of a frame that began FAULTED (R17, log 24). -/
def Part.beginSlot (p : Part) (slot : Nat) : Part :=
  let p := { p with timer := { p.timer with slot := slot } }
  if p.timer.substate = .on then
    if slot ≤ 3 then p.present .listen
    else if p.timer.schedWithheld then p
    else
      match p.planner.plan.use slot with
      | .idle => p
      | .down _ => p.beginDown slot
      | .up _ => p.present .listen
  else p

/-! ### The beacon (R8–R12) -/

/-- The slot-map byte of a slot entry (R9). -/
def slotMapByte (p : Part) : SlotUse → Byte
  | .idle => BitVec.ofNat 8 (63 * 4)
  | .down g => BitVec.ofNat 8 (g.sid.val * 4)
  | .up k => BitVec.ofNat 8 (k.val * 4 + 2 + bit (p.entry k).ackBit)

/-- The beacon's content, each field from the state as it stands (R8, R11, R12). -/
def Part.beacon (p : Part) : Beacon :=
  let (pending, countdown, length) := match p.timer.silence with
    | .pending first stop => (true, ahead p.timer.frame first, ahead first stop)
    | _ => (false, 0, 0)
  { nodeId := p.setup.nodeId
    frame := p.timer.frame
    silencePending := pending
    resumed := p.timer.resumed
    rosterFull := p.freeEntry.isNone
    countdown := countdown
    length := length
    pollPeriod := p.setup.pollPeriod
    grants := p.roster.ann.take 2
    slotMap := p.planner.plan.slots.map (slotMapByte p) }

/-- The plan has an up slot, so that its beacon reads ack bits (R9). -/
def Plan.polls (q : Plan) : Bool := q.slots.any (fun u => match u with
  | .up _ => true
  | _ => false)

/-- An up slot result of the frame before is still to be taken, and the beacon would read ack bits (R9). -/
def Part.acksWait (p : Part) : Bool := !p.due.results.isEmpty && p.planner.plan.polls

/-- The beacon assembled and its SEND order presented, once the plan is built, the Frame Timer has made its
transition and, where the beacon reads ack bits, every up slot result has been taken (R8, R9); none in SILENT
or OFF. -/
def Part.tryBeacon (p : Part) : Part :=
  if p.timer.beaconDue ∧ p.due.timer = false ∧ p.due.build = false ∧ p.acksWait = false then
    let p := { p with timer := { p.timer with beaconDue := false } }
    if p.timer.substate = .on ∨ p.timer.substate = .faulted then
      let b := p.beacon
      Part.present
        { p with timer := { p.timer with carried := some { grants := b.grants, resumed := b.resumed } } }
        (.send .A (beaconBytes b))
    else p
  else p

/-! ### Up slot results (R136–R138, R143) -/

/-- The poll response of a result, when it is valid (R135). -/
def UpResult.response (r : UpResult) : Option (Nat × PollResponse) :=
  match r.outcome with
  | .heard h =>
    match h.outcome with
    | .ok => (parsePoll r.owner h.bytes).map (fun x => (h.q.toNat, x))
    | _ => none
  | _ => none

/-- The alarm flag of a valid response compared and written (R138). -/
def Part.takeAlarm (p : Part) (r : UpResult) (alarm : Bool) : Part :=
  let e := p.entry r.owner
  let p := p.editEntry r.owner (fun e => { e with alarm := alarm })
  if alarm && !e.alarm then
    p.submit true
      (eventOf .carAlarm (sidBits r.owner) e.car r.frame (BitVec.ofNat 16 r.slot) 0)
  else p

/-- The uplink ack bit written (R143). -/
def Part.setAck (p : Part) (k : ShortId) (taken : Bool) : Part :=
  p.editEntry k (fun e => { e with ackBit := taken })

/-- The fragment of a valid response judged and the ack bit set (R136 step 4). -/
def Part.takeUplink (p : Part) (r : UpResult) (f : Option UpFragment) : Part :=
  match f with
  | none => p.setAck r.owner false
  | some f =>
    let (p, taken) := p.judgeFragment r.owner f r.frame p.timer.frame
    p.setAck r.owner taken

/-- An up slot's result taken (R136, R137): sample, answer, alarm, fragment and roster result, in that
order. For an owner that is not live the alarm, the fragment and the ack bit are left alone. -/
def Part.takeResult (p : Part) (r : UpResult) : Part :=
  let k := r.owner
  let live := (p.entry k).live
  match r.outcome with
  | .withheld =>
    let p := p.answer k r.frame .withheld
    if live then p.setAck k false else p
  | _ =>
    match r.response with
    | some (q, x) =>
      let p := p.applySample k true q
      let p := p.answer k r.frame (.valid x.acks)
      let p := if live then (p.takeAlarm r x.alarm).takeUplink r x.fragment else p
      p.validSlot k r.frame p.timer.frame x.leaving
    | none =>
      let p := p.applySample k false 0
      let p := p.answer k r.frame .missed
      let p := if live then p.setAck k false else p
      p.missedSlot k p.timer.frame

/-- The oldest result not yet taken is taken (R136). -/
def Part.takeOldest (p : Part) : Part :=
  match p.due.results with
  | [] => p
  | r :: rs => Part.takeResult { p with due := { p.due with results := rs } } r

/-! ### The frame start (R2) -/

/-- The Frame Timer takes a frame start (R2, R15, R16, R20): slot 39's settlement, the frame number, ON at the
first frame, and the silence transition. -/
def Part.timerFrameStart (p : Part) : Part :=
  let f := p.due.frame
  let p := p.countRun 39 p.timer.frame p.due.lastSlot
  let p := { p with
    timer := { p.timer with
      frame := f
      substate := if p.timer.substate = Substate.off then Substate.on else p.timer.substate } }
  let p := Part.silenceTransition p f
  { p with timer := { p.timer with schedWithheld := decide (p.timer.substate = Substate.faulted) } }

/-- One block takes the frame start, if it has not taken it yet (R2). -/
def Part.frameWork (p : Part) (w : FrameWork) : Part :=
  match w with
  | .timer => if p.due.timer then Part.timerFrameStart { p with due := { p.due with timer := false } } else p
  | .result => p.takeOldest
  | .roster =>
    if p.due.roster then Part.rosterFrameStart { p with due := { p.due with roster := false } } p.due.frame
    else p
  | .ageing => if p.due.ageing then Part.ageRecords { p with due := { p.due with ageing := false } } else p
  | .build =>
    if p.due.build then Part.buildPlan { p with due := { p.due with build := false } } p.due.frame else p
  | .image => if p.due.image then Part.passDue { p with due := { p.due with image := false } } else p

/-- One block's work, after which the beacon may be ready (R8). -/
def Part.frameWorkThenBeacon (p : Part) (w : FrameWork) : Part := (p.frameWork w).tryBeacon

/-- Every up slot result not yet taken is taken, in order. -/
def Part.flushResults (p : Part) : Part :=
  (List.replicate p.due.results.length FrameWork.result).foldl Part.frameWorkThenBeacon p

/-- A boundary leaves the results of the frame before to be taken later: it ends an access slot, or slot 0 with a
beacon that waits for none of them. A rejoin heard in that frame may so come before a late sample (R55, log 9). -/
def Part.resultsMayWait (p : Part) : Bool := p.timer.underWay && p.timer.slot ≤ 3 && !p.timer.beaconDue

/-- What the boundary before left to be taken is taken at a boundary at the latest. DESIGN CHOICE (log 8, 9): the
works go in the order timer, roster, ageing, build, image, which R2 leaves open, and the up slot results after
them, unless they may wait longer. -/
def Part.flushDue (p : Part) : Part :=
  let p := [FrameWork.timer, .roster, .ageing, .build, .image].foldl Part.frameWorkThenBeacon p
  if p.resultsMayWait then p else p.flushResults

/-- A work of the frame start for which a command of its own stands in the table: a silence that begins or
ends (SILENCE_STARTS, SILENCE_ENDS), the result of slot 39 (UPLINK_SLOT_RESULT), a grant wait that runs out
(GRANT_WAIT_EXPIRY), a record that expires (MESSAGE_EXPIRY) (log 8). -/
def Part.ownCommand (p : Part) : FrameWork → Bool
  | .timer => p.timer.silence.begins p.due.frame || p.timer.silence.ends p.due.frame
  | .result => true
  | .roster =>
    !p.timer.silence.silent p.due.frame
      && shortIds.any (fun k => (p.entry k).state = .granted && 4 ≤ (p.entry k).grantWait)
  | .ageing => poolIds.any (fun i => ((p.joinHanded.record i).map (fun r => r.aged.expired)).getD false)
  | .build => false
  | .image => false

/-- A work of the frame start taken in the frame start itself, unless a command of its own stands for it. -/
def Part.workOfStart (p : Part) (w : FrameWork) : Part :=
  if p.ownCommand w then p else p.frameWorkThenBeacon w

/-- The start of frame `f` (R1, R2). The blocks take it in the given order. A work the order does not name is
taken after it in this step too, unless a command of its own stands for it: then that command takes it, or
the next boundary does. DESIGN CHOICE (log 8): the works not named go in the order timer, roster, ageing, build,
image, which R2 leaves open. -/
def Part.frameStart (p : Part) (f : Word) (st : Settled) (order : List FrameWork) : Part :=
  let p := { p with
    due := { frame := f, timer := true, roster := true, ageing := true, build := true, image := true
             lastSlot := st, results := p.due.results }
    timer := { p.timer with slot := 0, underWay := true, beaconDue := true, carried := none } }
  let p := order.foldl Part.frameWorkThenBeacon p
  [FrameWork.timer, .roster, .ageing, .build, .image].foldl Part.workOfStart p

end Sys2Proof.Machine
end

