-- ==== Sys2Proof/Machine/Admission.lean ====
section
/-!
DEFINITION. The Admission Engine (chapter 5): ring indices and item lists, reading and judging items,
allocation, directives, write-backs and the done words.
-/

namespace Sys2Proof.Machine

/-! ### Rings and indices (R86, R87) -/

/-- A downlink ring of the engine. -/
def Part.ring (p : Part) : RingId → DownRing
  | .urgent => p.adm.urgent
  | .general => p.adm.general

/-- A downlink ring replaced. -/
def Part.setRing (p : Part) (r : RingId) (x : DownRing) : Part :=
  match r with
  | .urgent => { p with adm := { p.adm with urgent := x } }
  | .general => { p with adm := { p.adm with general := x } }

/-- The ring the engine works on, or none while it is free (R89). -/
def Part.setHand (p : Part) (r : Option RingId) : Part := { p with adm := { p.adm with inHand := r } }

/-- The distance of an index along the ring (R86). -/
def DownRing.dist (x : DownRing) (i : Word) : Nat := ahead x.done i

/-- A descriptor lies between read and tail (R88). -/
def DownRing.more (x : DownRing) : Bool := x.dist x.read < x.dist x.tail

/-- The test of an offered tail value (R87). -/
def DownRing.tailOk (x : DownRing) (size : Nat) (t : Word) : Bool :=
  x.dist x.read ≤ x.dist t && x.dist t ≤ size

/-! ### Judgment (R90–R92) -/

/-- Check 1: whether a ring takes a message class (R92). -/
def ringTakes : RingId → Option MsgClass → Bool
  | .urgent, some .stop => true
  | .general, some .control => true
  | .general, some .bulk => true
  | _, _ => false

/-- The gathered bytes of a piece list (5.2). -/
def gatheredLength (ps : List Piece) : Nat := (ps.map Piece.len).sum

/-- Check 2 apart from a break and a refused gather table: the ranges of L and H and the pieces (R92). -/
def fieldsOk (m : MsgFields) (ps : List Piece) : Bool :=
  1 ≤ m.len && m.len ≤ 16383 && m.hdr ≤ 16
    && ps.all (fun q => 0 < q.len && q.addr.toNat + q.len ≤ 16777216)

/-- Check 4: the prototype lies in the first piece, sum_start and stamp offset lie inside (R92). -/
def placesOk (m : MsgFields) (ps : List Piece) : Bool :=
  (match ps with
    | q :: _ => m.hdr ≤ q.len
    | [] => false)
    && (match m.sumStart with
      | none => true
      | some z => z ≤ m.len - 1)
    && (match m.stamp with
      | none => true
      | some z => z + 2 ≤ m.hdr)

/-- Checks 1 to 5 of R92 on a message; `broken` says that its structure broke or its gather table was refused.
The first check that fails gives the status. -/
def judgeMessage (r : RingId) (m : MsgFields) (ps : List Piece) (broken : Bool) : Option Status :=
  if ringTakes r m.cls = false then some .wrongRing
  else if broken ∨ fieldsOk m ps = false then some .badDescriptor
  else if gatheredLength ps ≠ m.hdr + m.len then some .lengthMismatch
  else if placesOk m ps = false then some .badDescriptor
  else if m.cls = some .stop ∧ 56 < m.hdr + m.len then some .tooLong
  else none

/-- Whether the engine reads a gather table (R91): 1 to 8 entries, an even address, wholly inside memory. -/
def gatherOk (count : Nat) (a : Addr) : Bool :=
  1 ≤ count && count ≤ 8 && !a.getLsbD 0 && a.toNat + 8 * count ≤ 16777216

/-! ### Finishing, allocating and stalling (R92–R98) -/

/-- A status write-back joins the write-back list (R98). -/
def Part.oweWriteBack (p : Part) (w : WriteBack) : Part :=
  { p with adm := { p.adm with writeBacks := p.adm.writeBacks ++ [w] } }

/-- An item closed (R92, R94): its entry joins the item list not yet written, admitted moves past it, and the
engine is free. -/
def Part.closeItem (p : Part) (r : RingId) (first : Word) (count : Nat) : Part :=
  let x := p.ring r
  (p.setRing r { x with
    item := none
    items := x.items ++ [{ first := first, count := count, written := false }]
    admitted := first + BitVec.ofNat 16 count }).setHand none

/-- An item finished with a status at judgment (R98). -/
def Part.finishItem (p : Part) (r : RingId) (first : Word) (count : Nat) (st : Status) : Part :=
  (p.closeItem r first count).oweWriteBack (WriteBack.item r first st)

/-- The room a message of a class needs (R93): one free record for STOP, more than 8 for the others. -/
def Part.hasRoom (p : Part) : Option MsgClass → Bool
  | some .stop => 1 ≤ p.freeRecords
  | _ => Config.stopReserve < p.freeRecords

/-- The records of a car that check 7 counts (R93): those in its class queues, QUEUED or CURRENT, and those handed to
the pool that have yet to join one (log 21). -/
def Part.carLoad (p : Part) (k : ShortId) : Nat :=
  (p.entry k).queued + p.pool.handed.countP (fun i => ((p.record i).map (fun r => decide (r.sid = k))).getD false)

/-- A record as allocation sets it (5.4). -/
def MsgRecord.allocated (r : RingId) (it : OpenItem) (k : ShortId) (c : MsgClass) (adm : Word) : MsgRecord where
  state := .handed
  sid := k
  cls := c
  ring := r
  first := it.first
  count := it.count
  adm := adm
  len := it.fields.len
  hdr := it.fields.hdr
  sumStart := it.fields.sumStart
  stamp := it.fields.stamp
  lifetime := it.fields.lifetime
  age := 0
  pieces := it.pieces
  table := it.table
  seq := none
  acked := 0
  sentTo := 0
  watermark := 0
  sum := 0
  attempts := 0
  outcome := none

/-- A record allocated for an item and handed to the Message Pool, which takes it into its class queue as an arrival
of its own (R94, R95, log 21, 22). -/
def Part.allocate (p : Part) (r : RingId) (it : OpenItem) (k : ShortId) (c : MsgClass) : Part :=
  match p.freePlace with
  | none => p
  | some i =>
    let p := p.setRecord i (some (MsgRecord.allocated r it k c p.adm.nextAdm))
    let p := { p with adm := { p.adm with nextAdm := p.adm.nextAdm + 1 } }
    let p := { p with pool := { p.pool with handed := p.pool.handed ++ [i] } }
    p.closeItem r it.first it.count

/-- The open item of a ring kept in a stage. -/
def Part.keepItem (p : Part) (r : RingId) (it : OpenItem) : Part :=
  p.setRing r { p.ring r with item := some it }

/-- The allocation step (R93): checks 6 and 7, then a record if there is room, else the item stalls and the
engine is free. -/
def Part.allocStep (p : Part) (r : RingId) (it : OpenItem) : Part :=
  match p.liveEntry it.fields.car, it.fields.cls with
  | some k, some c =>
    if Config.carRecords ≤ p.carLoad k then p.finishItem r it.first it.count .queueFull
    else if p.hasRoom (some c) then p.allocate r it k c
    else (p.keepItem r { it with stage := .stalled }).setHand none
  | _, _ => p.finishItem r it.first it.count .noCar

/-- A message whose extent is known is judged (R92), and one that passes takes its allocation step (R93). -/
def Part.judgeItem (p : Part) (r : RingId) (it : OpenItem) : Part :=
  match judgeMessage r it.fields it.pieces it.broken with
  | some st => p.finishItem r it.first it.count st
  | none => p.allocStep r it

/-! ### Reading (R88–R91) -/

/-- An item goes on to its next descriptor, or begins to wait on its tail, which frees the engine (R90). -/
def Part.readOn (p : Part) (r : RingId) (it : OpenItem) : Part :=
  let p := p.keepItem r it
  if (p.ring r).more then p else p.setHand none

/-- The fields of an item that is no message. -/
def noFields : MsgFields where
  cls := none
  car := 0
  len := 0
  hdr := 0
  sumStart := none
  stamp := none
  lifetime := 0

/-- A descriptor that begins an item (R90, R92, R96). `first` is its index. -/
def Part.beginItem (p : Part) (r : RingId) (first : Word) (d : Descriptor) : Part :=
  match d with
  | .message m =>
    p.readOn r
      { first := first, count := 1, fields := m, pieces := [], table := none, broken := false, stage := .collecting }
  | .data _ _ _ _ _ => p.finishItem r first 1 .badDescriptor
  | .directive none => p.finishItem r first 1 .badDescriptor
  | .directive (some x) =>
    p.keepItem r
      { first := first, count := 1, fields := noFields, pieces := [], table := none, broken := false
        stage := .handed x }
  | .unknown => p.finishItem r first 1 .wrongRing

/-- A DATA descriptor of a message that is not broken so far (R90, R91). `it` counts it already. -/
def Part.takeData (p : Part) (r : RingId) (it : OpenItem) (last indirect : Bool) (count : Nat) (a : Addr)
    (len : Nat) : Part :=
  if indirect then
    if it.count = 2 ∧ last = true then
      if gatherOk count a then
        p.keepItem r { it with
          table := some { addr := a, count := count }
          stage := .gathering { addr := a, count := count, entries := 0, words := [] } }
      else p.judgeItem r { it with broken := true }
    else p.readOn r { it with broken := true }
  else if 9 < it.count then p.readOn r { it with broken := true }
  else
    let it := { it with pieces := it.pieces ++ [{ addr := a, len := len }] }
    if last then p.judgeItem r it else p.readOn r it

/-- A descriptor read for an open message (R90). A non-DATA descriptor before END breaks the message just
before it and begins the next item (log 18). -/
def Part.extendItem (p : Part) (r : RingId) (it : OpenItem) (d : Descriptor) : Part :=
  match d with
  | .data last indirect count a len =>
    let it := { it with count := it.count + 1 }
    if it.broken then p.readOn r it else p.takeData r it last indirect count a len
  | d => (p.setRing r { p.ring r with kept := some d }).judgeItem r { it with broken := true }

/-- A whole descriptor taken by the engine; it stands just before read (R88, R90). -/
def Part.takeDescriptor (p : Part) (r : RingId) (d : Descriptor) : Part :=
  match (p.ring r).item with
  | none => p.beginItem r ((p.ring r).read - 1) d
  | some it => p.extendItem r it d

/-! ### Choosing a ring (R89) -/

/-- Whether a ring has an item that can go on (R89). -/
def Part.canGoOn (p : Part) (r : RingId) : Bool :=
  let x := p.ring r
  match x.item with
  | none => x.kept.isSome || x.more
  | some it =>
    match it.stage with
    | .collecting => x.more
    | .stalled => p.hasRoom it.fields.cls
    | .gathering _ => false
    | .handed _ => false

/-- The ring a free engine serves next (R89). -/
def Part.nextRing (p : Part) : Option RingId :=
  if p.canGoOn .urgent then some .urgent else if p.canGoOn .general then some .general else none

/-- The engine turns to a ring (R89): a stalled item takes its allocation step again, a kept descriptor begins
its item, and otherwise the next read is to be made. -/
def Part.serve (p : Part) (r : RingId) : Part :=
  let p := p.setHand (some r)
  let x := p.ring r
  match x.item with
  | some it =>
    match it.stage with
    | .stalled => p.allocStep r it
    | _ => p
  | none =>
    match x.kept with
    | some d => (p.setRing r { x with kept := none }).takeDescriptor r d
    | none => p

/-- The engine, while it is free and RUNNING, serves ring after ring until it has an item in hand or none can
go on (R89). Each round but the last uses up a stalled item or a kept descriptor, so four rounds suffice. -/
def Part.engineRounds : Nat → Part → Part
  | 0, p => p
  | n + 1, p =>
    if p.anchor.node = .running ∧ p.adm.inHand = none then
      match p.nextRing with
      | none => p
      | some r => Part.engineRounds n (p.serve r)
    else p

/-- The engine's choice (R89). -/
def Part.engine (p : Part) : Part := Part.engineRounds 4 p

/-! ### Arrivals at the engine -/

/-- A pending request of the engine withdrawn (log 23). -/
def Part.withdrawAdmission (p : Part) (k : TurnKind) : Part :=
  if p.arb.admission = some k then { p with arb := { p.arb with admission := none } } else p

/-- A tail word write taken from the Bus Path (R87). A descriptor not yet begun that the tail now leaves out
is not read, so the engine is free again. -/
def Part.offerTail (p : Part) (r : RingId) (t : Word) : Part :=
  if (p.ring r).tailOk (p.setup.downRing r).size t then
    let p := p.setRing r { p.ring r with tail := t }
    let x := p.ring r
    let reading := match x.item with
      | none => true
      | some it => it.stage = .collecting
    (if p.adm.inHand = some r ∧ reading = true ∧ x.words = none ∧ x.more = false then p.setHand none
      else p).engine
  else p

/-- The word of a descriptor read that has completed (R88, log 16). -/
def Part.descriptorWord (p : Part) (w : Word) : Part :=
  match p.adm.inHand with
  | none => p
  | some r =>
    let x := p.ring r
    match x.words with
    | none => p
    | some ws =>
      if ws.length + 1 < 8 then p.setRing r { x with words := some (ws ++ [w]) }
      else ((p.setRing r { x with words := none }).takeDescriptor r (parseDescriptor (ws ++ [w]))).engine

/-- The word of a gather table read that has completed (R91, log 16). -/
def Part.gatherWord (p : Part) (w : Word) : Part :=
  match p.adm.inHand with
  | none => p
  | some r =>
    match (p.ring r).item with
    | none => p
    | some it =>
      match it.stage with
      | .gathering g =>
        if g.words.length + 1 < 4 then
          p.keepItem r { it with stage := .gathering { g with words := g.words ++ [w] } }
        else
          let it := { it with pieces := it.pieces ++ [parseGatherEntry (g.words ++ [w])] }
          if g.entries + 1 < g.count then
            p.keepItem r { it with stage := .gathering { g with entries := g.entries + 1, words := [] } }
          else (p.judgeItem r it).engine
      | _ => p

/-- The directive that has been handed to its owner, with its ring and item (R96). -/
def Part.handed (p : Part) : Option (RingId × OpenItem × Directive) :=
  match p.adm.inHand with
  | none => none
  | some r =>
    match (p.ring r).item with
    | none => none
    | some it =>
      match it.stage with
      | .handed d => some (r, it, d)
      | _ => none

/-- The owner's answer finishes the directive (R96). -/
def Part.answerDirective (p : Part) (r : RingId) (it : OpenItem) (st : Status) : Part :=
  (p.finishItem r it.first it.count st).engine

/-! ### Write-backs and done words (R98–R101) -/

/-- An item marked written in its ring's item list (R98, R100). -/
def DownRing.markWritten (x : DownRing) (first : Word) : DownRing :=
  { x with items := x.items.map (fun e => if e.first = first then { e with written := true } else e) }

/-- The leading written items leave the list, and done moves past their descriptors; a done-word write is then
owed (R101). -/
def DownRing.passDone (x : DownRing) : DownRing :=
  let out := x.items.takeWhile ListItem.written
  if out.isEmpty then x
  else
    { x with
      items := x.items.dropWhile ListItem.written
      done := x.done + BitVec.ofNat 16 ((out.map ListItem.count).sum)
      doneOwed := true }

/-- The answer lists without the names of a record that is freed (R111, log 44): the place may go to another record,
which no list has named. -/
def Part.forgetName (p : Part) (i : PoolId) : Part :=
  { p with
    pool := { p.pool with
      answers := p.pool.answers.map (fun l => { l with records := l.records.filter (fun x => x.1 ≠ i) }) } }

/-- A status write-back completed (R98, R100, R101): the oldest entry of the list is carried out; a record is
freed, no answer list names it any more (R124), and a DRAINING entry of its car is judged again (R44). -/
def Part.wroteBack (p : Part) : Part :=
  match p.adm.writeBacks with
  | [] => p
  | w :: ws =>
    let p := { p with adm := { p.adm with writeBacks := ws } }
    match w with
    | .item r first _ => (p.setRing r ((p.ring r).markWritten first).passDone).engine
    | .record i =>
      match p.record i with
      | none => p
      | some m =>
        let p := ((p.setRecord i none).forgetName i).tryFree m.sid
        (p.setRing m.ring ((p.ring m.ring).markWritten m.first).passDone).engine

/-! ### HALT (R106) -/

/-- A ring at a HALT: its open item is abandoned and read returns to admitted. DESIGN CHOICE (log 20): so is a
directive handed to its owner and not yet taken, of which the manual does not speak: it is not carried out. -/
def DownRing.halted (x : DownRing) : DownRing :=
  { x with read := x.admitted, item := none, words := none, kept := none }

/-- A turn of the engine that reads for an item is abandoned (R106): it completes and is dropped. -/
def Turn.dropReads (t : Turn) : Turn :=
  if t.kind = .descRead ∨ t.kind = .gatherRead then { t with abandoned := true } else t

/-- The Admission Engine stops admitting (R106). -/
def Part.haltAdmission (p : Part) : Part :=
  let p := (p.withdrawAdmission .descRead).withdrawAdmission .gatherRead
  { p with
    adm := { p.adm with urgent := p.adm.urgent.halted, general := p.adm.general.halted, inHand := none }
    arb := { p.arb with turn := p.arb.turn.map Turn.dropReads } }

/-- The engine's teardown condition (R106). -/
def Part.admissionDown (p : Part) : Bool :=
  p.adm.writeBacks.isEmpty && p.freeRecords = 96
    && !p.adm.urgent.doneOwed && !p.adm.general.doneOwed
    && p.adm.urgent.done = p.adm.urgent.admitted && p.adm.general.done = p.adm.general.admitted

end Sys2Proof.Machine
end

