-- ==== Sys2Proof/Machine/Anchor.lean ====
section
/-!
DEFINITION. The Anchor Unit (chapter 9): START and HALT, loading setup, the load's success, the taking of a
HALT at a frame boundary and the teardown.
-/

namespace Sys2Proof.Machine

/-! ### Turns and requesters (R159) -/

/-- The requester of a turn (R159). -/
def TurnKind.requester : TurnKind → Requester
  | .deposit => .uplink
  | .entryWord => .uplink
  | .headWord => .uplink
  | .fetch => .transmit
  | .setupRead => .anchor
  | .anchorStatus => .anchor
  | .descRead => .admission
  | .gatherRead => .admission
  | .doneRead => .admission
  | .writeBack => .admission
  | .doneWord _ => .admission
  | .imageWord => .image
  | .eventWord => .event

/-- The pending request of a requester (R159). -/
def Arbiter.pend (a : Arbiter) : Requester → Option TurnKind
  | .uplink => a.uplink
  | .transmit => a.transmit
  | .anchor => a.anchor
  | .admission => a.admission
  | .image => a.image
  | .event => a.event

/-- The pending request of a requester set or removed. -/
def Arbiter.setPend (a : Arbiter) (q : Requester) (k : Option TurnKind) : Arbiter :=
  match q with
  | .uplink => { a with uplink := k }
  | .transmit => { a with transmit := k }
  | .anchor => { a with anchor := k }
  | .admission => { a with admission := k }
  | .image => { a with image := k }
  | .event => { a with event := k }

/-- A requester has a request pending or its turn in progress, and so posts no other (R159). -/
def Arbiter.busy (a : Arbiter) (q : Requester) : Bool :=
  (a.pend q).isSome || a.turn.any (fun t => t.kind.requester = q)

/-! ### The status word, START and HALT (R168–R170) -/

/-- The status value changed, its write owed (R169). -/
def Part.setStatus (p : Part) (c : StatusCode) (r : Reason) : Part :=
  { p with anchor := { p.anchor with status := { code := c, reason := r }, statusOwed := true } }

/-- START taken (R168, R170): in PASSIVE a load begins; in any other state it is ignored. -/
def Part.takeStart (p : Part) : Part :=
  match p.anchor.node with
  | .passive =>
    Part.setNode
      (Part.setStatus
        { p with
          anchor := { p.anchor with load := some { address := [], record := [], sum := 0, passed := none } }
          adm := { p.adm with loadReads := [] } } .loading .none) .loading
  | _ => p

/-- A turn of a load, abandoned: it completes on the memory side and its data is discarded (R168). -/
def Turn.dropLoad (t : Turn) : Turn :=
  if t.kind = .setupRead ∨ t.kind = .doneRead then { t with abandoned := true } else t

/-- The requests and the turn of a load given up (R168, log 35). -/
def Arbiter.dropLoad (a : Arbiter) : Arbiter :=
  { a with
    anchor := if a.anchor = some .setupRead then none else a.anchor
    admission := if a.admission = some .doneRead then none else a.admission
    turn := a.turn.map Turn.dropLoad }

/-- HALT taken (R168): in LOADING the load is abandoned and the node is PASSIVE; in RUNNING the halt request
is set and nothing else changes; in PASSIVE and HALTING it is ignored. -/
def Part.takeHaltCode (p : Part) : Part :=
  match p.anchor.node with
  | .loading =>
    Part.setNode
      (Part.setStatus
        { p with
          anchor := { p.anchor with load := none }
          adm := { p.adm with loadReads := [] }
          arb := p.arb.dropLoad } .abandoned .none) .passive
  | .running => { p with anchor := { p.anchor with haltReq := true } }
  | _ => p

/-- A value handed over from the anchor command word (R168). -/
def Part.anchorCommand (p : Part) (v : Word) : Part :=
  if v = Config.startCode then p.takeStart
  else if v = Config.haltCode then p.takeHaltCode
  else p

/-! ### Loading (R170–R173) -/

/-- A load that fails (R171): the node is PASSIVE, status REJECTED with the reason is owed, and no block is
initialised. -/
def Part.rejectLoad (p : Part) (why : Reason) : Part :=
  Part.setNode (Part.setStatus { p with anchor := { p.anchor with load := none } } .rejected why) .passive

/-- A load in progress replaced. -/
def Part.setLoad (p : Part) (l : Load) : Part := { p with anchor := { p.anchor with load := some l } }

/-- A word of a setup read that has completed (R170, R171, R172). -/
def Part.setupWord (p : Part) (w : Word) : Part :=
  match p.anchor.load with
  | none => p
  | some l =>
    match l.address with
    | [] => p.setLoad { l with address := [w] }
    | [lo] =>
      match setupPlaceFailure (setupBase lo w) with
      | some why => p.rejectLoad why
      | none => p.setLoad { l with address := [lo, w] }
    | _ =>
      let l := { l with record := l.record ++ [w], sum := onesAdd l.sum w }
      if l.record.length < 32 then p.setLoad l
      else
        match setupFailure l.record l.sum with
        | some why => p.rejectLoad why
        | none => p.setLoad { l with passed := some (parseSetup l.record) }

/-- The successful load (R173): every block takes its START values, the map is armed, the node is RUNNING and
status RUNNING is owed. `x` and `y` are the done words read of the urgent and the general ring (R105). -/
def Part.loadSuccess (p : Part) (u : Setup) (x y : Word) : Part :=
  Part.setNode
    (Part.setStatus
      { anchor := { p.anchor with
          haltReq := false, load := none, setup := some u
          marks := { admission := false, uplink := false, image := false, event := false } }
        bus := { map := some (windowMap u), armed := true, guardedWrites := 0 }
        arb := { p.arb with lastLow := .event }
        timer := FrameTimer.reset
        port := { order := none, answer := none }
        due := FrameWorkDue.nothing
        roster := { Roster.fresh u.defaultWeight with
          entries := Vector.replicate 48 { Entry.blank u.defaultWeight with dirty := true } }
        image := ImageWriter.reset
        planner := Planner.reset
        adm := Admission.fresh x y
        pool := Pool.reset
        tx := Transmit.reset
        uplink := Uplink.fresh u.uplinkStart
        ev := EventWriter.fresh u.eventStart } .running .none) .running

/-- A done word read that has completed in LOADING (R105): after the second the load succeeds. -/
def Part.doneWordRead (p : Part) (w : Word) : Part :=
  match p.anchor.load with
  | none => p
  | some l =>
    match l.passed, p.adm.loadReads with
    | some u, x :: _ => p.loadSuccess u x w
    | some _, [] => { p with adm := { p.adm with loadReads := [w] } }
    | none, _ => p

/-! ### The HALT at a frame boundary (R24, R174) -/

/-- The Frame Timer stops at a HALT (R24). The frame and slot numbers keep their values, and a result not yet
taken stays to be taken (R132). -/
def Part.haltTimer (p : Part) : Part :=
  { p with
    timer := { p.timer with
      underWay := false, substate := .off, silence := .none, faultRun := 0, resumed := false
      carried := none, beaconDue := false, schedWithheld := false }
    port := { order := none, answer := none }
    due := { FrameWorkDue.nothing with results := p.due.results } }

/-- The halt request taken at a frame boundary (R174): the last slot is settled, its result is taken first or left for
after (R132, R154), the node is HALTING, status HALTING is owed, and each block does its own HALT work. DESIGN CHOICE
(log 28): the empty plan of R85 holds the frame number the Frame Timer holds. DESIGN CHOICE (log 48): the pass of R52
is begun after every entry is drained (R45), so its first snapshot shows drained entries. -/
def Part.takeHalt (p : Part) (resultFirst : Bool) : Part :=
  let p := if p.timer.underWay then (p.settleSlot).1 else p
  let p := (if resultFirst then p.takeOldest else p).haltTimer
  let p := { p with
    anchor := { p.anchor with
      haltReq := false
      marks := { admission := false, uplink := false, image := false, event := false } } }
  let p := (p.setNode .halting).setStatus .halting .none
  let p := p.haltAdmission.haltTransmit.haltRoster p.timer.frame
  Part.passDue
    { p with
      planner := { p.planner with plan := Plan.blank p.timer.frame }
      pool := { p.pool with answers := [] } }

/-! ### Teardown (R174) -/

/-- The Uplink Assembler's teardown condition (R154). -/
def Uplink.down (u : Uplink) : Bool :=
  u.staging.isEmpty && u.entryWrites.isEmpty && u.head = u.producer && !u.headOwed

/-- The Event Writer's teardown condition (R182): the results of the last slot are taken and every accepted
record is written. -/
def Part.eventDown (p : Part) : Bool := p.due.results.isEmpty && p.ev.writes.isEmpty

/-- A requester has a request pending, or a turn in progress that it has not abandoned: work of its own is still to be
made (R174, log 29). -/
def Arbiter.working (a : Arbiter) (q : Requester) : Bool :=
  (a.pend q).isSome || a.turn.any (fun t => t.kind.requester = q && !t.abandoned)

/-- The report marks as they stand after every report now due (R106, R154, R174, R182). A block reports once the last
write of its own is made (log 29); a read it abandoned at the HALT holds no report back. -/
def Part.reports (p : Part) : TeardownMarks where
  admission := p.anchor.marks.admission || (p.admissionDown && !p.arb.working .admission)
  uplink := p.anchor.marks.uplink || (p.uplink.down && !p.arb.working .uplink)
  image := p.anchor.marks.image
  event := p.anchor.marks.event || (p.eventDown && !p.arb.working .event)

/-- All four reports have arrived (R174). -/
def TeardownMarks.all (m : TeardownMarks) : Bool := m.admission && m.uplink && m.image && m.event

/-- In HALTING the reports due are marked; with the last of the four, status HALTED is owed (R174). -/
def Part.teardown (p : Part) : Part :=
  if p.anchor.node = .halting ∧ p.anchor.status.code ≠ .halted then
    let m := p.reports
    let p := { p with anchor := { p.anchor with marks := m } }
    if m.all then p.setStatus .halted .none else p
  else p

/-- An anchor status write completed (R169, R174): that of HALTED makes the node PASSIVE and disarms the map
(R166). -/
def Part.statusWritten (p : Part) (t : Option TurnData) : Part :=
  if p.anchor.node = .halting ∧ t = some (.word (statusWord { code := .halted, reason := .none })) then
    Part.setNode { p with bus := { p.bus with armed := false } } .passive
  else p

end Sys2Proof.Machine
end

