-- ==== Sys2Proof/Machine/Bus.lean ====
section
/-!
DEFINITION. The Memory Turn Arbiter and the Bus Path (chapter 8): posting and granting of turns, their
completion, node-controller cycles and their windows, and what happens on a bus after every command.
-/

namespace Sys2Proof.Machine

/-! ### Requests (R102, R112, R147, R159, R169, R178) -/

/-- The engine's next request (R102, R105): in LOADING a done-word read; then the oldest write-back, an owed
done-word write, and the next read of the item in hand. -/
def Part.admissionNext (p : Part) : Option TurnKind :=
  match p.anchor.load with
  | some l => l.passed.map (fun _ => .doneRead)
  | none =>
    if !p.adm.writeBacks.isEmpty then some .writeBack
    else if p.adm.urgent.doneOwed then some (.doneWord .urgent)
    else if p.adm.general.doneOwed then some (.doneWord .general)
    else
      match p.adm.inHand with
      | none => none
      | some r =>
        let x := p.ring r
        let read := if x.words.isSome || x.more then some TurnKind.descRead else none
        match x.item with
        | none => read
        | some it =>
          match it.stage with
          | .collecting => read
          | .gathering _ => some .gatherRead
          | .stalled => none
          | .handed _ => none

/-- The Anchor Unit's next request: an owed status write goes before a setup read (R169, R170, log 15). -/
def AnchorUnit.next (a : AnchorUnit) : Option TurnKind :=
  if a.statusOwed then some .anchorStatus
  else
    match a.load with
    | some l => if l.passed.isNone then some .setupRead else none
    | none => none

/-- What a requester would request next. -/
def Part.wants (p : Part) : Requester → Option TurnKind
  | .uplink => p.uplink.next
  | .transmit => p.tx.fetching.map (fun _ => .fetch)
  | .anchor => p.anchor.next
  | .admission => p.admissionNext
  | .image => p.image.writing.map (fun _ => .imageWord)
  | .event => if p.ev.writes.isEmpty then none else some .eventWord

/-- A descriptor whose reading begins: read moves past it (R86, R87, log 19). -/
def Part.beginRead (p : Part) : Part :=
  match p.adm.inHand with
  | none => p
  | some r =>
    let x := p.ring r
    match x.words with
    | none => p.setRing r { x with words := some [], read := x.read + 1 }
    | some _ => p

/-- A requester with nothing pending and no turn in progress posts its next request (R159). -/
def Part.postOne (p : Part) (q : Requester) : Part :=
  if p.arb.busy q then p
  else
    match p.wants q with
    | none => p
    | some k =>
      let p := { p with arb := p.arb.setPend q (some k) }
      if k = .descRead then p.beginRead else p

/-- The requesters. -/
def requesters : List Requester := [.uplink, .transmit, .anchor, .admission, .image, .event]

/-- Every requester posts (R159). -/
def Part.post (p : Part) : Part := requesters.foldl Part.postOne p

/-! ### The turn of a request (R113, R146, R149, R160, R170, R178, 11.2) -/

/-- The address of the next word of a load (R170). DESIGN CHOICE (log 45): of the two setup address words the one at
the lower address is read first; R170 orders only the words of the record. -/
def Load.nextAddr (l : Load) : Addr :=
  match l.address with
  | lo :: hi :: _ => setupBase lo hi + BitVec.ofNat 24 (2 * l.record.length)
  | [_] => Config.setupAddress + 2
  | [] => Config.setupAddress

/-- The byte address a fetch turn reads from: of the gather table while it is read again, then of the fragment's
next byte (R88, R113). -/
def Part.fetchTarget (p : Part) : Addr :=
  match p.tx.fetching with
  | none => 0
  | some e =>
    match p.tx.staging.find? (fun g => g.slot = e.slot), p.record e.record with
    | some g, some r =>
      match g.reread with
      | some x => x.table.addr + BitVec.ofNat 24 (8 * x.pieces.length + 2 * x.words.length)
      | none => (e.nextFetch r.pieces g.bytes.length).1
    | _, _ => 0

/-- The address of descriptor `i` of a downlink ring (11.2). -/
def Part.descriptorAddr (p : Part) (r : RingId) (i : Word) : Addr := ringEntry (p.setup.downRing r) i

/-- The address of the word of a descriptor read that comes next (log 16). -/
def Part.descReadAddr (p : Part) : Addr :=
  match p.adm.inHand with
  | none => 0
  | some r =>
    let x := p.ring r
    p.descriptorAddr r (x.read - 1) + BitVec.ofNat 24 (2 * (x.words.getD []).length)

/-- The address of the word of a gather table read that comes next (R91, 11.2, log 16). -/
def Part.gatherAddr (p : Part) : Addr :=
  match p.adm.inHand with
  | none => 0
  | some r =>
    match (p.ring r).item with
    | some { stage := .gathering g, .. } => g.addr + BitVec.ofNat 24 (8 * g.entries + 2 * g.words.length)
    | _ => 0

/-- The done word of a ring (11.2). -/
def doneAddr (u : Setup) (r : RingId) : Addr := (u.downRing r).base + 2

/-- The done word a load reads next, the urgent ring's first (R105, log 17). -/
def Part.doneReadAddr (p : Part) : Addr :=
  match p.anchor.load with
  | some { passed := some u, .. } => doneAddr u (if p.adm.loadReads.isEmpty then .urgent else .general)
  | _ => 0

/-- The status byte that the oldest write-back writes and its code (R98, R100, R183). -/
def Part.writeBackTurn (p : Part) : Addr × TurnData :=
  match p.adm.writeBacks with
  | [] => (0, .byte 0)
  | .item r first st :: _ => (p.descriptorAddr r first + 1, .byte (BitVec.ofNat 8 (statusCode st)))
  | .record i :: _ =>
    match p.record i with
    | none => (0, .byte 0)
    | some m =>
      (p.descriptorAddr m.ring m.first + 1,
        .byte (BitVec.ofNat 8 ((m.outcome.map statusCode).getD 0)))

/-- The next word of the oldest entry write (R147, 11.2). -/
def Part.entryTurn (p : Part) : Addr × TurnData :=
  match p.uplink.entryWrites with
  | [] => (0, .word 0)
  | i :: _ =>
    let n := p.uplink.entryWord.getD 0
    match p.uplink.claims.find? (fun c => c.index = i) with
    | none => (0, .word 0)
    | some c =>
      (ringEntry p.setup.uplink i + BitVec.ofNat 24 (2 * n), .word ((uplinkWords c).getD n 0))

/-- The next deposit of the oldest staging place (R146). -/
def Part.depositTurn (p : Part) : Addr × TurnData :=
  match p.uplink.staging with
  | [] => (0, .byte 0)
  | g :: _ =>
    let a := bufferAddr p.setup g.index g.offset
    (a, g.deposit a)

/-- The next turn of the record at the head of the write list: its eight words, then the producer word
(R178). -/
def Part.eventTurn (p : Part) : Addr × TurnData :=
  match p.ev.writes with
  | [] => (0, .word 0)
  | r :: _ =>
    if p.ev.word < 8 then
      (ringEntry p.setup.event p.ev.producer + BitVec.ofNat 24 (2 * p.ev.word),
        .word ((eventWords r).getD p.ev.word 0))
    else (p.setup.event.base, .word (p.ev.producer + 1))

/-- The next turn of the image record in hand (R50). -/
def Part.imageTurn (p : Part) : Addr × TurnData :=
  match p.image.writing with
  | none => (0, .word 0)
  | some x =>
    let (a, w) := p.image.nextWord p.setup.guarded x
    (a, .word w)

/-- A read turn at the word that holds an address (R160). -/
def readTurn (a : Addr) : Addr × Option TurnData := (wordBase a, none)

/-- A write turn. -/
def writeTurn (x : Addr × TurnData) : Addr × Option TurnData := (x.1, some x.2)

/-- The address of a granted turn and what it writes, as the state stands at the grant (log 14). -/
def Part.turnOf (p : Part) : TurnKind → Addr × Option TurnData
  | .deposit => writeTurn p.depositTurn
  | .entryWord => writeTurn p.entryTurn
  | .headWord => writeTurn (p.setup.uplink.base, .word p.uplink.head)
  | .fetch => readTurn p.fetchTarget
  | .setupRead => readTurn ((p.anchor.load.map Load.nextAddr).getD 0)
  | .anchorStatus => writeTurn (Config.anchorStatus, .word (statusWord p.anchor.status))
  | .descRead => readTurn p.descReadAddr
  | .gatherRead => readTurn p.gatherAddr
  | .doneRead => readTurn p.doneReadAddr
  | .writeBack => writeTurn p.writeBackTurn
  | .doneWord r => writeTurn (doneAddr p.setup r, .word (p.ring r).done)
  | .imageWord => writeTurn p.imageTurn
  | .eventWord => writeTurn p.eventTurn

/-! ### Granting (R158, R159) -/

/-- The requester served at level 4 (R159): when both have a request, the one the mark does not name. -/
def Arbiter.lowest (a : Arbiter) : Option Requester :=
  match a.image, a.event with
  | some _, some _ => some (if a.lastLow = .image then .event else .image)
  | some _, none => some .image
  | none, some _ => some .event
  | none, none => none

/-- The arbiter's choice among the pending requests, by level (R159). -/
def Arbiter.choose (a : Arbiter) : Option Requester :=
  if a.uplink.isSome then some .uplink
  else if a.transmit.isSome then some .transmit
  else if a.anchor.isSome then some .anchor
  else if a.admission.isSome then some .admission
  else a.lowest

/-- A write that is carried out at its grant is owed no longer (R101, R151, R169). -/
def Part.carryOut (p : Part) : TurnKind → Part
  | .anchorStatus => { p with anchor := { p.anchor with statusOwed := false } }
  | .headWord => { p with uplink := { p.uplink with headOwed := false } }
  | .doneWord r => p.setRing r { p.ring r with doneOwed := false }
  | _ => p

/-- The lowest-level mark after a grant (R159). -/
def lowMark (q last : Requester) : Requester :=
  match q with
  | .image => .image
  | .event => .event
  | _ => last

/-- The next part turn granted (R158, R159). -/
def Part.grant (p : Part) : Part :=
  match p.arb.choose with
  | none => p
  | some q =>
    match p.arb.pend q with
    | none => p
    | some k =>
      let x := p.turnOf k
      let p := p.carryOut k
      { p with
        arb := { p.arb.setPend q none with
          turn := some { kind := k, addr := x.1, write := x.2, abandoned := false }
          lastLow := lowMark q p.arb.lastLow } }

/-! ### After a command -/

/-- What follows in the part from a change of its state: a fetch that finds room begins (R112), a pass due in
HALTING begins (R52), teardown reports are made (R174), and requests are posted (R159). -/
def Part.follow (p : Part) : Part :=
  (Part.teardown (Part.haltingPass { p with tx := p.tx.startFetch })).post

/-- The part after a command: the pool takes the records handed to it or lets them wait (R95, log 21), what follows
is posted, and the next turn is granted when the bus is idle (R158). DEDUCED (log 42): the requester whose turn has
just ended posts its next request before that grant, and so competes in it. -/
def State.pump (s : State) : State :=
  let p := (s.part.takeHandoffs s.free).follow
  { s with
    free := if s.part.pool.handed = [] then s.free else s.free + 1
    part := if s.host.isNone ∧ p.arb.turn = none then p.grant else p }

/-- A change of the part and what follows from it. -/
def State.act (s : State) (f : Part → Part) : State := State.pump { s with part := f s.part }

/-! ### Node-controller cycles (R157, R161–R165) -/

/-- The address of a cycle. -/
def accessAddr : Access → Addr
  | .word a => a
  | .byte a => a

/-- The data lines after a read: both lanes of a word access, the one lane of a byte access (R157, log 2). -/
def readLines (m : List Host.Cell) (old : Word) : Access → Word
  | .word a => Mem.readWord m a
  | .byte a =>
    let b := Mem.read m a.toNat
    if a.getLsbD 0 then wordOf (lowByte old) b else wordOf b (highByte old)

/-- Memory after a write on the lanes the cycle uses (R157). -/
def writeLines (m : List Host.Cell) (w : Word) : Access → List Host.Cell
  | .word a => Mem.writeWord m a w
  | .byte a => Mem.writeByte m a (lowByte w)

/-- The watched word a ring-header address is, by the map (R156). -/
def WindowMap.watched (m : WindowMap) (a : Addr) : Option Watched :=
  if a = m.urgentTail then some (.tail .urgent)
  else if a = m.generalTail then some (.tail .general)
  else if a = m.uplinkConsumer then some .uplinkConsumer
  else if a = m.eventConsumer then some .eventConsumer
  else if a = m.level then some .level
  else none

/-- The map in force: the loaded one while it is armed (R156, R166). -/
def BusPath.window (b : BusPath) : Option WindowMap := if b.armed then b.map else none

/-- The owner a write is handed to, as the node state at the taking of the cycle decides (R162, R163). -/
def Part.handTo (p : Part) : Access → Option Watched
  | .byte _ => none
  | .word a =>
    if wordBase a = Config.anchorCommand then some .anchor
    else if p.anchor.node = .running then p.bus.window.bind (fun m => m.watched (wordBase a))
    else none

/-- The byte offset of an address within the guarded region, when it lies there (R156, R164). -/
def Part.guardedOffset (p : Part) (a : Addr) : Option Nat :=
  p.bus.window.bind (fun m =>
    let d := (a - m.guarded).toNat
    if d < Config.guardedSize then some d else none)

/-- The offset of a write that is withheld (R164): the node is RUNNING or HALTING and the write lies in the
guarded region. -/
def Part.withheldAt (p : Part) (a : Access) : Option Nat :=
  if p.anchor.node = .running ∨ p.anchor.node = .halting then p.guardedOffset (accessAddr a) else none

/-- A withheld write counted, with its GUARD_WRITE submitted while RUNNING (R165). -/
def Part.countGuarded (p : Part) (offset : Nat) : Part :=
  let n := satInc p.bus.guardedWrites
  let p := { p with bus := { p.bus with guardedWrites := n } }
  if p.anchor.node = .running then
    p.submit false (nodeEvent .guardWrite p.timer.frame (BitVec.ofNat 16 offset) (BitVec.ofNat 16 n))
  else p

/-- A written value handed to its owner (R162). -/
def Part.deliver (p : Part) (v : Word) : Watched → Part
  | .anchor => p.anchorCommand v
  | .tail r => p.offerTail r v
  | .uplinkConsumer => { p with uplink := p.uplink.consume v }
  | .eventConsumer => p.eventConsume v
  | .level => p.setLevel v

/-- A cycle passed to memory: a read returns data, a write reaches memory unless it is withheld, and a write
handed over reaches its owner (R157, R162, log 10). -/
def State.perform (s : State) (c : HostCycle) : State :=
  let s := { s with host := some { c with held := false } }
  match c.write with
  | none => { s with hostData := readLines s.mem s.hostData c.access }
  | some w =>
    if c.withheld then s
    else
      { s with
        mem := writeLines s.mem w c.access
        part := match c.handTo with
          | none => s.part
          | some x => s.part.deliver w x }

/-- A cycle as the Bus Path takes it (R157, R163, R164). While RESET is low the path is straight through
(R167). -/
def State.newCycle (s : State) (a : Access) (w : Option Word) : HostCycle :=
  if s.resetPin = .lowTaken then { access := a, write := w, handTo := none, withheld := false, held := false }
  else
    { access := a, write := w
      handTo := if w.isSome then s.part.handTo a else none
      withheld := w.isSome && (s.part.withheldAt a).isSome
      held := s.part.arb.turn.isSome }

/-- The part after the taking of a cycle: a withheld write is counted (R165). -/
def State.takenPart (s : State) (a : Access) (c : HostCycle) : Part :=
  if c.withheld then s.part.countGuarded ((s.part.withheldAt a).getD 0) else s.part

/-- A node-controller cycle begins (R157): it is passed to memory at once when no part turn is in progress,
else held by READY. A cycle that begins before the one before it has ended stops the model (log 7). -/
def State.takeCycle (s : State) (a : Access) (w : Option Word) : Host.Outcome State Fault Refusal :=
  match s.host with
  | some _ => .fault .hostCycleOverlap
  | none =>
    let c := s.newCycle a w
    let s := { s with part := s.takenPart a c }
    .next (State.pump (if c.held then { s with host := some c } else s.perform c))

/-- A word write to a ring-header word at its address in the map; without a map no such word exists (R156,
log 33). -/
def State.takeMapped (s : State) (f : WindowMap → Addr) (w : Word) : Host.Outcome State Fault Refusal :=
  match s.part.bus.map with
  | none => .next s
  | some m => s.takeCycle (.word (f m)) (some w)

/-- The end of a node-controller cycle (R158): the bus is free for the part's next turn. -/
def State.endCycle (s : State) : State :=
  match s.host with
  | none => s
  | some c => if c.held then s else State.pump { s with host := none }

/-! ### Completion of a part turn (R158, R160) -/

/-- A cycle held by READY is passed to memory (R157, R158). -/
def State.serveHeld (s : State) : State :=
  match s.host with
  | none => s
  | some c => if c.held then s.perform c else s

/-- Memory after a turn: what a write turn stores (R160). -/
def State.afterTurn (s : State) (t : Turn) : List Host.Cell :=
  match t.write with
  | none => s.mem
  | some d => Mem.store s.mem t.addr d

/-- The turn in progress completes when it is of the completion's kind (R160): memory is written, the
requester takes the completion with the word read unless it abandoned the turn, a held cycle goes to memory,
and the bus goes on by R158, the requester's next request among those it chooses from (log 42). A completion
without such a turn in progress changes nothing (log 6). -/
def State.finishTurn (s : State) (kind : TurnKind → Bool) (f : Part → Turn → Word → Part) : State :=
  match s.part.arb.turn with
  | none => s
  | some t =>
    if kind t.kind then
      let p := { s.part with arb := { s.part.arb with turn := none } }
      let p := if t.abandoned then p else f p t (Mem.readWord s.mem t.addr)
      State.pump (State.serveHeld { s with mem := s.afterTurn t, part := p })
    else s

end Sys2Proof.Machine
end

