-- ==== Sys2Proof/Machine/AirCommands.lean ====
section
/-!
DEFINITION. The commands of the air side: slot boundaries, the modem's answers, the frame-start works with
commands of their own, up slot results and the taking of a HALT (chapters 1, 2, 5, 7 and 9).
-/

namespace Sys2Proof.Machine

/-- The boundary after a slot that is not the last of its frame: the slot is settled and counted, and the next
one begins (R1, R4–R7, R16). -/
def Part.nextSlot (p : Part) : Part :=
  let slot := p.timer.slot
  let x := p.settleSlot
  (x.1.countRun slot p.timer.frame x.2).beginSlot (slot + 1)

/-- The boundary at which a frame starts (R1, R2): the first begins frame 0; each later one settles slot 39
and adds 1 to the frame number. -/
def Part.nextFrame (p : Part) (order : List FrameWork) : Part :=
  if p.timer.underWay then
    let x := p.settleSlot
    x.1.frameStart (p.timer.frame + 1) x.2 order
  else p.frameStart 0 .noOrder order

/-- A frame boundary comes next: no frame is under way, or slot 39 is (R1, R24). -/
def Part.atFrameEnd (p : Part) : Bool := !p.timer.underWay || p.timer.slot = 39

/-- A slot boundary while RUNNING (R1). What the boundary before left to be taken is taken first (log 8, 9).
A frame boundary takes a halt request (R24). -/
def Part.slotBoundary (p : Part) (order : List FrameWork) : Part :=
  let p := p.flushDue
  if p.atFrameEnd then
    if p.anchor.haltReq then p.takeHalt (order.contains .result) else p.nextFrame order
  else p.nextSlot

/-- SLOT_BOUNDARY (R1): in any state but RUNNING no boundary occurs. -/
def execSlotBoundary (order : List FrameWork) (s : State) : Host.Outcome State Fault Refusal :=
  .next (if s.part.anchor.node = .running then s.act (fun p => p.slotBoundary order) else s)

/-- An answer of the modem at the Burst Port (R5). One to an order whose slot has ended, or that a reset has withdrawn,
is discarded as late, also when the slot in progress has an order of its own (R5, R6, R25). DEDUCED (log 49): the
operand says which order the modem answers. -/
def State.answerModem (s : State) (late : Bool) (a : Answer) : State :=
  if late then s else { s with part := { s.part with port := s.part.port.take a } }

/-- SENT (R5). -/
def execSent (s : State) (late : Bool := false) : Host.Outcome State Fault Refusal := .next (s.answerModem late .sent)

/-- HEARD (R5). -/
def execHeard (o : HeardOutcome) (q : BitVec 6) (c : RateClass) (bs : List Byte) (s : State)
    (late : Bool := false) : Host.Outcome State Fault Refusal :=
  .next (s.answerModem late (.heard { outcome := o, q := q, cls := c, bytes := bs }))

/-- FAULT (R5). -/
def execFault (s : State) (late : Bool := false) : Host.Outcome State Fault Refusal := .next (s.answerModem late .fault)

/-- MESSAGE_EXPIRY (R103): the pool takes the frame start that is due to it. -/
def execMessageExpiry (s : State) : Host.Outcome State Fault Refusal :=
  .next (if s.part.due.ageing then s.act (fun p => p.frameWorkThenBeacon .ageing) else s)

/-- GRANT_WAIT_EXPIRY (R34): the Roster Table takes the frame start that is due to it. -/
def execGrantWaitExpiry (s : State) : Host.Outcome State Fault Refusal :=
  .next (if s.part.due.roster then s.act (fun p => p.frameWorkThenBeacon .roster) else s)

/-- SILENCE_STARTS (R20): the Frame Timer takes the frame start at which a pending silence begins. -/
def execSilenceStarts (s : State) : Host.Outcome State Fault Refusal :=
  .next (if s.part.due.timer && s.part.timer.silence.begins s.part.due.frame then
    s.act (fun p => p.frameWorkThenBeacon .timer) else s)

/-- SILENCE_ENDS (R20): the Frame Timer takes the frame start at which the silence in force ends. -/
def execSilenceEnds (s : State) : Host.Outcome State Fault Refusal :=
  .next (if s.part.due.timer && s.part.timer.silence.ends s.part.due.frame then
    s.act (fun p => p.frameWorkThenBeacon .timer) else s)

/-- UPLINK_SLOT_RESULT (R136): the oldest up slot result not yet taken is taken. -/
def execUplinkSlotResult (s : State) : Host.Outcome State Fault Refusal :=
  .next (if s.part.due.results.isEmpty then s else s.act (fun p => p.frameWorkThenBeacon .result))

/-- HALT_TAKEN (R174): the frame boundary after a halt request. Without a request, or before the frame's last
slot, no HALT is taken (log 6). -/
def execHaltTaken (resultFirst : Bool) (s : State) : Host.Outcome State Fault Refusal :=
  .next (if s.part.anchor.node = .running && s.part.anchor.haltReq && s.part.atFrameEnd then
    s.act (fun p => p.flushDue.takeHalt resultFirst) else s)

end Sys2Proof.Machine
end

