-- ==== Sys2Proof/Machine/DirectiveCommands.lean ====
section
/-!
DEFINITION. The directives as their owners take them (R96): each command acts on the directive the Admission
Engine has handed over, when it is of that command's code, and its answer finishes the directive.
-/

namespace Sys2Proof.Machine

/-- The directive in hand taken by its owner: the effect, then the answer, as one arrival (R96, log 20). -/
def State.takeDirective (s : State) (effect : Part → Directive → Option (Part × Status)) : State :=
  match s.part.handed with
  | none => s
  | some (r, it, d) =>
    match effect s.part d with
    | none => s
    | some (p, st) => s.act (fun _ => p.answerDirective r it st)

/-- The silence state replaced by a directive. When that leaves a frame start, due to the Frame Timer, at which no
silence begins or ends any more, it is R20's "any other case", for which no command stands, and the Frame Timer
takes the frame start in the same step (log 8). -/
def Part.setSilence (p : Part) (sil : Silence) : Part :=
  let p := { p with timer := { p.timer with silence := sil } }
  if p.due.timer && !p.ownCommand .timer then p.frameWorkThenBeacon .timer else p

/-- A SILENCE taken by the Frame Timer (R19). -/
def Part.orderSilence (p : Part) (n m : Nat) : Part :=
  p.setSilence (p.timer.silence.order p.timer.frame n m)

/-- A QUIET_END taken by the Frame Timer (R22). -/
def Part.endQuiet (p : Part) : Part := p.setSilence (p.timer.silence.quiet p.timer.frame)

/-- EVICT (R40). -/
def execEvict (s : State) : Host.Outcome State Fault Refusal :=
  .next (s.takeDirective (fun p d => match d with
    | .evict car => some (p.evictCar car)
    | _ => none))

/-- SET_WEIGHT (R41). -/
def execSetWeight (s : State) : Host.Outcome State Fault Refusal :=
  .next (s.takeDirective (fun p d => match d with
    | .setWeight car w => some (p.setCarWeight car w)
    | _ => none))

/-- SET_CAP (R60). -/
def execSetCap (s : State) : Host.Outcome State Fault Refusal :=
  .next (s.takeDirective (fun p d => match d with
    | .setCap car c => some (p.setCarCap car c)
    | _ => none))

/-- PURGE (R97). -/
def execPurge (s : State) : Host.Outcome State Fault Refusal :=
  .next (s.takeDirective (fun p d => match d with
    | .purge car sel => some (p.purge car sel)
    | _ => none))

/-- SILENCE (R19). -/
def execSilence (s : State) : Host.Outcome State Fault Refusal :=
  .next (s.takeDirective (fun p d => match d with
    | .silence n m => some (p.orderSilence n m, .ok)
    | _ => none))

/-- QUIET_END (R22). -/
def execQuietEnd (s : State) : Host.Outcome State Fault Refusal :=
  .next (s.takeDirective (fun p d => match d with
    | .quietEnd => some (p.endQuiet, .ok)
    | _ => none))

end Sys2Proof.Machine
end

