-- ==== Sys2Proof/Machine/HostCommands.lean ====
section
/-!
DEFINITION. The commands of the node controller: its bus cycles, the word writes to the watched words, and the
end of a cycle (chapters 8 and 9). A write is judged by its address, whichever command brings it (log 32).
-/

namespace Sys2Proof.Machine

/-- HOST_READ (R157). -/
def execHostRead (a : Access) (s : State) : Host.Outcome State Fault Refusal := s.takeCycle a none

/-- HOST_WRITE (R161). -/
def execHostWrite (a : Access) (w : Word) (s : State) : Host.Outcome State Fault Refusal :=
  s.takeCycle a (some w)

/-- GUARDED_WRITE (R164). -/
def execGuardedWrite (a : Access) (w : Word) (s : State) : Host.Outcome State Fault Refusal :=
  s.takeCycle a (some w)

/-- START (R170): the word write of START to the anchor command word. -/
def execStart (s : State) : Host.Outcome State Fault Refusal :=
  s.takeCycle (.word Config.anchorCommand) (some Config.startCode)

/-- HALT (R168): the word write of HALT to the anchor command word. -/
def execHalt (s : State) : Host.Outcome State Fault Refusal :=
  s.takeCycle (.word Config.anchorCommand) (some Config.haltCode)

/-- TAIL_WORD_WRITE (R87). -/
def execTailWordWrite (r : RingId) (v : Word) (s : State) : Host.Outcome State Fault Refusal :=
  s.takeMapped (fun m => match r with
    | .urgent => m.urgentTail
    | .general => m.generalTail) v

/-- UPLINK_CONSUMER_WRITE (R152). -/
def execUplinkConsumerWrite (v : Word) (s : State) : Host.Outcome State Fault Refusal :=
  s.takeMapped WindowMap.uplinkConsumer v

/-- EVENT_CONSUMER_WRITE (R179). -/
def execEventConsumerWrite (v : Word) (s : State) : Host.Outcome State Fault Refusal :=
  s.takeMapped WindowMap.eventConsumer v

/-- LEVEL_WORD_WRITE (R180). -/
def execLevelWordWrite (v : Word) (s : State) : Host.Outcome State Fault Refusal :=
  s.takeMapped WindowMap.level v

/-- HOST_CYCLE_END (R158). -/
def execHostCycleEnd (s : State) : Host.Outcome State Fault Refusal := .next s.endCycle

end Sys2Proof.Machine
end

