-- ==== Sys2Proof/Machine/ResetCommands.lean ====
section
/-!
DEFINITION. RESET and its rising edge (R167, R175, R185).
-/

namespace Sys2Proof.Machine

/-- Memory after the turn in progress at a reset (R167): an access that has begun completes, one that has not
is dropped. -/
def State.resetTurn (s : State) (accessBegun : Bool) : List Host.Cell :=
  match s.part.arb.turn with
  | some t => if accessBegun then s.afterTurn t else s.mem
  | none => s.mem

/-- A cycle held by READY is released and passed to memory, handed to no owner and not withheld (R167,
log 11). -/
def State.releaseHeld (s : State) : State :=
  match s.host with
  | none => s
  | some c => if c.held then s.perform { c with handTo := none, withheld := false } else s

/-- A reset taken (R167, R175): every block takes its reset values, and memory keeps what was written. -/
def State.takeReset (s : State) (accessBegun : Bool) : State :=
  State.releaseHeld { s with mem := s.resetTurn accessBegun, part := Part.reset }

/-- RESET (R175, R185): power-on and a pulse of 4 REFCLK cycles or more are taken; a shorter pulse is taken
whole or ignored whole, as a free value says (log 13). -/
def execReset (cause : ResetCause) (accessBegun : Bool) (s : State) : Host.Outcome State Fault Refusal :=
  .next (match cause with
    | .powerOn straps => { s.takeReset accessBegun with resetPin := .high, straps := straps }
    | .pin n =>
      if 4 ≤ n then { s.takeReset accessBegun with resetPin := .lowTaken }
      else if Config.shortPulseTaken s.free then
        { s.takeReset accessBegun with resetPin := .lowTaken, free := s.free + 1 }
      else { s with resetPin := .lowIgnored, free := s.free + 1 })

/-- RESET_RISING_EDGE (R185): the straps are sampled and the straight-through connection ends; the edge of a
pulse that was ignored has no effect. -/
def execResetRisingEdge (straps : BitVec 2) (s : State) : Host.Outcome State Fault Refusal :=
  .next (if s.resetPin = .lowIgnored then { s with resetPin := .high }
    else { s with resetPin := .high, straps := straps })

end Sys2Proof.Machine
end

