-- ==== Sys2Proof/Machine/TurnCommands.lean ====
section
/-!
DEFINITION. The commands that complete part turns: one meaning for each of the thirteen completions
(R160), over `State.finishTurn`.
-/

namespace Sys2Proof.Machine

/-! ### What the requesters do with a completion -/

/-- A deposit written (R146). -/
def Part.depositDone (p : Part) (t : Turn) : Part :=
  { p with uplink := p.uplink.deposited ((t.write.map depositSize).getD 0) }

/-- An uplink entry written whole (R149): its claim is WRITTEN, a DRAINING entry of the car is judged again
(R44), and head moves over the leading written claims (R151). -/
def Part.entryWritten (p : Part) : Part :=
  match p.uplink.entryWrites with
  | [] => p
  | i :: rest =>
    let car := (p.uplink.claims.find? (fun c => c.index = i)).map Claim.sid
    let p := { p with
      uplink :=
        Uplink.editClaim { p.uplink with entryWrites := rest, entryWord := none } i
          (fun c => { c with state := .written }) }
    let p := match car with
      | some k => p.tryFree k
      | none => p
    { p with uplink := p.uplink.passHead }

/-- A word of an uplink entry written (R147, R149): after the eighth the entry is written. -/
def Part.entryWordDone (p : Part) : Part :=
  let n := p.uplink.entryWord.getD 0
  if n < 7 then { p with uplink := { p.uplink with entryWord := some (n + 1) } } else p.entryWritten

/-- The word a write turn stored. -/
def Turn.word (t : Turn) : Word :=
  match t.write with
  | some (.word w) => w
  | _ => 0

/-- A head word written (R151): while RUNNING, UPLINK_READY is submitted with the head written and the entries
held by the node controller. -/
def Part.headWordDone (p : Part) (t : Turn) : Part :=
  if p.anchor.node = .running then
    p.submit false (nodeEvent .uplinkReady p.timer.frame t.word (p.uplink.head - p.uplink.consumer))
  else p

/-- A turn of the record at the head of the write list made (R178): after the producer word the record leaves
the list, producer advances and ATTN is judged (R181). -/
def Part.eventWordDone (p : Part) : Part :=
  match p.ev.writes with
  | [] => p
  | _ :: rest =>
    if p.ev.word < 8 then { p with ev := { p.ev with word := p.ev.word + 1 } }
    else
      Part.judgeAttn { p with ev := { p.ev with word := 0, writes := rest, producer := p.ev.producer + 1 } }

/-! ### The commands -/

/-- UPLINK_DEPOSIT_DONE (R146). -/
def execUplinkDepositDone (s : State) : Host.Outcome State Fault Refusal :=
  .next (s.finishTurn (fun k => k = .deposit) (fun p t _ => p.depositDone t))

/-- UPLINK_ENTRY_WRITE_DONE (R149). -/
def execUplinkEntryWriteDone (s : State) : Host.Outcome State Fault Refusal :=
  .next (s.finishTurn (fun k => k = .entryWord) (fun p _ _ => p.entryWordDone))

/-- HEAD_WORD_WRITE_DONE (R151). -/
def execHeadWordWriteDone (s : State) : Host.Outcome State Fault Refusal :=
  .next (s.finishTurn (fun k => k = .headWord) (fun p t _ => p.headWordDone t))

/-- FRAGMENT_FETCH_DONE (R112). -/
def execFragmentFetchDone (s : State) : Host.Outcome State Fault Refusal :=
  .next (s.finishTurn (fun k => k = .fetch) (fun p _ w => p.takeFetched w))

/-- DESCRIPTOR_READ_DONE (R90). -/
def execDescriptorReadDone (s : State) : Host.Outcome State Fault Refusal :=
  .next (s.finishTurn (fun k => k = .descRead) (fun p _ w => p.descriptorWord w))

/-- GATHER_READ_DONE (R91). -/
def execGatherReadDone (s : State) : Host.Outcome State Fault Refusal :=
  .next (s.finishTurn (fun k => k = .gatherRead) (fun p _ w => p.gatherWord w))

/-- STATUS_WRITE_BACK_DONE (R100). -/
def execStatusWriteBackDone (s : State) : Host.Outcome State Fault Refusal :=
  .next (s.finishTurn (fun k => k = .writeBack) (fun p _ _ => p.wroteBack))

/-- DONE_WORD_WRITE_DONE (R101). The requester only learns that its turn is over. -/
def execDoneWordWriteDone (s : State) : Host.Outcome State Fault Refusal :=
  .next (s.finishTurn (fun k => k = .doneWord .urgent || k = .doneWord .general) (fun p _ _ => p))

/-- DONE_WORD_READ_DONE (R105). -/
def execDoneWordReadDone (s : State) : Host.Outcome State Fault Refusal :=
  .next (s.finishTurn (fun k => k = .doneRead) (fun p _ w => p.doneWordRead w))

/-- SETUP_READ_DONE (R170). -/
def execSetupReadDone (s : State) : Host.Outcome State Fault Refusal :=
  .next (s.finishTurn (fun k => k = .setupRead) (fun p _ w => p.setupWord w))

/-- ANCHOR_STATUS_WRITE_DONE (R169). -/
def execAnchorStatusWriteDone (s : State) : Host.Outcome State Fault Refusal :=
  .next (s.finishTurn (fun k => k = .anchorStatus) (fun p t _ => p.statusWritten t.write))

/-- IMAGE_WRITE_DONE (R50). -/
def execImageWriteDone (s : State) : Host.Outcome State Fault Refusal :=
  .next (s.finishTurn (fun k => k = .imageWord) (fun p _ _ => p.imageWritten))

/-- EVENT_RECORD_WRITE_DONE (R178). -/
def execEventRecordWriteDone (s : State) : Host.Outcome State Fault Refusal :=
  .next (s.finishTurn (fun k => k = .eventWord) (fun p _ _ => p.eventWordDone))

end Sys2Proof.Machine
end

