-- ==== Sys2Proof/Machine/Dispatch.lean ====
section
/-! DEFINITION. The dispatch: one arm for each command, one direct call of its meaning. -/

namespace Sys2Proof.Machine

def exec (i : Instr) (s : State) : Host.Outcome State Fault Refusal :=
  match i with
  | .reset cause b => Sys2Proof.Machine.execReset cause b s
  | .slotBoundary order => Sys2Proof.Machine.execSlotBoundary order s
  | .sent late => Sys2Proof.Machine.execSent s late
  | .heard o q c bs late => Sys2Proof.Machine.execHeard o q c bs s late
  | .fault late => Sys2Proof.Machine.execFault s late
  | .messageExpiry => Sys2Proof.Machine.execMessageExpiry s
  | .grantWaitExpiry => Sys2Proof.Machine.execGrantWaitExpiry s
  | .silenceStarts => Sys2Proof.Machine.execSilenceStarts s
  | .silenceEnds => Sys2Proof.Machine.execSilenceEnds s
  | .uplinkSlotResult => Sys2Proof.Machine.execUplinkSlotResult s
  | .hostRead a => Sys2Proof.Machine.execHostRead a s
  | .hostWrite a w => Sys2Proof.Machine.execHostWrite a w s
  | .guardedWrite a w => Sys2Proof.Machine.execGuardedWrite a w s
  | .start => Sys2Proof.Machine.execStart s
  | .halt => Sys2Proof.Machine.execHalt s
  | .haltTaken f => Sys2Proof.Machine.execHaltTaken f s
  | .tailWordWrite r v => Sys2Proof.Machine.execTailWordWrite r v s
  | .uplinkConsumerWrite v => Sys2Proof.Machine.execUplinkConsumerWrite v s
  | .eventConsumerWrite v => Sys2Proof.Machine.execEventConsumerWrite v s
  | .levelWordWrite v => Sys2Proof.Machine.execLevelWordWrite v s
  | .hostCycleEnd => Sys2Proof.Machine.execHostCycleEnd s
  | .uplinkDepositDone => Sys2Proof.Machine.execUplinkDepositDone s
  | .uplinkEntryWriteDone => Sys2Proof.Machine.execUplinkEntryWriteDone s
  | .headWordWriteDone => Sys2Proof.Machine.execHeadWordWriteDone s
  | .fragmentFetchDone => Sys2Proof.Machine.execFragmentFetchDone s
  | .descriptorReadDone => Sys2Proof.Machine.execDescriptorReadDone s
  | .gatherReadDone => Sys2Proof.Machine.execGatherReadDone s
  | .statusWriteBackDone => Sys2Proof.Machine.execStatusWriteBackDone s
  | .doneWordWriteDone => Sys2Proof.Machine.execDoneWordWriteDone s
  | .doneWordReadDone => Sys2Proof.Machine.execDoneWordReadDone s
  | .setupReadDone => Sys2Proof.Machine.execSetupReadDone s
  | .anchorStatusWriteDone => Sys2Proof.Machine.execAnchorStatusWriteDone s
  | .imageWriteDone => Sys2Proof.Machine.execImageWriteDone s
  | .eventRecordWriteDone => Sys2Proof.Machine.execEventRecordWriteDone s
  | .evict => Sys2Proof.Machine.execEvict s
  | .setWeight => Sys2Proof.Machine.execSetWeight s
  | .setCap => Sys2Proof.Machine.execSetCap s
  | .purge => Sys2Proof.Machine.execPurge s
  | .silence => Sys2Proof.Machine.execSilence s
  | .quietEnd => Sys2Proof.Machine.execQuietEnd s
  | .resetRisingEdge straps => Sys2Proof.Machine.execResetRisingEdge straps s

end Sys2Proof.Machine
end

