-- ==== Sys2Proof/Safety.lean ====
section
/-!
DEFINITION. What counts as a safe state: the invariants of the manual's whole-machine sentences, and the terms
in which statements speak of a step.
-/

namespace Sys2Proof.Machine

/-! ### Terms of statements -/

/-- What follows from the state of the part has followed: no request is owed unposted, no fetch, pass or
teardown report is due (R159, R112, R52, R174). -/
def Part.settled (p : Part) : Prop := p.follow = p

/-- The bus is idle: no node-controller cycle and no part turn (R158). -/
def State.busIdle (s : State) : Prop := s.host = none ∧ s.part.arb.turn = none

/-- No frame-start work is still to be taken, nor any up slot result but one of the frame before that waits through
slots 0 to 3 (R2, R7, log 9). -/
def Part.nothingDue (p : Part) : Prop :=
  p.due.timer = false ∧ p.due.roster = false ∧ p.due.ageing = false ∧ p.due.build = false ∧
    p.due.image = false ∧ p.timer.beaconDue = false ∧
    (p.due.results = [] ∨ (p.timer.underWay = true ∧ p.timer.slot ≤ 3))

/-- The part after a change that the beacon of the frame may have waited for (R8, R9): when it is due, the Frame Timer
has made its transition, the plan is built and, for a plan with an up slot, every up slot result has been taken,
it is assembled, and in ON or FAULTED its SEND order presented; otherwise nothing changes. -/
def Part.thenBeacon (p : Part) : Part :=
  let polls := p.planner.plan.slots.any (fun u => match u with
    | .up _ => true
    | _ => false)
  if p.timer.beaconDue = true ∧ p.due.timer = false ∧ p.due.build = false ∧ (p.due.results = [] ∨ polls = false) then
    let b := p.beacon
    if p.timer.substate = .on ∨ p.timer.substate = .faulted then
      { p with
        timer := { p.timer with beaconDue := false, carried := some { grants := b.grants, resumed := b.resumed } }
        port := { order := some (.send .A (beaconBytes b)), answer := none } }
    else { p with timer := { p.timer with beaconDue := false } }
  else p

/-- A block's frame-start work taken, and then the beacon if it waited for that (R2, R8). -/
def Part.works (p : Part) (w : FrameWork) : Part := (p.frameWork w).thenBeacon

/-- The part with what the boundary before left to be taken: the frame-start works, and then the up slot results unless
they may wait, in slots 0 to 3 (R2, R7, log 8, 9). -/
def Part.dueTaken (p : Part) : Part :=
  let x := [FrameWork.timer, .roster, .ageing, .build, .image].foldl Part.works p
  if x.timer.underWay = true ∧ x.timer.slot ≤ 3 ∧ x.timer.beaconDue = false then x
  else (x.due.results.map (fun _ => FrameWork.result)).foldl Part.works x

/-- The part at the start of frame `f`, every block's work due to it and slot 39 settled as `st` (R1, R2). -/
def Part.frameBegun (p : Part) (f : Word) (st : Settled) : Part :=
  { p with
    due := { frame := f, timer := true, roster := true, ageing := true, build := true, image := true
             lastSlot := st, results := p.due.results }
    timer := { p.timer with slot := 0, underWay := true, beaconDue := true, carried := none } }

/-- A node-controller cycle. -/
def isCycle : Instr → Bool
  | .hostRead _ => true
  | .hostWrite _ _ => true
  | .guardedWrite _ _ => true
  | .start => true
  | .halt => true
  | .tailWordWrite _ _ => true
  | .uplinkConsumerWrite _ => true
  | .eventConsumerWrite _ => true
  | .levelWordWrite _ => true
  | _ => false

/-- The completion of a part turn of a kind (R160). -/
def doneCommand : TurnKind → Instr
  | .deposit => .uplinkDepositDone
  | .entryWord => .uplinkEntryWriteDone
  | .headWord => .headWordWriteDone
  | .fetch => .fragmentFetchDone
  | .setupRead => .setupReadDone
  | .anchorStatus => .anchorStatusWriteDone
  | .descRead => .descriptorReadDone
  | .gatherRead => .gatherReadDone
  | .doneRead => .doneWordReadDone
  | .writeBack => .statusWriteBackDone
  | .doneWord _ => .doneWordWriteDone
  | .imageWord => .imageWriteDone
  | .eventWord => .eventRecordWriteDone

/-- A turn of a kind is in progress, not abandoned, and READY holds no cycle. -/
def State.inTurn (s : State) (k : TurnKind) (t : Turn) : Prop :=
  s.part.arb.turn = some t ∧ t.kind = k ∧ t.abandoned = false ∧ ∀ c, s.host = some c → c.held = false

/-- What the requester of a turn does with its completion (R160): `w` is the word that the turn's address holds. -/
def Part.turnTaken (p : Part) (t : Turn) (w : Word) : Part :=
  if t.abandoned then p
  else
    match t.kind with
    | .deposit => p.depositDone t
    | .entryWord => p.entryWordDone
    | .headWord => p.headWordDone t
    | .fetch => p.takeFetched w
    | .setupRead => p.setupWord w
    | .anchorStatus => p.statusWritten t.write
    | .descRead => p.descriptorWord w
    | .gatherRead => p.gatherWord w
    | .doneRead => p.doneWordRead w
    | .writeBack => p.wroteBack
    | .doneWord _ => p
    | .imageWord => p.imageWritten
    | .eventWord => p.eventWordDone

/-- The part with no turn in progress. -/
def Part.turnOver (p : Part) : Part := { p with arb := { p.arb with turn := none } }

/-- The part with the record of an event taken by the Event Writer (R177). -/
def Part.withEvent (p : Part) (r : EventRecord) : Part := { p with ev := p.ev.take p.setup.event.size r }

/-- The 16-bit words of a run of bytes: the first of a pair is the high half, and a final byte without a
partner has a low half of zero (R115). -/
def bytePairs : List Byte → List Word
  | [] => []
  | [b] => [b ++ (0 : Byte)]
  | b :: c :: bs => (b ++ c) :: bytePairs bs

/-! ### What a command leaves as it was, and how the part goes on after it -/

/-- Everything beside the part and its memory. -/
def State.sameOutside (s t : State) : Prop :=
  t.pending = s.pending ∧ t.resetPin = s.resetPin ∧ t.straps = s.straps ∧ t.host = s.host ∧
    t.hostData = s.hostData

/-- `t` goes on from the state `s` with part `q`: the pool takes the records handed to it or lets them wait (R95), for
which one free value is drawn when there are any (log 21); what follows is posted; and on an idle bus the next turn is
granted (R158, R159, log 42). `Obligations.HandoffsTaken`, `Obligations.RequestsPosted` and
`Obligations.CycleEndGrantsNextTurn` say what each of the three does. -/
def State.goesOn (s : State) (q : Part) (t : State) : Prop :=
  let r := (q.takeHandoffs s.free).follow
  t.free = (if q.pool.handed = [] then s.free else s.free + 1) ∧
    t.part = if t.host = none ∧ r.arb.turn = none then r.grant else r

/-- A command answered with a next state that keeps everything beside the part and leaves memory `m`, and
whose part goes on from `q`. -/
def State.runsTo (s : State) (c : Instr) (m : List Host.Cell) (q : Part) : Prop :=
  ∃ t, exec c s = .next t ∧ t.mem = m ∧ s.sameOutside t ∧ s.goesOn q t

/-- A node-controller write cycle answered with a next state in which the cycle `x` holds the bus, memory is `m`,
and the part goes on from `q`. -/
def State.cycleTo (s : State) (c : Instr) (m : List Host.Cell) (x : HostCycle) (q : Part) : Prop :=
  ∃ t, exec c s = .next t ∧ t.mem = m ∧ t.pending = s.pending ∧ t.resetPin = s.resetPin ∧
    t.straps = s.straps ∧ t.host = some x ∧ t.hostData = s.hostData ∧ s.goesOn q t

/-- A write cycle that has gone to memory, with the owner it was handed to (R157, R162). -/
def passedWrite (a : Access) (w : Word) (x : Option Watched) : HostCycle where
  access := a
  write := some w
  handTo := x
  withheld := false
  held := false

/-- The reset pin does not hold the part in reset, no cycle and no part turn is in progress (R157, R167). -/
def State.freeBus (s : State) : Prop := s.resetPin ≠ .lowTaken ∧ s.busIdle

/-- The arbiter with the fetch of the Transmit Assembler abandoned: a request not yet granted is withdrawn, and a turn
in progress completes and is dropped (R120, R121, log 23). -/
def Arbiter.fetchDropped (a : Arbiter) : Arbiter :=
  { a with
    transmit := none
    turn := a.turn.map (fun t => { t with abandoned := t.abandoned || decide (t.kind = .fetch) }) }

/-- The part with the fragments that `sends` names gone from staging and going out empty, and a fetch of theirs
abandoned (R121), its request withdrawn (log 23). -/
def Part.fragmentsDropped (p : Part) (sends : FragEntry → Bool) : Part :=
  { p with
    tx := { p.tx with
      queue := p.tx.queue.map (fun e =>
        if sends e then { e with live := false, cond := if e.cond = .done then .done else .empty } else e)
      staging := p.tx.staging.filter (fun g =>
        !p.tx.queue.any (fun e => sends e && e.cond ≠ .done && e.slot = g.slot)) }
    arb := if p.tx.queue.any (fun e => sends e && e.cond = .fetching) then p.arb.fetchDropped else p.arb }

/-- The part with an image pass begun: the first dirty entry is written, or with none the node summary; it counts as
begun after the HALT in HALTING (R49, R50, R51, R52). -/
def Part.passBegun (p : Part) : Part :=
  let im := { p.image with owed := false, postHalt := decide (p.anchor.node = NodeState.halting) }
  match shortIds.find? (fun k => (p.entry k).dirty) with
  | some k =>
    { p.setEntry k { p.entry k with dirty := false } with
      image := { im with
        counters := im.counters.set k (im.counters[k] + 1)
        writing := some { record := .entry k, fields := entryFields (p.entry k), word := 0 } } }
  | none =>
    { p with image := { im with
        summaryCounter := im.summaryCounter + 1
        writing := some { record := .summary, fields := summaryFields p.summary, word := 0 } } }

/-- The part with the records of a list retired as one change (R95, R99, R121): they take the status and join the
write-back list in the order of the list, they leave their class queues, the new heads become CURRENT, and their
fragments go out empty, with their staging freed and a fetch of theirs abandoned, its request withdrawn (log 23). -/
def Part.retired (p : Part) (st : Status) (gone : List PoolId) : Part :=
  let left := fun (k : ShortId) (c : MsgClass) => ((p.entry k).queues.get c).filter (fun i => !gone.contains i)
  { p.fragmentsDropped (fun e => e.live && gone.contains e.record) with
    adm := { p.adm with writeBacks := p.adm.writeBacks ++ gone.map WriteBack.record }
    roster := { p.roster with
      entries := Vector.ofFn (fun k =>
        let e := p.entry k
        { e with
          queues := { stop := left k .stop, control := left k .control, bulk := left k .bulk }
          dirty := e.dirty || e.queueIds.any (fun i => gone.contains i) }) }
    pool := { p.pool with
      records := Vector.ofFn (fun i => (p.record i).map (fun r =>
        if gone.contains i then { r with state := .retiring, outcome := some st }
        else { r with state := if (left r.sid r.cls).head? = some i then .current else r.state })) } }

/-- The part with the uplink message in progress of a car delivered ABORTED (R147, R150): the claim takes what the
context holds, the context is gone, and the entry write is owed once no byte is bound for the entry. -/
def Part.uplinkAborted (p : Part) (k : ShortId) (frame : Word) : Part :=
  match (p.entry k).context with
  | none => p
  | some x =>
    let u := p.uplink
    let owed := u.claims.any (fun c => c.index = x.index) && !u.staging.any (fun g => g.index = x.index)
      && !u.entryWrites.contains x.index
    { p.setEntry k { p.entry k with context := none, dirty := true } with
      uplink := { u with
        claims := u.claims.map (fun c =>
          if c.index = x.index then
            { c with
              state := .aborted, status := some .aborted, len := x.expected
              stored := min x.expected p.setup.bufferSize, sum := x.sum, frame := frame }
          else c)
        entryWrites := if owed then u.entryWrites ++ [x.index] else u.entryWrites } }

/-- The part with an entry drained (R33, R42, R44): its uplink message is delivered ABORTED, its records retire with
the reason, its grants leave the announcement queue, and it is DRAINING, or FREE at once, its finished mark gone,
when no record and no unwritten claim of its car remains. -/
def Part.drained (p : Part) (k : ShortId) (why : DrainReason) (now : Word) : Part :=
  let a := (p.uplinkAborted k now).retired (drainStatus why) (p.entry k).queueIds
  let b := { a with roster := { a.roster with ann := a.roster.ann.filter (fun x => x.sid ≠ sidBits k) } }
  if b.hasRecord k = true ∨ b.hasClaim k = true then
    b.setEntry k { b.entry k with state := .draining, drain := some why, credit := 0, dirty := true }
  else
    { b.setEntry k { Entry.blank p.setup.defaultWeight with dirty := true } with
      uplink := { b.uplink with finished := b.uplink.finished.set k none } }

/-- A slot counted into the modem fault run, while the substate is ON (R16): an answer sets the run to 0, the eighth
fault in a row turns the substate FAULTED with RADIO_FAULT, and a slot without an order leaves it. -/
def Part.runCounted (p : Part) (slot : Nat) (st : Settled) : Part :=
  if p.timer.substate ≠ .on then p
  else
    match st with
    | .noOrder => p
    | .answered => { p with timer := { p.timer with faultRun := 0 } }
    | .faulted =>
      if p.timer.faultRun < 7 then { p with timer := { p.timer with faultRun := p.timer.faultRun + 1 } }
      else
        Part.withEvent { p with timer := { p.timer with faultRun := 8, substate := .faulted } }
          (nodeEvent .radioFault p.timer.frame (BitVec.ofNat 16 slot) 0)

/-- A faulted slot counted as such (R6). -/
def Part.faultNoted (p : Part) : Part :=
  { p with timer := { p.timer with faultedSlots := min (p.timer.faultedSlots + 1) 65535 } }

/-- `q` is `p` with the slot that ends settled as `st`, but for a beacon that was SENT (R6, R7, R13, R122): a faulted
slot is counted, an access slot heard is examined as a JOIN, an up slot leaves its result to be taken, and a DOWN slot
frees its staging. A DOWN slot that passes with a fetch still under way abandons it, and its request is withdrawn
(DEDUCED, log 23: R122 says nothing of the fetch). A whole burst SENT moves sent_to of a record still CURRENT; an empty,
faulted or withheld one changes no record. -/
def Part.slotSettles (p q : Part) (st : Settled) : Prop :=
  let n := p.timer.slot
  let o := p.port.order
  let a := p.port.answer
  let clear := { p with port := { order := none, answer := none } }
  let quiet := o = none ∧ a = none ∧ st = .noOrder
  let faulted := o ≠ none ∧ (a = none ∨ a = some .fault) ∧ st = .faulted
  let sent := (∃ c bs, o = some (.send c bs)) ∧ a = some .sent ∧ st = .answered
  let heard := fun (h : Heard) => o = some .listen ∧ a = some (.heard h) ∧ st = .answered
  ((n ≤ 3 ∨ p.planner.plan.use n = .idle) ∧ ((quiet ∧ q = clear) ∨ (faulted ∧ q = clear.faultNoted))) ∨
    (1 ≤ n ∧ n ≤ 3 ∧ ∃ h, heard h ∧ q = clear.accessHeard h) ∨
    (4 ≤ n ∧ ∃ k, p.planner.plan.use n = .up k ∧
      (let gives := fun (u : UpOutcome) =>
        { clear with due := { p.due with
            results := p.due.results ++ [{ owner := k, slot := n, frame := p.timer.frame, outcome := u }] } }
       (quiet ∧ q = gives .withheld) ∨ (faulted ∧ q = (gives .nothing).faultNoted) ∨
        ∃ h, heard h ∧ q = gives (.heard h))) ∨
    (4 ≤ n ∧ (∃ g, p.planner.plan.use n = .down g) ∧ ∃ e, p.tx.entryAt n = some e ∧
      (let freed : Part :=
        { clear with
          tx := { p.tx with
            queue := p.tx.queue.map (fun x => if x.slot = n then { x with cond := .done } else x)
            staging := p.tx.staging.filter (fun g => g.slot ≠ n) }
          arb := if e.cond = .fetching then p.arb.fetchDropped else p.arb }
       (quiet ∧ q = freed) ∨ (faulted ∧ q = freed.faultNoted) ∨
        (sent ∧ (e.whole = false ∨ e.live = false) ∧ q = freed) ∨
        (sent ∧ e.whole = true ∧ e.live = true ∧ ∃ r, p.record e.record = some r ∧
          q = freed.setRecord e.record (some { r with
            sentTo := if e.offset ≤ r.sentTo then max r.sentTo (e.offset + e.len) else r.sentTo }))))

/-- `q` is `p` with the slot that ends settled as `Part.slotSettles` says, and counted into the modem fault run (R16). -/
def Part.slotEnds (p q : Part) : Prop :=
  ∃ x st, p.slotSettles x st ∧ q = x.runCounted p.timer.slot st

/-- The part with an item of a ring finished (R89, R98): its entry joins the item list not yet written, admitted moves
past it, its write-back is owed, and the engine is free and chooses what it serves next. -/
def Part.itemFinished (p : Part) (r : RingId) (first : Word) (count : Nat) (st : Status) : Part :=
  let x := p.ring r
  let q := p.setRing r { x with
    item := none
    items := x.items ++ [{ first := first, count := count, written := false }]
    admitted := first + BitVec.ofNat 16 count }
  Part.engine
    { q with adm := { q.adm with inHand := none, writeBacks := q.adm.writeBacks ++ [.item r first st] } }

/-- The part with an open item of a ring that goes on to its next descriptor, or, with none before the tail, waits on
it and frees the engine (R89, R90). -/
def Part.itemReads (p : Part) (r : RingId) (it : OpenItem) : Part :=
  let x := p.ring r
  let q := p.setRing r { x with item := some it }
  if ahead x.done x.read < ahead x.done x.tail then q else (q.setHand none).engine

/-- The part with an item begun by a descriptor of a ring in hand that has none open (R90, R92, R96): a MESSAGE opens
and reads on, a directive is handed to its owner, a stray DATA or an unknown directive fails BAD_DESCRIPTOR and an
unknown kind WRONG_RING. -/
def Part.itemBegun (p : Part) (r : RingId) (first : Word) (d : Descriptor) : Part :=
  let opens := fun (m : MsgFields) (stage : ItemStage) =>
    ({ first := first, count := 1, fields := m, pieces := [], table := none, broken := false, stage := stage }
      : OpenItem)
  match d with
  | .message m => p.itemReads r (opens m .collecting)
  | .data _ _ _ _ _ => p.itemFinished r first 1 .badDescriptor
  | .directive none => p.itemFinished r first 1 .badDescriptor
  | .directive (some v) => p.setRing r { p.ring r with item := some (opens noFields (.handed v)) }
  | .unknown => p.itemFinished r first 1 .wrongRing

/-- The part with a message judged by the checks of R92, and one that passes taken to its allocation step (R93). -/
def Part.itemJudged (p : Part) (r : RingId) (it : OpenItem) : Part :=
  match judgeMessage r it.fields it.pieces it.broken with
  | some st => p.itemFinished r it.first it.count st
  | none => (p.allocStep r it).engine

/-! ### Invariants -/

/-- The memory is in its canonical form. -/
def State.memoryOk (s : State) : Prop := Mem.wf s.mem

/-- While RESET is low every block stands at its reset values (R167, R185). -/
def State.heldInReset (s : State) : Prop := s.resetPin = .lowTaken → s.part = Part.reset

/-- A node-controller cycle is held by READY exactly while a part turn is in progress, so the memory serves
one of the two at a time (R157, R158). -/
def State.busShared (s : State) : Prop :=
  s.heldInReset ∧ ∀ c, s.host = some c → c.held = s.part.arb.turn.isSome

/-- The window map is armed exactly while the node is RUNNING or HALTING, with the addresses of setup values that
passed the checks; a load is in progress only in LOADING (R156, R166, R168, R171). -/
def State.windowOk (s : State) : Prop :=
  let a := s.part.anchor
  let sound := fun (u : Setup) => setupSizesOk u = true ∧ setupAlignOk u = true ∧ setupAreasOk u = true
  (s.part.bus.armed = true ↔ a.node = .running ∨ a.node = .halting) ∧
    (s.part.bus.armed = true → ∃ u, a.setup = some u ∧ s.part.bus.map = some (windowMap u) ∧ sound u) ∧
    ∀ l, a.load = some l → a.node = .loading ∧ ∀ u, l.passed = some u → sound u

/-- The announcement queue holds at most 8 announcements, and none twice (R28, R32). -/
def State.annOk (s : State) : Prop :=
  s.part.roster.ann.Nodup ∧ s.part.roster.ann.length ≤ Config.annPlaces

/-- At most one live entry holds a given car number (R27). -/
def State.carsUnique (s : State) : Prop :=
  ∀ j k, (s.part.entry j).live = true → (s.part.entry k).live = true →
    (s.part.entry j).car = (s.part.entry k).car → j = k

/-- Transmit staging holds at most its 1024 bytes, and receive staging at most 4 places (R109, R134). -/
def State.stagingOk (s : State) : Prop :=
  (s.part.tx.staging.map Staged.size).sum ≤ 1024 ∧ s.part.uplink.staging.length ≤ 4

/-- The fields of every entry stay within their ranges: S at most 252, credit within ±64; and only an ACTIVE or FADING
car has an uplink message in progress (2.1, R26, R42, R56, R79). -/
def State.entriesOk (s : State) : Prop :=
  ∀ k, (s.part.entry k).quality ≤ 252 ∧ -64 ≤ (s.part.entry k).credit ∧ (s.part.entry k).credit ≤ 64 ∧
    ((s.part.entry k).context ≠ none → (s.part.entry k).state = .active ∨ (s.part.entry k).state = .fading)

/-- At most 24 records of a car are QUEUED, CURRENT or on their way to its class queues (2.1, R93). -/
def State.loadOk (s : State) : Prop :=
  ∀ k, (s.part.entry k).queued +
    s.part.pool.handed.countP (fun i => (s.part.record i).any (fun r => decide (r.sid = k))) ≤ 24

/-- A descriptor kept from a break waits in a ring that has no item open and reads no other, until the engine turns to
it (R90, log 18). -/
def State.keptOk (s : State) : Prop :=
  ∀ r, (s.part.ring r).kept ≠ none →
    (s.part.ring r).item = none ∧ (s.part.ring r).words = none ∧ s.part.adm.inHand ≠ some r

/-- A DOWN slot entry. -/
def SlotUse.isDown : SlotUse → Bool
  | .down _ => true
  | _ => false

/-- An UP slot entry. -/
def SlotUse.isUp : SlotUse → Bool
  | .up _ => true
  | _ => false

/-- The plan has 36 slot entries, its tallies count them, they fit the frame with the gap, and every down slot
lies below every up slot with an idle slot between (R66, R71, R81). -/
def State.planOk (s : State) : Prop :=
  let q := s.part.planner.plan
  q.slots.length = Config.scheduled ∧ q.slots.countP SlotUse.isDown = q.downs ∧
    q.slots.countP SlotUse.isUp = q.ups ∧ q.gap = gapOf q.downs q.ups ∧
    q.downs + q.ups + q.gap ≤ Config.scheduled ∧
    ∀ i j u v, q.slots[i]? = some u → q.slots[j]? = some v → u.isDown = true → v.isUp = true → i + 1 < j

/-- The modem has no order while the radio is SILENT or OFF, nor before the Frame Timer has made the transition
of a frame start, nor while no frame is under way; and none is under way outside RUNNING (R4, R21, R24). -/
def State.airQuiet (s : State) : Prop :=
  (s.part.anchor.node ≠ .running → s.part.timer.underWay = false) ∧
    (s.part.timer.underWay = false → s.part.timer.beaconDue = false) ∧
    ((s.part.timer.underWay = false ∨ s.part.due.timer = true ∨ s.part.timer.substate = .silent ∨
      s.part.timer.substate = .off) → s.part.port.order = none)

/-- A record of CONTROL or BULK. -/
def MsgRecord.notStop (r : MsgRecord) : Bool := r.cls ≠ .stop

/-- At most 88 records hold CONTROL or BULK messages, so 8 stay for STOP (R93). -/
def State.reserveOk (s : State) : Prop :=
  poolIds.countP (fun i => (s.part.record i).any MsgRecord.notStop) ≤ 88

/-- The pool place of a record's write-back. -/
def WriteBack.place : WriteBack → Option PoolId
  | .item _ _ _ => none
  | .record i => some i

/-- Class queues and records agree (R44, R95, R99): a queue lists, once each, exactly the QUEUED and CURRENT records
of its car and class; its head, and no other record of it, is CURRENT; the hand-offs waiting at the pool name, once
each, exactly the records that have joined no queue; the write-back list names, once each, exactly the RETIRING
records; and no record belongs to a FREE entry. -/
def State.queuesOk (s : State) : Prop :=
  let p := s.part
  (∀ k c, ((p.entry k).queues.get c).Nodup) ∧
    (∀ k c i, i ∈ (p.entry k).queues.get c ↔
      ∃ r, p.record i = some r ∧ r.sid = k ∧ r.cls = c ∧ (r.state = .queued ∨ r.state = .current)) ∧
    (∀ k c i r, i ∈ (p.entry k).queues.get c → p.record i = some r →
      (r.state = .current ↔ ((p.entry k).queues.get c).head? = some i)) ∧
    (∀ i r, p.record i = some r → (p.entry r.sid).state ≠ .free) ∧
    p.pool.handed.Nodup ∧ (∀ i, i ∈ p.pool.handed ↔ ∃ r, p.record i = some r ∧ r.state = .handed) ∧
    (p.adm.writeBacks.filterMap WriteBack.place).Nodup ∧
    ∀ i, i ∈ p.adm.writeBacks.filterMap WriteBack.place ↔ ∃ r, p.record i = some r ∧ r.state = .retiring

/-- The indices of the uplink ring divide it, and the claim list names the entries from head to producer, at
most as many as the ring has with those the node controller holds (R134, R148). -/
def State.uplinkOk (s : State) : Prop :=
  let u := s.part.uplink
  u.claims.length = ahead u.head u.producer ∧
    ahead u.consumer u.head + u.claims.length = ahead u.consumer u.producer ∧
    ahead u.consumer u.producer ≤ s.part.setup.uplink.size ∧ s.part.setup.uplink.size ≤ 64 ∧
    (∀ (i : Nat) (c : Claim), u.claims[i]? = some c → c.index = u.head + BitVec.ofNat 16 i) ∧
    ∀ l v, s.part.anchor.load = some l → l.passed = some v → v.uplink.size ≤ 64

/-- The indices and lists of the Event Writer agree, the ring holds no more than its size, and ATTN stands
exactly as it is due (R176, R178, R181). A setup that has passed its checks has an event ring of at most 256
places (R171). -/
def State.eventsOk (s : State) : Prop :=
  let v := s.part.ev
  v.held.length = ahead v.consumer v.fill ∧ v.writes.length = ahead v.producer v.fill ∧
    ahead v.consumer v.producer + v.writes.length = v.held.length ∧
    v.held.length ≤ s.part.setup.event.size ∧ s.part.setup.event.size ≤ 256 ∧
    (∀ l u, s.part.anchor.load = some l → l.passed = some u → u.event.size ≤ 256) ∧
    v.attn = s.part.attnDue

/-- Nothing that could go on waits (R158, R159): the part is settled, every pending request is of its requester's own
kinds, and the bus is not idle while one waits. -/
def State.busLive (s : State) : Prop :=
  s.part.settled ∧ (∀ q k, s.part.arb.pend q = some k → k.requester = q) ∧
    (s.busIdle → ∀ q, s.part.arb.pend q = none)

end Sys2Proof.Machine
end

