-- ==== Sys2Proof/Certificates/Slice0/Obligations.lean ====
section
/-!
DEFINITION. The statements for the provers, in the order of OBLIGATIONS.json: the system, the air, the
directives, the node controller, the part's own turns, and the invariants that every step keeps. Where a statement
says that a command runs to a part, the part goes on from there as `State.goesOn` says (logs 21 and 42).
-/

open Sys2Proof Sys2Proof.Machine

/-! ### The queue, the outcomes and reset -/

/-- A step runs the command at the front of the queue on the state with the queue's rest. On an empty queue the
model idles (DESIGN CHOICE, log 4). -/
def Obligations.StepRunsFrontCommand : Prop :=
  (∀ (s : State) c cs, s.pending = c :: cs → step s = exec c { s with pending := cs }) ∧
    ∀ s : State, s.pending = [] → step s = .next s

/-- Every command answers a next state and leaves the queue alone, but for a node-controller cycle that begins
before the cycle in progress has ended, which 8.2 says the node controller does not do (log 7). -/
def Obligations.OnlyAnOverlappingCycleStops : Prop :=
  ∀ c s,
    (∃ t, exec c s = .next t ∧ t.pending = s.pending) ∨
      (isCycle c = true ∧ s.host ≠ none ∧ exec c s = .fault .hostCycleOverlap)

/-- RESET (R167, R175, R185). A reset that is taken, at power-on or by a pulse of 4 REFCLK cycles or more, puts every
block at its reset values; what the manual leaves open among them is log 28 and 37. An access that has begun completes,
one that has not is dropped, and a cycle held by READY is released and passed to memory, a guarded one too (log 11); a
byte read leaves its unused lane (log 2). A shorter pulse is taken whole or ignored whole, whichever the free value
says (log 13). The rising edge samples the straps, but for that of a pulse that was ignored. -/
def Obligations.ResetTaken : Prop :=
  (∀ (s : State) cause b, (∀ n, cause = .pin n → 4 ≤ n) →
    ∃ t, exec (.reset cause b) s = .next t ∧ t.part = Part.reset ∧ t.pending = s.pending ∧ t.free = s.free ∧
      (∀ st, cause = .powerOn st → t.resetPin = .high ∧ t.straps = st) ∧
      (∀ n, cause = .pin n → t.resetPin = .lowTaken ∧ t.straps = s.straps) ∧
      (let m := match s.part.arb.turn with
        | none => s.mem
        | some tn => (match tn.write, b with
          | some d, true => Mem.store s.mem tn.addr d
          | _, _ => s.mem)
       (∀ c w, s.host = some c → c.held = true → c.write = some w → t.mem = writeLines m w c.access) ∧
        ((∀ c, s.host = some c → c.held = true → c.write = none) → t.mem = m) ∧
        (∀ c, s.host = some c → c.held = true → c.write = none →
          t.hostData = readLines m s.hostData c.access) ∧
        ((∀ c, s.host = some c → c.held = true → c.write ≠ none) → t.hostData = s.hostData)) ∧
      (s.host = none → t.host = none) ∧
      ∀ c, s.host = some c →
        ∃ x, t.host = some x ∧ x.access = c.access ∧ x.write = c.write ∧ x.held = false) ∧
    (∀ (s : State) n b, n < 4 →
      ∃ t, exec (.reset (.pin n) b) s = .next t ∧ t.free = s.free + 1 ∧
        (exec (.reset (.pin 4) b) s = .next { t with free := s.free } ∨
          t = { s with resetPin := .lowIgnored, free := s.free + 1 })) ∧
    (∀ (s : State) st, s.resetPin ≠ .lowIgnored →
      exec (.resetRisingEdge st) s = .next { s with resetPin := .high, straps := st }) ∧
    ∀ (s : State) st, s.resetPin = .lowIgnored → exec (.resetRisingEdge st) s = .next { s with resetPin := .high }

/-- The reset values that the manual gives (R1, R15, R18, R26, R48, R66, R73, R107, R109, R133, R155, R156, R159, R165,
R175, R176), and two that are the model's: its own list of hand-offs, empty (log 21), and the joins refused counter, 0
like the other counters of the node summary, which the manual clears at a successful load only (DEDUCED, log 37). The
machine after reset meets every invariant that the statements at the end say a step keeps. -/
def Obligations.ResetValues : Prop :=
  let p := State.reset.part
  (p.anchor.node = .passive ∧ p.anchor.haltReq = false ∧ p.anchor.load = none ∧ p.anchor.setup = none ∧
      p.anchor.statusOwed = false ∧ p.bus.map = none ∧ p.bus.armed = false ∧ p.bus.guardedWrites = 0) ∧
    ((∀ q, p.arb.pend q = none) ∧ p.arb.turn = none ∧ p.arb.lastLow = .event) ∧
    (p.timer.frame = 0 ∧ p.timer.slot = 0 ∧ p.timer.substate = .off ∧ p.timer.silence = .none ∧
      p.timer.faultRun = 0 ∧ p.timer.resumed = false ∧ p.timer.faultedSlots = 0 ∧ p.timer.accessGarbled = 0 ∧
      p.port.order = none) ∧
    ((∀ k, p.entry k =
        { state := .free, car := 0, prevNode := 0, lastHeard := 0, miss := 0, grantWait := 0, quality := 0, cls := .A
          capability := .A, cap := .D, weight := 4, credit := 0, queues := { stop := [], control := [], bulk := [] }
          nextSeq := { stop := 0, control := 0, bulk := 0 }, context := none, ackBit := false, alarm := false
          drain := none, dirty := false }) ∧
      p.roster.ann = [] ∧ p.roster.joinsRefused = 0 ∧ (∀ k, p.image.counters.get k = 0) ∧
      p.image.summaryCounter = 0 ∧ p.image.writing = none ∧ p.image.owed = false) ∧
    (p.planner.plan.slots = List.replicate 36 .idle ∧ p.planner.h1 = 0 ∧ p.planner.h2 = 0 ∧ p.planner.h3 = 0) ∧
    ((∀ r, p.ring r =
        { tail := 0, read := 0, admitted := 0, done := 0, items := [], item := none, words := none, kept := none
          doneOwed := false }) ∧
      p.adm.inHand = none ∧ p.adm.writeBacks = [] ∧ p.adm.nextAdm = 0 ∧
      (∀ i, p.record i = none) ∧ p.pool.answers = [] ∧ p.pool.handed = [] ∧ p.pool.waited = false) ∧
    (p.tx.queue = [] ∧ p.tx.staging = [] ∧ p.tx.late = [] ∧ p.tx.lateFragments = 0) ∧
    ((∀ k, p.uplink.finished.get k = none) ∧ p.uplink.staging = [] ∧ p.uplink.claims = [] ∧
      p.uplink.entryWrites = [] ∧ p.uplink.producer = 0 ∧ p.uplink.head = 0 ∧ p.uplink.consumer = 0) ∧
    (p.ev.fill = 0 ∧ p.ev.producer = 0 ∧ p.ev.consumer = 0 ∧ p.ev.held = [] ∧ p.ev.writes = [] ∧
      p.ev.level = 0 ∧ p.ev.lostCount = 0 ∧ p.ev.eventsLost = 0 ∧ p.ev.attn = false) ∧
    let s := State.reset
    (s.memoryOk ∧ s.busShared ∧ s.windowOk ∧ s.busLive ∧ s.annOk ∧ s.carsUnique ∧ s.reserveOk ∧ s.entriesOk) ∧
      s.queuesOk ∧ s.loadOk ∧ s.keptOk ∧ s.planOk ∧ s.airQuiet ∧ s.eventsOk ∧ s.uplinkOk ∧ s.stagingOk

/-! ### The air -/

/-- SENT, HEARD and FAULT at the Burst Port (R5, R6, R25): the first answer to an order is the slot's answer, one of the
wrong kind is taken as FAULT, and any other answer is discarded: a further one, one without an order, and a late one, to
an order whose slot has ended or that a reset has withdrawn, also when the slot in progress has an order of its own (the
command says which order the modem answers: DEDUCED, log 49). What is kept of a HEARD, whatever its outcome, is its
quality, class and bytes (DESIGN CHOICE, log 38). -/
def Obligations.ModemAnswerTaken : Prop :=
  let answered := fun (s : State) (a : Answer) =>
    { s with part := { s.part with port := { s.part.port with answer := some a } } }
  ∀ (s : State) o q c bs,
    (∀ c' b', s.part.port.order = some (.send c' b') → s.part.port.answer = none →
      exec (.sent false) s = .next (answered s .sent) ∧
        exec (.heard o q c bs false) s = .next (answered s .fault) ∧
        exec (.fault false) s = .next (answered s .fault)) ∧
    (s.part.port.order = some .listen → s.part.port.answer = none →
      exec (.sent false) s = .next (answered s .fault) ∧
        exec (.heard o q c bs false) s =
          .next (answered s (.heard { outcome := o, q := q, cls := c, bytes := bs })) ∧
        exec (.fault false) s = .next (answered s .fault)) ∧
    (∀ late, late = true ∨ s.part.port.order = none ∨ s.part.port.answer ≠ none →
      exec (.sent late) s = .next s ∧ exec (.heard o q c bs late) s = .next s ∧ exec (.fault late) s = .next s)

/-- The boundary within a frame (R1, R4, R6, R7, R13, R16, R17), however the slot before ended: the next slot has no
order unless the substate is ON, LISTEN in an access slot, and in a scheduled slot what the plan gives, unless the frame
began FAULTED (DEDUCED, log 24). After any slot but one whose beacon was SENT, before a slot that is no DOWN slot, the
whole part: the slot that ends is settled and counted as `Part.slotEnds` says: every faulted slot, the beacon's, an
access slot, an UP or a DOWN slot, is counted, and in ON the eighth fault in a row turns the radio FAULTED with
RADIO_FAULT. A DOWN slot that passes as withheld abandons a fetch still under way, and the request of an abandoned fetch
is withdrawn (DEDUCED, log 23: R122 says nothing of the fetch). An up slot result of the frame before may wait through
slots 0 to 3 (DEDUCED, log 9). -/
def Obligations.IdleAndFaultedSlots : Prop :=
  (∀ (s : State) order, s.part.anchor.node = .running → s.part.timer.underWay = true → s.part.timer.slot < 39 →
    s.part.nothingDue →
    ∃ t, exec (.slotBoundary order) s = .next t ∧ t.mem = s.mem ∧ s.sameOutside t ∧
      (let n := s.part.timer.slot + 1
       let q := t.part
       q.timer.slot = n ∧ q.timer.frame = s.part.timer.frame ∧ q.planner = s.part.planner ∧
        q.port.answer = none ∧
        (q.timer.substate ≠ .on → q.port.order = none) ∧
        (q.timer.substate = .on → n ≤ 3 → q.port.order = some .listen) ∧
        (q.timer.substate = .on → 4 ≤ n → q.timer.schedWithheld = true → q.port.order = none) ∧
        (q.timer.substate = .on → 4 ≤ n → q.timer.schedWithheld = false →
          (q.planner.plan.use n = .idle → q.port.order = none) ∧
            (∀ k, q.planner.plan.use n = .up k → q.port.order = some .listen) ∧
            ∀ g e, q.planner.plan.use n = .down g → q.tx.entryAt n = some e →
              ∃ bs, q.port.order = some (.send e.rate bs)))) ∧
  ∀ (s : State) order q, s.part.anchor.node = .running → s.part.timer.underWay = true → s.part.timer.slot < 39 →
    s.part.nothingDue → s.part.slotEnds q →
    (let n := s.part.timer.slot + 1
     let quiet := { q with timer := { q.timer with slot := n } }
     let listens := { quiet with port := { order := some .listen, answer := none } }
     (q.timer.substate ≠ .on → s.runsTo (.slotBoundary order) s.mem quiet) ∧
      (q.timer.substate = .on → n ≤ 3 → s.runsTo (.slotBoundary order) s.mem listens) ∧
      (4 ≤ n → q.timer.schedWithheld = true ∨ q.planner.plan.use n = .idle →
        s.runsTo (.slotBoundary order) s.mem quiet) ∧
      (q.timer.substate = .on → 4 ≤ n → q.timer.schedWithheld = false →
        ∀ k, q.planner.plan.use n = .up k → s.runsTo (.slotBoundary order) s.mem listens))

/-- The boundary before a DOWN slot (R10, R17, R21, R119, R120, R122). The slot that ends is settled as `Part.slotEnds`
says (R6, R16). A DOWN slot is withheld when the substate is not ON, and when the frame began FAULTED (log 24): no
order, and its fragment stands. In ON a READY fragment goes out whole and an EMPTY one as an empty burst, each then
DONE; a fragment still WAITING or FETCHING is late: an empty burst goes out, its record is counted once in the frame,
its later fragments are EMPTY, its staging is freed and a fetch of its is abandoned, its request withdrawn (DEDUCED, log
23). The slot that ends, when it is a DOWN slot that passes as withheld, abandons a fetch still under way in the same
way (DEDUCED, log 23: R122 says nothing of the fetch). An up slot result of the frame before may wait through slots 0 to
3 (DEDUCED, log 9). -/
def Obligations.DownSlots : Prop :=
  ∀ (s : State) order q, s.part.anchor.node = .running → s.part.timer.underWay = true → s.part.timer.slot < 39 →
    s.part.nothingDue → s.part.slotEnds q →
    (let n := s.part.timer.slot + 1
     let quiet := { q with timer := { q.timer with slot := n } }
     4 ≤ n → ∀ g, q.planner.plan.use n = .down g →
      (q.timer.substate ≠ .on ∨ q.timer.schedWithheld = true → s.runsTo (.slotBoundary order) s.mem quiet) ∧
      ∀ e, q.timer.substate = .on → q.timer.schedWithheld = false → q.tx.entryAt n = some e →
        (let sent := fun (tx : Transmit) (bs : List Byte) =>
          { quiet with tx := tx, port := { order := some (.send e.rate bs), answer := none } }
         let mine := fun (x : FragEntry) => x.record = e.record && x.live
         (∀ x bs, e.cond = .ready → q.tx.staging.find? (fun x => x.slot = n) = some x → x.burst = some bs →
            s.runsTo (.slotBoundary order) s.mem
              (sent (q.tx.editSlot n (fun x => { x with cond := .done, whole := true })) bs)) ∧
          (e.cond = .empty →
            s.runsTo (.slotBoundary order) s.mem
              (sent (q.tx.editSlot n (fun x => { x with cond := .done })) (emptyBurst e))) ∧
          (e.cond = .waiting ∨ e.cond = .fetching →
            s.runsTo (.slotBoundary order) s.mem
              { sent
                  { queue := q.tx.queue.map (fun x =>
                      if x.slot = n then { x with cond := .done }
                      else if mine x = true ∧ n < x.slot then { x with cond := .empty } else x)
                    staging := q.tx.staging.filter (fun g => !q.tx.queue.any (fun x => mine x && x.slot = g.slot))
                    late := if q.tx.late.contains e.record then q.tx.late else q.tx.late ++ [e.record]
                    lateFragments := if q.tx.late.contains e.record then q.tx.lateFragments
                      else min (q.tx.lateFragments + 1) 65535 }
                  (emptyBurst e) with
                arb := if q.tx.queue.any (fun x => mine x && x.cond = .fetching) then q.arb.fetchDropped
                  else q.arb })))

/-- SLOT_BOUNDARY at a frame start (R1, R2, R7, R8, R16, R20, R34, R49, R67, R103): slot 39 of a frame under way is
settled as `Part.slotSettles` says, an UP slot 39 leaving its result, a DOWN slot 39 abandoning a fetch still under way,
withheld too, and its request withdrawn (DEDUCED, log 23: R122 says nothing of the fetch); the frame number goes on by
1, the first frame being frame 0; and the blocks take the frame start in the order the operand names, each one's work as
the statements of `Part.frameWork` say: the Frame Timer `Obligations.SilenceTransitions`, the roster
`Obligations.FaultedMisses`, the ageing `Obligations.AgeingExpiresRecords`, the plan `Obligations.PlanBuilt` and
`Obligations.PlanHandedOff`, the image `Obligations.ImageRecordsWritten`, an up slot result
`Obligations.ValidResponseTaken`. The beacon follows when it waits for no more. Works not named come after them in an
order of the model, but for those a command of its own stands for (DESIGN CHOICE, log 8): a silence that begins or ends,
a grant wait or a lifetime that runs out, and the results. What a boundary left to be taken, the next takes first, at a
HALT too, but for up slot results, which may wait through slots 0 to 3 unless the beacon waits for them (DEDUCED, log
9); a work taken already does nothing more, and GRANT_WAIT_EXPIRY, MESSAGE_EXPIRY and UPLINK_SLOT_RESULT change nothing
when theirs is not due (DESIGN CHOICE, log 6). -/
def Obligations.FrameStartTaken : Prop :=
  (∀ (s : State) order, s.part.anchor.node = .running → s.part.anchor.haltReq = false → s.part.nothingDue →
    (let left : Part → FrameWork → Bool := fun y w => match w with
      | .timer => y.timer.silence.begins y.due.frame || y.timer.silence.ends y.due.frame
      | .roster => !y.timer.silence.silent y.due.frame &&
          shortIds.any (fun k => (y.entry k).state = .granted && decide (4 ≤ (y.entry k).grantWait))
      | .ageing => poolIds.any (fun i => (y.joinHanded.record i).any (fun r =>
          (r.state = .queued || r.state = .current) && decide (r.lifetime ≠ 0) &&
            decide (r.lifetime ≤ min (r.age + 1) 65535)))
      | .build => false
      | .image => false
      | .result => true
     let starts := fun (x : Part) =>
      [FrameWork.timer, .roster, .ageing, .build, .image].foldl (fun y w => if left y w then y else y.works w)
        (order.foldl Part.works x)
     (s.part.timer.underWay = false →
        s.runsTo (.slotBoundary order) s.mem (starts (s.part.frameBegun 0 .noOrder))) ∧
      ∀ q st, s.part.timer.underWay = true → s.part.timer.slot = 39 → s.part.slotSettles q st →
        s.runsTo (.slotBoundary order) s.mem (starts (q.frameBegun (s.part.timer.frame + 1) st)))) ∧
    (∀ s : State, s.part.anchor.node = .running →
      (let t := { s with part := s.part.dueTaken }
       t.part.nothingDue ∧ (∀ order, exec (.slotBoundary order) s = exec (.slotBoundary order) t) ∧
        (s.part.anchor.haltReq = true → (s.part.timer.underWay = true → s.part.timer.slot = 39) →
          ∀ first, exec (.haltTaken first) s = exec (.haltTaken first) t))) ∧
    (∀ p : Part,
      (p.due.timer = false → p.frameWork .timer = p) ∧ (p.due.roster = false → p.frameWork .roster = p) ∧
        (p.due.ageing = false → p.frameWork .ageing = p) ∧ (p.due.build = false → p.frameWork .build = p) ∧
        (p.due.image = false → p.frameWork .image = p) ∧ (p.due.results = [] → p.frameWork .result = p)) ∧
    ∀ s : State, (s.part.due.roster = false → exec .grantWaitExpiry s = .next s) ∧
      (s.part.due.ageing = false → exec .messageExpiry s = .next s) ∧
      (s.part.due.results = [] → exec .uplinkSlotResult s = .next s)

/-- A frame start that neither begins nor ends a silence, after a slot 39 that is no UP slot (R1, R2, R8, R11, R12, R15,
R16, R17): slot 0 of the next frame begins, the first frame being frame 0 and bringing ON, a faulted slot 39 counts into
the run first and may turn the radio FAULTED (DEDUCED, log 26), a frame that begins FAULTED has its scheduled slots
withheld (DEDUCED, log 24), and the Burst Port presents the beacon, its fields from the state and its slot map from the
plan just built. The order is the model's default one, in which a grant wait or an expiry that runs out is left to its
own command, so that this beacon shows the roster before it (log 8). An up slot result of the frame before may wait
through slots 0 to 3 (DEDUCED, log 9). The beacon's bytes are `Obligations.AirLayouts`. -/
def Obligations.FrameStartSendsBeacon : Prop :=
  ∀ s : State, s.part.anchor.node = .running → s.part.anchor.haltReq = false → s.part.nothingDue →
    (s.part.timer.underWay = true → s.part.timer.slot = 39 ∧ (s.part.planner.plan.use 39).isUp = false) →
    s.part.timer.substate ≠ .silent →
    (let p := s.part
     let f := if p.timer.underWay then p.timer.frame + 1 else 0
     let eighth := p.timer.underWay = true ∧ p.timer.substate = .on ∧ 7 ≤ p.timer.faultRun ∧ p.port.order ≠ none ∧
      (p.port.answer = none ∨ p.port.answer = some .fault)
     let sub := if p.timer.substate = .off then Substate.on else if eighth then .faulted else p.timer.substate
     p.timer.silence.begins f = false → p.timer.silence.ends f = false →
      ∃ t b, exec (.slotBoundary []) s = .next t ∧ t.mem = s.mem ∧ s.sameOutside t ∧
        t.part.timer.slot = 0 ∧ t.part.timer.underWay = true ∧ t.part.timer.frame = f ∧
        t.part.timer.substate = sub ∧ t.part.timer.silence = p.timer.silence ∧
        t.part.timer.schedWithheld = decide (sub = .faulted) ∧
        t.part.port = { order := some (.send .A (beaconBytes b)), answer := none } ∧
        t.part.timer.carried = some { grants := b.grants, resumed := b.resumed } ∧
        b.nodeId = p.setup.nodeId ∧ b.pollPeriod = p.setup.pollPeriod ∧ b.frame = f ∧
        b.resumed = p.timer.resumed ∧ b.rosterFull = t.part.freeEntry.isNone ∧
        b.grants = t.part.roster.ann.take 2 ∧
        (sub = .on → t.part.roster.ann = p.roster.ann ∧ ∀ k, (t.part.entry k).state = (p.entry k).state) ∧
        (∃ es, t.part.ev =
          ((if eighth then [nodeEvent .radioFault p.timer.frame 39 0] else []) ++ es).foldl
            (fun v e => v.take p.setup.event.size e) p.ev) ∧
        (∀ first stop, p.timer.silence = .pending first stop →
          b.silencePending = true ∧ b.countdown = ahead f first ∧ b.length = ahead first stop) ∧
        ((∀ first stop, p.timer.silence ≠ .pending first stop) →
          b.silencePending = false ∧ b.countdown = 0 ∧ b.length = 0) ∧
        t.part.planner.plan.frame = f ∧
        b.slotMap = t.part.planner.plan.slots.map (fun u => match u with
          | .idle => BitVec.ofNat 8 (63 * 4)
          | .down g => BitVec.ofNat 8 (g.sid.val * 4)
          | .up k => BitVec.ofNat 8 (k.val * 4 + 2 + bit (t.part.entry k).ackBit)))

/-- The end of slot 0 (R11, R12, R16, R17, R32). A beacon SENT takes the announcements it carried out of the queue,
clears a resumed mark it carried, sets the fault run to 0 and returns a FAULTED substate to ON with RADIO_RESTORED; slot
1 is LISTEN. A beacon attempt faulted while FAULTED is counted, leaves the queue and the substate, and slot 1 gets no
order. An up slot result of the frame before may wait through slots 0 to 3 (DEDUCED, log 9). -/
def Obligations.BeaconSettled : Prop :=
  ∀ (s : State) order c bs k, s.part.anchor.node = .running → s.part.timer.underWay = true → s.part.timer.slot = 0 →
    s.part.nothingDue → s.part.port.order = some (.send c bs) → s.part.timer.carried = some k →
    (let p := s.part
     let sent : Part :=
      { p with
        roster := { p.roster with ann := p.roster.ann.filter (fun a => !k.grants.contains a) }
        timer := { p.timer with
          slot := 1, resumed := p.timer.resumed && !k.resumed, substate := .on, faultRun := 0 }
        port := { order := some .listen, answer := none } }
     (p.port.answer = some .sent → p.timer.substate = .on → s.runsTo (.slotBoundary order) s.mem sent) ∧
      (p.port.answer = some .sent → p.timer.substate = .faulted →
        s.runsTo (.slotBoundary order) s.mem
          (sent.withEvent (nodeEvent .radioRestored p.timer.frame 0 0))) ∧
      (p.port.answer = none ∨ p.port.answer = some .fault → p.timer.substate = .faulted →
        s.runsTo (.slotBoundary order) s.mem
          { p with
            timer := { p.timer with slot := 1, faultedSlots := min (p.timer.faultedSlots + 1) 65535 }
            port := { order := none, answer := none } }))

/-- A HEARD access slot (R13, R14, R28, R29, R30, R31, R59, R131, R150), on the part that
`Obligations.IdleAndFaultedSlots` then takes into the next slot. A burst that is no valid JOIN counts as garbled. A
valid one is handed to the Roster Table as one arrival with its quality, frame and access slot, and is a rejoin of a
live car, a new join into the lowest FREE entry, or a refusal, each with its announcement and its event, and it leaves
no trace when it needs a place and the queue is full. A rejoin restarts the car's CURRENT messages, drops their
fragments, the request of an abandoned fetch withdrawn (DEDUCED, log 23), and delivers its uplink message ABORTED; it
marks the entry dirty always (log 36). -/
def Obligations.JoinsHandled : Prop :=
  ∀ (s : State) (h : Heard), s.queuesOk → s.part.anchor.node = .running →
    (let p := s.part
     let q := p.accessHeard h
     let byte := fun (i : Nat) => h.bytes.getD i 0
     let car : CarNumber := byte 1 ++ byte 2 ++ byte 3
     let prev : NodeId := (byte 4 ++ byte 5).setWidth 12
     let top := rateOfCode ((byte 6).toNat % 4)
     let valid := h.bytes.length = 8 ∧ (byte 0).toNat / 64 = 2 ∧ car ≠ 0
     let f := p.timer.frame
     let n := 4 * h.q.toNat
     let reached : RateClass := if 120 ≤ n then .D else if 88 ≤ n then .C else if 56 ≤ n then .B else .A
     let low := fun (x y : RateClass) => if rateCode x ≤ rateCode y then x else y
     let full := fun (a : Announcement) => a ∉ p.roster.ann ∧ 8 ≤ p.roster.ann.length
     let announced := fun (r : Part) (a : Announcement) =>
      { r with roster := { r.roster with
          ann := if a ∈ p.roster.ann then p.roster.ann else p.roster.ann ++ [a] } }
     let joined := fun (k : ShortId) (again : Nat) =>
      eventOf .carJoined (sidBits k) car f (prev.setWidth 16) (BitVec.ofNat 16 (rateCode top + 256 * again))
     let nobody := ∀ k, (p.entry k).live = true → (p.entry k).car ≠ car
     (h.outcome = .nothing → q = p) ∧
      (h.outcome = .crcFail ∨ (h.outcome = .ok ∧ ¬ valid) →
        q = { p with timer := { p.timer with accessGarbled := min (p.timer.accessGarbled + 1) 65535 } }) ∧
      (h.outcome = .ok → valid →
        q = p.join { burst := { car := car, prevNode := prev, capability := top }, q := h.q.toNat, frame := f
                     slot := p.timer.slot } ∧
        (∀ k, nobody → (p.entry k).state = .free → (∀ j, j < k → (p.entry j).state ≠ .free) →
          (8 ≤ p.roster.ann.length → q = p) ∧
          (p.roster.ann.length < 8 →
            q = Part.withEvent
              (announced
                (p.setEntry k { Entry.blank p.setup.defaultWeight with
                  state := .granted, car := car, prevNode := prev, capability := top, lastHeard := f, quality := n
                  cls := low reached top, dirty := true })
                { car := car, sid := sidBits k })
              (joined k 0))) ∧
        (nobody → (∀ k, (p.entry k).state ≠ .free) →
          (let a : Announcement := { car := car, sid := noCarId }
           (full a → q = p) ∧
            (¬ full a →
              q = Part.withEvent
                (announced
                  { p with roster := { p.roster with joinsRefused := min (p.roster.joinsRefused + 1) 65535 } } a)
                (eventOf .joinRefused noCarId car f (prev.setWidth 16) 0)))) ∧
        ∀ k, p.liveEntry car = some k →
          (let a : Announcement := { car := car, sid := sidBits k }
           let mine := fun (r : MsgRecord) => decide (r.sid = k ∧ r.state = .current)
           let sends := fun (e : FragEntry) => e.live && (p.record e.record).any mine
           let restarted : Part :=
            { p.fragmentsDropped sends with
              pool := { p.pool with
                records := Vector.ofFn (fun i => (p.record i).map (fun r =>
                  if mine r then { r with acked := 0, sentTo := 0, seq := none } else r)) } }
           let ab := restarted.uplinkAborted k f
           let e := p.entry k
           (full a → q = p) ∧
            (¬ full a →
              q = Part.withEvent
                (announced
                  ({ ab with uplink := { ab.uplink with finished := ab.uplink.finished.set k none } }.setEntry k
                    { e with
                      state := .granted, prevNode := prev, capability := top, lastHeard := f, miss := 0
                      grantWait := 0, quality := n, cls := low reached (low e.cap top), credit := 0
                      ackBit := false, alarm := false, context := none, dirty := true })
                  a)
                (joined k 1)))))

/-- SILENCE_STARTS and SILENCE_ENDS (R16, R20, R21): the Frame Timer takes the frame start, slot 39's settlement first
(DEDUCED, log 26). At that of the start frame the silence is ACTIVE and the substate SILENT, with SILENCE_BEGUN and no
beacon; at that of the end frame the silence is NONE, the substate ON and the resumed mark set, with SILENCE_ENDED, and
the beacon is presented if it waits for no more. At any other frame start the silence stands and the first one brings
ON; a frame that begins FAULTED has its scheduled slots withheld (DEDUCED, log 24). SILENCE_STARTS where no silence
begins, and SILENCE_ENDS where none ends, change nothing (DESIGN CHOICE, log 6). -/
def Obligations.SilenceTransitions : Prop :=
  ∀ s : State, s.part.anchor.node = .running → s.part.due.timer = true →
    (let p := s.part.runCounted 39 s.part.due.lastSlot
     let f := p.due.frame
     let starts := fun (sil : Silence) (sub : Substate) (resumed : Bool) =>
      { p with
        timer := { p.timer with
          frame := f, silence := sil, substate := sub, faultRun := 0, resumed := resumed, schedWithheld := false }
        due := { p.due with timer := false } }
     let sub := if p.timer.substate = .off then Substate.on else p.timer.substate
     let works := fun (c : Instr) (q : Part) =>
      s.part.frameWork .timer = q ∧ s.runsTo c s.mem q.thenBeacon
     (∀ stop, p.timer.silence = .pending f stop →
        works .silenceStarts (Part.withEvent (starts (.active stop) .silent p.timer.resumed)
          (nodeEvent .silenceBegun f stop (stop - f)))) ∧
      (p.timer.silence = .active f →
        works .silenceEnds (Part.withEvent (starts .none .on true) (nodeEvent .silenceEnded f 0 0))) ∧
      (p.timer.silence.begins f = false → p.timer.silence.ends f = false →
        s.part.frameWork .timer =
          { p with
            timer := { p.timer with frame := f, substate := sub, schedWithheld := decide (sub = .faulted) }
            due := { p.due with timer := false } }) ∧
      (p.timer.silence.begins f = false → exec .silenceStarts s = .next s) ∧
      (p.timer.silence.ends f = false → exec .silenceEnds s = .next s))

/-- MESSAGE_EXPIRY (R99, R103): every QUEUED and CURRENT record grows one frame older, those handed to the pool before
joining their queues first (DESIGN CHOICE, log 21), and those whose lifetime is reached retire EXPIRED as one change,
car by car, class by class, from the head of the queue, the request of an abandoned fetch withdrawn (DEDUCED, log 23);
the beacon follows if it waited for this. With none to retire the frame start ages the records itself
(`Obligations.FrameStartTaken`). -/
def Obligations.AgeingExpiresRecords : Prop :=
  ∀ s : State, s.queuesOk → s.part.due.ageing = true →
    (let p := s.part.joinHanded
     let aged : Part :=
      { p with
        due := { p.due with ageing := false }
        pool := { p.pool with
          records := Vector.ofFn (fun i => (p.record i).map (fun r =>
            if r.state = .queued ∨ r.state = .current then { r with age := min (r.age + 1) 65535 } else r)) } }
     let gone := (shortIds.flatMap (fun k => (p.entry k).queueIds)).filter (fun i =>
      (p.record i).any (fun r => decide (r.lifetime ≠ 0) && decide (r.lifetime ≤ min (r.age + 1) 65535)))
     s.part.frameWork .ageing = aged.retired .expired gone ∧
      s.runsTo .messageExpiry s.mem (aged.retired .expired gone).thenBeacon)

/-- GRANT_WAIT_EXPIRY (R33, R34, R42, R44), in a frame that is neither silent nor FAULTED: a GRANTED entry whose grant
wait is below 4 waits one frame more, one whose wait is 4 is abandoned, drained LOST, and reported JOIN_ABANDONED with
the frame that begins (DEDUCED, log 25), several cars in ascending short id (DESIGN CHOICE, log 46); it is FREE at once
when nothing of its car remains. Other entries stand. Of the pool, the fetch queue and the uplink it is said only which
records retire: what a drain does there is `Part.drained`, in `Obligations.FaultedMisses`. -/
def Obligations.GrantWaitsRun : Prop :=
  ∀ s : State, s.queuesOk → s.part.anchor.node = .running → s.part.due.roster = true →
    s.part.timer.silence.silent s.part.due.frame = false → s.part.timer.substate ≠ .faulted →
    (∀ k, (s.part.entry k).state = .granted → (s.part.entry k).context = none) →
    (let p := s.part
     let out := shortIds.filter (fun k => (p.entry k).state = .granted && 4 ≤ (p.entry k).grantWait)
     ∃ q : Part, s.part.frameWork .roster = q ∧ s.runsTo .grantWaitExpiry s.mem q.thenBeacon ∧
      q = { p with
        roster := q.roster, pool := q.pool, adm := q.adm, tx := q.tx, arb := q.arb, uplink := q.uplink, ev := q.ev
        due := { p.due with roster := false } } ∧
      (∀ k, (p.entry k).state ≠ .granted → q.entry k = p.entry k) ∧
      (∀ k, (p.entry k).state = .granted → (p.entry k).grantWait < 4 →
        q.entry k = { p.entry k with grantWait := (p.entry k).grantWait + 1, dirty := true }) ∧
      (∀ k, k ∈ out → (p.hasRecord k = true ∨ p.hasClaim k = true) →
        q.entry k = { p.entry k with
          state := .draining, drain := some .lost, credit := 0, queues := PerClass.all [], dirty := true }) ∧
      (∀ k, k ∈ out → p.hasRecord k = false → p.hasClaim k = false →
        q.entry k = { Entry.blank p.setup.defaultWeight with dirty := true }) ∧
      q.roster.ann = p.roster.ann.filter (fun a => !out.any (fun k => sidBits k = a.sid)) ∧
      q.adm = { p.adm with
        writeBacks := p.adm.writeBacks ++ (out.flatMap (fun k => (p.entry k).queueIds)).map WriteBack.record } ∧
      q.ev = out.foldl (fun v k => v.take p.setup.event.size
        (eventOf .joinAbandoned (sidBits k) (p.entry k).car p.due.frame (p.entry k).lastHeard 0)) p.ev)

/-- The Roster Table at a frame start, FAULTED or not (R34, R38, R42): nothing in a silent frame, else entry by entry in
ascending short id (DESIGN CHOICE, log 46), then the beacon. In FAULTED a GRANTED, ACTIVE or FADING entry takes a miss;
an ACTIVE or FADING one fades or is lost as by a missed slot, a GRANTED one is abandoned at the lose threshold, or when
its grant wait has run out, once. The miss comes before the grant wait, so that one abandoned with its wait run out
shows the miss, and one abandoned at the threshold waits no more (DESIGN CHOICE, log 46). The events and an aborted
delivery name the frame that begins (DEDUCED, log 25). The request of a fetch that a retirement abandons is withdrawn
(DEDUCED, log 23). -/
def Obligations.FaultedMisses : Prop :=
  (∀ s : State, s.part.due.roster = true →
    (let p := s.part
     let f := p.due.frame
     let taken := { p with due := { p.due with roster := false } }
     let works := fun (q : Part) => p.frameWork .roster = q ∧ s.runsTo .grantWaitExpiry s.mem q.thenBeacon
     (p.timer.silence.silent f = true → works taken) ∧
      (p.timer.silence.silent f = false →
        works (shortIds.foldl (Part.frameStartEntry f (decide (p.timer.substate = .faulted))) taken)))) ∧
    ∀ (s : State) f k, s.queuesOk → s.part.anchor.node = .running →
      (let p := s.part
       let e := p.entry k
       let n := min 31 (e.miss + 1)
       let missed := { e with miss := n, dirty := e.dirty || decide (n ≠ e.miss) }
       let calm := p.frameStartEntry f false k
       let bad := p.frameStartEntry f true k
       let abandoned := fun (x : Entry) (q : Part) =>
        q = Part.withEvent ((p.setEntry k x).drained k .lost f)
          (eventOf .joinAbandoned (sidBits k) e.car f e.lastHeard 0)
       (e.state = .free ∨ e.state = .draining → calm = p ∧ bad = p) ∧
        (e.onAir = true → calm = p ∧
          (n < p.setup.loseAfter →
            (let st := if p.setup.fadeAfter ≤ n then EntryState.fading else e.state
             bad = p.setEntry k { missed with state := st, dirty := missed.dirty || decide (st ≠ e.state) })) ∧
          (p.setup.loseAfter ≤ n →
            bad = Part.withEvent ((p.setEntry k missed).drained k .lost f)
              (eventOf .carLost (sidBits k) e.car f e.lastHeard (BitVec.ofNat 16 n)))) ∧
        (e.state = .granted →
          (e.grantWait < 4 → calm = p.setEntry k { e with grantWait := e.grantWait + 1, dirty := true }) ∧
          (4 ≤ e.grantWait → abandoned e calm) ∧
          (e.grantWait < 4 → n < p.setup.loseAfter →
            bad = p.setEntry k { missed with grantWait := e.grantWait + 1, dirty := true }) ∧
          (4 ≤ e.grantWait ∨ p.setup.loseAfter ≤ n → abandoned missed bad)))

/-- UPLINK_SLOT_RESULT of a missed or withheld slot (R36, R37, R54, R126, R136, R137, R143), its answer as
`Obligations.AnswerSettlesRecord` says. A miss of an ACTIVE or FADING car is first a sample of Q = 0; the ack bit of a
live car is 0; then the miss is counted: at fade_after the car is FADING, at lose_after it is drained LOST, with
CAR_LOST, whose frame is the one in which it is submitted. Other entries keep their state. The request of a fetch that a
retirement abandons is withdrawn (DEDUCED, log 23). -/
def Obligations.MissedSlotTaken : Prop :=
  ∀ (s : State) r rs, s.part.anchor.node = .running → s.part.due.results = r :: rs → r.response = none →
    (let k := r.owner
     let p : Part := { s.part with due := { s.part.due with results := rs } }
     let e := p.entry k
     let counts := r.outcome ≠ .withheld ∧ e.onAir = true
     let n := smooth e.quality 0
     let c := stepClass e.cls e.ceiling n
     let sampled := if counts then
        p.setEntry k { e with
          quality := n, cls := c, dirty := e.dirty || decide (n ≠ e.quality) || decide (c ≠ e.cls) }
      else p
     let a := sampled.answer k r.frame (if r.outcome = .withheld then .withheld else .missed)
     let x := a.entry k
     let acked := if e.live then a.setEntry k { x with ackBit := false, dirty := x.dirty || x.ackBit } else a
     let y := acked.entry k
     let m := min 31 (y.miss + 1)
     let missed := { y with miss := m, dirty := y.dirty || decide (m ≠ y.miss) }
     let st := if p.setup.fadeAfter ≤ m then EntryState.fading else y.state
     let takes := fun (q : Part) =>
      s.part.frameWork .result = q ∧ s.runsTo .uplinkSlotResult s.mem q.thenBeacon
     (¬ counts → takes acked) ∧
      (counts → m < p.setup.loseAfter →
        takes (acked.setEntry k
          { missed with state := st, dirty := missed.dirty || decide (st ≠ y.state) })) ∧
      (counts → p.setup.loseAfter ≤ m → s.queuesOk →
        takes (Part.withEvent ((acked.setEntry k missed).drained k .lost p.timer.frame)
          (eventOf .carLost (sidBits k) y.car p.timer.frame y.lastHeard (BitVec.ofNat 16 m)))))

/-- UPLINK_SLOT_RESULT of a valid response (R35, R36, R39, R54, R57, R136, R137, R138, R143), in order: the sample, the
acks as `Obligations.AnswerSettlesRecord` says, the alarm flag with CAR_ALARM when it rises, the fragment as
`Obligations.FragmentJudged` says with its ack bit, and the result: the car is ACTIVE with no misses, last heard in the
slot's frame, or, with the leaving flag, drained LEFT, an ACTIVE or FADING one with its misses set to 0 as by any valid
result, a GRANTED one without that (R35), with CAR_LEFT, whose frame is the one in which it is submitted where CAR_ALARM
names that of the slot. Of an owner no longer live only the answer is taken. The request of a fetch that a retirement
abandons is withdrawn (DEDUCED, log 23). -/
def Obligations.ValidResponseTaken : Prop :=
  ∀ (s : State) r rs qv x, s.part.anchor.node = .running → s.part.due.results = r :: rs → r.response = some (qv, x) →
    (let k := r.owner
     let p : Part := { s.part with due := { s.part.due with results := rs } }
     let now := p.timer.frame
     let e := p.entry k
     let n := smooth e.quality qv
     let c := stepClass e.cls e.ceiling n
     let takes := fun (q : Part) =>
      s.part.frameWork .result = q ∧ s.runsTo .uplinkSlotResult s.mem q.thenBeacon
     (e.live = false → takes (p.answer k r.frame (.valid x.acks))) ∧
      (e.live = true →
        (let a := (p.setEntry k { e with
            quality := n, cls := c, dirty := e.dirty || decide (n ≠ e.quality) || decide (c ≠ e.cls) }).answer
              k r.frame (.valid x.acks)
         let y := a.entry k
         let flagged := a.setEntry k { y with alarm := x.alarm, dirty := y.dirty || decide (x.alarm ≠ y.alarm) }
         let alarmed := if x.alarm = true ∧ y.alarm = false then
            flagged.withEvent (eventOf .carAlarm (sidBits k) y.car r.frame (BitVec.ofNat 16 r.slot) 0)
          else flagged
         let j : Part × Bool := match x.fragment with
          | none => (alarmed, false)
          | some f => alarmed.judgeFragment k f r.frame now
         let z : Entry := j.1.entry k
         let bits := { z with ackBit := j.2, dirty := z.dirty || decide (j.2 ≠ z.ackBit) }
         let stays : Entry := { bits with
          state := .active, miss := 0, lastHeard := r.frame
          grantWait := if z.state = .granted then 0 else z.grantWait }
         (x.leaving = false →
            takes (j.1.setEntry k { stays with dirty := bits.dirty || decide (bits.shown ≠ stays.shown) })) ∧
          (x.leaving = true → s.queuesOk →
            takes (Part.withEvent
              ((j.1.setEntry k { bits with
                miss := if z.state = .granted then z.miss else 0, lastHeard := r.frame }).drained k .left now)
              (eventOf .carLeft (sidBits k) y.car now (y.prevNode.setWidth 16) 0))))))

/-- The judgment of a fragment from a live owner (R139, R140, R141, R142, R144, R145, R150). A fragment of no length or
past 16383, ahead of what is expected, or of a seq that neither continues nor begins a message is rejected; one
already taken is a duplicate; at offset 0 a new seq gives up the message in progress and claims the entry at producer
when the ring and the staging have room. A fragment that brings new bytes stages those below B when a place is free,
sums all of them, and, when it is the last, decides SUM_BAD, TRUNCATED or OK and sets the finished mark. -/
def Obligations.FragmentJudged : Prop :=
  ∀ (p : Part) (k : ShortId) (f : UpFragment) frame now,
    (let u := p.uplink
     let e := p.entry k
     let res := p.judgeFragment k f frame now
     let stop := f.offset + f.len
     let B := p.setup.bufferSize
     let sound := f.len ≠ 0 ∧ stop ≤ 16383
     let owes := fun (v : Uplink) (i : Word) =>
      { v with entryWrites :=
          if v.claims.any (fun c => c.index = i) && !v.staging.any (fun g => g.index = i) && !v.entryWrites.contains i
          then v.entryWrites ++ [i] else v.entryWrites }
     let taken := fun (q : Part) (x : UplinkContext) (before : Entry) =>
      let fresh := f.data.drop (x.expected - f.offset)
      let stored := fresh.take (B - x.expected)
      let sum := sumBytes x.sum x.expected fresh
      let cut := x.truncated || decide (stored.length < fresh.length)
      let v := { q.uplink with staging :=
        if stored = [] then q.uplink.staging
        else q.uplink.staging ++ [{ index := x.index, offset := x.expected, bytes := stored }] }
      let status : UplinkStatus :=
        if f.sumPresent = true ∧ f.trailer ≠ ~~~sum then .sumBad else if cut then .truncated else .ok
      if f.last then
        { q.setEntry k { before with context := none, dirty := true } with
          uplink := owes
            { v with
              finished := v.finished.set k (some { seq := x.seq, len := stop })
              claims := v.claims.map (fun c => if c.index = x.index then
                { c with
                  state := .decided, status := some status, len := stop, stored := min stop B, sum := sum
                  frame := frame }
                else c) }
            x.index }
      else
        { q.setEntry k { before with
            context := some { x with expected := stop, truncated := cut, sum := sum } } with uplink := v }
     let begins := sound ∧ f.offset = 0 ∧
      ((∃ x, e.context = some x ∧ f.seq ≠ x.seq) ∨
        (e.context = none ∧ ∀ m, u.finished[k] = some m → m.seq ≠ f.seq))
     (¬ sound → res = (p, false)) ∧
      (∀ x, sound → e.context = some x → f.seq = x.seq →
        (x.expected < f.offset → res = (p, false)) ∧
        (f.offset ≤ x.expected → stop ≤ x.expected → res = (p, true)) ∧
        (f.offset ≤ x.expected → x.expected < stop →
          (let needs := (f.data.drop (x.expected - f.offset)).take (B - x.expected) ≠ []
           (needs ∧ 4 ≤ u.staging.length → res = (p, false)) ∧
            (needs → u.staging.length < 4 → res = (taken p x e, true)) ∧
            (¬ needs → res = (taken p x e, true))))) ∧
      (∀ m, sound → e.context = none → u.finished[k] = some m → m.seq = f.seq →
        (stop ≤ m.len → res = (p, true)) ∧ (m.len < stop → res = (p, false))) ∧
      (sound → f.offset ≠ 0 → (∀ x, e.context = some x → f.seq ≠ x.seq) →
        (e.context = none → ∀ m, u.finished[k] = some m → m.seq ≠ f.seq) → res = (p, false)) ∧
      (begins →
        (let a := p.uplinkAborted k now
         let room := ahead u.consumer u.producer < p.setup.uplink.size ∧ u.staging.length < 4
         (¬ room → res = (a, false)) ∧
          (room →
            res = (taken
              { a with
                uplink := { a.uplink with
                  finished := u.finished.set k none, producer := u.producer + 1
                  claims := a.uplink.claims ++ [{
                    index := u.producer, sid := k, car := e.car, seq := f.seq, state := .inProgress, status := none
                    len := 0, stored := 0, sum := 0, frame := 0 }] } }
              { seq := f.seq, expected := 0, index := u.producer, truncated := false, sum := 0 }
              { e with dirty := true }, true)))))

/-- The answer of an up slot to the CURRENT records of a car (R124, R125, R126, R127, R128, R129). Of several acks for a
record, each clamped to L and to the watermark, the highest counts. A record named in the answer list of the slot's
frame is completed, moved on or sent back; one outside the list only moves on. A missed or withheld slot sends back
the named records, the withheld one without counting. The retry limit fails a record. The retired records join the
write-back list in class order, and STOP_DELIVERED, STOP_FAILED and MESSAGE_FAILED are submitted in that order. -/
def Obligations.AnswerSettlesRecord : Prop :=
  ∀ (s : State) k f ans, s.queuesOk → s.part.anchor.node = .running →
    (let p := s.part
     let q := p.answer k f ans
     let named := fun (i : PoolId) (r : MsgRecord) =>
      ∃ l sq, p.pool.answers.find? (fun l => l.sid = k && l.frame = f) = some l ∧ r.seq = some sq ∧ (i, sq) ∈ l.records
     let acked := fun (acks : List AckEntry) (r : MsgRecord) =>
      ((acks.filter (fun a => a.cls = some r.cls && some a.seq = r.seq)).map
        (fun a => min (min a.offset r.len) r.watermark)).max?
     let back := fun (r : MsgRecord) => { r with sentTo := r.acked, attempts := r.attempts + 1 }
     let retires := fun (i : PoolId) (r : MsgRecord) (st : Status) =>
      q.record i = some { r with state := .retiring, outcome := some st }
     let triedAgain := fun (i : PoolId) (r : MsgRecord) =>
      (r.attempts + 1 < p.setup.retryLimit → q.record i = some (back r)) ∧
        (p.setup.retryLimit ≤ r.attempts + 1 → retires i (back r) .failed)
     let retired := fun (c : MsgClass) => (p.current k c).bind (fun x =>
      (q.record x.1).bind (fun y => if y.state = .retiring then y.outcome.map (fun st => (x.1, x.2, st)) else none))
     let reported := fun (x : PoolId × MsgRecord × Status) =>
      let r := x.2.1
      let event := fun (kind : EventKind) (n : Nat) =>
        some (eventOf kind (sidBits k) (p.entry k).car f r.first (BitVec.ofNat 16 n))
      if x.2.2 = .failed then event (if r.cls = .stop then .stopFailed else .messageFailed) r.acked
      else if r.cls = .stop then event .stopDelivered r.age else none
     (∀ c i r, p.current k c = some (i, r) →
        (∀ acks, ans = .valid acks → named i r →
          (let a := (acked acks r).getD r.acked
           (a = r.len → retires i r .ok) ∧
            (a ≠ r.len → r.acked < a → q.record i = some { r with acked := a, sentTo := a, attempts := 0 }) ∧
            (a ≠ r.len → a ≤ r.acked → r.acked < r.sentTo → triedAgain i r) ∧
            (a ≠ r.len → a ≤ r.acked → r.sentTo ≤ r.acked → q.record i = some r))) ∧
        (∀ acks, ans = .valid acks → ¬ named i r →
          (∀ a, acked acks r = some a → a = r.len → retires i r .ok) ∧
            (∀ a, acked acks r = some a → a ≠ r.len → r.acked < a →
              q.record i = some { r with acked := a, sentTo := max r.sentTo a, attempts := 0 }) ∧
            (∀ a, acked acks r = some a → a ≠ r.len → a ≤ r.acked → q.record i = some r) ∧
            (acked acks r = none → q.record i = some r)) ∧
        (ans = .missed → named i r → triedAgain i r) ∧
        (ans = .withheld → named i r → q.record i = some { r with sentTo := r.acked }) ∧
        (ans = .missed ∨ ans = .withheld → ¬ named i r → q.record i = some r)) ∧
      q.ev = ((classes.filterMap retired).filterMap reported).foldl (fun v e => v.take p.setup.event.size e) p.ev ∧
      q.adm = { p.adm with
        writeBacks := p.adm.writeBacks ++ (classes.filterMap retired).map (fun x => WriteBack.record x.1) } ∧
      q.pool.answers = p.pool.answers.filter (fun l => !(l.sid = k && l.frame = f)) ∧
      (∀ c, (q.entry k).queues.get c =
        ((p.entry k).queues.get c).filter (fun i => !(classes.filterMap retired).any (fun x => x.1 = i))) ∧
      (∀ j r, p.record j = some r → (∀ c x, p.current k c ≠ some (j, x)) →
        q.record j = some { r with
          state := if ((q.entry r.sid).queues.get r.cls).head? = some j then .current else r.state }) ∧
      (∀ j, p.record j = none → q.record j = none) ∧
      (∀ j, j ≠ k → q.entry j = p.entry j) ∧
      { q.entry k with queues := (p.entry k).queues, dirty := (p.entry k).dirty } = p.entry k ∧
      q.roster.ann = p.roster.ann ∧ q.uplink = p.uplink ∧ q.timer = p.timer ∧ q.port = p.port ∧ q.due = p.due)

/-- HALT_TAKEN (R24, R45, R52, R85, R106, R132, R154, R174): at the frame boundary after a halt request the node is
HALTING, the radio is OFF and silent of orders, and the frame number stays; the plan is empty, its frame that of the
Frame Timer (log 28), open items and answer lists are gone, every entry is FREE or DRAINING HALTED, and an image pass is
begun, or owed when one is in progress. Whether slot 39's result is taken before the drains is the operand's choice (log
27); when it is not, or there is none, every QUEUED and CURRENT record retires HALTED and every claim of a message in
progress is ABORTED, its entry write joining the entry-write list unless a staging place still holds its bytes, those of
several cars in ascending short id (DESIGN CHOICE, log 46). A fetch and the engine's reads are abandoned, a turn in
progress completing (R160), and their requests withdrawn (DEDUCED, log 23); the Admission report waits for no abandoned
read (R174). An up slot result of the frame before may wait through slots 0 to 3 (DEDUCED, log 9). A directive handed to
its owner is abandoned with its item (DESIGN CHOICE, log 20). -/
def Obligations.HaltTakenAtBoundary : Prop :=
  ∀ (s : State) first, s.part.anchor.node = .running → s.part.anchor.haltReq = true →
    (s.part.timer.underWay = true → s.part.timer.slot = 39) → s.part.nothingDue →
    ∃ t, exec (.haltTaken first) s = .next t ∧ t.mem = s.mem ∧ s.sameOutside t ∧
      (let q := t.part
       q.anchor.node = .halting ∧ q.anchor.haltReq = false ∧ q.anchor.setup = s.part.anchor.setup ∧
        q.anchor.status = { code := .halting, reason := .none } ∧
        q.timer.underWay = false ∧ q.timer.substate = .off ∧ q.timer.silence = .none ∧ q.timer.faultRun = 0 ∧
        q.timer.resumed = false ∧ q.timer.frame = s.part.timer.frame ∧
        q.port.order = none ∧ q.port.answer = none ∧
        q.roster.ann = [] ∧
        (∀ k, (q.entry k).state = .free ∨
          ((q.entry k).state = .draining ∧ (q.entry k).drain = some .halted)) ∧
        (∀ k, ((s.part.entry k).state = .free → (s.part.entry k).context = none) →
          (q.entry k).context = none) ∧
        q.planner = { s.part.planner with plan := Plan.blank s.part.timer.frame } ∧
        q.pool.answers = [] ∧ q.tx.queue = [] ∧ q.tx.staging = [] ∧ q.tx.late = [] ∧
        q.tx.lateFragments = s.part.tx.lateFragments ∧
        (∀ tn, s.part.arb.turn = some tn →
          q.arb.turn = some { tn with
            abandoned := tn.abandoned || decide (tn.kind = .fetch ∨ tn.kind = .descRead ∨ tn.kind = .gatherRead) }) ∧
        q.arb.transmit = none ∧ q.arb.admission ≠ some .descRead ∧ q.arb.admission ≠ some .gatherRead ∧
        ((∀ i, q.record i = none) → q.adm.writeBacks = [] →
          (∀ r, (q.ring r).doneOwed = false ∧ (q.ring r).done = (q.ring r).admitted) → q.arb.admission = none →
          (∀ tn, q.arb.turn = some tn → tn.kind.requester ≠ .admission ∨ tn.abandoned = true) →
          q.anchor.marks.admission = true) ∧
        (∀ r, (q.ring r).item = none ∧ (q.ring r).kept = none ∧ (q.ring r).words = none ∧
          (q.ring r).read = (s.part.ring r).admitted ∧
          (q.ring r).admitted = (s.part.ring r).admitted ∧ (q.ring r).tail = (s.part.ring r).tail ∧
          (q.ring r).done = (s.part.ring r).done) ∧
        q.adm.inHand = none ∧ q.bus = s.part.bus ∧
        q.image.writing ≠ none ∧
        (∀ x, s.part.image.writing = some x → q.image.writing = some x ∧ q.image.owed = true) ∧
        (first = false ∨ (s.part.planner.plan.use 39).isUp = false →
          (∀ i r, s.queuesOk → s.part.record i = some r → r.state = .queued ∨ r.state = .current →
            ∃ n, q.record i = some { r with state := .retiring, outcome := some .halted, sentTo := n }) ∧
          (let u := s.part.uplink
           let open' := shortIds.filterMap (fun k =>
            if (s.part.entry k).state = .free then none else (s.part.entry k).context.map UplinkContext.index)
           q.uplink.entryWrites = open'.foldl (fun l i =>
            if u.claims.any (fun c => c.index = i) && !u.staging.any (fun g => g.index = i) && !l.contains i
            then l ++ [i] else l) u.entryWrites) ∧
          ∀ c k x, c ∈ s.part.uplink.claims → (s.part.entry k).state ≠ .free → (s.part.entry k).context = some x →
            x.index = c.index →
            ∃ c', c' ∈ q.uplink.claims ∧ c'.index = c.index ∧ c'.state = .aborted ∧ c'.status = some .aborted))

/-- Samples (R54, R56, R57, R58): a sample moves S by a quarter of its distance to 4Q, rounded toward zero, and the
class by at most one step at the thresholds of R57, never above the ceiling; only ACTIVE and FADING entries, and
GRANTED ones with a valid response, take it. A steady Q brings S within 3 of 4Q, on the side it came from. -/
def Obligations.QualityFollowsSamples : Prop :=
  (∀ (p : Part) k valid q, q ≤ 63 → (p.entry k).quality ≤ 252 →
    (let e := p.entry k
     let takes := e.state = .active ∨ e.state = .fading ∨ (e.state = .granted ∧ valid = true)
     let enter : RateClass → Nat := fun c => match c with
      | .A => 56
      | .B => 88
      | .C => 120
      | .D => 0
     let leave : RateClass → Nat := fun c => match c with
      | .A => 0
      | .B => 40
      | .C => 72
      | .D => 104
     (¬ takes → p.applySample k valid q = p) ∧
      (takes → ∃ n c, p.applySample k valid q =
          p.setEntry k { e with
            quality := n, cls := c, dirty := e.dirty || decide (n ≠ e.quality) || decide (c ≠ e.cls) } ∧
        (n : Int) = e.quality + Int.tdiv (4 * q - e.quality) 4 ∧ n ≤ 252 ∧
        (let climbs := e.cls ≠ .D ∧ enter e.cls ≤ n ∧ rateCode e.cls < rateCode e.cap ∧
          rateCode e.cls < rateCode e.capability
         (climbs → rateCode c = rateCode e.cls + 1) ∧
          (¬ climbs → n < leave e.cls → rateCode c + 1 = rateCode e.cls) ∧
          (¬ climbs → leave e.cls ≤ n → c = e.cls))))) ∧
    ∀ s q : Nat, s ≤ 252 → q ≤ 63 →
      ∃ n, ∀ m, n ≤ m →
        (4 * q ≤ s → 4 * q ≤ (fun x => smooth x q)^[m] s ∧ (fun x => smooth x q)^[m] s ≤ 4 * q + 3) ∧
          (s ≤ 4 * q → (fun x => smooth x q)^[m] s ≤ 4 * q ∧ 4 * q ≤ (fun x => smooth x q)^[m] s + 3)

/-- The plan build (R67, R70, R71, R72, R73, R74, R75, R79), which is the Slot Planner's work of a frame start: unless
the substate reads ON the plan is empty, its figures of class A (DESIGN CHOICE, log 28), and the roster stands; every
car with a down slot has an up slot, at most one and at most 8 down slots; with a CONTROL or BULK slot the down slots
of four frames stay within the duty limit; the history shifts; credit stays in ±64. -/
def Obligations.PlanBuilt : Prop :=
  (∀ p : Part, p.due.build = true →
    p.frameWork .build = Part.buildPlan { p with due := { p.due with build := false } } p.due.frame) ∧
  ∀ (p : Part) f,
    (let q := p.buildPlan f
     let plan := q.planner.plan
     let down := fun (k : ShortId) (u : SlotUse) => match u with
      | .down g => decide (g.sid = k)
      | _ => false
     (p.timer.substate ≠ .on → plan = Plan.blank f ∧ q.roster = p.roster) ∧
      plan.frame = f ∧ plan.slots.length = 36 ∧
      (∀ g, SlotUse.down g ∈ plan.slots → SlotUse.up g.sid ∈ plan.slots) ∧
      (∀ k, plan.slots.countP (down k) ≤ 8 ∧ plan.slots.count (.up k) ≤ 1) ∧
      (∀ g, SlotUse.down g ∈ plan.slots → g.cls ≠ .stop →
        p.planner.h1 + p.planner.h2 + p.planner.h3 + plan.slots.countP SlotUse.isDown ≤ p.setup.dutyLimit) ∧
      q.planner.h1 = (if p.timer.silence.silent f then 0 else plan.slots.countP SlotUse.isDown) ∧
      q.planner.h2 = p.planner.h1 ∧ q.planner.h3 = p.planner.h2 ∧
      ∀ k, -64 ≤ (p.entry k).credit → (p.entry k).credit ≤ 64 →
        -64 ≤ (q.entry k).credit ∧ (q.entry k).credit ≤ 64)

/-- What a plan built in ON grants (R68, R71, R75, R76, R77, R78, R79, R80, R81). Each DOWN entry continues its CURRENT
message where sent_to and the grants before it end, cut at the car's class. STOP grants come first, oldest admission
first, and one is left out only for want of slots; so is a poll of a GRANTED car or of one in its phase. CONTROL goes
before BULK; a car with such data left has 8 down slots, or the duty limit or the slots are spent. Up slots go from
slot 39 downward: the STOP cars', the polls' in ascending short id, and the others' as their cars are first granted.
Each CONTROL or BULK grant goes to the car of the highest credit of those eligible then, the lowest short id among
equals, and each entry ends with the credit that the build's update gave it less 16 for each such grant, at least −64,
marked dirty when that changed; the picks and the update are said by themselves too. -/
def Obligations.PlanGrants : Prop :=
  (∀ (p : Part) f, p.timer.substate = .on →
    (let q := p.buildPlan f
     let slots := q.planner.plan.slots
     let downs := slots.filterMap (fun u => match u with
      | .down g => some g
      | _ => none)
     let ups := slots.countP SlotUse.isUp
     let upsSeq := slots.reverse.filterMap (fun u => match u with
      | .up k => some k
      | _ => none)
     let granted := fun (k : ShortId) (c : MsgClass) (n : Nat) =>
      (((downs.take n).filter (fun g => g.sid = k && g.cls = c)).map DownGrant.len).sum
     let noRoom := fun (k : ShortId) => 36 < downs.length + 1 + (if SlotUse.up k ∈ slots then ups else ups + 1) + 1
     let next := p.adm.nextAdm
     let stopOf := fun (k : ShortId) (r : MsgRecord) =>
      (p.entry k).onAir = true ∧ (∃ i, p.current k .stop = some (i, r)) ∧ r.sentTo < r.len
     let polled := fun (k : ShortId) => (p.entry k).state = .granted ∨
      ((p.entry k).onAir = true ∧ k.val % p.setup.pollPeriod = f.toNat % p.setup.pollPeriod)
     (∀ (n : Nat) g, downs[n]? = some g → slots[n]? = some (.down g) ∧
        ∃ r, p.current g.sid g.cls = some (g.record, r) ∧ g.rate = (p.entry g.sid).cls ∧
          g.offset = r.sentTo + granted g.sid g.cls n ∧
          g.len = min (g.rate.payload - 8 - r.hdr) (r.len - g.offset)) ∧
      (∀ k r, stopOf k r → (∃ g, g ∈ downs ∧ g.sid = k ∧ g.cls = .stop) ∨ noRoom k) ∧
      (∀ g, g ∈ downs → g.cls = .stop → ∃ r, stopOf g.sid r) ∧
      (∀ (m n : Nat) g h, m < n → downs[m]? = some g → downs[n]? = some h → h.cls = .stop →
        g.cls = .stop ∧ g.sid ≠ h.sid ∧
          ∀ a b, p.record g.record = some a → p.record h.record = some b → ahead b.adm next ≤ ahead a.adm next) ∧
      (∀ k, polled k → SlotUse.up k ∈ slots ∨
        36 < downs.length + (ups + 1) + (if downs = [] then 0 else 1)) ∧
      (∀ k, SlotUse.up k ∈ slots → polled k ∨ ∃ g, g ∈ downs ∧ g.sid = k) ∧
      (∀ (m n : Nat) g h, m < n → downs[m]? = some g → downs[n]? = some h → h.cls = .control → g.cls ≠ .bulk) ∧
      (∀ (n : Nat) k, upsSeq[n]? = some k → slots.reverse[n]? = some (.up k)) ∧
      (∃ polls rest,
        upsSeq = (downs.filter (fun g => g.cls = .stop)).map DownGrant.sid ++ polls ++ rest ∧
        polls.Pairwise (fun j k => j < k) ∧ (∀ k, k ∈ polls → polled k) ∧
        rest.Pairwise (fun j k => (downs.map DownGrant.sid).idxOf j < (downs.map DownGrant.sid).idxOf k) ∧
        ∀ k, k ∈ rest → ¬ polled k) ∧
      ∀ k c i r, c ≠ .stop → p.current k c = some (i, r) →
        (p.entry k).state = .active ∨ (c = .control ∧ (p.entry k).state = .fading) →
        r.len - r.sentTo ≤ granted k c downs.length ∨ 8 ≤ downs.countP (fun g => g.sid = k) ∨
          p.setup.dutyLimit ≤ p.planner.h1 + p.planner.h2 + p.planner.h3 + downs.length ∨ noRoom k)) ∧
    (∀ (p : Part) f, p.timer.substate = .on →
      (let q := p.buildPlan f
       let slots := q.planner.plan.slots
       let downs := slots.filterMap (fun u => match u with
        | .down g => some g
        | _ => none)
       let has := fun (k : ShortId) (c : MsgClass) => ∃ i r, p.current k c = some (i, r) ∧ r.sentTo < r.len
       let earns := fun (k : ShortId) =>
        ((p.entry k).onAir = true ∧ has k .control) ∨ ((p.entry k).state = .active ∧ has k .bulk)
       let charges := fun (k : ShortId) (n : Nat) => (downs.take n).countP (fun g => g.sid = k && g.cls ≠ .stop)
       let granted := fun (k : ShortId) (c : MsgClass) (n : Nat) =>
        (((downs.take n).filter (fun g => g.sid = k && g.cls = c)).map DownGrant.len).sum
       let polled := fun (k : ShortId) => decide ((p.entry k).state = .granted) ||
        ((p.entry k).onAir && decide (k.val % p.setup.pollPeriod = f.toNat % p.setup.pollPeriod))
       let hasUp := fun (k : ShortId) (n : Nat) =>
        decide (SlotUse.up k ∈ slots) && (polled k || (downs.take n).any (fun g => g.sid = k))
       let eligible := fun (k : ShortId) (c : MsgClass) (n : Nat) =>
        ((p.entry k).state = .active ∨ (c = .control ∧ (p.entry k).state = .fading)) ∧
          (∃ i r, p.current k c = some (i, r) ∧ granted k c n < r.len - r.sentTo) ∧
          (downs.take n).countP (fun g => g.sid = k) < 8 ∧
          n + 1 + (shortIds.countP (fun j => hasUp j n) + if hasUp k n then 0 else 1) + 1 ≤ 36
       ∃ earned : ShortId → Int,
        (∀ k, (earns k → earned k = min 64 ((p.entry k).credit + (p.entry k).weight)) ∧ (¬ earns k → earned k = 0)) ∧
        (let credit := fun (k : ShortId) (n : Nat) =>
          if charges k n = 0 then earned k else max (-64) (earned k - 16 * charges k n)
         (∀ k, (q.entry k).credit = credit k downs.length ∧
            (q.entry k).dirty = ((p.entry k).dirty || decide (earned k ≠ (p.entry k).credit) ||
              decide (0 < charges k downs.length ∧ earned k ≠ -64))) ∧
          ∀ (n : Nat) g, downs[n]? = some g → g.cls ≠ .stop →
            eligible g.sid g.cls n ∧
              ∀ k, eligible k g.cls n →
                credit k n < credit g.sid n ∨ (credit k n = credit g.sid n ∧ g.sid ≤ k)))) ∧
    (∀ (b : Build) records c,
      (∀ k, b.pick records c = some k → b.eligible records c k = true ∧
        ∀ j, b.eligible records c j = true →
          b.entries[j].credit < b.entries[k].credit ∨ (b.entries[j].credit = b.entries[k].credit ∧ k ≤ j)) ∧
      (b.pick records c = none → ∀ k, b.eligible records c k = false) ∧
      ∀ n k, b.pick records c = some k →
        (let g := b.grantDown records k c
         let e := g.entries[k]
         let left := max (-64) (e.credit - 16)
         Build.sharePass records c (n + 1) b =
          Build.sharePass records c n
            { g with
              entries := g.entries.set k { e with credit := left, dirty := e.dirty || decide (left ≠ e.credit) }
              allowance := g.allowance - 1 })) ∧
    ∀ (p : Part) (k : ShortId),
      (let e := p.entry k
       let has := fun (c : MsgClass) => ∃ i r, p.current k c = some (i, r) ∧ r.sentTo < r.len
       let earns := (e.onAir = true ∧ has .control) ∨ (e.state = .active ∧ has .bulk)
       ∃ c, (earns → c = min 64 (e.credit + e.weight)) ∧ (¬ earns → c = 0) ∧
        (creditUpdate p.pool.records p.roster.entries)[k] =
          { e with credit := c, dirty := e.dirty || decide (c ≠ e.credit) })

/-- The hand-off of a plan (R82, R110, R111, R120, R123): the old fetch queue and staging are gone, with a fetch under
way abandoned and its request withdrawn (DEDUCED, log 23). Each DOWN slot entry makes a fragment, in slot order, of the
seq its record has; a record without one takes its car's next seq of its class, which then goes up by one. Each car with
a DOWN slot gets an answer list for the plan's frame that names every record granted to it with its seq, each once. -/
def Obligations.PlanHandedOff : Prop :=
  ∀ (s : State) f, s.queuesOk →
    (let p := s.part
     let q := p.buildPlan f
     let slots := q.planner.plan.slots
     let fresh := fun (g : DownGrant) => (p.entry g.sid).nextSeq.get g.cls
     let fragment := fun (i : Nat) (u : SlotUse) => match u with
      | .down g => (p.record g.record).map (fun r =>
          let last := decide (g.offset + g.len = r.len)
          ({ slot := i + 4, sid := g.sid, record := g.record, cls := g.cls, rate := g.rate
             seq := r.seq.getD (fresh g), offset := g.offset, len := g.len, hdr := r.hdr, stamp := r.stamp
             table := r.table, last := last, sumPresent := last && r.sumStart.isSome, cond := .waiting, live := true
             whole := false } : FragEntry))
      | _ => none
     q = { p with
        planner := q.planner, tx := q.tx, arb := p.arb.fetchDropped
        roster := { p.roster with entries := q.roster.entries }
        pool := { p.pool with records := q.pool.records, answers := q.pool.answers } } ∧
      q.tx = { p.tx with
        queue := (List.range slots.length).filterMap (fun i => (slots[i]?).bind (fragment i)), staging := [], late := [] } ∧
      (∀ i r, p.record i = some r →
        (∀ g, SlotUse.down g ∈ slots → g.record = i →
          q.record i = some { r with seq := some (r.seq.getD (fresh g)) }) ∧
        ((∀ g, SlotUse.down g ∈ slots → g.record ≠ i) → q.record i = some r)) ∧
      (∀ i, p.record i = none → q.record i = none) ∧
      (∀ k, { q.entry k with
          nextSeq := (p.entry k).nextSeq, credit := (p.entry k).credit, dirty := (p.entry k).dirty } = p.entry k) ∧
      (∀ k c, (q.entry k).nextSeq.get c = (p.entry k).nextSeq.get c +
        (if slots.any (fun u => match u with
          | .down g => decide (g.sid = k ∧ g.cls = c) && (p.record g.record).any (fun r => r.seq.isNone)
          | _ => false) then 1 else 0)) ∧
      ∃ lists, q.pool.answers = p.pool.answers ++ lists ∧
        lists.map AnswerList.sid = shortIds.filter (fun k => q.tx.queue.any (fun e => e.sid = k)) ∧
        ∀ l, l ∈ lists → l.frame = f ∧ l.records.Nodup ∧
          ∀ i sq, (i, sq) ∈ l.records ↔ ∃ e, e ∈ q.tx.queue ∧ e.sid = l.sid ∧ e.record = i ∧ e.seq = sq)

/-! ### Directives -/

/-- SILENCE and QUIET_END (R19, R20, R22, R96, R98): the directive handed to the Frame Timer is taken as a command (log
20) and acts on the silence state it finds, with lead n and length m in frame f, which is the frame number the Frame
Timer holds: 0 from START on to the first frame start. The end of an ACTIVE silence is only ever moved further out, by
SILENCE; QUIET_END ends it at the next frame start and clears a PENDING one. A frame start still due to the Frame Timer
at which no silence begins or ends any more is taken with the directive (log 8). The directive finishes OK. -/
def Obligations.SilenceDirectives : Prop :=
  (∀ (s : State) r it d, s.part.anchor.node = .running → s.part.handed = some (r, it, d) →
    (let p := s.part
     let f := p.timer.frame
     let g := p.due.frame
     let finishes := fun (c : Instr) (sil : Silence) =>
      let set := { p with timer := { p.timer with silence := sil } }
      let ran := set.runCounted 39 p.due.lastSlot
      let sub := if ran.timer.substate = .off then Substate.on else ran.timer.substate
      let goes := p.due.timer = true ∧ sil.begins g = false ∧ sil.ends g = false
      let q := if goes then
          Part.thenBeacon { ran with
            timer := { ran.timer with frame := g, substate := sub, schedWithheld := decide (sub = .faulted) }
            due := { ran.due with timer := false } }
        else set
      s.runsTo c s.mem (q.itemFinished r it.first it.count .ok)
     (∀ n m, d = .silence n m →
        (let b := f + BitVec.ofNat 16 n
         let e := f + BitVec.ofNat 16 (n + m)
         let sil := match p.timer.silence with
          | .none => Silence.pending b e
          | .pending b' e' =>
            .pending (if ahead f b' ≤ ahead f b then b' else b) (if ahead f e' ≤ ahead f e then e else e')
          | .active e' => .active (if ahead f e' ≤ ahead f e then e else e')
         finishes .silence sil ∧
          ∀ e', p.timer.silence = .active e' → ∃ e'', sil = .active e'' ∧ ahead f e' ≤ ahead f e'')) ∧
      (d = .quietEnd →
        finishes .quietEnd (match p.timer.silence with
          | .none => .none
          | .pending _ _ => .none
          | .active _ => .active (f + 1))))) ∧
    ∀ (p : Part) u x y, (p.loadSuccess u x y).timer.frame = 0

/-- SET_WEIGHT and SET_CAP (R27, R41, R47, R58, R60) of the live entry that holds the car number, the directive in hand
taken as a command (DEDUCED, log 20): its weight; its cap, with its class lowered to the new ceiling at once and never
raised. Without such an entry both are NO_CAR. The entry is marked dirty when a shown field changes: of a SET_WEIGHT to
the value held, R41 says marked and R47 not, and R47 is followed (DEDUCED, log 36). EVICT (R27, R33, R40, R42, R44,
R150), the directive in hand taken as a command (DEDUCED, log 20): the entry is drained EVICTED, its uplink message
delivered ABORTED, its records retired EVICTED and its grants taken from the announcement queue, and its notice joins
that queue when there is a place or it waits there already; the entry is FREE at once when nothing of the car remains.
Without a live entry NO_CAR. The request of a fetch that a retirement abandons is withdrawn (DEDUCED, log 23). -/
def Obligations.RosterDirectives : Prop :=
  (∀ (s : State) r it car, s.part.anchor.node = .running →
     (let p := s.part
      let nobody := ∀ k, (p.entry k).live = true → (p.entry k).car ≠ car
      let finishes := fun (c : Instr) (q : Part) (st : Status) =>
       s.runsTo c s.mem (q.itemFinished r it.first it.count st)
      (∀ w, p.handed = some (r, it, .setWeight car w) →
         (∀ k, p.liveEntry car = some k →
           finishes .setWeight
             (p.setEntry k { p.entry k with
               weight := w, dirty := (p.entry k).dirty || decide (w ≠ (p.entry k).weight) }) .ok) ∧
         (nobody → finishes .setWeight p .noCar)) ∧
       ∀ cap, p.handed = some (r, it, .setCap car cap) →
         (∀ k, p.liveEntry car = some k →
           (let e := p.entry k
            let top := if rateCode cap ≤ rateCode e.capability then cap else e.capability
            let cls := if rateCode e.cls ≤ rateCode top then e.cls else top
            finishes .setCap
             (p.setEntry k { e with
               cap := cap, cls := cls, dirty := e.dirty || decide (cap ≠ e.cap) || decide (cls ≠ e.cls) }) .ok)) ∧
         (nobody → finishes .setCap p .noCar))) ∧
    ∀ (s : State) r it car, s.queuesOk → s.part.anchor.node = .running → s.part.handed = some (r, it, .evict car) →
      (let p := s.part
       let notice : Announcement := { car := car, sid := noCarId }
       (∀ k, p.liveEntry car = some k →
          (let d := p.drained k .evicted p.timer.frame
           let kept := d.roster.ann
           let ann := if kept.contains notice ∨ 8 ≤ kept.length then kept else kept ++ [notice]
           s.runsTo .evict s.mem
            (Part.itemFinished { d with roster := { d.roster with ann := ann } } r it.first it.count .ok))) ∧
        ((∀ k, (p.entry k).live = true → (p.entry k).car ≠ car) →
          s.runsTo .evict s.mem (p.itemFinished r it.first it.count .noCar)))

/-- PURGE (R97, R99), the directive in hand taken as a command (DEDUCED, log 20): the QUEUED and CURRENT records of the
selected class, or of all, of one live car, or for car number 0 of every live car in ascending short id, retire PURGED
as one change; a car without a live entry is NO_CAR. The request of a fetch that a retirement abandons is withdrawn
(DEDUCED, log 23). -/
def Obligations.RecordsPurged : Prop :=
  ∀ (s : State) r it car sel, s.queuesOk → s.part.anchor.node = .running →
    s.part.handed = some (r, it, .purge car sel) →
    (let p := s.part
     let mine := fun (k : ShortId) => match sel with
      | none => (p.entry k).queueIds
      | some c => (p.entry k).queues.get c
     let finishes := fun (gone : List PoolId) =>
      s.runsTo .purge s.mem ((p.retired .purged gone).itemFinished r it.first it.count .ok)
     (car = 0 → finishes ((shortIds.filter (fun k => (p.entry k).live)).flatMap mine)) ∧
      (∀ k, car ≠ 0 → p.liveEntry car = some k → finishes (mine k)) ∧
      (car ≠ 0 → (∀ k, (p.entry k).live = true → (p.entry k).car ≠ car) →
        s.runsTo .purge s.mem (p.itemFinished r it.first it.count .noCar)))

/-! ### Node-controller cycles -/

/-- HOST_READ and HOST_WRITE on a free bus (R157, R161, R162, R163, R167): the read returns what memory holds on the
lanes it uses, the write reaches memory on its lanes. A word write to the anchor command word is handed to its owner in
every state, before the first load too, one to another watched word of the armed map in RUNNING; any other, and every
byte write, to none. A write that is handed over reaches memory and its owner in one step, the cycle still holding the
bus (DESIGN CHOICE, log 10), and a word access at an odd address uses the even address below it (DEDUCED, log 31).
While RESET is low every cycle, HOST_WRITE, GUARDED_WRITE, START and HALT alike, passes to memory on its lanes, is
neither held nor withheld nor handed to an owner, and changes nothing in the part (R167). (That a byte read leaves the
other lane as it was is the model's choice, log 2, and not said here.) -/
def Obligations.PlainCyclesReachMemory : Prop :=
  (∀ (s : State) a w, s.freeBus →
      (∃ t, exec (.hostRead a) s = .next t ∧ t.mem = s.mem ∧ t.pending = s.pending ∧ t.resetPin = s.resetPin ∧
        t.straps = s.straps ∧ s.goesOn s.part t ∧
        t.host = some { access := a, write := none, handTo := none, withheld := false, held := false } ∧
        (∀ x, a = .word x → t.hostData = Mem.readWord s.mem x) ∧
        ∀ x, a = .byte x →
          (if x.getLsbD 0 then highByte t.hostData else lowByte t.hostData) = Mem.read s.mem x.toNat) ∧
      (∀ x, a = .word x →
        (let at' := x &&& 0xFFFFFE
         let watched : Option Watched := match s.part.bus.map with
          | none => none
          | some m =>
            if at' = m.urgentTail then some (.tail .urgent)
            else if at' = m.generalTail then some (.tail .general)
            else if at' = m.uplinkConsumer then some .uplinkConsumer
            else if at' = m.eventConsumer then some .eventConsumer
            else if at' = m.level then some .level
            else none
         s.part.handTo a = (if at' = 0xFFFFE0 then some .anchor
          else if s.part.anchor.node = .running ∧ s.part.bus.armed = true then watched else none))) ∧
      (∀ x, a = .byte x → s.part.handTo a = none) ∧
      (∀ x, s.part.withheldAt a = none → s.part.handTo a = some x →
        s.cycleTo (.hostWrite a w) (writeLines s.mem w a) (passedWrite a w (some x)) (s.part.deliver w x)) ∧
      (s.part.withheldAt a = none →
        (s.part.handTo a = none →
          s.cycleTo (.hostWrite a w) (writeLines s.mem w a) (passedWrite a w none) s.part) ∧
        (∀ x y, a = .word x → y ≠ (wordBase x).toNat → y ≠ (wordBase x).toNat + 1 →
          Mem.read (writeLines s.mem w a) y = Mem.read s.mem y) ∧
        (∀ x y, a = .byte x → y ≠ x.toNat → Mem.read (writeLines s.mem w a) y = Mem.read s.mem y) ∧
        (s.memoryOk → ∀ x, a = .word x →
          Mem.read (writeLines s.mem w a) (wordBase x).toNat = lowByte w ∧
            Mem.read (writeLines s.mem w a) ((wordBase x).toNat + 1) = highByte w) ∧
        (s.memoryOk → ∀ x, a = .byte x → Mem.read (writeLines s.mem w a) x.toNat = lowByte w))) ∧
    ∀ (s : State) a w, s.busShared → s.resetPin = .lowTaken → s.host = none →
      (∃ d, exec (.hostRead a) s =
          .next { s with
            host := some { access := a, write := none, handTo := none, withheld := false, held := false }
            hostData := d } ∧
        (∀ x, a = .word x → d = Mem.readWord s.mem x) ∧
        ∀ x, a = .byte x → (if x.getLsbD 0 then highByte d else lowByte d) = Mem.read s.mem x.toNat) ∧
      ∀ c, c = .hostWrite a w ∨ c = .guardedWrite a w ∨ (c = .start ∧ a = .word 0xFFFFE0 ∧ w = 0x0C01) ∨
          (c = .halt ∧ a = .word 0xFFFFE0 ∧ w = 0x0C02) →
        exec c s = .next { s with mem := writeLines s.mem w a, host := some (passedWrite a w none) }

/-- GUARDED_WRITE (R164, R165, R177): a write into the guarded region in RUNNING or HALTING does not reach memory
and is counted; in RUNNING GUARD_WRITE is submitted with its offset and the count. -/
def Obligations.GuardedWriteWithheld : Prop :=
  ∀ (s : State) a w u, s.windowOk → s.resetPin ≠ .lowTaken → s.host = none → s.part.anchor.setup = some u →
    (accessAddr a - u.guarded).toNat < 2048 →
    (let p := s.part
     let n := min (p.bus.guardedWrites + 1) 65535
     let counted := { p with bus := { p.bus with guardedWrites := n } }
     let x : HostCycle :=
      { access := a, write := some w, handTo := none, withheld := true, held := p.arb.turn.isSome }
     (p.anchor.node = .running →
        s.cycleTo (.guardedWrite a w) s.mem x
          (counted.withEvent (nodeEvent .guardWrite p.timer.frame
            (BitVec.ofNat 16 (accessAddr a - u.guarded).toNat) (BitVec.ofNat 16 n)))) ∧
      (p.anchor.node = .halting → s.cycleTo (.guardedWrite a w) s.mem x counted))

/-- START and HALT (R168, R169, R170, R181). START in PASSIVE begins a load: the node is LOADING with status LOADING
owed and ATTN low; in any other state it is ignored. HALT in RUNNING sets the halt request and changes nothing else; in
LOADING it drops the load with its words, abandons its turn and withdraws its pending requests (log 35), and the node
is PASSIVE with status ABANDONED owed; in PASSIVE and HALTING it is ignored. On a free bus the code reaches memory in
every state, and the Anchor Unit has acted while the cycle still holds the bus, memory and owner in one step (DESIGN
CHOICE, log 10); held by READY, when `Obligations.HeldCycleServedNext` says. -/
def Obligations.AnchorCommands : Prop :=
  (∀ p : Part,
    (let starts := p.deliver 0x0C01 .anchor
     let halts := p.deliver 0x0C02 .anchor
     (p.anchor.node = .passive →
        starts = { p with
          anchor := { p.anchor with
            node := .loading, load := some { address := [], record := [], sum := 0, passed := none }
            status := { code := .loading, reason := .none }, statusOwed := true }
          adm := { p.adm with loadReads := [] }
          ev := { p.ev with attn := false } }) ∧
      (p.anchor.node ≠ .passive → starts = p) ∧
      (p.anchor.node = .running → halts = { p with anchor := { p.anchor with haltReq := true } }) ∧
      (p.anchor.node = .loading →
        halts = { p with
          anchor := { p.anchor with
            node := .passive, load := none, status := { code := .abandoned, reason := .none }, statusOwed := true }
          adm := { p.adm with loadReads := [] }
          ev := { p.ev with attn := false }
          arb := { p.arb with
            anchor := if p.arb.anchor = some .setupRead then none else p.arb.anchor
            admission := if p.arb.admission = some .doneRead then none else p.arb.admission
            turn := p.arb.turn.map (fun t =>
              { t with abandoned := t.abandoned || decide (t.kind = .setupRead ∨ t.kind = .doneRead) }) } }) ∧
      (p.anchor.node = .passive ∨ p.anchor.node = .halting → halts = p))) ∧
    ∀ s : State, s.windowOk → s.freeBus →
      (let reaches := fun (c : Instr) (v : Word) =>
        s.cycleTo c (Mem.writeWord s.mem Config.anchorCommand v)
          (passedWrite (.word Config.anchorCommand) v (some .anchor)) (s.part.deliver v .anchor)
       reaches .start 0x0C01 ∧ reaches .halt 0x0C02)

/-- TAIL_WORD_WRITE (R87, R89, R163). A tail at least at read and at most the ring size beyond done is accepted: an
engine that was about to begin a descriptor now left out is free, and a free engine serves what it can as
`Obligations.EngineServes` says. Any other tail is ignored. On a free bus the value reaches memory, and in RUNNING it is
handed over in the same step, the cycle still in progress (log 10); in HALTING it is not. A held one is
`Obligations.HeldCycleServedNext`. -/
def Obligations.TailWriteOffersDescriptors : Prop :=
  (∀ (p : Part) r v,
    (let y := p.ring r
     let ok := ahead y.done y.read ≤ ahead y.done v ∧ ahead y.done v ≤ (p.setup.downRing r).size
     let offered := p.setRing r { y with tail := v }
     let leaves := p.adm.inHand = some r ∧ y.words = none ∧ ahead y.done v ≤ ahead y.done y.read ∧
      ∀ it, y.item = some it → it.stage = .collecting
     (ok → leaves → p.deliver v (.tail r) = (offered.setHand none).engine) ∧
      (ok → ¬ leaves → p.deliver v (.tail r) = offered.engine) ∧
      (¬ ok → p.deliver v (.tail r) = p))) ∧
    ∀ (s : State) r v u, s.windowOk → s.freeBus → s.part.anchor.setup = some u →
      (let a := (u.downRing r).base
       let m := Mem.writeWord s.mem a v
       (s.part.anchor.node = .running →
          s.cycleTo (.tailWordWrite r v) m (passedWrite (.word a) v (some (.tail r))) (s.part.deliver v (.tail r))) ∧
        (s.part.anchor.node = .halting →
          s.cycleTo (.tailWordWrite r v) m (passedWrite (.word a) v none) s.part))

/-- UPLINK_CONSUMER_WRITE, EVENT_CONSUMER_WRITE and LEVEL_WORD_WRITE (R152, R163, R179, R180, R181). A value 1 or more
ahead of consumer and at most at head, or at producer for the event ring, becomes consumer; any other is ignored. Of
the event ring the records passed leave the held list, a lost count above 0 becomes an EVENTS_LOST record in the place
freed, after which the kind of the first lost event is absent (log 39), and ATTN is judged again. The level becomes the
value written, or 7 when it is above 7, and ATTN is judged again; it is 0 after every reset that is taken (log 13) and
after a successful load. On a free bus the value reaches memory unclamped, and in RUNNING it is handed over in the same
step, the cycle still in progress (log 10); in HALTING it is not. A held one is `Obligations.HeldCycleServedNext`. -/
def Obligations.ConsumerAndLevelWrites : Prop :=
  (∀ (p : Part) v,
    (let ok := 1 ≤ ahead p.uplink.consumer v ∧ ahead p.uplink.consumer v ≤ ahead p.uplink.consumer p.uplink.head
     (ok → p.deliver v .uplinkConsumer = { p with uplink := { p.uplink with consumer := v } }) ∧
      (¬ ok → p.deliver v .uplinkConsumer = p))) ∧
    (∀ (s : State) v, s.eventsOk → s.part.anchor.node = .running →
      (let p := s.part
       let n := ahead p.ev.consumer v
       let ok := 1 ≤ n ∧ n ≤ ahead p.ev.consumer p.ev.producer
       let freed : EventWriter := { p.ev with consumer := v, held := p.ev.held.drop n }
       let report := nodeEvent .eventsLost p.timer.frame (BitVec.ofNat 16 p.ev.lostCount)
        (BitVec.ofNat 16 ((p.ev.lostKind.map kindCode).getD 0))
       let after : EventWriter := if p.ev.lostCount = 0 then freed else
        { freed with
          fill := p.ev.fill + 1, held := freed.held ++ [(.eventsLost, 4)], writes := p.ev.writes ++ [report]
          lostCount := 0, lostKind := none }
       let calls := (after.held.take (ahead v p.ev.producer)).any (fun h => p.ev.level < h.2)
       let level := if v.toNat ≤ 7 then v.toNat else 7
       let calls' := (p.ev.held.take (ahead p.ev.consumer p.ev.producer)).any (fun h => level < h.2)
       (ok → p.deliver v .eventConsumer = { p with ev := { after with attn := calls } }) ∧
        (¬ ok → p.deliver v .eventConsumer = p) ∧
        p.deliver v .level = { p with ev := { p.ev with level := level, attn := calls' } })) ∧
    (∀ (s : State) v u, s.windowOk → s.freeBus → s.part.anchor.setup = some u →
      (let reaches := fun (c : Instr) (a : Addr) (x : Watched) =>
        let m := Mem.writeWord s.mem a v
        (s.part.anchor.node = .running →
          s.cycleTo c m (passedWrite (.word a) v (some x)) (s.part.deliver v x)) ∧
        (s.part.anchor.node = .halting → s.cycleTo c m (passedWrite (.word a) v none) s.part)
       reaches (.uplinkConsumerWrite v) (u.uplink.base + 2) .uplinkConsumer ∧
        reaches (.eventConsumerWrite v) (u.event.base + 2) .eventConsumer ∧
        reaches (.levelWordWrite v) (u.event.base + 4) .level)) ∧
    (∀ (s : State) cause b t, exec (.reset cause b) s = .next t →
      t.resetPin = .lowIgnored ∨ t.part.ev.level = 0) ∧
    ∀ (p : Part) u x y, (p.loadSuccess u x y).ev.level = 0

/-- What follows in the part from every command, within it (DEDUCED, log 42) (R52, R102, R112, R147, R159, R169, R170,
R178): the entry at the fetch position begins its fetch when staging has its whole space free; in HALTING a pass due
begins; the teardown reports due are made (`Obligations.TeardownReported`); and every requester that has no request
pending and no turn in progress posts the request its own rule gives it next, the others keeping theirs. The Admission
Engine's read index moves past a descriptor when its first word is requested (log 19); a status write goes before a
setup read (log 15). Nothing else moves, and no turn is granted. -/
def Obligations.RequestsPosted : Prop :=
  (∀ p : Part,
    (let fetch : Part :=
      match p.tx.queue.find? (fun e => e.cond = .waiting || e.cond = .fetching) with
      | none => p
      | some e =>
        if e.cond = .waiting ∧ (p.tx.staging.map Staged.size).sum + (e.hdr + e.len) ≤ 1024 then
          { p with tx := { p.tx with
              queue := p.tx.queue.map (fun x => if x.slot = e.slot then { x with cond := .fetching } else x)
              staging := p.tx.staging ++ [{
                slot := e.slot, size := e.hdr + e.len, bytes := [], burst := none
                reread := e.table.map (fun t => { table := t, pieces := [], words := [] }) }] } }
        else p
     let due := p.anchor.node = .halting ∧ p.image.writing = none ∧ p.anchor.marks.image = false ∧
      ∃ k, (p.entry k).dirty = true
     (due → p.follow = fetch.passBegun.teardown.post) ∧ (¬ due → p.follow = fetch.teardown.post))) ∧
    ∀ p : Part,
      (let q := p.post
       let busy := fun (r : Requester) => p.arb.pend r ≠ none ∨ ∃ t, p.arb.turn = some t ∧ t.kind.requester = r
       let first := fun (xs : List (Bool × TurnKind)) => (xs.find? (fun x => x.1)).map Prod.snd
       let u := p.uplink
       let gathering := fun (it : OpenItem) => match it.stage with
        | .gathering _ => true
        | _ => false
       let reading := p.adm.inHand.bind (fun r =>
        let x := p.ring r
        first [
          (x.item.any gathering, .gatherRead),
          (x.item.all (fun it => decide (it.stage = .collecting)) &&
            (x.words.isSome || decide (ahead x.done x.read < ahead x.done x.tail)), .descRead)])
       let next : Requester → Option TurnKind := fun r => match r with
        | .uplink => first [(u.entryWord.isSome, .entryWord), (decide (u.staging ≠ []), .deposit),
            (decide (u.entryWrites ≠ []), .entryWord), (u.headOwed, .headWord)]
        | .transmit => first [(p.tx.queue.any (fun e => e.cond = .fetching), .fetch)]
        | .anchor => first [(p.anchor.statusOwed, .anchorStatus),
            (p.anchor.load.any (fun l => l.passed.isNone), .setupRead)]
        | .admission =>
          match p.anchor.load with
          | some l => first [(l.passed.isSome, .doneRead)]
          | none =>
            match first [(decide (p.adm.writeBacks ≠ []), .writeBack), (p.adm.urgent.doneOwed, .doneWord .urgent),
              (p.adm.general.doneOwed, .doneWord .general)] with
            | some k => some k
            | none => reading
        | .image => first [(p.image.writing.isSome, .imageWord)]
        | .event => first [(decide (p.ev.writes ≠ []), .eventWord)]
       q = { p with arb := q.arb, adm := q.adm } ∧ q.arb.turn = p.arb.turn ∧ q.arb.lastLow = p.arb.lastLow ∧
        (∀ r, (busy r → q.arb.pend r = p.arb.pend r) ∧ (¬ busy r → q.arb.pend r = next r)) ∧
        (∀ r, ¬ busy .admission → next .admission = some .descRead → p.adm.inHand = some r →
          (p.ring r).words = none →
          q.adm = (p.setRing r { p.ring r with words := some [], read := (p.ring r).read + 1 }).adm) ∧
        (busy .admission ∨ next .admission ≠ some .descRead ∨ (∃ r, p.adm.inHand = some r ∧ (p.ring r).words ≠ none) →
          q.adm = p.adm))

/-- The teardown (R106, R154, R174, R182): in HALTING, until status HALTED is set, a report is made once what its block
had to write is written and no request or turn of its own is left, but for a turn it abandoned (DEDUCED, log 29): the
Admission Engine's when no record is left, no write-back or done word is owed and done has reached admitted in both
rings, the Uplink Assembler's when nothing is staged, no entry or head word is owed and head has reached producer, and
the Event Writer's when every result of the last slot is taken and every record written. The image report comes with
the pass that completes the image. With the last of the four, status HALTED is owed. -/
def Obligations.TeardownReported : Prop :=
  ∀ p : Part,
    (p.anchor.node ≠ .halting ∨ p.anchor.status.code = .halted → p.teardown = p) ∧
      (p.anchor.node = .halting → p.anchor.status.code ≠ .halted →
        (let rests := fun (r : Requester) =>
          p.arb.pend r = none ∧ ∀ t, p.arb.turn = some t → t.kind.requester = r → t.abandoned = true
         let old := p.anchor.marks
         ∃ m : TeardownMarks,
          (m.admission = true ↔ old.admission = true ∨
            (p.adm.writeBacks = [] ∧ (∀ i, p.record i = none) ∧
              (∀ r, (p.ring r).doneOwed = false ∧ (p.ring r).done = (p.ring r).admitted) ∧ rests .admission)) ∧
          (m.uplink = true ↔ old.uplink = true ∨
            (p.uplink.staging = [] ∧ p.uplink.entryWrites = [] ∧ p.uplink.head = p.uplink.producer ∧
              p.uplink.headOwed = false ∧ rests .uplink)) ∧
          m.image = old.image ∧
          (m.event = true ↔ old.event = true ∨ (p.due.results = [] ∧ p.ev.writes = [] ∧ rests .event)) ∧
          (let all := m.admission = true ∧ m.uplink = true ∧ m.image = true ∧ m.event = true
           (¬ all → p.teardown = { p with anchor := { p.anchor with marks := m } }) ∧
            (all → p.teardown =
              { p with anchor := { p.anchor with
                  marks := m, status := { code := .halted, reason := .none }, statusOwed := true } }))))

/-- HOST_CYCLE_END (R158, R159): the bus is free, and the part's next turn is granted at once if a request waits, those
just posted included (log 42); a cycle that READY still holds has not ended, and the command then, as without a cycle,
changes nothing (DESIGN CHOICE, log 6). The grant goes to the highest level, Uplink Assembler, Transmit Assembler,
Anchor Unit, Admission Engine, and of the Image and Event Writers to the one not served last: its request becomes the
turn, of the address and value at the grant (log 14; `Obligations.TurnAddresses` says what they are), and a status,
head or done word then written is owed no more. -/
def Obligations.CycleEndGrantsNextTurn : Prop :=
  (∀ (s : State) c, s.host = some c → c.held = false →
    ∃ t, exec .hostCycleEnd s = .next t ∧ t.mem = s.mem ∧ t.host = none ∧ t.pending = s.pending ∧
      t.hostData = s.hostData ∧ t.resetPin = s.resetPin ∧ t.straps = s.straps ∧ s.goesOn s.part t) ∧
    (∀ s : State, (∀ c, s.host = some c → c.held = true) → exec .hostCycleEnd s = .next s) ∧
    ∀ p : Part,
      (let a := p.arb
       let first : Option Requester :=
        if a.uplink ≠ none then some .uplink
        else if a.transmit ≠ none then some .transmit
        else if a.anchor ≠ none then some .anchor
        else if a.admission ≠ none then some .admission
        else if a.image ≠ none ∧ (a.event = none ∨ a.lastLow ≠ .image) then some .image
        else if a.event ≠ none then some .event
        else none
       let carried := fun (k : TurnKind) => match k with
        | .anchorStatus => { p with anchor := { p.anchor with statusOwed := false } }
        | .headWord => { p with uplink := { p.uplink with headOwed := false } }
        | .doneWord r => p.setRing r { p.ring r with doneOwed := false }
        | _ => p
       (first = none → p.grant = p) ∧
        ∀ q, first = some q →
          ∃ k, a.pend q = some k ∧ p.grant = { carried k with arb := p.grant.arb } ∧
            (∀ r, p.grant.arb.pend r = if r = q then none else a.pend r) ∧
            p.grant.arb.lastLow = (if q = .image ∨ q = .event then q else a.lastLow) ∧
            p.grant.arb.turn =
              some { kind := k, addr := (p.turnOf k).1, write := (p.turnOf k).2, abandoned := false })

/-- Where a granted turn works and what it writes (R50, R88, R98, R100, R101, R105, R113, R146, R149, R151, R170, R178,
and the layouts of 11.2): a read turn reads the word that holds its address. The words of a descriptor and of a gather
table are read in rising address from the first on (DEDUCED, log 16). A gather table is read again for a fragment
before its bytes (log 43), the setup address from its lower word on (log 45), the urgent ring's done word first (log
17), and a descriptor at read minus 1 (log 19). -/
def Obligations.TurnAddresses : Prop :=
  ∀ p : Part,
    (let u := p.setup
     let place := fun (r : RingPlace) (i : Word) (o : Nat) =>
      r.base + BitVec.ofNat 24 (16 + 16 * (i.toNat % r.size) + o)
     let two := fun (lo hi : Nat) => (BitVec.ofNat 8 hi ++ BitVec.ofNat 8 lo : Word)
     let reads := fun (k : TurnKind) (a : Addr) => p.turnOf k = (a &&& 0xFFFFFE, none)
     let stores := fun (k : TurnKind) (a : Addr) (d : TurnData) => p.turnOf k = (a, some d)
     (∀ g gs b bs, p.uplink.staging = g :: gs → g.bytes = b :: bs →
        (let a := u.bufferBase + BitVec.ofNat 24 ((g.index.toNat % u.uplink.size) * u.bufferSize + g.offset)
         (∀ c cs, bs = c :: cs → a.toNat % 2 = 0 → stores .deposit a (.word (c ++ b))) ∧
          (bs = [] ∨ a.toNat % 2 = 1 → stores .deposit a (.byte b)))) ∧
      (∀ i is c n w, p.uplink.entryWrites = i :: is → p.uplink.claims.find? (fun c => c.index = i) = some c →
        p.uplink.entryWord.getD 0 = n →
        [c.car.setWidth 16, two (c.car.toNat / 65536) c.sid.val,
          two c.seq.toNat ((c.status.map uplinkCode).getD 0), BitVec.ofNat 16 c.len, BitVec.ofNat 16 c.stored,
          c.frame, c.sum, 0][n]? = some w →
        stores .entryWord (place u.uplink i (2 * n)) (.word w)) ∧
      stores .headWord u.uplink.base (.word p.uplink.head) ∧
      (∀ r, stores (.doneWord r) ((u.downRing r).base + 2) (.word (p.ring r).done)) ∧
      (∀ r first st ws, p.adm.writeBacks = .item r first st :: ws →
        stores .writeBack (place (u.downRing r) first 1) (.byte (BitVec.ofNat 8 (statusCode st)))) ∧
      (∀ i ws m st, p.adm.writeBacks = .record i :: ws → p.record i = some m → m.outcome = some st →
        stores .writeBack (place (u.downRing m.ring) m.first 1) (.byte (BitVec.ofNat 8 (statusCode st)))) ∧
      (∀ e es, p.ev.writes = e :: es →
        (8 ≤ p.ev.word → stores .eventWord u.event.base (.word (p.ev.producer + 1))) ∧
          ∀ w, [two (kindCode e.kind) e.level, two e.sid.toNat 0, e.car.setWidth 16,
              two (e.car.toNat / 65536) 0, e.frame, e.data1, e.data2, 0][p.ev.word]? = some w →
            stores .eventWord (place u.event p.ev.producer (2 * p.ev.word)) (.word w)) ∧
      (∀ x, p.image.writing = some x →
        (let base := match x.record with
          | .entry k => u.guarded + BitVec.ofNat 24 (32 + 32 * k.val)
          | .summary => u.guarded
         let counter := match x.record with
          | .entry k => p.image.counters[k]
          | .summary => p.image.summaryCounter
         (x.word = 0 ∨ x.word = 16 → stores .imageWord base (.word counter)) ∧
          ∀ n w, x.word = n + 1 → n < 15 → x.fields[n]? = some w →
            stores .imageWord (base + BitVec.ofNat 24 (2 * x.word)) (.word w))) ∧
      stores .anchorStatus 0xFFFFE2
        (.word (two (stateCode p.anchor.status.code) (reasonCode p.anchor.status.reason))) ∧
      (∀ l, p.anchor.load = some l →
        (l.address = [] → reads .setupRead 0xFFFFE4) ∧
          (∀ lo, l.address = [lo] → reads .setupRead 0xFFFFE6) ∧
          (∀ lo hi, l.address = [lo, hi] →
            reads .setupRead (hi.setWidth 8 ++ lo + BitVec.ofNat 24 (2 * l.record.length))) ∧
          ∀ v, l.passed = some v →
            reads .doneRead ((if p.adm.loadReads = [] then v.urgent.base else v.general.base) + 2)) ∧
      (∀ r ws, p.adm.inHand = some r → (p.ring r).words = some ws →
        reads .descRead (place (u.downRing r) ((p.ring r).read - 1) (2 * ws.length))) ∧
      (∀ r it g, p.adm.inHand = some r → (p.ring r).item = some it → it.stage = .gathering g →
        reads .gatherRead (g.addr + BitVec.ofNat 24 (8 * g.entries + 2 * g.words.length))) ∧
      ∀ e g m, p.tx.fetching = some e → p.tx.staging.find? (fun x => x.slot = e.slot) = some g →
        p.record e.record = some m →
        (∀ x, g.reread = some x →
          reads .fetch (x.table.addr + BitVec.ofNat 24 (8 * x.pieces.length + 2 * x.words.length))) ∧
          ∀ (n : Nat) q, g.reread = none → m.pieces[n]? = some q →
            (let at' := if g.bytes.length < e.hdr then g.bytes.length else e.offset + g.bytes.length
             let before := ((m.pieces.take n).map Piece.len).sum
             before ≤ at' → at' < before + q.len →
              reads .fetch (q.addr + BitVec.ofNat 24 (at' - before))))

/-- A cycle that meets a part turn (R157, R158, R162, R163, R164): READY holds it, whichever command brings it, the
owner and the withholding decided when it is taken (DEDUCED, log 40; a withheld one is
`Obligations.GuardedWriteWithheld`). When the turn ends, its requester has taken its completion and the held cycle goes
to memory, before the part takes another turn: a withheld write changes no memory, any other stores its lanes and is
taken by the owner it is handed to, in one step (DESIGN CHOICE, log 10), HOST_WRITE and GUARDED_WRITE alike (DEDUCED,
log 32); a word access at an odd address uses the even address below it (DEDUCED, log 31); a byte read leaves its
unused lane (DESIGN CHOICE, log 2). -/
def Obligations.HeldCycleServedNext : Prop :=
  (∀ (s : State) c a x tn, s.resetPin ≠ .lowTaken → s.host = none → s.part.arb.turn = some tn →
    (x ≠ none → s.part.withheldAt a = none) →
    (let at' := fun (f : WindowMap → Addr) => ∃ m, s.part.bus.map = some m ∧ a = .word (f m)
     (c = .hostRead a ∧ x = none) ∨ (∃ w, (c = .hostWrite a w ∨ c = .guardedWrite a w) ∧ x = some w) ∨
      (c = .start ∧ a = .word 0xFFFFE0 ∧ x = some 0x0C01) ∨ (c = .halt ∧ a = .word 0xFFFFE0 ∧ x = some 0x0C02) ∨
      ∃ v, x = some v ∧
        ((c = .tailWordWrite .urgent v ∧ at' WindowMap.urgentTail) ∨
          (c = .tailWordWrite .general v ∧ at' WindowMap.generalTail) ∨
          (c = .uplinkConsumerWrite v ∧ at' WindowMap.uplinkConsumer) ∨
          (c = .eventConsumerWrite v ∧ at' WindowMap.eventConsumer) ∨
          (c = .levelWordWrite v ∧ at' WindowMap.level))) →
    ∃ t, exec c s = .next t ∧ t.mem = s.mem ∧ t.hostData = s.hostData ∧ t.pending = s.pending ∧
      t.resetPin = s.resetPin ∧ t.straps = s.straps ∧
      t.host = some { access := a, write := x, handTo := if x = none then none else s.part.handTo a
                      withheld := false, held := true } ∧
      s.goesOn s.part t) ∧
    ∀ (s : State) k tn c, s.part.arb.turn = some tn → tn.kind = k → s.host = some c → c.held = true →
      (let m := s.afterTurn tn
       let q := s.part.turnOver.turnTaken tn (Mem.readWord s.mem tn.addr)
       ∃ t, exec (doneCommand k) s = .next t ∧ t.host = some { c with held := false } ∧ t.pending = s.pending ∧
        t.resetPin = s.resetPin ∧ t.straps = s.straps ∧
        (c.write = none →
          t.mem = m ∧ t.hostData = readLines m s.hostData c.access ∧ s.goesOn q t) ∧
        ∀ w, c.write = some w → t.hostData = s.hostData ∧
          (c.withheld = true → t.mem = m ∧ s.goesOn q t) ∧
          (c.withheld = false → t.mem = writeLines m w c.access ∧
            (c.handTo = none → s.goesOn q t) ∧ ∀ x, c.handTo = some x → s.goesOn (q.deliver w x) t))

/-! ### The part's own turns -/

/-- Every completion (R160, R167, R168): memory takes exactly what the turn writes, its address and data being those of
the grant (DEDUCED, log 14), a word with both lanes or a byte with its own, and every other byte stands. The turn is
over, its requester takes the completion as the statements below say, one that has abandoned the turn not at all, and
the part goes on. -/
def Obligations.TurnsStoreOnlyTheirBytes : Prop :=
  ∀ (s : State) k tn, s.part.arb.turn = some tn → tn.kind = k → (∀ c, s.host = some c → c.held = false) →
    ∃ t, exec (doneCommand k) s = .next t ∧ s.sameOutside t ∧
      (tn.write = none → t.mem = s.mem) ∧
      (∀ w y, tn.write = some (.word w) → y ≠ (wordBase tn.addr).toNat → y ≠ (wordBase tn.addr).toNat + 1 →
        Mem.read t.mem y = Mem.read s.mem y) ∧
      (∀ w, tn.write = some (.word w) → s.memoryOk → Mem.readWord t.mem tn.addr = w) ∧
      (∀ b y, tn.write = some (.byte b) → y ≠ tn.addr.toNat → Mem.read t.mem y = Mem.read s.mem y) ∧
      (∀ b, tn.write = some (.byte b) → s.memoryOk → Mem.read t.mem tn.addr.toNat = b) ∧
      (tn.abandoned = true → s.goesOn s.part.turnOver t) ∧
      (tn.abandoned = false → s.goesOn (s.part.turnOver.turnTaken tn (Mem.readWord s.mem tn.addr)) t)

/-- UPLINK_DEPOSIT_DONE and UPLINK_ENTRY_WRITE_DONE (R44, R146, R147, R149, R151). The bytes a deposit wrote leave the
oldest staging place; with its last byte the place is free, and the entry write that waited for it joins the list. Of
an entry the next word follows, and after the eighth the claim is WRITTEN, head moves over the leading written claims
with its write owed, and a DRAINING entry of the car that nothing else holds is FREE. -/
def Obligations.UplinkTurnsWritten : Prop :=
  (∀ (s : State) tn g gs d, s.inTurn .deposit tn → s.part.uplink.staging = g :: gs → tn.write = some d →
    (let u := s.part.uplink
     let n := match d with
      | .word _ => 2
      | .byte _ => 1
     let rest := g.bytes.drop n
     let joins := u.claims.any (fun c => c.index = g.index && (c.state = .decided || c.state = .aborted))
      && !gs.any (fun x => x.index = g.index) && !u.entryWrites.contains g.index
     (rest ≠ [] →
        s.runsTo .uplinkDepositDone (s.afterTurn tn)
          { s.part.turnOver with
            uplink := { u with staging := { g with offset := g.offset + n, bytes := rest } :: gs } }) ∧
      (rest = [] →
        s.runsTo .uplinkDepositDone (s.afterTurn tn)
          { s.part.turnOver with
            uplink := { u with
              staging := gs
              entryWrites := if joins then u.entryWrites ++ [g.index] else u.entryWrites } }))) ∧
    ∀ (s : State) tn i rest c, s.inTurn .entryWord tn → s.part.uplink.entryWrites = i :: rest →
      s.part.uplink.claims.find? (fun x => x.index = i) = some c →
      (let p := s.part.turnOver
       let u := p.uplink
       let n := u.entryWord.getD 0
       let claims := u.claims.map (fun x => if x.index = i then { x with state := .written } else x)
       let out := (claims.takeWhile (fun x => x.state = .written)).length
       let after : Uplink :=
        { u with
          entryWrites := rest, entryWord := none, claims := claims.drop out
          head := u.head + BitVec.ofNat 16 out, headOwed := u.headOwed || decide (0 < out) }
       let frees := (p.entry c.sid).state = .draining ∧ p.hasRecord c.sid = false ∧
        ∀ x, x ∈ claims → x.sid = c.sid → x.state = .written
       (n < 7 →
          s.runsTo .uplinkEntryWriteDone (s.afterTurn tn)
            { p with uplink := { u with entryWord := some (n + 1) } }) ∧
        (7 ≤ n → ¬ frees →
          s.runsTo .uplinkEntryWriteDone (s.afterTurn tn) { p with uplink := after }) ∧
        (7 ≤ n → frees →
          s.runsTo .uplinkEntryWriteDone (s.afterTurn tn)
            (Part.setFinished
              (Part.setEntry { p with uplink := after } c.sid
                { Entry.blank p.setup.defaultWeight with dirty := true }) c.sid none)))

/-- HEAD_WORD_WRITE_DONE, DONE_WORD_WRITE_DONE and ANCHOR_STATUS_WRITE_DONE (R101, R151, R166, R169, R174, R181): a
head word written while RUNNING submits UPLINK_READY with the head written and the entries then held; the HALTED status
written in HALTING makes the node PASSIVE, disarms the map and lowers ATTN; nothing else changes.
EVENT_RECORD_WRITE_DONE (R178, R181): the next of the eight words and the producer word of the record at the head of
the write list; with the producer word written the record leaves the list, producer advances and ATTN is judged again.
-/
def Obligations.WordTurnsWritten : Prop :=
  ((∀ (s : State) tn h, s.inTurn .headWord tn → tn.write = some (.word h) →
     (let p := s.part.turnOver
      (p.anchor.node = .running →
         s.runsTo .headWordWriteDone (s.afterTurn tn)
           (p.withEvent (nodeEvent .uplinkReady p.timer.frame h (p.uplink.head - p.uplink.consumer)))) ∧
       (p.anchor.node ≠ .running → s.runsTo .headWordWriteDone (s.afterTurn tn) p))) ∧
     (∀ (s : State) r tn, s.inTurn (.doneWord r) tn →
       s.runsTo .doneWordWriteDone (s.afterTurn tn) s.part.turnOver) ∧
     ∀ (s : State) tn w, s.inTurn .anchorStatus tn → tn.write = some (.word w) →
       (let p := s.part.turnOver
        (p.anchor.node = .halting → w = 0x0006 →
           s.runsTo .anchorStatusWriteDone (s.afterTurn tn)
             { p with
               anchor := { p.anchor with node := .passive }, bus := { p.bus with armed := false }
               ev := { p.ev with attn := false } }) ∧
         (p.anchor.node ≠ .halting ∨ w ≠ 0x0006 →
           s.runsTo .anchorStatusWriteDone (s.afterTurn tn) p))) ∧
    ∀ (s : State) tn r rest, s.inTurn .eventWord tn → s.part.ev.writes = r :: rest →
      (let p := s.part.turnOver
       let v := p.ev
       let calls := (v.held.take (ahead v.consumer (v.producer + 1))).any (fun h => v.level < h.2)
       (v.word < 8 →
          s.runsTo .eventRecordWriteDone (s.afterTurn tn) { p with ev := { v with word := v.word + 1 } }) ∧
        (8 ≤ v.word →
          s.runsTo .eventRecordWriteDone (s.afterTurn tn)
            { p with ev := { v with
                word := 0, writes := rest, producer := v.producer + 1
                attn := (p.anchor.node = .running || p.anchor.node = .halting) && calls } }))

/-- FRAGMENT_FETCH_DONE (R88, R112, R113, R114, R116, R118). A message with a gather table has the table read again
first, four word turns an entry (log 43), and its entries are then the pieces. The one or two bytes that stand in
memory join the staged fragment; with the last byte of the prototype the plan's frame number is stamped into the
staged copy; data bytes at the watermark raise it, and those of them at sum_start or beyond it go into the running sum;
bytes below the watermark change neither; with the last byte the fragment is READY with its header and trailer. -/
def Obligations.FragmentBytesFetched : Prop :=
  ∀ (s : State) tn e g r, s.inTurn .fetch tn → s.part.tx.fetching = some e →
    s.part.tx.staging.find? (fun x => x.slot = e.slot) = some g → s.part.record e.record = some r →
    tn.write = none →
    (let p := s.part.turnOver
     let staged := fun (f : Staged → Staged) => { p.tx with
      staging := p.tx.staging.map (fun x => if x.slot = e.slot then f x else x) }
     (∀ x, g.reread = some x →
        (let ws := x.words ++ [Mem.readWord s.mem tn.addr]
         let pieces := x.pieces ++ [parseGatherEntry ws]
         (x.words.length < 3 → x.pieces.length < x.table.count →
            s.runsTo .fragmentFetchDone s.mem
              { p with tx := staged (fun y => { y with reread := some { x with words := ws } }) }) ∧
          (x.words.length = 3 → x.pieces.length + 1 < x.table.count →
            s.runsTo .fragmentFetchDone s.mem
              { p with tx := staged (fun y => { y with reread := some { x with pieces := pieces, words := [] } }) }) ∧
          (x.words.length = 3 → x.table.count ≤ x.pieces.length + 1 →
            s.runsTo .fragmentFetchDone s.mem
              { p.setRecord e.record (some { r with pieces := pieces }) with
                tx := staged (fun y => { y with reread := none }) }))) ∧
      (∀ (n : Nat) q, g.reread = none → r.pieces[n]? = some q →
        (let i := g.bytes.length
         let off := fun (j : Nat) => if j < e.hdr then j else e.offset + j
         let start := ((r.pieces.take n).map Piece.len).sum
         let a := q.addr + BitVec.ofNat 24 (off i - start)
         start ≤ off i → off i < start + q.len → tn.addr = wordBase a →
          (let both := a.toNat % 2 = 0 ∧ off i + 1 < start + q.len ∧ i + 1 < e.hdr + e.len ∧ off (i + 1) = off i + 1
           let got := Mem.read s.mem a.toNat :: (if both then [Mem.read s.mem (a.toNat + 1)] else [])
           let joined := g.bytes ++ got
           let bytes := match e.stamp with
            | none => joined
            | some z => if i < e.hdr ∧ e.hdr ≤ joined.length then
                (joined.set z (highByte p.planner.plan.frame)).set (z + 1) (lowByte p.planner.plan.frame)
              else joined
           let y := e.offset + (i - e.hdr)
           let data := got.drop (e.hdr - i)
           let fresh := if y ≤ r.watermark then data.drop (r.watermark - y) else []
           let r' : MsgRecord := { r with
            watermark := r.watermark + fresh.length
            sum := match r.sumStart with
              | none => r.sum
              | some z => sumBytes r.sum (r.watermark - z) (fresh.drop (z - r.watermark)) }
           s.runsTo .fragmentFetchDone s.mem
              { p.setRecord e.record (some r') with
                tx :=
                  if bytes.length < e.hdr + e.len then staged (fun x => { x with bytes := bytes, burst := none })
                  else
                    { staged (fun x =>
                        { x with
                          bytes := bytes
                          burst := some (wholeBurst e bytes (if e.sumPresent then ~~~r'.sum else 0)) }) with
                      queue := p.tx.queue.map (fun x => if x.slot = e.slot then { x with cond := .ready } else x) } }))))

/-- DESCRIPTOR_READ_DONE (R88, R90, R91, R92, R96, R98): the next word of the descriptor, which takes eight word turns
(log 16) and lies at read minus 1 (log 19). With the eighth and no item open it begins its item as `Part.itemBegun`
says: a MESSAGE opens, a directive is decoded and waits in hand for its owner (log 20), a stray DATA or an unknown
directive fails BAD_DESCRIPTOR, and an unknown kind WRONG_RING. With a message open it belongs to the message or ends
it. A direct DATA adds its piece, and with END the message is judged; the ninth breaks it, as does an INDIRECT one that
is not first or lacks END, and a broken message skips DATA descriptors. An INDIRECT one with END has its gather table
read, or is judged broken when the table is refused. Any other descriptor before END ends the message, broken, just
before it, and is kept to begin the next item (log 18). What the words say is `Obligations.MemoryLayouts`. -/
def Obligations.DescriptorRead : Prop :=
  (∀ (s : State) tn r ws, s.inTurn .descRead tn → tn.write = none → s.part.adm.inHand = some r →
    (s.part.ring r).words = some ws →
    (let p := s.part.turnOver
     let x := p.ring r
     let w := Mem.readWord s.mem tn.addr
     let read := p.setRing r { x with words := none }
     let d := parseDescriptor (ws ++ [w])
     (ws.length < 7 →
        s.runsTo .descriptorReadDone s.mem (p.setRing r { x with words := some (ws ++ [w]) })) ∧
      (ws.length = 7 → x.item = none →
        s.runsTo .descriptorReadDone s.mem (read.itemBegun r (x.read - 1) d) ∧
          ∀ v, d = .directive (some v) →
            ∃ it, (read.itemBegun r (x.read - 1) d).handed = some (r, it, v) ∧ it.first = x.read - 1 ∧ it.count = 1))) ∧
  ∀ (s : State) tn r ws it, s.inTurn .descRead tn → tn.write = none → s.part.adm.inHand = some r →
    (s.part.ring r).words = some ws → ws.length = 7 → (s.part.ring r).item = some it →
    (let p := s.part.turnOver
     let d := parseDescriptor (ws ++ [Mem.readWord s.mem tn.addr])
     let q := p.setRing r { p.ring r with words := none }
     let one := { it with count := it.count + 1 }
     let gives := fun (x : Part) => s.runsTo .descriptorReadDone s.mem x
     (∀ last indirect n a l, d = .data last indirect n a l →
        (it.broken = true → gives (q.itemReads r one)) ∧
        (it.broken = false → indirect = false → it.count + 1 ≤ 9 →
          (let more := { one with pieces := it.pieces ++ [{ addr := a, len := l }] }
           (last = true → gives (q.itemJudged r more)) ∧ (last = false → gives (q.itemReads r more)))) ∧
        (it.broken = false → indirect = false → 9 < it.count + 1 →
          gives (q.itemReads r { one with broken := true })) ∧
        (it.broken = false → indirect = true → ¬ (it.count = 1 ∧ last = true) →
          gives (q.itemReads r { one with broken := true })) ∧
        (it.broken = false → indirect = true → it.count = 1 → last = true →
          (let ok := 1 ≤ n ∧ n ≤ 8 ∧ a.toNat % 2 = 0 ∧ a.toNat + 8 * n ≤ 16777216
           (ok → gives (q.setRing r { q.ring r with
              item := some { one with
                table := some { addr := a, count := n }
                stage := .gathering { addr := a, count := n, entries := 0, words := [] } } })) ∧
            (¬ ok → gives (q.itemJudged r { one with broken := true }))))) ∧
      ((∀ last indirect n a l, d ≠ .data last indirect n a l) →
        gives ((q.setRing r { q.ring r with kept := some d }).itemJudged r { it with broken := true })))

/-- GATHER_READ_DONE (R91, R92, R93, R98): the next word of a gather table entry, which takes four word turns (DEDUCED,
log 16), each fourth word completing a piece; after the last entry the message is judged: one that fails a check is
finished with its status, one that passes takes its allocation step, as `Obligations.MessageJudgedAndAllocated` says. -/
def Obligations.GatherTableRead : Prop :=
  ∀ (s : State) tn r it g, s.inTurn .gatherRead tn → tn.write = none → s.part.adm.inHand = some r →
    (s.part.ring r).item = some it → it.stage = .gathering g →
    (let p := s.part.turnOver
     let w := Mem.readWord s.mem tn.addr
     let keep := fun (x : OpenItem) => p.setRing r { p.ring r with item := some x }
     let more := { it with pieces := it.pieces ++ [parseGatherEntry (g.words ++ [w])] }
     (g.words.length < 3 →
        s.runsTo .gatherReadDone s.mem
          (keep { it with stage := .gathering { g with words := g.words ++ [w] } })) ∧
      (g.words.length = 3 → g.entries + 1 < g.count →
        s.runsTo .gatherReadDone s.mem
          (keep { more with stage := .gathering { g with entries := g.entries + 1, words := [] } })) ∧
      (g.words.length = 3 → g.count ≤ g.entries + 1 →
        (∀ st, judgeMessage r more.fields more.pieces more.broken = some st →
          s.runsTo .gatherReadDone s.mem (p.itemFinished r more.first more.count st)) ∧
          (judgeMessage r more.fields more.pieces more.broken = none →
            s.runsTo .gatherReadDone s.mem (p.allocStep r more).engine)))

/-- The checks of a message in their order (R92), and the allocation step (R93, R94, R95): without a live car NO_CAR,
with 24 records in its class queues or handed to the pool for them (DESIGN CHOICE, log 21) QUEUE_FULL, without room a
stall that leaves the engine free, and otherwise a record in a free place with the next admission number, handed to the
Message Pool, which takes it into its class queue as an arrival of its own (DESIGN CHOICE, log 21;
`Obligations.HandoffsTaken`). -/
def Obligations.MessageJudgedAndAllocated : Prop :=
  (∀ r (m : MsgFields) ps broken,
    (let takes := (r = .urgent ∧ m.cls = some .stop) ∨
      (r = .general ∧ (m.cls = some .control ∨ m.cls = some .bulk))
     let sound := 1 ≤ m.len ∧ m.len ≤ 16383 ∧ m.hdr ≤ 16 ∧
      ∀ x, x ∈ ps → 0 < x.len ∧ x.addr.toNat + x.len ≤ 16777216
     let total := (ps.map Piece.len).sum
     let placed := (∃ x xs, ps = x :: xs ∧ m.hdr ≤ x.len) ∧ (∀ z, m.sumStart = some z → z ≤ m.len - 1) ∧
      ∀ z, m.stamp = some z → z + 2 ≤ m.hdr
     let verdict := judgeMessage r m ps broken
     (¬ takes → verdict = some .wrongRing) ∧
      (takes → broken = true ∨ ¬ sound → verdict = some .badDescriptor) ∧
      (takes → broken = false → sound → total ≠ m.hdr + m.len → verdict = some .lengthMismatch) ∧
      (takes → broken = false → sound → total = m.hdr + m.len → ¬ placed → verdict = some .badDescriptor) ∧
      (takes → broken = false → sound → total = m.hdr + m.len → placed →
        (m.cls = some .stop → 56 < m.hdr + m.len → verdict = some .tooLong) ∧
          (m.cls ≠ some .stop ∨ m.hdr + m.len ≤ 56 → verdict = none)))) ∧
    ∀ (p : Part) r it c, it.fields.cls = some c →
      ((∀ k, (p.entry k).live = true → (p.entry k).car ≠ it.fields.car) →
        p.allocStep r it = p.finishItem r it.first it.count .noCar) ∧
      ∀ k, p.liveEntry it.fields.car = some k →
       (let load := (p.entry k).queueIds.length +
          p.pool.handed.countP (fun i => (p.record i).any (fun m => decide (m.sid = k)))
        (24 ≤ load → p.allocStep r it = p.finishItem r it.first it.count .queueFull) ∧
        (let room := if c = .stop then 1 ≤ p.freeRecords else 8 < p.freeRecords
         let q := p.allocStep r it
         (load < 24 → ¬ room →
            (q.ring r).item = some { it with stage := .stalled } ∧ q.adm.inHand = none ∧
              (q.ring r).admitted = (p.ring r).admitted ∧ q.pool = p.pool ∧ q.roster = p.roster ∧
              q.adm.writeBacks = p.adm.writeBacks) ∧
          (load < 24 → room →
            ∃ i, p.record i = none ∧ (∀ j, j ≠ i → q.record j = p.record j) ∧
              q.record i = some {
                state := .handed, sid := k, cls := c, ring := r, first := it.first, count := it.count
                adm := p.adm.nextAdm, len := it.fields.len, hdr := it.fields.hdr, sumStart := it.fields.sumStart
                stamp := it.fields.stamp, lifetime := it.fields.lifetime, age := 0, pieces := it.pieces
                table := it.table, seq := none, acked := 0, sentTo := 0, watermark := 0, sum := 0, attempts := 0
                outcome := none } ∧
              q.pool.handed = p.pool.handed ++ [i] ∧ q.pool.waited = p.pool.waited ∧
              q.pool.answers = p.pool.answers ∧ q.roster = p.roster ∧
              q.adm.nextAdm = p.adm.nextAdm + 1 ∧ q.adm.writeBacks = p.adm.writeBacks ∧
              (q.ring r).item = none ∧
              (q.ring r).items =
                (p.ring r).items ++ [{ first := it.first, count := it.count, written := false }] ∧
              (q.ring r).admitted = it.first + BitVec.ofNat 16 it.count ∧ q.adm.inHand = none)))

/-- The engine's choice (R89, R93, R100): busy or outside RUNNING it chooses nothing; else it serves the urgent ring if
that has an item that can go on, or else the general ring. A stalled item that finds room takes its allocation step
again, and a kept descriptor begins its item (log 18), after each of which the engine, if free, chooses again; otherwise
it has the ring's next read in hand. -/
def Obligations.EngineServes : Prop :=
  ∀ p : Part, (∀ r, (p.ring r).kept ≠ none → (p.ring r).item = none) →
    (let room := fun (it : OpenItem) =>
      if it.fields.cls = some .stop then 1 ≤ p.freeRecords else 8 < p.freeRecords
     let more := fun (r : RingId) => ahead (p.ring r).done (p.ring r).read < ahead (p.ring r).done (p.ring r).tail
     let goesOn := fun (r : RingId) =>
      ((p.ring r).item = none ∧ ((p.ring r).kept ≠ none ∨ more r)) ∨
        ∃ it, (p.ring r).item = some it ∧
          ((it.stage = .collecting ∧ more r) ∨ (it.stage = .stalled ∧ room it))
     let serves := fun (r : RingId) =>
      (∀ it, (p.ring r).item = some it → it.stage = .stalled →
        p.engine = ((p.setHand (some r)).allocStep r it).engine) ∧
      (∀ d, (p.ring r).item = none → (p.ring r).kept = some d →
        p.engine = ((p.setHand (some r)).setRing r { p.ring r with kept := none }).itemBegun r ((p.ring r).read - 1) d) ∧
      ((p.ring r).kept = none → (∀ it, (p.ring r).item = some it → it.stage ≠ .stalled) →
        p.engine = p.setHand (some r))
     (p.anchor.node ≠ .running ∨ p.adm.inHand ≠ none → p.engine = p) ∧
      (p.anchor.node = .running → p.adm.inHand = none →
        (goesOn .urgent → serves .urgent) ∧
          (¬ goesOn .urgent → goesOn .general → serves .general) ∧
          (¬ goesOn .urgent → ¬ goesOn .general → p.engine = p)))

/-- The Message Pool at the end of a command (R42, R95, R106): without a record handed to it nothing; else it may let
the records wait, once, as a free value says, so that a drain may come between (log 21), and then takes them in order of
admission: a record whose car's entry is DRAINING retires with the drain reason, and any other joins the tail of its
class queue, CURRENT when the queue was empty and QUEUED otherwise. At a frame start the ageing has them join first,
with no waiting (`Obligations.AgeingExpiresRecords`). The request of a fetch that a retirement abandons is withdrawn
(DEDUCED, log 23). -/
def Obligations.HandoffsTaken : Prop :=
  ∀ (s : State) n, s.queuesOk →
    (let p := s.part
     let q := p.joinHanded
     let why := fun (k : ShortId) => if (p.entry k).state = .draining then (p.entry k).drain else none
     let cls := fun (i : PoolId) (k : ShortId) (c : MsgClass) =>
      (p.record i).any (fun r => decide (r.sid = k ∧ r.cls = c ∧ why k = none))
     let queue := fun (k : ShortId) (c : MsgClass) =>
      (p.entry k).queues.get c ++ p.pool.handed.filter (fun i => cls i k c)
     let gone := p.pool.handed.filter (fun i => (p.record i).any (fun r => (why r.sid).isSome))
     let x := p.fragmentsDropped (fun e => e.live && gone.contains e.record)
     (p.pool.handed = [] → p.takeHandoffs n = p) ∧
      (p.pool.handed ≠ [] →
        (p.takeHandoffs n = q ∨
          (p.pool.waited = false ∧ p.takeHandoffs n = { p with pool := { p.pool with waited := true } })) ∧
        (q = { p with pool := q.pool, roster := q.roster, adm := q.adm, tx := x.tx, arb := x.arb } ∧
          q.pool.handed = [] ∧ q.pool.waited = false ∧ q.pool.answers = p.pool.answers ∧
          (∀ k c, (q.entry k).queues.get c = queue k c) ∧
          (∀ k, { q.entry k with queues := (p.entry k).queues, dirty := (p.entry k).dirty } = p.entry k) ∧
          (∀ k, (q.entry k).dirty = ((p.entry k).dirty || classes.any (fun c => p.pool.handed.any (fun i => cls i k c)))) ∧
          q.roster.ann = p.roster.ann ∧ q.roster.joinsRefused = p.roster.joinsRefused ∧
          (∀ i, i ∉ p.pool.handed → q.record i = p.record i) ∧
          (∀ i r, i ∈ p.pool.handed → p.record i = some r →
            (why r.sid = none → q.record i = some { r with
              state := if (queue r.sid r.cls).head? = some i then .current else .queued }) ∧
            ∀ x, why r.sid = some x →
              q.record i = some { r with state := .retiring, outcome := some (drainStatus x) }) ∧
          q.adm = { p.adm with writeBacks := p.adm.writeBacks ++ gone.map WriteBack.record })))

/-- STATUS_WRITE_BACK_DONE (R44, R89, R98, R100, R101, R124): the oldest write-back leaves the list, its item is
written, done moves over the leading written items with its word owed, and a record written back is freed, no answer
list naming its place any more (log 44), with a DRAINING entry of its car that nothing else holds. A free engine then
chooses, as `Obligations.EngineServes` says: so a stalled item may find the room it waits for. -/
def Obligations.StatusWrittenBack : Prop :=
  ∀ (s : State) tn wb rest, s.inTurn .writeBack tn → s.part.adm.writeBacks = wb :: rest →
    (let p := s.part.turnOver
     let kept := { p with adm := { p.adm with writeBacks := rest } }
     let marked := fun (r : RingId) (first : Word) =>
      let x := p.ring r
      let items := x.items.map (fun e => if e.first = first then { e with written := true } else e)
      let out := items.takeWhile ListItem.written
      { x with
        items := items.drop out.length, done := x.done + BitVec.ofNat 16 ((out.map ListItem.count).sum)
        doneOwed := x.doneOwed || decide (out ≠ []) }
     (∀ r first st, wb = .item r first st →
        s.runsTo .statusWriteBackDone (s.afterTurn tn) (kept.setRing r (marked r first)).engine) ∧
      ∀ i m, wb = .record i → p.record i = some m →
        (let freed := { kept with pool := { p.pool with
            records := p.pool.records.set i none
            answers := p.pool.answers.map (fun l => { l with records := l.records.filter (fun x => x.1 ≠ i) }) } }
         let frees := (p.entry m.sid).state = .draining ∧
          (∀ j, j ≠ i → ∀ x, p.record j = some x → x.sid ≠ m.sid) ∧ p.hasClaim m.sid = false
         let done := fun (q : Part) => (q.setRing m.ring (marked m.ring m.first)).engine
         (¬ frees → s.runsTo .statusWriteBackDone (s.afterTurn tn) (done freed)) ∧
          (frees →
            s.runsTo .statusWriteBackDone (s.afterTurn tn)
              (done (Part.setEntry
                { freed with uplink := { p.uplink with finished := p.uplink.finished.set m.sid none } } m.sid
                { Entry.blank p.setup.defaultWeight with dirty := true })))))

/-- DONE_WORD_READ_DONE (R23, R26, R48, R73, R105, R153, R173, R176): the first done word is kept; with the second the
load succeeds, the node is RUNNING, and every block takes its START values. A ring's tail, read, admitted and done
become its done word, the uplink indices the uplink starting index and the event indices the event starting index, every
entry is FREE and dirty. The four teardown report marks are clear (DESIGN CHOICE, log 37), and the kind of the first
lost event is absent (DESIGN CHOICE, log 39). The first word read becomes the urgent ring's indices and the second the
general ring's (DESIGN CHOICE, log 17); the empty plan's frame number is 0 (DESIGN CHOICE, log 28). -/
def Obligations.LoadSucceeds : Prop :=
  ∀ (s : State) tn l u, s.inTurn .doneRead tn → tn.write = none → s.part.anchor.load = some l →
    l.passed = some u →
    (let p := s.part.turnOver
     let w := Mem.readWord s.mem tn.addr
     let ring := fun (d : Word) =>
      ({ tail := d, read := d, admitted := d, done := d, items := [], item := none, words := none, kept := none
         doneOwed := false } : DownRing)
     (p.adm.loadReads = [] →
        s.runsTo .doneWordReadDone s.mem { p with adm := { p.adm with loadReads := [w] } }) ∧
      ∀ x xs, p.adm.loadReads = x :: xs →
        s.runsTo .doneWordReadDone s.mem
          { p with
            anchor := { p.anchor with
              node := .running, haltReq := false, load := none, setup := some u
              status := { code := .running, reason := .none }, statusOwed := true
              marks := { admission := false, uplink := false, image := false, event := false } }
            bus := { map := some (windowMap u), armed := true, guardedWrites := 0 }
            arb := { p.arb with lastLow := .event }
            timer :=
              { slot := 0, frame := 0, underWay := false, substate := .off, silence := .none, faultRun := 0
                resumed := false, faultedSlots := 0, accessGarbled := 0, carried := none, beaconDue := false
                schedWithheld := false }
            port := { order := none, answer := none }, due := FrameWorkDue.nothing
            roster :=
              { entries := Vector.replicate 48
                  { state := .free, car := 0, prevNode := 0, lastHeard := 0, miss := 0, grantWait := 0, quality := 0
                    cls := .A, capability := .A, cap := .D, weight := u.defaultWeight, credit := 0
                    queues := { stop := [], control := [], bulk := [] }
                    nextSeq := { stop := 0, control := 0, bulk := 0 }, context := none, ackBit := false
                    alarm := false, drain := none, dirty := true }
                ann := [], joinsRefused := 0 }
            image :=
              { counters := Vector.replicate 48 0, summaryCounter := 0, writing := none, owed := false
                postHalt := false }
            planner := { plan := Plan.blank 0, h1 := 0, h2 := 0, h3 := 0 }
            adm :=
              { urgent := ring x, general := ring w, inHand := none, nextAdm := 0, writeBacks := [], loadReads := [] }
            pool := { records := Vector.replicate 96 none, answers := [], handed := [], waited := false }
            tx := { queue := [], staging := [], late := [], lateFragments := 0 }
            uplink :=
              { finished := Vector.replicate 48 none, staging := [], producer := u.uplinkStart, head := u.uplinkStart
                consumer := u.uplinkStart, claims := [], entryWrites := [], entryWord := none, headOwed := false }
            ev :=
              { fill := u.eventStart, producer := u.eventStart, consumer := u.eventStart, held := [], writes := []
                word := 0, level := 0, lostCount := 0, lostKind := none, eventsLost := 0, attn := false } })

/-- SETUP_READ_DONE (R168, R170, R171, R172): the two setup address words, the lower one first (log 45), then the 32
record words with their running sum. A bad setup address or the first check that fails, of the sum, the sizes, the
alignments and the areas in that order, returns the node to PASSIVE with status REJECTED and the reason owed; a record
that passes is kept with its numeric fields clamped into their ranges. -/
def Obligations.SetupWordRead : Prop :=
  ∀ (s : State) tn l, s.inTurn .setupRead tn → tn.write = none → s.part.anchor.load = some l →
    (let p := s.part.turnOver
     let w := Mem.readWord s.mem tn.addr
     let keep := fun (x : Load) => { p with anchor := { p.anchor with load := some x } }
     let rejected := fun (why : Reason) =>
      { p with
        anchor := { p.anchor with
          node := .passive, load := none, status := { code := .rejected, reason := why }, statusOwed := true }
        ev := { p.ev with attn := false } }
     (l.address = [] → s.runsTo .setupReadDone s.mem (keep { l with address := [w] })) ∧
      (∀ lo, l.address = [lo] →
        (let a := lo.toNat + 65536 * (w.toNat % 256)
         (a % 2 = 1 → s.runsTo .setupReadDone s.mem (rejected .align)) ∧
          (a % 2 = 0 → 0xFFFFE0 < a + 64 → s.runsTo .setupReadDone s.mem (rejected .overlap)) ∧
          (a % 2 = 0 → a + 64 ≤ 0xFFFFE0 →
            s.runsTo .setupReadDone s.mem (keep { l with address := [lo, w] })))) ∧
      ∀ lo hi, l.address = [lo, hi] →
        (let ws := l.record ++ [w]
         let sum := onesAdd l.sum w
         let word := fun (i : Nat) => ws.getD i 0
         let n := fun (i : Nat) => (word i).toNat
         let low := fun (i : Nat) => n i % 256
         let high := fun (i : Nat) => n i / 256
         let within := fun (least most x : Nat) => max least (min most x)
         let base := fun (i : Nat) => BitVec.ofNat 24 (n i + 65536 * low (i + 1))
         let fade := within 1 7 (high 1)
         let u : Setup :=
          { nodeId := within 1 4095 (n 0), pollPeriod := within 1 8 (low 1), fadeAfter := fade
            loseAfter := within (fade + 1) 31 (low 2), retryLimit := within 1 15 (high 2)
            dutyLimit := within 12 144 (low 3), defaultWeight := within 1 16 (high 3)
            urgent := { base := base 4, size := n 6 }, general := { base := base 8, size := n 10 }
            uplink := { base := base 12, size := n 14 }, event := { base := base 16, size := n 18 }
            bufferBase := base 20, bufferSize := n 22, uplinkStart := word 23, eventStart := word 24
            guarded := base 26 }
         let sizes := u.urgent.size ∈ [8, 16, 32, 64] ∧ u.general.size ∈ [16, 32, 64, 128, 256] ∧
          u.uplink.size ∈ [8, 16, 32, 64] ∧ u.event.size ∈ [16, 32, 64, 128, 256] ∧
          256 ≤ u.bufferSize ∧ u.bufferSize ≤ 16384 ∧ u.bufferSize % 256 = 0
         let aligned := (∀ x, x ∈ [u.urgent, u.general, u.uplink, u.event] → x.base.toNat % 16 = 0) ∧
          u.bufferBase.toNat % 256 = 0 ∧ u.guarded.toNat % 2048 = 0
         let ring := fun (x : RingPlace) => (x.base.toNat, x.base.toNat + 16 + 16 * x.size)
         let areas := [ring u.urgent, ring u.general, ring u.uplink, ring u.event,
          (u.bufferBase.toNat, u.bufferBase.toNat + u.uplink.size * u.bufferSize),
          (u.guarded.toNat, u.guarded.toNat + 2048)]
         let apart := areas.Pairwise (fun x y => x.2 ≤ y.1 ∨ y.2 ≤ x.1) ∧ ∀ x, x ∈ areas → x.2 ≤ 0xFFFFE0
         (l.record.length < 31 → s.runsTo .setupReadDone s.mem (keep { l with record := ws, sum := sum })) ∧
          (l.record.length = 31 →
            (sum ≠ 0xFFFF → s.runsTo .setupReadDone s.mem (rejected .sum)) ∧
              (sum = 0xFFFF → ¬ sizes → s.runsTo .setupReadDone s.mem (rejected .size)) ∧
              (sum = 0xFFFF → sizes → ¬ aligned → s.runsTo .setupReadDone s.mem (rejected .align)) ∧
              (sum = 0xFFFF → sizes → aligned → ¬ apart → s.runsTo .setupReadDone s.mem (rejected .overlap)) ∧
              (sum = 0xFFFF → sizes → aligned → apart →
                s.runsTo .setupReadDone s.mem (keep { l with record := ws, sum := sum, passed := some u })))))

/-- The image at a frame start, and IMAGE_WRITE_DONE in RUNNING (R49, R50, R51). An idle writer begins a pass at the
frame start, and one that is writing owes it. A word written is followed by the next word of the record, its counter
made even before the last; then the next dirty entry in ascending short id, with its snapshot and its counter odd, or
after short id 47 the node summary; and after the summary the pass ends, or the owed one begins. The words are
`Obligations.MemoryLayouts`. -/
def Obligations.ImageRecordsWritten : Prop :=
  (∀ p : Part, p.due.image = true →
    (let q := { p with due := { p.due with image := false } }
     (p.image.writing = none → p.frameWork .image = q.passBegun) ∧
      (p.image.writing ≠ none → p.frameWork .image = { q with image := { p.image with owed := true } }))) ∧
  ∀ (s : State) tn x, s.inTurn .imageWord tn → s.part.anchor.node = .running → s.part.image.writing = some x →
    (let p := s.part.turnOver
     let im := p.image
     let m := s.afterTurn tn
     let entryFrom := fun (im : ImageWriter) (k : ShortId) =>
      { p.setEntry k { p.entry k with dirty := false } with
        image := { im with
          counters := im.counters.set k (im.counters[k] + 1)
          writing := some { record := .entry k, fields := entryFields (p.entry k), word := 0 } } }
     let summaryFrom := fun (im : ImageWriter) =>
      { p with
        image := { im with
          summaryCounter := im.summaryCounter + 1
          writing := some { record := .summary, fields := summaryFields p.summary, word := 0 } } }
     let clean := fun (from' : Nat) => ∀ k : ShortId, from' ≤ k.val → (p.entry k).dirty = false
     let firstDirty := fun (from' : Nat) (j : ShortId) =>
      from' ≤ j.val ∧ (p.entry j).dirty = true ∧
        ∀ k : ShortId, from' ≤ k.val → k < j → (p.entry k).dirty = false
     (x.word < 15 →
        s.runsTo .imageWriteDone m { p with image := { im with writing := some { x with word := x.word + 1 } } }) ∧
      (x.word = 15 → x.record = .summary →
        s.runsTo .imageWriteDone m
          { p with image := { im with
              summaryCounter := im.summaryCounter + 1, writing := some { x with word := 16 } } }) ∧
      (∀ k : ShortId, x.word = 15 → x.record = .entry k →
        s.runsTo .imageWriteDone m
          { p with image := { im with
              counters := im.counters.set k (im.counters[k] + 1), writing := some { x with word := 16 } } }) ∧
      (∀ k j, x.word = 16 → x.record = .entry k → firstDirty (k.val + 1) j →
        s.runsTo .imageWriteDone m (entryFrom im j)) ∧
      (∀ k, x.word = 16 → x.record = .entry k → clean (k.val + 1) →
        s.runsTo .imageWriteDone m (summaryFrom im)) ∧
      (x.word = 16 → x.record = .summary → im.owed = false →
        s.runsTo .imageWriteDone m { p with image := { im with writing := none } }) ∧
      (∀ j, x.word = 16 → x.record = .summary → im.owed = true → firstDirty 0 j →
        s.runsTo .imageWriteDone m (entryFrom { im with owed := false, postHalt := false } j)) ∧
      (x.word = 16 → x.record = .summary → im.owed = true → clean 0 →
        s.runsTo .imageWriteDone m (summaryFrom { im with owed := false, postHalt := false })))

/-- The roster image in HALTING (R49, R50, R52): IMAGE_WRITE_DONE writes its record on as in RUNNING, and after the
summary an owed pass begins at once. Otherwise a pass begins whenever the writer is idle and an entry is dirty, until
the image is complete: that is when a pass begun after the HALT has ended with every entry FREE and none dirty, judged
when it ends (DEDUCED, log 30). A pass begun here counts as begun after the HALT. (With no record handed to the pool,
whose joining could mark an entry.) -/
def Obligations.HaltingImage : Prop :=
  ∀ (s : State) tn x, s.inTurn .imageWord tn → s.part.anchor.node = .halting → s.part.image.writing = some x →
    s.part.pool.handed = [] →
    ∃ t, exec .imageWriteDone s = .next t ∧ t.mem = s.afterTurn tn ∧ s.sameOutside t ∧
      (let p := s.part
       let im := p.image
       let q := t.part
       let stands := ∀ k, q.entry k = p.entry k
       let firstDirty := fun (from' : Nat) (j : ShortId) =>
        from' ≤ j.val ∧ (p.entry j).dirty = true ∧
          ∀ k : ShortId, from' ≤ k.val → k < j → (p.entry k).dirty = false
       let clean := fun (from' : Nat) => ∀ k : ShortId, from' ≤ k.val → (p.entry k).dirty = false
       let writesEntry := fun (im : ImageWriter) (j : ShortId) =>
        q.image = { im with
          counters := im.counters.set j (im.counters[j] + 1)
          writing := some { record := .entry j, fields := entryFields (p.entry j), word := 0 } } ∧
        (∀ k, k ≠ j → q.entry k = p.entry k) ∧ q.entry j = { p.entry j with dirty := false }
       let writesSummary := fun (im : ImageWriter) =>
        q.image = { im with
          summaryCounter := im.summaryCounter + 1
          writing := some { record := .summary, fields := summaryFields p.summary, word := 0 } } ∧ stands
       let fresh := { im with owed := false, postHalt := true }
       let complete := im.postHalt = true ∧ ∀ k, (p.entry k).state = .free
       let same := q.anchor.marks.image = p.anchor.marks.image
       (x.word < 15 → q.image = { im with writing := some { x with word := x.word + 1 } } ∧ stands ∧ same) ∧
        (x.word = 15 → x.record = .summary →
          q.image = { im with summaryCounter := im.summaryCounter + 1, writing := some { x with word := 16 } } ∧
            stands ∧ same) ∧
        (∀ k : ShortId, x.word = 15 → x.record = .entry k →
          q.image = { im with
            counters := im.counters.set k (im.counters[k] + 1), writing := some { x with word := 16 } } ∧
            stands ∧ same) ∧
        (∀ k j, x.word = 16 → x.record = .entry k → firstDirty (k.val + 1) j → writesEntry im j ∧ same) ∧
        (∀ k, x.word = 16 → x.record = .entry k → clean (k.val + 1) → writesSummary im ∧ same) ∧
        (∀ j, x.word = 16 → x.record = .summary → im.owed = true ∨ p.anchor.marks.image = false → firstDirty 0 j →
          writesEntry fresh j ∧ same) ∧
        (x.word = 16 → x.record = .summary → im.owed = true → clean 0 → writesSummary fresh ∧ same) ∧
        (x.word = 16 → x.record = .summary → im.owed = false → clean 0 →
          q.image = { im with writing := none } ∧ stands ∧
            (complete → q.anchor.marks.image = true) ∧ (¬ complete → same)))

/-- The layouts of the records that the part writes into the guarded region and reads from the rings (R51, R88, R91, R96,
R183, and the tables of 11.1 and 11.2), field by field. The fifteen words after the change counter of an entry's record
and of the node summary, with their codes; what the summary shows; a descriptor of each kind with its absent values, and
a directive with its arguments clamped; and a gather table entry. (`Obligations.TurnAddresses` gives the uplink entry,
the event record and the addresses, `Obligations.SetupWordRead` the setup record.) -/
def Obligations.MemoryLayouts : Prop :=
  let two := fun (lo hi : Nat) => (BitVec.ofNat 8 hi ++ BitVec.ofNat 8 lo : Word)
  let flag := fun (b : Bool) => if b then 1 else 0
  let rate := fun (c : RateClass) => match c with
    | .A => 0
    | .B => 1
    | .C => 2
    | .D => 3
  (∀ e : Entry,
    (let state := match e.state with
      | .free => 0
      | .granted => 1
      | .active => 2
      | .fading => 3
      | .draining => 4
     let drain := match e.drain with
      | none => 0
      | some .lost => 1
      | some .left => 2
      | some .evicted => 3
      | some .halted => 4
     entryFields e =
      [two state drain, e.car.setWidth 16, two (e.car.toNat / 65536) e.miss, e.prevNode.setWidth 16, e.lastHeard,
       two e.grantWait e.quality, two (rate e.cls) (rate e.capability), two (rate e.cap) e.weight,
       two (e.credit % 256).toNat (flag e.context.isSome + 2 * flag e.ackBit + 4 * flag e.alarm),
       two e.queues.stop.length e.queues.control.length, two e.queues.bulk.length 0, 0, 0, 0, 0])) ∧
    (∀ p : Part, p.anchor.node = .running ∨ p.anchor.node = .halting →
      (let node := if p.anchor.node = .running then 2 else 5
       let substate := match p.timer.substate with
        | .off => 0
        | .on => 1
        | .silent => 2
        | .faulted => 3
       let silence : Nat × Nat := match p.timer.silence with
        | .none => (0, 0)
        | .pending first _ => (1, (first - p.timer.frame).toNat)
        | .active stop => (2, (stop - p.timer.frame).toNat)
       let n := fun (x : Nat) => BitVec.ofNat 16 x
       summaryFields p.summary =
        [two node substate, two silence.1 0, n silence.2, p.timer.frame,
         two (poolIds.countP (fun i => (p.record i).isNone)) 0, n p.roster.joinsRefused, n p.bus.guardedWrites,
         n p.ev.eventsLost, n p.tx.lateFragments, n p.timer.faultedSlots, n p.timer.accessGarbled, 0, 0, 0, 0])) ∧
    (∀ ws : List Word,
      (let w := fun (i : Nat) => ws.getD (i / 2) 0
       let n := fun (i : Nat) => (w i).toNat
       let b := fun (i : Nat) => if i % 2 = 0 then n i % 256 else n i / 256
       let triple := BitVec.ofNat 24 (n 4 + 65536 * b 6)
       let class' : Option MsgClass :=
        if b 2 = 1 then some .stop else if b 2 = 2 then some .control else if b 2 = 3 then some .bulk else none
       let selector : Option MsgClass :=
        if n 8 = 0 then some .stop else if n 8 = 1 then some .control else if n 8 = 2 then some .bulk else none
       let cap : RateClass := if n 8 = 0 then .A else if n 8 = 1 then .B else if n 8 = 2 then .C else .D
       let directive : Option Directive :=
        if b 2 = 1 then some (.evict triple)
        else if b 2 = 2 then some (.setWeight triple (max 1 (min 16 (n 8))))
        else if b 2 = 3 then some (.setCap triple cap)
        else if b 2 = 4 then some (.purge triple selector)
        else if b 2 = 5 then some (.silence (max 1 (min 255 (n 8))) (max 1 (min 4095 (n 10))))
        else if b 2 = 6 then some .quietEnd
        else none
       parseDescriptor ws =
        if b 0 = 1 then .message
          { cls := class', car := triple, len := n 8, hdr := b 3
            sumStart := if n 10 = 0xFFFF then none else some (n 10)
            stamp := if b 12 = 0xFF then none else some (b 12), lifetime := n 14 }
        else if b 0 = 2 then .data (decide (b 2 % 2 = 1)) (decide (b 2 / 2 % 2 = 1)) (b 3) triple (n 8)
        else if b 0 = 3 then .directive directive
        else .unknown)) ∧
    ∀ w0 w1 w2 w3 : Word,
      parseGatherEntry [w0, w1, w2, w3] =
        { addr := BitVec.ofNat 24 (w0.toNat + 65536 * (w1.toNat % 256)), len := w2.toNat }

/-- The layouts of the bursts (R11, R12, R117, R118, R135, R184, and the tables of 11.1 and 11.3), field by field. A
fragment's header with the field's own widths, its contents and trailer, and the empty burst, which keeps the kind,
short id, class, seq and offset; the beacon, 64 bytes; and the poll response: what is valid (an OK answer of the slot's
owner with at most 3 ack entries that does not overrun the burst), its flags, its ack entries and its fragment. (The
JOIN is in `Obligations.JoinsHandled`.) -/
def Obligations.AirLayouts : Prop :=
  let flag := fun (b : Bool) => if b then 1 else 0
  let bytes := fun (w : Word) => ([BitVec.ofNat 8 (w.toNat / 256), BitVec.ofNat 8 w.toNat] : List Byte)
  (∀ (e : FragEntry) contents trailer, e.offset < 16384 → e.len < 512 →
    (let cls := match e.cls with
      | .stop => 0
      | .control => 1
      | .bulk => 2
     let header := fun (last sumPresent : Bool) (n : Nat) =>
      ([64 + e.sid.val, 64 * cls + e.seq.toNat, e.offset / 64, 4 * (e.offset % 64) + 2 * flag last + flag sumPresent,
        n / 2, 128 * (n % 2)].map (BitVec.ofNat 8) : List Byte)
     wholeBurst e contents trailer = header e.last e.sumPresent e.len ++ contents ++ bytes trailer ∧
      emptyBurst e = header false false 0 ++ [0, 0])) ∧
    (∀ b : Beacon,
      (let grant := fun (a : Option Announcement) => match a with
        | some a => bytes (BitVec.ofNat 16 (a.car.toNat / 256)) ++ [BitVec.ofNat 8 a.car.toNat, a.sid.setWidth 8]
        | none => [0, 0, 0, 63]
       beaconBytes b =
        [63, 0, 0, 0, 28, 0] ++ bytes (BitVec.ofNat 16 b.nodeId) ++ bytes b.frame ++
          [BitVec.ofNat 8 (128 * flag b.silencePending + 64 * flag b.resumed + 32 * flag b.rosterFull),
            BitVec.ofNat 8 b.countdown] ++
          bytes (BitVec.ofNat 16 b.length) ++ [BitVec.ofNat 8 b.pollPeriod] ++
          grant (b.grants[0]?) ++ grant (b.grants[1]?) ++ b.slotMap ++ [0, 0, 0] ++ [0, 0] ∧
        (b.slotMap.length = 36 → (beaconBytes b).length = 64))) ∧
    (∀ (owner : ShortId) (bs : List Byte),
      (let b := fun (i : Nat) => (bs.getD i 0).toNat
       let count := b 1 % 8
       let i := 4 + 4 * count
       let len := 128 * (b (i + 2) % 4) + b (i + 3) / 2
       let ack := fun (j : Nat) =>
        ({ cls := if b j / 64 = 0 then some .stop else if b j / 64 = 1 then some .control
              else if b j / 64 = 2 then some .bulk else none
           seq := BitVec.ofNat 6 (b j), offset := 256 * (b (j + 1) % 64) + b (j + 2) } : AckEntry)
       let fragment : UpFragment :=
        { seq := BitVec.ofNat 6 (b i / 4), last := decide (b i / 2 % 2 = 1), sumPresent := decide (b i % 2 = 1)
          offset := 64 * b (i + 1) + b (i + 2) / 4, len := len, data := (bs.drop (i + 4)).take len
          trailer := BitVec.ofNat 16 (256 * b (i + 4 + len) + b (i + 5 + len)) }
       let carries := b 1 / 32 % 2 = 1
       let valid := b 0 = 192 + owner.val ∧ count ≤ 3 ∧ (if carries then i + 6 + len else i) ≤ bs.length
       (valid → parsePoll owner bs = some
          { alarm := decide (b 1 / 128 = 1), leaving := decide (b 1 / 64 % 2 = 1)
            acks := (List.range count).map (fun j => ack (4 + 4 * j))
            fragment := if carries then some fragment else none }) ∧
        (¬ valid → parsePoll owner bs = none))) ∧
    ∀ (r : UpResult) q x, r.response = some (q, x) ↔
      ∃ h, r.outcome = .heard h ∧ h.outcome = .ok ∧ q = h.q.toNat ∧ parsePoll r.owner h.bytes = some x

/-- The message sum (R115, R116): adding each byte as it comes gives the one's complement sum of the 16-bit words
of the bytes, a last odd byte being a high half, wherever the bytes are cut into fragments. -/
def Obligations.ByteSumIsWordSum : Prop :=
  (∀ bs, sumBytes 0 0 bs = onesSum (bytePairs bs)) ∧
    ∀ s i bs cs, sumBytes s i (bs ++ cs) = sumBytes (sumBytes s i bs) (i + bs.length) cs

/-! ### Invariants that every step keeps -/

/-- Every step keeps memory in its canonical form (log 1). -/
def Obligations.MemoryFormKept : Prop :=
  ∀ s t, s.memoryOk → step s = .next t → t.memoryOk

/-- The memory serves one side at a time, and the window map follows the node (R156, R157, R158, R166, R167, R171): a
node-controller cycle is held by READY exactly while a part turn is in progress, while RESET is low the part stands at
its reset values, and the map is armed exactly in RUNNING and HALTING, with the addresses of setup values that passed
the checks. Nothing that could go on is left waiting (R52, R112, R159, R174): no request is owed unposted, no fetch,
pass or teardown report due is undone, every pending request is of its requester's own kinds, and an idle bus has none
pending. -/
def Obligations.BusAndWindowKept : Prop :=
  (∀ s t, s.busShared → step s = .next t → t.busShared) ∧ (∀ s t, s.windowOk → step s = .next t → t.windowOk) ∧
    ∀ s t, s.busLive → step s = .next t → t.busLive

/-- The announcement queue holds at most 8 announcements and none twice, at most one live entry holds a given car
number (R27, R28, R32), S stays at most 252 and credit within ±64, only an ACTIVE or FADING car has an uplink message
in progress (R26, R56, R79), and at most 88 of the 96 records hold CONTROL or BULK messages (R93). -/
def Obligations.RosterAndReserveKept : Prop :=
  (∀ s t, s.annOk → step s = .next t → t.annOk) ∧ (∀ s t, s.carsUnique → step s = .next t → t.carsUnique) ∧
    (∀ s t, s.entriesOk → step s = .next t → t.entriesOk) ∧ ∀ s t, s.reserveOk → step s = .next t → t.reserveOk

/-- Class queues and records agree (R44, R95, R99): each car has at most one CURRENT message per class, at the head of
its queue; every QUEUED or CURRENT record is in exactly one queue, every RETIRING one on the write-back list, and every
one that has yet to join its queue waits at the pool (the model's list, log 21). A car then has at most 24 records in
its queues or on their way to them (R93). -/
def Obligations.QueuesKept : Prop :=
  (∀ s t, s.queuesOk → step s = .next t → t.queuesOk) ∧
    ∀ s t, s.queuesOk → s.loadOk → step s = .next t → t.loadOk

/-- Every plan fits its frame (R71, R81): down slots, up slots and the gap number at most 36, and every down slot
lies below every up slot with an idle slot between. No order stands while the radio is SILENT or OFF or no frame is
under way, and none is under way outside RUNNING (R4, R21, R24), in a state whose load, if one is in progress, is that
of a LOADING node (`State.windowOk`). -/
def Obligations.PlanAndAirKept : Prop :=
  (∀ s t, s.planOk → step s = .next t → t.planOk) ∧
    ∀ s t, s.windowOk → s.airQuiet → step s = .next t → t.airQuiet

/-- The rings and the buffers are never overfull: the indices and lists of the event ring agree, and ATTN stands exactly
as R181 says (R176, R178, R181); the claimed uplink entries with those the node controller holds never exceed the ring
(R134, R148); transmit staging holds at most 1024 bytes and receive staging 4 places (R109, R134). A descriptor kept
from a break waits in a ring with no item open (R90; the model's own field, log 18). -/
def Obligations.RingsKept : Prop :=
  (∀ s t, s.eventsOk → step s = .next t → t.eventsOk) ∧ (∀ s t, s.uplinkOk → step s = .next t → t.uplinkOk) ∧
    (∀ s t, s.stagingOk → step s = .next t → t.stagingOk) ∧ ∀ s t, s.keptOk → step s = .next t → t.keptOk
end

