-- ==== Sys2Proof/Laws/Folds.lean ====
section
/-! SUPPORT. What every step of a fold keeps, the fold keeps. -/

namespace Sys2Proof.Machine

/-- A projection that every step of a fold keeps is kept by the fold. -/
theorem foldl_keeps {α β γ : Type} (φ : α → γ) (f : α → β → α) (h : ∀ p x, φ (f p x) = φ p) (l : List β)
    (p : α) : φ (l.foldl f p) = φ p := by
  induction l generalizing p with
  | nil => rfl
  | cons x l ih => rw [List.foldl_cons, ih, h]

end Sys2Proof.Machine
end

