-- ==== Sys2Proof/Laws/FramesData.lean ====
section
/-! SUPPORT. What the operations on entries, records, fragments and uplink messages leave unchanged. -/

namespace Sys2Proof.Machine

@[simp] theorem Part.setEntry_frame (p : Part) (k : ShortId) (e : Entry) :
    (Part.setEntry p k e).anchor = p.anchor ∧
      (Part.setEntry p k e).bus = p.bus ∧
      (Part.setEntry p k e).arb = p.arb ∧
      (Part.setEntry p k e).timer = p.timer ∧
      (Part.setEntry p k e).port = p.port ∧
      (Part.setEntry p k e).due = p.due ∧
      (Part.setEntry p k e).image = p.image ∧
      (Part.setEntry p k e).planner = p.planner ∧
      (Part.setEntry p k e).adm = p.adm ∧
      (Part.setEntry p k e).pool = p.pool ∧
      (Part.setEntry p k e).tx = p.tx ∧
      (Part.setEntry p k e).uplink = p.uplink ∧
      (Part.setEntry p k e).ev = p.ev := by
  unfold Part.setEntry
  simp

@[simp] theorem Part.editEntry_frame (p : Part) (k : ShortId) (f : Entry → Entry) :
    (Part.editEntry p k f).anchor = p.anchor ∧
      (Part.editEntry p k f).bus = p.bus ∧
      (Part.editEntry p k f).arb = p.arb ∧
      (Part.editEntry p k f).timer = p.timer ∧
      (Part.editEntry p k f).port = p.port ∧
      (Part.editEntry p k f).due = p.due ∧
      (Part.editEntry p k f).image = p.image ∧
      (Part.editEntry p k f).planner = p.planner ∧
      (Part.editEntry p k f).adm = p.adm ∧
      (Part.editEntry p k f).pool = p.pool ∧
      (Part.editEntry p k f).tx = p.tx ∧
      (Part.editEntry p k f).uplink = p.uplink ∧
      (Part.editEntry p k f).ev = p.ev := by
  unfold Part.editEntry
  simp

@[simp] theorem Part.setRecord_frame (p : Part) (i : PoolId) (r : Option MsgRecord) :
    (Part.setRecord p i r).anchor = p.anchor ∧
      (Part.setRecord p i r).bus = p.bus ∧
      (Part.setRecord p i r).arb = p.arb ∧
      (Part.setRecord p i r).timer = p.timer ∧
      (Part.setRecord p i r).port = p.port ∧
      (Part.setRecord p i r).due = p.due ∧
      (Part.setRecord p i r).roster = p.roster ∧
      (Part.setRecord p i r).image = p.image ∧
      (Part.setRecord p i r).planner = p.planner ∧
      (Part.setRecord p i r).adm = p.adm ∧
      (Part.setRecord p i r).tx = p.tx ∧
      (Part.setRecord p i r).uplink = p.uplink ∧
      (Part.setRecord p i r).ev = p.ev := by
  unfold Part.setRecord
  simp

@[simp] theorem Part.editRecord_frame (p : Part) (i : PoolId) (f : MsgRecord → MsgRecord) :
    (Part.editRecord p i f).anchor = p.anchor ∧
      (Part.editRecord p i f).bus = p.bus ∧
      (Part.editRecord p i f).arb = p.arb ∧
      (Part.editRecord p i f).timer = p.timer ∧
      (Part.editRecord p i f).port = p.port ∧
      (Part.editRecord p i f).due = p.due ∧
      (Part.editRecord p i f).roster = p.roster ∧
      (Part.editRecord p i f).image = p.image ∧
      (Part.editRecord p i f).planner = p.planner ∧
      (Part.editRecord p i f).adm = p.adm ∧
      (Part.editRecord p i f).tx = p.tx ∧
      (Part.editRecord p i f).uplink = p.uplink ∧
      (Part.editRecord p i f).ev = p.ev := by
  unfold Part.editRecord
  simp

@[simp] theorem Part.submit_frame (p : Part) (b : Bool) (r : EventRecord) :
    (Part.submit p b r).anchor = p.anchor ∧
      (Part.submit p b r).bus = p.bus ∧
      (Part.submit p b r).arb = p.arb ∧
      (Part.submit p b r).timer = p.timer ∧
      (Part.submit p b r).port = p.port ∧
      (Part.submit p b r).due = p.due ∧
      (Part.submit p b r).roster = p.roster ∧
      (Part.submit p b r).image = p.image ∧
      (Part.submit p b r).planner = p.planner ∧
      (Part.submit p b r).adm = p.adm ∧
      (Part.submit p b r).pool = p.pool ∧
      (Part.submit p b r).tx = p.tx ∧
      (Part.submit p b r).uplink = p.uplink := by
  unfold Part.submit
  split <;> simp

@[simp] theorem Part.judgeAttn_frame (p : Part) :
    (Part.judgeAttn p).anchor = p.anchor ∧
      (Part.judgeAttn p).bus = p.bus ∧
      (Part.judgeAttn p).arb = p.arb ∧
      (Part.judgeAttn p).timer = p.timer ∧
      (Part.judgeAttn p).port = p.port ∧
      (Part.judgeAttn p).due = p.due ∧
      (Part.judgeAttn p).roster = p.roster ∧
      (Part.judgeAttn p).image = p.image ∧
      (Part.judgeAttn p).planner = p.planner ∧
      (Part.judgeAttn p).adm = p.adm ∧
      (Part.judgeAttn p).pool = p.pool ∧
      (Part.judgeAttn p).tx = p.tx ∧
      (Part.judgeAttn p).uplink = p.uplink := by
  unfold Part.judgeAttn
  simp

@[simp] theorem Part.setNode_frame (p : Part) (n : NodeState) :
    (Part.setNode p n).bus = p.bus ∧
      (Part.setNode p n).arb = p.arb ∧
      (Part.setNode p n).timer = p.timer ∧
      (Part.setNode p n).port = p.port ∧
      (Part.setNode p n).due = p.due ∧
      (Part.setNode p n).roster = p.roster ∧
      (Part.setNode p n).image = p.image ∧
      (Part.setNode p n).planner = p.planner ∧
      (Part.setNode p n).adm = p.adm ∧
      (Part.setNode p n).pool = p.pool ∧
      (Part.setNode p n).tx = p.tx ∧
      (Part.setNode p n).uplink = p.uplink := by
  unfold Part.setNode
  simp

@[simp] theorem Part.eventConsume_frame (p : Part) (c : Word) :
    (Part.eventConsume p c).anchor = p.anchor ∧
      (Part.eventConsume p c).bus = p.bus ∧
      (Part.eventConsume p c).arb = p.arb ∧
      (Part.eventConsume p c).timer = p.timer ∧
      (Part.eventConsume p c).port = p.port ∧
      (Part.eventConsume p c).due = p.due ∧
      (Part.eventConsume p c).roster = p.roster ∧
      (Part.eventConsume p c).image = p.image ∧
      (Part.eventConsume p c).planner = p.planner ∧
      (Part.eventConsume p c).adm = p.adm ∧
      (Part.eventConsume p c).pool = p.pool ∧
      (Part.eventConsume p c).tx = p.tx ∧
      (Part.eventConsume p c).uplink = p.uplink := by
  unfold Part.eventConsume
  simp

@[simp] theorem Part.setLevel_frame (p : Part) (w : Word) :
    (Part.setLevel p w).anchor = p.anchor ∧
      (Part.setLevel p w).bus = p.bus ∧
      (Part.setLevel p w).arb = p.arb ∧
      (Part.setLevel p w).timer = p.timer ∧
      (Part.setLevel p w).port = p.port ∧
      (Part.setLevel p w).due = p.due ∧
      (Part.setLevel p w).roster = p.roster ∧
      (Part.setLevel p w).image = p.image ∧
      (Part.setLevel p w).planner = p.planner ∧
      (Part.setLevel p w).adm = p.adm ∧
      (Part.setLevel p w).pool = p.pool ∧
      (Part.setLevel p w).tx = p.tx ∧
      (Part.setLevel p w).uplink = p.uplink := by
  unfold Part.setLevel
  simp

@[simp] theorem Part.takeTableWord_frame (p : Part) (e : FragEntry) (x : TableRead) (w : Word) :
    (Part.takeTableWord p e x w).anchor = p.anchor ∧
      (Part.takeTableWord p e x w).bus = p.bus ∧
      (Part.takeTableWord p e x w).arb = p.arb ∧
      (Part.takeTableWord p e x w).timer = p.timer ∧
      (Part.takeTableWord p e x w).port = p.port ∧
      (Part.takeTableWord p e x w).due = p.due ∧
      (Part.takeTableWord p e x w).roster = p.roster ∧
      (Part.takeTableWord p e x w).image = p.image ∧
      (Part.takeTableWord p e x w).planner = p.planner ∧
      (Part.takeTableWord p e x w).adm = p.adm ∧
      (Part.takeTableWord p e x w).uplink = p.uplink ∧
      (Part.takeTableWord p e x w).ev = p.ev := by
  unfold Part.takeTableWord
  dsimp only
  split <;> simp

@[simp] theorem Part.takeFetchedBytes_frame (p : Part) (e : FragEntry) (g : Staged) (r : MsgRecord) (w : Word) :
    (Part.takeFetchedBytes p e g r w).anchor = p.anchor ∧
      (Part.takeFetchedBytes p e g r w).bus = p.bus ∧
      (Part.takeFetchedBytes p e g r w).arb = p.arb ∧
      (Part.takeFetchedBytes p e g r w).timer = p.timer ∧
      (Part.takeFetchedBytes p e g r w).port = p.port ∧
      (Part.takeFetchedBytes p e g r w).due = p.due ∧
      (Part.takeFetchedBytes p e g r w).roster = p.roster ∧
      (Part.takeFetchedBytes p e g r w).image = p.image ∧
      (Part.takeFetchedBytes p e g r w).planner = p.planner ∧
      (Part.takeFetchedBytes p e g r w).adm = p.adm ∧
      (Part.takeFetchedBytes p e g r w).uplink = p.uplink ∧
      (Part.takeFetchedBytes p e g r w).ev = p.ev := by
  unfold Part.takeFetchedBytes
  simp

@[simp] theorem Part.takeFetched_frame (p : Part) (w : Word) :
    (Part.takeFetched p w).anchor = p.anchor ∧
      (Part.takeFetched p w).bus = p.bus ∧
      (Part.takeFetched p w).arb = p.arb ∧
      (Part.takeFetched p w).timer = p.timer ∧
      (Part.takeFetched p w).port = p.port ∧
      (Part.takeFetched p w).due = p.due ∧
      (Part.takeFetched p w).roster = p.roster ∧
      (Part.takeFetched p w).image = p.image ∧
      (Part.takeFetched p w).planner = p.planner ∧
      (Part.takeFetched p w).adm = p.adm ∧
      (Part.takeFetched p w).uplink = p.uplink ∧
      (Part.takeFetched p w).ev = p.ev := by
  unfold Part.takeFetched
  (repeat' split) <;> simp

@[simp] theorem Part.dropFragments_frame (p : Part) (i : PoolId) :
    (Part.dropFragments p i).anchor = p.anchor ∧
      (Part.dropFragments p i).bus = p.bus ∧
      (Part.dropFragments p i).timer = p.timer ∧
      (Part.dropFragments p i).port = p.port ∧
      (Part.dropFragments p i).due = p.due ∧
      (Part.dropFragments p i).roster = p.roster ∧
      (Part.dropFragments p i).image = p.image ∧
      (Part.dropFragments p i).planner = p.planner ∧
      (Part.dropFragments p i).adm = p.adm ∧
      (Part.dropFragments p i).pool = p.pool ∧
      (Part.dropFragments p i).uplink = p.uplink ∧
      (Part.dropFragments p i).ev = p.ev := by
  unfold Part.dropFragments
  simp

@[simp] theorem Part.lateFragment_frame (p : Part) (e : FragEntry) :
    (Part.lateFragment p e).anchor = p.anchor ∧
      (Part.lateFragment p e).bus = p.bus ∧
      (Part.lateFragment p e).timer = p.timer ∧
      (Part.lateFragment p e).port = p.port ∧
      (Part.lateFragment p e).due = p.due ∧
      (Part.lateFragment p e).roster = p.roster ∧
      (Part.lateFragment p e).image = p.image ∧
      (Part.lateFragment p e).planner = p.planner ∧
      (Part.lateFragment p e).adm = p.adm ∧
      (Part.lateFragment p e).pool = p.pool ∧
      (Part.lateFragment p e).uplink = p.uplink ∧
      (Part.lateFragment p e).ev = p.ev := by
  unfold Part.lateFragment
  simp

@[simp] theorem Part.beginDown_frame (p : Part) (slot : Nat) :
    (Part.beginDown p slot).anchor = p.anchor ∧
      (Part.beginDown p slot).bus = p.bus ∧
      (Part.beginDown p slot).timer = p.timer ∧
      (Part.beginDown p slot).due = p.due ∧
      (Part.beginDown p slot).roster = p.roster ∧
      (Part.beginDown p slot).image = p.image ∧
      (Part.beginDown p slot).planner = p.planner ∧
      (Part.beginDown p slot).adm = p.adm ∧
      (Part.beginDown p slot).pool = p.pool ∧
      (Part.beginDown p slot).uplink = p.uplink ∧
      (Part.beginDown p slot).ev = p.ev := by
  unfold Part.beginDown
  (repeat' split) <;> simp

@[simp] theorem Part.settleDown_frame (p : Part) (slot : Nat) (sent : Bool) :
    (Part.settleDown p slot sent).anchor = p.anchor ∧
      (Part.settleDown p slot sent).bus = p.bus ∧
      (Part.settleDown p slot sent).timer = p.timer ∧
      (Part.settleDown p slot sent).port = p.port ∧
      (Part.settleDown p slot sent).due = p.due ∧
      (Part.settleDown p slot sent).roster = p.roster ∧
      (Part.settleDown p slot sent).image = p.image ∧
      (Part.settleDown p slot sent).planner = p.planner ∧
      (Part.settleDown p slot sent).adm = p.adm ∧
      (Part.settleDown p slot sent).uplink = p.uplink ∧
      (Part.settleDown p slot sent).ev = p.ev := by
  unfold Part.settleDown
  (repeat' split) <;> simp

@[simp] theorem Part.queueFragment_frame (p : Part) (slot : Nat) (g : DownGrant) :
    (Part.queueFragment p slot g).anchor = p.anchor ∧
      (Part.queueFragment p slot g).bus = p.bus ∧
      (Part.queueFragment p slot g).arb = p.arb ∧
      (Part.queueFragment p slot g).timer = p.timer ∧
      (Part.queueFragment p slot g).port = p.port ∧
      (Part.queueFragment p slot g).due = p.due ∧
      (Part.queueFragment p slot g).image = p.image ∧
      (Part.queueFragment p slot g).planner = p.planner ∧
      (Part.queueFragment p slot g).adm = p.adm ∧
      (Part.queueFragment p slot g).uplink = p.uplink ∧
      (Part.queueFragment p slot g).ev = p.ev := by
  unfold Part.queueFragment
  (repeat' split) <;> simp

@[simp] theorem Part.handOff_frame (p : Part) :
    (Part.handOff p).anchor = p.anchor ∧
      (Part.handOff p).bus = p.bus ∧
      (Part.handOff p).timer = p.timer ∧
      (Part.handOff p).port = p.port ∧
      (Part.handOff p).due = p.due ∧
      (Part.handOff p).image = p.image ∧
      (Part.handOff p).planner = p.planner ∧
      (Part.handOff p).adm = p.adm ∧
      (Part.handOff p).uplink = p.uplink ∧
      (Part.handOff p).ev = p.ev := by
  unfold Part.handOff
  simp [foldl_keeps Part.anchor, foldl_keeps Part.bus, foldl_keeps Part.timer, foldl_keeps Part.port, foldl_keeps Part.due, foldl_keeps Part.image, foldl_keeps Part.planner, foldl_keeps Part.adm, foldl_keeps Part.uplink, foldl_keeps Part.ev]

@[simp] theorem Part.haltTransmit_frame (p : Part) :
    (Part.haltTransmit p).anchor = p.anchor ∧
      (Part.haltTransmit p).bus = p.bus ∧
      (Part.haltTransmit p).timer = p.timer ∧
      (Part.haltTransmit p).port = p.port ∧
      (Part.haltTransmit p).due = p.due ∧
      (Part.haltTransmit p).roster = p.roster ∧
      (Part.haltTransmit p).image = p.image ∧
      (Part.haltTransmit p).planner = p.planner ∧
      (Part.haltTransmit p).adm = p.adm ∧
      (Part.haltTransmit p).pool = p.pool ∧
      (Part.haltTransmit p).uplink = p.uplink ∧
      (Part.haltTransmit p).ev = p.ev := by
  unfold Part.haltTransmit
  simp

@[simp] theorem Part.promote_frame (p : Part) (k : ShortId) (c : MsgClass) :
    (Part.promote p k c).anchor = p.anchor ∧
      (Part.promote p k c).bus = p.bus ∧
      (Part.promote p k c).arb = p.arb ∧
      (Part.promote p k c).timer = p.timer ∧
      (Part.promote p k c).port = p.port ∧
      (Part.promote p k c).due = p.due ∧
      (Part.promote p k c).roster = p.roster ∧
      (Part.promote p k c).image = p.image ∧
      (Part.promote p k c).planner = p.planner ∧
      (Part.promote p k c).adm = p.adm ∧
      (Part.promote p k c).tx = p.tx ∧
      (Part.promote p k c).uplink = p.uplink ∧
      (Part.promote p k c).ev = p.ev := by
  unfold Part.promote
  split <;> simp

@[simp] theorem Part.promoteAll_frame (p : Part) (k : ShortId) :
    (Part.promoteAll p k).anchor = p.anchor ∧
      (Part.promoteAll p k).bus = p.bus ∧
      (Part.promoteAll p k).arb = p.arb ∧
      (Part.promoteAll p k).timer = p.timer ∧
      (Part.promoteAll p k).port = p.port ∧
      (Part.promoteAll p k).due = p.due ∧
      (Part.promoteAll p k).roster = p.roster ∧
      (Part.promoteAll p k).image = p.image ∧
      (Part.promoteAll p k).planner = p.planner ∧
      (Part.promoteAll p k).adm = p.adm ∧
      (Part.promoteAll p k).tx = p.tx ∧
      (Part.promoteAll p k).uplink = p.uplink ∧
      (Part.promoteAll p k).ev = p.ev := by
  unfold Part.promoteAll
  simp [foldl_keeps Part.anchor, foldl_keeps Part.bus, foldl_keeps Part.arb, foldl_keeps Part.timer, foldl_keeps Part.port, foldl_keeps Part.due, foldl_keeps Part.roster, foldl_keeps Part.image, foldl_keeps Part.planner, foldl_keeps Part.adm, foldl_keeps Part.tx, foldl_keeps Part.uplink, foldl_keeps Part.ev]

@[simp] theorem Part.retireOne_frame (st : Status) (p : Part) (i : PoolId) :
    (Part.retireOne st p i).anchor = p.anchor ∧
      (Part.retireOne st p i).bus = p.bus ∧
      (Part.retireOne st p i).timer = p.timer ∧
      (Part.retireOne st p i).port = p.port ∧
      (Part.retireOne st p i).due = p.due ∧
      (Part.retireOne st p i).image = p.image ∧
      (Part.retireOne st p i).planner = p.planner ∧
      (Part.retireOne st p i).uplink = p.uplink ∧
      (Part.retireOne st p i).ev = p.ev := by
  unfold Part.retireOne
  (repeat' split) <;> simp

@[simp] theorem Part.retireAll_frame (p : Part) (st : Status) (ids : List PoolId) :
    (Part.retireAll p st ids).anchor = p.anchor ∧
      (Part.retireAll p st ids).bus = p.bus ∧
      (Part.retireAll p st ids).timer = p.timer ∧
      (Part.retireAll p st ids).port = p.port ∧
      (Part.retireAll p st ids).due = p.due ∧
      (Part.retireAll p st ids).image = p.image ∧
      (Part.retireAll p st ids).planner = p.planner ∧
      (Part.retireAll p st ids).uplink = p.uplink ∧
      (Part.retireAll p st ids).ev = p.ev := by
  unfold Part.retireAll
  simp [foldl_keeps Part.anchor, foldl_keeps Part.bus, foldl_keeps Part.timer, foldl_keeps Part.port, foldl_keeps Part.due, foldl_keeps Part.image, foldl_keeps Part.planner, foldl_keeps Part.uplink, foldl_keeps Part.ev]

@[simp] theorem Part.joinQueue_frame (p : Part) (i : PoolId) :
    (Part.joinQueue p i).anchor = p.anchor ∧
      (Part.joinQueue p i).bus = p.bus ∧
      (Part.joinQueue p i).timer = p.timer ∧
      (Part.joinQueue p i).port = p.port ∧
      (Part.joinQueue p i).due = p.due ∧
      (Part.joinQueue p i).image = p.image ∧
      (Part.joinQueue p i).planner = p.planner ∧
      (Part.joinQueue p i).uplink = p.uplink ∧
      (Part.joinQueue p i).ev = p.ev := by
  unfold Part.joinQueue
  dsimp only
  (repeat' split) <;> simp

@[simp] theorem Part.joinHanded_frame (p : Part) :
    (Part.joinHanded p).anchor = p.anchor ∧
      (Part.joinHanded p).bus = p.bus ∧
      (Part.joinHanded p).timer = p.timer ∧
      (Part.joinHanded p).port = p.port ∧
      (Part.joinHanded p).due = p.due ∧
      (Part.joinHanded p).image = p.image ∧
      (Part.joinHanded p).planner = p.planner ∧
      (Part.joinHanded p).uplink = p.uplink ∧
      (Part.joinHanded p).ev = p.ev := by
  unfold Part.joinHanded
  simp [foldl_keeps Part.anchor, foldl_keeps Part.bus, foldl_keeps Part.timer, foldl_keeps Part.port,
    foldl_keeps Part.due, foldl_keeps Part.image, foldl_keeps Part.planner, foldl_keeps Part.uplink,
    foldl_keeps Part.ev]

/-- With no record handed over there is nothing to join (R95). -/
theorem Part.joinHanded_nil {p : Part} (h : p.pool.handed = []) :
    p.joinHanded = { p with pool := { p.pool with handed := [], waited := false } } := by
  simp [Part.joinHanded, h]

@[simp] theorem Part.takeHandoffs_frame (p : Part) (n : Nat) :
    (Part.takeHandoffs p n).anchor = p.anchor ∧
      (Part.takeHandoffs p n).bus = p.bus ∧
      (Part.takeHandoffs p n).timer = p.timer ∧
      (Part.takeHandoffs p n).port = p.port ∧
      (Part.takeHandoffs p n).due = p.due ∧
      (Part.takeHandoffs p n).image = p.image ∧
      (Part.takeHandoffs p n).planner = p.planner ∧
      (Part.takeHandoffs p n).uplink = p.uplink ∧
      (Part.takeHandoffs p n).ev = p.ev := by
  unfold Part.takeHandoffs
  split
  · simp
  · split
    · simp
    · simp

/-- A command that hands no record over leaves the pool nothing to take (R95). -/
theorem Part.takeHandoffs_nil {p : Part} (h : p.pool.handed = []) (n : Nat) : p.takeHandoffs n = p := by
  simp [Part.takeHandoffs, h]

/-- What the pool does with waiting hand-offs (R95): it lets them wait, once, or takes them in order. -/
theorem Part.takeHandoffs_cases (p : Part) (n : Nat) :
    p.takeHandoffs n = p ∨
      (p.pool.waited = false ∧ p.takeHandoffs n = { p with pool := { p.pool with waited := true } }) ∨
      p.takeHandoffs n = p.joinHanded := by
  unfold Part.takeHandoffs
  split
  · exact .inl rfl
  · split
    · rename_i h; exact .inr (.inl ⟨h.1, rfl⟩)
    · exact .inr (.inr rfl)

@[simp] theorem Part.ageRecords_frame (p : Part) :
    (Part.ageRecords p).anchor = p.anchor ∧
      (Part.ageRecords p).bus = p.bus ∧
      (Part.ageRecords p).timer = p.timer ∧
      (Part.ageRecords p).port = p.port ∧
      (Part.ageRecords p).due = p.due ∧
      (Part.ageRecords p).image = p.image ∧
      (Part.ageRecords p).planner = p.planner ∧
      (Part.ageRecords p).uplink = p.uplink ∧
      (Part.ageRecords p).ev = p.ev := by
  unfold Part.ageRecords
  simp [foldl_keeps Part.anchor, foldl_keeps Part.bus, foldl_keeps Part.timer, foldl_keeps Part.port, foldl_keeps Part.due, foldl_keeps Part.image, foldl_keeps Part.planner, foldl_keeps Part.uplink, foldl_keeps Part.ev]

@[simp] theorem Part.purge_frame (p : Part) (car : CarNumber) (sel : Option MsgClass) :
    (Part.purge p car sel).1.anchor = p.anchor ∧
      (Part.purge p car sel).1.bus = p.bus ∧
      (Part.purge p car sel).1.timer = p.timer ∧
      (Part.purge p car sel).1.port = p.port ∧
      (Part.purge p car sel).1.due = p.due ∧
      (Part.purge p car sel).1.image = p.image ∧
      (Part.purge p car sel).1.planner = p.planner ∧
      (Part.purge p car sel).1.uplink = p.uplink ∧
      (Part.purge p car sel).1.ev = p.ev := by
  unfold Part.purge
  (repeat' split) <;> simp

@[simp] theorem Part.completeRecord_frame (p : Part) (i : PoolId) (r : MsgRecord) (f : Word) :
    (Part.completeRecord p i r f).anchor = p.anchor ∧
      (Part.completeRecord p i r f).bus = p.bus ∧
      (Part.completeRecord p i r f).timer = p.timer ∧
      (Part.completeRecord p i r f).port = p.port ∧
      (Part.completeRecord p i r f).due = p.due ∧
      (Part.completeRecord p i r f).image = p.image ∧
      (Part.completeRecord p i r f).planner = p.planner ∧
      (Part.completeRecord p i r f).uplink = p.uplink := by
  unfold Part.completeRecord
  split <;> simp

@[simp] theorem Part.tryRetry_frame (p : Part) (i : PoolId) (r : MsgRecord) (f : Word) :
    (Part.tryRetry p i r f).anchor = p.anchor ∧
      (Part.tryRetry p i r f).bus = p.bus ∧
      (Part.tryRetry p i r f).timer = p.timer ∧
      (Part.tryRetry p i r f).port = p.port ∧
      (Part.tryRetry p i r f).due = p.due ∧
      (Part.tryRetry p i r f).image = p.image ∧
      (Part.tryRetry p i r f).planner = p.planner ∧
      (Part.tryRetry p i r f).uplink = p.uplink := by
  unfold Part.tryRetry
  dsimp only
  split <;> simp

@[simp] theorem Part.answerClass_frame (ans : PoolAnswer) (list : Option AnswerList) (k : ShortId) (f : Word) (p : Part) (c : MsgClass) :
    (Part.answerClass ans list k f p c).anchor = p.anchor ∧
      (Part.answerClass ans list k f p c).bus = p.bus ∧
      (Part.answerClass ans list k f p c).timer = p.timer ∧
      (Part.answerClass ans list k f p c).port = p.port ∧
      (Part.answerClass ans list k f p c).due = p.due ∧
      (Part.answerClass ans list k f p c).image = p.image ∧
      (Part.answerClass ans list k f p c).planner = p.planner ∧
      (Part.answerClass ans list k f p c).uplink = p.uplink := by
  unfold Part.answerClass
  dsimp only
  (repeat' split) <;> simp

@[simp] theorem Part.answer_frame (p : Part) (k : ShortId) (f : Word) (ans : PoolAnswer) :
    (Part.answer p k f ans).anchor = p.anchor ∧
      (Part.answer p k f ans).bus = p.bus ∧
      (Part.answer p k f ans).timer = p.timer ∧
      (Part.answer p k f ans).port = p.port ∧
      (Part.answer p k f ans).due = p.due ∧
      (Part.answer p k f ans).image = p.image ∧
      (Part.answer p k f ans).planner = p.planner ∧
      (Part.answer p k f ans).uplink = p.uplink := by
  unfold Part.answer
  simp [foldl_keeps Part.anchor, foldl_keeps Part.bus, foldl_keeps Part.timer, foldl_keeps Part.port, foldl_keeps Part.due, foldl_keeps Part.image, foldl_keeps Part.planner, foldl_keeps Part.uplink]

@[simp] theorem Part.restartCar_frame (p : Part) (k : ShortId) :
    (Part.restartCar p k).anchor = p.anchor ∧
      (Part.restartCar p k).bus = p.bus ∧
      (Part.restartCar p k).timer = p.timer ∧
      (Part.restartCar p k).port = p.port ∧
      (Part.restartCar p k).due = p.due ∧
      (Part.restartCar p k).roster = p.roster ∧
      (Part.restartCar p k).image = p.image ∧
      (Part.restartCar p k).planner = p.planner ∧
      (Part.restartCar p k).adm = p.adm ∧
      (Part.restartCar p k).uplink = p.uplink ∧
      (Part.restartCar p k).ev = p.ev := by
  unfold Part.restartCar
  refine ⟨?_, ?_, ?_, ?_, ?_, ?_, ?_, ?_, ?_, ?_, ?_⟩ <;> refine foldl_keeps _ _ (fun q c => ?_) _ _ <;> split <;> simp

@[simp] theorem Part.abortUplink_frame (p : Part) (k : ShortId) (f : Word) :
    (Part.abortUplink p k f).anchor = p.anchor ∧
      (Part.abortUplink p k f).bus = p.bus ∧
      (Part.abortUplink p k f).arb = p.arb ∧
      (Part.abortUplink p k f).timer = p.timer ∧
      (Part.abortUplink p k f).port = p.port ∧
      (Part.abortUplink p k f).due = p.due ∧
      (Part.abortUplink p k f).image = p.image ∧
      (Part.abortUplink p k f).planner = p.planner ∧
      (Part.abortUplink p k f).adm = p.adm ∧
      (Part.abortUplink p k f).pool = p.pool ∧
      (Part.abortUplink p k f).tx = p.tx ∧
      (Part.abortUplink p k f).ev = p.ev := by
  unfold Part.abortUplink
  split <;> simp

@[simp] theorem Part.setFinished_frame (p : Part) (k : ShortId) (m : Option FinishedMark) :
    (Part.setFinished p k m).anchor = p.anchor ∧
      (Part.setFinished p k m).bus = p.bus ∧
      (Part.setFinished p k m).arb = p.arb ∧
      (Part.setFinished p k m).timer = p.timer ∧
      (Part.setFinished p k m).port = p.port ∧
      (Part.setFinished p k m).due = p.due ∧
      (Part.setFinished p k m).roster = p.roster ∧
      (Part.setFinished p k m).image = p.image ∧
      (Part.setFinished p k m).planner = p.planner ∧
      (Part.setFinished p k m).adm = p.adm ∧
      (Part.setFinished p k m).pool = p.pool ∧
      (Part.setFinished p k m).tx = p.tx ∧
      (Part.setFinished p k m).ev = p.ev := by
  unfold Part.setFinished
  simp

@[simp] theorem Part.decideMessage_frame (p : Part) (k : ShortId) (x : UplinkContext) (f : UpFragment) (n : Word) :
    (Part.decideMessage p k x f n).anchor = p.anchor ∧
      (Part.decideMessage p k x f n).bus = p.bus ∧
      (Part.decideMessage p k x f n).arb = p.arb ∧
      (Part.decideMessage p k x f n).timer = p.timer ∧
      (Part.decideMessage p k x f n).port = p.port ∧
      (Part.decideMessage p k x f n).due = p.due ∧
      (Part.decideMessage p k x f n).image = p.image ∧
      (Part.decideMessage p k x f n).planner = p.planner ∧
      (Part.decideMessage p k x f n).adm = p.adm ∧
      (Part.decideMessage p k x f n).pool = p.pool ∧
      (Part.decideMessage p k x f n).tx = p.tx ∧
      (Part.decideMessage p k x f n).ev = p.ev := by
  unfold Part.decideMessage
  simp

theorem Part.takeFragment_frame (p : Part) (k : ShortId) (x : UplinkContext) (f : UpFragment) (n : Word) {q : Part} (h : Part.takeFragment p k x f n = some q) :
    q.anchor = p.anchor ∧
      q.bus = p.bus ∧
      q.arb = p.arb ∧
      q.timer = p.timer ∧
      q.port = p.port ∧
      q.due = p.due ∧
      q.image = p.image ∧
      q.planner = p.planner ∧
      q.adm = p.adm ∧
      q.pool = p.pool ∧
      q.tx = p.tx ∧
      q.ev = p.ev := by
  unfold Part.takeFragment at h
  simp only at h
  split at h
  · cases h
  · cases h
    (repeat' split) <;> simp

@[simp] theorem Part.newMessage_frame (p : Part) (k : ShortId) (f : UpFragment) (n m : Word) :
    (Part.newMessage p k f n m).1.anchor = p.anchor ∧
      (Part.newMessage p k f n m).1.bus = p.bus ∧
      (Part.newMessage p k f n m).1.arb = p.arb ∧
      (Part.newMessage p k f n m).1.timer = p.timer ∧
      (Part.newMessage p k f n m).1.port = p.port ∧
      (Part.newMessage p k f n m).1.due = p.due ∧
      (Part.newMessage p k f n m).1.image = p.image ∧
      (Part.newMessage p k f n m).1.planner = p.planner ∧
      (Part.newMessage p k f n m).1.adm = p.adm ∧
      (Part.newMessage p k f n m).1.pool = p.pool ∧
      (Part.newMessage p k f n m).1.tx = p.tx ∧
      (Part.newMessage p k f n m).1.ev = p.ev := by
  unfold Part.newMessage
  (repeat' (first | split | (dsimp only; split))) <;> first | (simp; done) | (rename_i h; simp [Part.takeFragment_frame _ _ _ _ _ h])

@[simp] theorem Part.judgeFragment_frame (p : Part) (k : ShortId) (f : UpFragment) (n m : Word) :
    (Part.judgeFragment p k f n m).1.anchor = p.anchor ∧
      (Part.judgeFragment p k f n m).1.bus = p.bus ∧
      (Part.judgeFragment p k f n m).1.arb = p.arb ∧
      (Part.judgeFragment p k f n m).1.timer = p.timer ∧
      (Part.judgeFragment p k f n m).1.port = p.port ∧
      (Part.judgeFragment p k f n m).1.due = p.due ∧
      (Part.judgeFragment p k f n m).1.image = p.image ∧
      (Part.judgeFragment p k f n m).1.planner = p.planner ∧
      (Part.judgeFragment p k f n m).1.adm = p.adm ∧
      (Part.judgeFragment p k f n m).1.pool = p.pool ∧
      (Part.judgeFragment p k f n m).1.tx = p.tx ∧
      (Part.judgeFragment p k f n m).1.ev = p.ev := by
  unfold Part.judgeFragment
  (repeat' (first | split | (dsimp only; split))) <;> first | (simp; done) | (rename_i h; simp [Part.takeFragment_frame _ _ _ _ _ h])

end Sys2Proof.Machine
end

