-- ==== Sys2Proof/Laws/FramesRoster.lean ====
section
/-! SUPPORT. What the roster, the planner and the image writer leave unchanged. -/

namespace Sys2Proof.Machine

@[simp] theorem Part.tryFree_frame (p : Part) (k : ShortId) :
    (Part.tryFree p k).anchor = p.anchor ∧
      (Part.tryFree p k).bus = p.bus ∧
      (Part.tryFree p k).arb = p.arb ∧
      (Part.tryFree p k).timer = p.timer ∧
      (Part.tryFree p k).port = p.port ∧
      (Part.tryFree p k).due = p.due ∧
      (Part.tryFree p k).image = p.image ∧
      (Part.tryFree p k).planner = p.planner ∧
      (Part.tryFree p k).adm = p.adm ∧
      (Part.tryFree p k).pool = p.pool ∧
      (Part.tryFree p k).tx = p.tx ∧
      (Part.tryFree p k).ev = p.ev := by
  unfold Part.tryFree
  split <;> simp

@[simp] theorem Part.drain_frame (p : Part) (k : ShortId) (why : DrainReason) (n : Word) :
    (Part.drain p k why n).anchor = p.anchor ∧
      (Part.drain p k why n).bus = p.bus ∧
      (Part.drain p k why n).timer = p.timer ∧
      (Part.drain p k why n).port = p.port ∧
      (Part.drain p k why n).due = p.due ∧
      (Part.drain p k why n).image = p.image ∧
      (Part.drain p k why n).planner = p.planner ∧
      (Part.drain p k why n).ev = p.ev := by
  unfold Part.drain
  simp

@[simp] theorem Part.haltEntry_frame (n : Word) (p : Part) (k : ShortId) :
    (Part.haltEntry n p k).anchor = p.anchor ∧
      (Part.haltEntry n p k).bus = p.bus ∧
      (Part.haltEntry n p k).timer = p.timer ∧
      (Part.haltEntry n p k).port = p.port ∧
      (Part.haltEntry n p k).due = p.due ∧
      (Part.haltEntry n p k).image = p.image ∧
      (Part.haltEntry n p k).planner = p.planner ∧
      (Part.haltEntry n p k).ev = p.ev := by
  unfold Part.haltEntry
  split <;> simp

@[simp] theorem Part.haltRoster_frame (p : Part) (n : Word) :
    (Part.haltRoster p n).anchor = p.anchor ∧
      (Part.haltRoster p n).bus = p.bus ∧
      (Part.haltRoster p n).timer = p.timer ∧
      (Part.haltRoster p n).port = p.port ∧
      (Part.haltRoster p n).due = p.due ∧
      (Part.haltRoster p n).image = p.image ∧
      (Part.haltRoster p n).planner = p.planner ∧
      (Part.haltRoster p n).ev = p.ev := by
  unfold Part.haltRoster
  simp [foldl_keeps Part.anchor, foldl_keeps Part.bus, foldl_keeps Part.timer, foldl_keeps Part.port, foldl_keeps Part.due, foldl_keeps Part.image, foldl_keeps Part.planner, foldl_keeps Part.ev]

@[simp] theorem Part.applySample_frame (p : Part) (k : ShortId) (v : Bool) (q : Nat) :
    (Part.applySample p k v q).anchor = p.anchor ∧
      (Part.applySample p k v q).bus = p.bus ∧
      (Part.applySample p k v q).arb = p.arb ∧
      (Part.applySample p k v q).timer = p.timer ∧
      (Part.applySample p k v q).port = p.port ∧
      (Part.applySample p k v q).due = p.due ∧
      (Part.applySample p k v q).image = p.image ∧
      (Part.applySample p k v q).planner = p.planner ∧
      (Part.applySample p k v q).adm = p.adm ∧
      (Part.applySample p k v q).pool = p.pool ∧
      (Part.applySample p k v q).tx = p.tx ∧
      (Part.applySample p k v q).uplink = p.uplink ∧
      (Part.applySample p k v q).ev = p.ev := by
  unfold Part.applySample
  dsimp only
  split <;> simp

@[simp] theorem Part.announce_frame (p : Part) (a : Announcement) :
    (Part.announce p a).anchor = p.anchor ∧
      (Part.announce p a).bus = p.bus ∧
      (Part.announce p a).arb = p.arb ∧
      (Part.announce p a).timer = p.timer ∧
      (Part.announce p a).port = p.port ∧
      (Part.announce p a).due = p.due ∧
      (Part.announce p a).image = p.image ∧
      (Part.announce p a).planner = p.planner ∧
      (Part.announce p a).adm = p.adm ∧
      (Part.announce p a).pool = p.pool ∧
      (Part.announce p a).tx = p.tx ∧
      (Part.announce p a).uplink = p.uplink ∧
      (Part.announce p a).ev = p.ev := by
  unfold Part.announce
  simp

@[simp] theorem Part.newJoin_frame (p : Part) (k : ShortId) (j : Join) :
    (Part.newJoin p k j).anchor = p.anchor ∧
      (Part.newJoin p k j).bus = p.bus ∧
      (Part.newJoin p k j).arb = p.arb ∧
      (Part.newJoin p k j).timer = p.timer ∧
      (Part.newJoin p k j).port = p.port ∧
      (Part.newJoin p k j).due = p.due ∧
      (Part.newJoin p k j).image = p.image ∧
      (Part.newJoin p k j).planner = p.planner ∧
      (Part.newJoin p k j).adm = p.adm ∧
      (Part.newJoin p k j).pool = p.pool ∧
      (Part.newJoin p k j).tx = p.tx ∧
      (Part.newJoin p k j).uplink = p.uplink := by
  unfold Part.newJoin
  simp

@[simp] theorem Part.rejoin_frame (p : Part) (k : ShortId) (j : Join) :
    (Part.rejoin p k j).anchor = p.anchor ∧
      (Part.rejoin p k j).bus = p.bus ∧
      (Part.rejoin p k j).timer = p.timer ∧
      (Part.rejoin p k j).port = p.port ∧
      (Part.rejoin p k j).due = p.due ∧
      (Part.rejoin p k j).image = p.image ∧
      (Part.rejoin p k j).planner = p.planner ∧
      (Part.rejoin p k j).adm = p.adm := by
  unfold Part.rejoin
  simp

@[simp] theorem Part.refuseJoin_frame (p : Part) (j : Join) :
    (Part.refuseJoin p j).anchor = p.anchor ∧
      (Part.refuseJoin p j).bus = p.bus ∧
      (Part.refuseJoin p j).arb = p.arb ∧
      (Part.refuseJoin p j).timer = p.timer ∧
      (Part.refuseJoin p j).port = p.port ∧
      (Part.refuseJoin p j).due = p.due ∧
      (Part.refuseJoin p j).image = p.image ∧
      (Part.refuseJoin p j).planner = p.planner ∧
      (Part.refuseJoin p j).adm = p.adm ∧
      (Part.refuseJoin p j).pool = p.pool ∧
      (Part.refuseJoin p j).tx = p.tx ∧
      (Part.refuseJoin p j).uplink = p.uplink := by
  unfold Part.refuseJoin
  simp

@[simp] theorem Part.join_frame (p : Part) (j : Join) :
    (Part.join p j).anchor = p.anchor ∧
      (Part.join p j).bus = p.bus ∧
      (Part.join p j).timer = p.timer ∧
      (Part.join p j).port = p.port ∧
      (Part.join p j).due = p.due ∧
      (Part.join p j).image = p.image ∧
      (Part.join p j).planner = p.planner ∧
      (Part.join p j).adm = p.adm := by
  unfold Part.join
  (repeat' split) <;> simp

@[simp] theorem Part.dropCarried_frame (p : Part) (l : List Announcement) :
    (Part.dropCarried p l).anchor = p.anchor ∧
      (Part.dropCarried p l).bus = p.bus ∧
      (Part.dropCarried p l).arb = p.arb ∧
      (Part.dropCarried p l).timer = p.timer ∧
      (Part.dropCarried p l).port = p.port ∧
      (Part.dropCarried p l).due = p.due ∧
      (Part.dropCarried p l).image = p.image ∧
      (Part.dropCarried p l).planner = p.planner ∧
      (Part.dropCarried p l).adm = p.adm ∧
      (Part.dropCarried p l).pool = p.pool ∧
      (Part.dropCarried p l).tx = p.tx ∧
      (Part.dropCarried p l).uplink = p.uplink ∧
      (Part.dropCarried p l).ev = p.ev := by
  unfold Part.dropCarried
  simp

@[simp] theorem Part.countMiss_frame (p : Part) (k : ShortId) (f : Word) :
    (Part.countMiss p k f).anchor = p.anchor ∧
      (Part.countMiss p k f).bus = p.bus ∧
      (Part.countMiss p k f).timer = p.timer ∧
      (Part.countMiss p k f).port = p.port ∧
      (Part.countMiss p k f).due = p.due ∧
      (Part.countMiss p k f).image = p.image ∧
      (Part.countMiss p k f).planner = p.planner := by
  unfold Part.countMiss
  dsimp only
  (repeat' split) <;> simp

@[simp] theorem Part.missedSlot_frame (p : Part) (k : ShortId) (f : Word) :
    (Part.missedSlot p k f).anchor = p.anchor ∧
      (Part.missedSlot p k f).bus = p.bus ∧
      (Part.missedSlot p k f).timer = p.timer ∧
      (Part.missedSlot p k f).port = p.port ∧
      (Part.missedSlot p k f).due = p.due ∧
      (Part.missedSlot p k f).image = p.image ∧
      (Part.missedSlot p k f).planner = p.planner := by
  unfold Part.missedSlot
  split <;> simp

@[simp] theorem Part.validSlot_frame (p : Part) (k : ShortId) (f n : Word) (l : Bool) :
    (Part.validSlot p k f n l).anchor = p.anchor ∧
      (Part.validSlot p k f n l).bus = p.bus ∧
      (Part.validSlot p k f n l).timer = p.timer ∧
      (Part.validSlot p k f n l).port = p.port ∧
      (Part.validSlot p k f n l).due = p.due ∧
      (Part.validSlot p k f n l).image = p.image ∧
      (Part.validSlot p k f n l).planner = p.planner := by
  unfold Part.validSlot
  dsimp only
  (repeat' split) <;> simp

@[simp] theorem Part.abandon_frame (p : Part) (k : ShortId) (f : Word) :
    (Part.abandon p k f).anchor = p.anchor ∧
      (Part.abandon p k f).bus = p.bus ∧
      (Part.abandon p k f).timer = p.timer ∧
      (Part.abandon p k f).port = p.port ∧
      (Part.abandon p k f).due = p.due ∧
      (Part.abandon p k f).image = p.image ∧
      (Part.abandon p k f).planner = p.planner := by
  unfold Part.abandon
  simp

@[simp] theorem Part.frameStartEntry_frame (f : Word) (b : Bool) (p : Part) (k : ShortId) :
    (Part.frameStartEntry f b p k).anchor = p.anchor ∧
      (Part.frameStartEntry f b p k).bus = p.bus ∧
      (Part.frameStartEntry f b p k).timer = p.timer ∧
      (Part.frameStartEntry f b p k).port = p.port ∧
      (Part.frameStartEntry f b p k).due = p.due ∧
      (Part.frameStartEntry f b p k).image = p.image ∧
      (Part.frameStartEntry f b p k).planner = p.planner := by
  unfold Part.frameStartEntry
  dsimp only
  (repeat' split) <;> simp

@[simp] theorem Part.rosterFrameStart_frame (p : Part) (f : Word) :
    (Part.rosterFrameStart p f).anchor = p.anchor ∧
      (Part.rosterFrameStart p f).bus = p.bus ∧
      (Part.rosterFrameStart p f).timer = p.timer ∧
      (Part.rosterFrameStart p f).port = p.port ∧
      (Part.rosterFrameStart p f).due = p.due ∧
      (Part.rosterFrameStart p f).image = p.image ∧
      (Part.rosterFrameStart p f).planner = p.planner := by
  unfold Part.rosterFrameStart
  split <;> simp [foldl_keeps Part.anchor, foldl_keeps Part.bus, foldl_keeps Part.timer, foldl_keeps Part.port, foldl_keeps Part.due, foldl_keeps Part.image, foldl_keeps Part.planner]

@[simp] theorem Part.evictCar_frame (p : Part) (car : CarNumber) :
    (Part.evictCar p car).1.anchor = p.anchor ∧
      (Part.evictCar p car).1.bus = p.bus ∧
      (Part.evictCar p car).1.timer = p.timer ∧
      (Part.evictCar p car).1.port = p.port ∧
      (Part.evictCar p car).1.due = p.due ∧
      (Part.evictCar p car).1.image = p.image ∧
      (Part.evictCar p car).1.planner = p.planner ∧
      (Part.evictCar p car).1.ev = p.ev := by
  unfold Part.evictCar
  dsimp only
  (repeat' split) <;> simp

@[simp] theorem Part.setCarWeight_frame (p : Part) (car : CarNumber) (w : Nat) :
    (Part.setCarWeight p car w).1.anchor = p.anchor ∧
      (Part.setCarWeight p car w).1.bus = p.bus ∧
      (Part.setCarWeight p car w).1.arb = p.arb ∧
      (Part.setCarWeight p car w).1.timer = p.timer ∧
      (Part.setCarWeight p car w).1.port = p.port ∧
      (Part.setCarWeight p car w).1.due = p.due ∧
      (Part.setCarWeight p car w).1.image = p.image ∧
      (Part.setCarWeight p car w).1.planner = p.planner ∧
      (Part.setCarWeight p car w).1.adm = p.adm ∧
      (Part.setCarWeight p car w).1.pool = p.pool ∧
      (Part.setCarWeight p car w).1.tx = p.tx ∧
      (Part.setCarWeight p car w).1.uplink = p.uplink ∧
      (Part.setCarWeight p car w).1.ev = p.ev := by
  unfold Part.setCarWeight
  split <;> simp

@[simp] theorem Part.setCarCap_frame (p : Part) (car : CarNumber) (c : RateClass) :
    (Part.setCarCap p car c).1.anchor = p.anchor ∧
      (Part.setCarCap p car c).1.bus = p.bus ∧
      (Part.setCarCap p car c).1.arb = p.arb ∧
      (Part.setCarCap p car c).1.timer = p.timer ∧
      (Part.setCarCap p car c).1.port = p.port ∧
      (Part.setCarCap p car c).1.due = p.due ∧
      (Part.setCarCap p car c).1.image = p.image ∧
      (Part.setCarCap p car c).1.planner = p.planner ∧
      (Part.setCarCap p car c).1.adm = p.adm ∧
      (Part.setCarCap p car c).1.pool = p.pool ∧
      (Part.setCarCap p car c).1.tx = p.tx ∧
      (Part.setCarCap p car c).1.uplink = p.uplink ∧
      (Part.setCarCap p car c).1.ev = p.ev := by
  unfold Part.setCarCap
  split <;> simp

@[simp] theorem Part.buildPlan_frame (p : Part) (f : Word) :
    (Part.buildPlan p f).anchor = p.anchor ∧
      (Part.buildPlan p f).bus = p.bus ∧
      (Part.buildPlan p f).timer = p.timer ∧
      (Part.buildPlan p f).port = p.port ∧
      (Part.buildPlan p f).due = p.due ∧
      (Part.buildPlan p f).image = p.image ∧
      (Part.buildPlan p f).adm = p.adm ∧
      (Part.buildPlan p f).uplink = p.uplink ∧
      (Part.buildPlan p f).ev = p.ev := by
  unfold Part.buildPlan
  split <;> simp

@[simp] theorem Part.beginEntryRecord_frame (p : Part) (k : ShortId) :
    (Part.beginEntryRecord p k).anchor = p.anchor ∧
      (Part.beginEntryRecord p k).bus = p.bus ∧
      (Part.beginEntryRecord p k).arb = p.arb ∧
      (Part.beginEntryRecord p k).timer = p.timer ∧
      (Part.beginEntryRecord p k).port = p.port ∧
      (Part.beginEntryRecord p k).due = p.due ∧
      (Part.beginEntryRecord p k).planner = p.planner ∧
      (Part.beginEntryRecord p k).adm = p.adm ∧
      (Part.beginEntryRecord p k).pool = p.pool ∧
      (Part.beginEntryRecord p k).tx = p.tx ∧
      (Part.beginEntryRecord p k).uplink = p.uplink ∧
      (Part.beginEntryRecord p k).ev = p.ev := by
  unfold Part.beginEntryRecord
  simp

@[simp] theorem Part.beginSummaryRecord_frame (p : Part) :
    (Part.beginSummaryRecord p).anchor = p.anchor ∧
      (Part.beginSummaryRecord p).bus = p.bus ∧
      (Part.beginSummaryRecord p).arb = p.arb ∧
      (Part.beginSummaryRecord p).timer = p.timer ∧
      (Part.beginSummaryRecord p).port = p.port ∧
      (Part.beginSummaryRecord p).due = p.due ∧
      (Part.beginSummaryRecord p).roster = p.roster ∧
      (Part.beginSummaryRecord p).planner = p.planner ∧
      (Part.beginSummaryRecord p).adm = p.adm ∧
      (Part.beginSummaryRecord p).pool = p.pool ∧
      (Part.beginSummaryRecord p).tx = p.tx ∧
      (Part.beginSummaryRecord p).uplink = p.uplink ∧
      (Part.beginSummaryRecord p).ev = p.ev := by
  unfold Part.beginSummaryRecord
  simp

@[simp] theorem Part.imageFrom_frame (p : Part) (k : Nat) :
    (Part.imageFrom p k).anchor = p.anchor ∧
      (Part.imageFrom p k).bus = p.bus ∧
      (Part.imageFrom p k).arb = p.arb ∧
      (Part.imageFrom p k).timer = p.timer ∧
      (Part.imageFrom p k).port = p.port ∧
      (Part.imageFrom p k).due = p.due ∧
      (Part.imageFrom p k).planner = p.planner ∧
      (Part.imageFrom p k).adm = p.adm ∧
      (Part.imageFrom p k).pool = p.pool ∧
      (Part.imageFrom p k).tx = p.tx ∧
      (Part.imageFrom p k).uplink = p.uplink ∧
      (Part.imageFrom p k).ev = p.ev := by
  unfold Part.imageFrom
  split <;> simp

@[simp] theorem Part.beginPass_frame (p : Part) :
    (Part.beginPass p).anchor = p.anchor ∧
      (Part.beginPass p).bus = p.bus ∧
      (Part.beginPass p).arb = p.arb ∧
      (Part.beginPass p).timer = p.timer ∧
      (Part.beginPass p).port = p.port ∧
      (Part.beginPass p).due = p.due ∧
      (Part.beginPass p).planner = p.planner ∧
      (Part.beginPass p).adm = p.adm ∧
      (Part.beginPass p).pool = p.pool ∧
      (Part.beginPass p).tx = p.tx ∧
      (Part.beginPass p).uplink = p.uplink ∧
      (Part.beginPass p).ev = p.ev := by
  unfold Part.beginPass
  simp

@[simp] theorem Part.passDue_frame (p : Part) :
    (Part.passDue p).anchor = p.anchor ∧
      (Part.passDue p).bus = p.bus ∧
      (Part.passDue p).arb = p.arb ∧
      (Part.passDue p).timer = p.timer ∧
      (Part.passDue p).port = p.port ∧
      (Part.passDue p).due = p.due ∧
      (Part.passDue p).planner = p.planner ∧
      (Part.passDue p).adm = p.adm ∧
      (Part.passDue p).pool = p.pool ∧
      (Part.passDue p).tx = p.tx ∧
      (Part.passDue p).uplink = p.uplink ∧
      (Part.passDue p).ev = p.ev := by
  unfold Part.passDue
  split <;> simp

@[simp] theorem Part.haltingPass_frame (p : Part) :
    (Part.haltingPass p).anchor = p.anchor ∧
      (Part.haltingPass p).bus = p.bus ∧
      (Part.haltingPass p).arb = p.arb ∧
      (Part.haltingPass p).timer = p.timer ∧
      (Part.haltingPass p).port = p.port ∧
      (Part.haltingPass p).due = p.due ∧
      (Part.haltingPass p).planner = p.planner ∧
      (Part.haltingPass p).adm = p.adm ∧
      (Part.haltingPass p).pool = p.pool ∧
      (Part.haltingPass p).tx = p.tx ∧
      (Part.haltingPass p).uplink = p.uplink ∧
      (Part.haltingPass p).ev = p.ev := by
  unfold Part.haltingPass
  split <;> simp

@[simp] theorem Part.endPass_frame (p : Part) :
    (Part.endPass p).bus = p.bus ∧
      (Part.endPass p).arb = p.arb ∧
      (Part.endPass p).timer = p.timer ∧
      (Part.endPass p).port = p.port ∧
      (Part.endPass p).due = p.due ∧
      (Part.endPass p).planner = p.planner ∧
      (Part.endPass p).adm = p.adm ∧
      (Part.endPass p).pool = p.pool ∧
      (Part.endPass p).tx = p.tx ∧
      (Part.endPass p).uplink = p.uplink ∧
      (Part.endPass p).ev = p.ev := by
  unfold Part.endPass
  dsimp only
  (repeat' split) <;> simp

@[simp] theorem Part.imageWritten_frame (p : Part) :
    (Part.imageWritten p).bus = p.bus ∧
      (Part.imageWritten p).arb = p.arb ∧
      (Part.imageWritten p).timer = p.timer ∧
      (Part.imageWritten p).port = p.port ∧
      (Part.imageWritten p).due = p.due ∧
      (Part.imageWritten p).planner = p.planner ∧
      (Part.imageWritten p).adm = p.adm ∧
      (Part.imageWritten p).pool = p.pool ∧
      (Part.imageWritten p).tx = p.tx ∧
      (Part.imageWritten p).uplink = p.uplink ∧
      (Part.imageWritten p).ev = p.ev := by
  unfold Part.imageWritten
  (repeat' split) <;> simp

end Sys2Proof.Machine
end

