-- ==== Sys2Proof/Laws/FramesAir.lean ====
section
/-! SUPPORT. What the frame timer, the burst port and the frame start leave unchanged. -/

namespace Sys2Proof.Machine

@[simp] theorem Part.silenceTransition_frame (p : Part) (f : Word) :
    (Part.silenceTransition p f).anchor = p.anchor ∧
      (Part.silenceTransition p f).bus = p.bus ∧
      (Part.silenceTransition p f).arb = p.arb ∧
      (Part.silenceTransition p f).port = p.port ∧
      (Part.silenceTransition p f).due = p.due ∧
      (Part.silenceTransition p f).roster = p.roster ∧
      (Part.silenceTransition p f).image = p.image ∧
      (Part.silenceTransition p f).planner = p.planner ∧
      (Part.silenceTransition p f).adm = p.adm ∧
      (Part.silenceTransition p f).pool = p.pool ∧
      (Part.silenceTransition p f).tx = p.tx ∧
      (Part.silenceTransition p f).uplink = p.uplink := by
  unfold Part.silenceTransition
  (repeat' split) <;> simp

@[simp] theorem Part.countRun_frame (p : Part) (slot : Nat) (f : Word) (st : Settled) :
    (Part.countRun p slot f st).anchor = p.anchor ∧
      (Part.countRun p slot f st).bus = p.bus ∧
      (Part.countRun p slot f st).arb = p.arb ∧
      (Part.countRun p slot f st).port = p.port ∧
      (Part.countRun p slot f st).due = p.due ∧
      (Part.countRun p slot f st).roster = p.roster ∧
      (Part.countRun p slot f st).image = p.image ∧
      (Part.countRun p slot f st).planner = p.planner ∧
      (Part.countRun p slot f st).adm = p.adm ∧
      (Part.countRun p slot f st).pool = p.pool ∧
      (Part.countRun p slot f st).tx = p.tx ∧
      (Part.countRun p slot f st).uplink = p.uplink := by
  unfold Part.countRun
  (repeat' split) <;> simp

@[simp] theorem Part.beaconSent_frame (p : Part) :
    (Part.beaconSent p).anchor = p.anchor ∧
      (Part.beaconSent p).bus = p.bus ∧
      (Part.beaconSent p).arb = p.arb ∧
      (Part.beaconSent p).port = p.port ∧
      (Part.beaconSent p).due = p.due ∧
      (Part.beaconSent p).image = p.image ∧
      (Part.beaconSent p).planner = p.planner ∧
      (Part.beaconSent p).adm = p.adm ∧
      (Part.beaconSent p).pool = p.pool ∧
      (Part.beaconSent p).tx = p.tx ∧
      (Part.beaconSent p).uplink = p.uplink := by
  unfold Part.beaconSent
  dsimp only
  split <;> simp

@[simp] theorem Part.accessHeard_frame (p : Part) (h : Heard) :
    (Part.accessHeard p h).anchor = p.anchor ∧
      (Part.accessHeard p h).bus = p.bus ∧
      (Part.accessHeard p h).port = p.port ∧
      (Part.accessHeard p h).due = p.due ∧
      (Part.accessHeard p h).image = p.image ∧
      (Part.accessHeard p h).planner = p.planner ∧
      (Part.accessHeard p h).adm = p.adm := by
  unfold Part.accessHeard
  (repeat' split) <;> simp

@[simp] theorem Part.settleSlot_frame (p : Part) :
    (Part.settleSlot p).1.anchor = p.anchor ∧
      (Part.settleSlot p).1.bus = p.bus ∧
      (Part.settleSlot p).1.image = p.image ∧
      (Part.settleSlot p).1.planner = p.planner ∧
      (Part.settleSlot p).1.adm = p.adm := by
  unfold Part.settleSlot
  dsimp only
  (repeat' split) <;> simp

@[simp] theorem Part.present_frame (p : Part) (o : Order) :
    (Part.present p o).anchor = p.anchor ∧
      (Part.present p o).bus = p.bus ∧
      (Part.present p o).arb = p.arb ∧
      (Part.present p o).timer = p.timer ∧
      (Part.present p o).due = p.due ∧
      (Part.present p o).roster = p.roster ∧
      (Part.present p o).image = p.image ∧
      (Part.present p o).planner = p.planner ∧
      (Part.present p o).adm = p.adm ∧
      (Part.present p o).pool = p.pool ∧
      (Part.present p o).tx = p.tx ∧
      (Part.present p o).uplink = p.uplink ∧
      (Part.present p o).ev = p.ev := by
  unfold Part.present
  simp

@[simp] theorem Part.beginSlot_frame (p : Part) (slot : Nat) :
    (Part.beginSlot p slot).anchor = p.anchor ∧
      (Part.beginSlot p slot).bus = p.bus ∧
      (Part.beginSlot p slot).due = p.due ∧
      (Part.beginSlot p slot).roster = p.roster ∧
      (Part.beginSlot p slot).image = p.image ∧
      (Part.beginSlot p slot).planner = p.planner ∧
      (Part.beginSlot p slot).adm = p.adm ∧
      (Part.beginSlot p slot).pool = p.pool ∧
      (Part.beginSlot p slot).uplink = p.uplink ∧
      (Part.beginSlot p slot).ev = p.ev := by
  unfold Part.beginSlot
  dsimp only
  (repeat' split) <;> simp

@[simp] theorem Part.tryBeacon_frame (p : Part) :
    (Part.tryBeacon p).anchor = p.anchor ∧
      (Part.tryBeacon p).bus = p.bus ∧
      (Part.tryBeacon p).arb = p.arb ∧
      (Part.tryBeacon p).due = p.due ∧
      (Part.tryBeacon p).roster = p.roster ∧
      (Part.tryBeacon p).image = p.image ∧
      (Part.tryBeacon p).planner = p.planner ∧
      (Part.tryBeacon p).adm = p.adm ∧
      (Part.tryBeacon p).pool = p.pool ∧
      (Part.tryBeacon p).tx = p.tx ∧
      (Part.tryBeacon p).uplink = p.uplink ∧
      (Part.tryBeacon p).ev = p.ev := by
  unfold Part.tryBeacon
  dsimp only
  (repeat' split) <;> simp

@[simp] theorem Part.takeAlarm_frame (p : Part) (r : UpResult) (a : Bool) :
    (Part.takeAlarm p r a).anchor = p.anchor ∧
      (Part.takeAlarm p r a).bus = p.bus ∧
      (Part.takeAlarm p r a).arb = p.arb ∧
      (Part.takeAlarm p r a).timer = p.timer ∧
      (Part.takeAlarm p r a).port = p.port ∧
      (Part.takeAlarm p r a).due = p.due ∧
      (Part.takeAlarm p r a).image = p.image ∧
      (Part.takeAlarm p r a).planner = p.planner ∧
      (Part.takeAlarm p r a).adm = p.adm ∧
      (Part.takeAlarm p r a).pool = p.pool ∧
      (Part.takeAlarm p r a).tx = p.tx ∧
      (Part.takeAlarm p r a).uplink = p.uplink := by
  unfold Part.takeAlarm
  dsimp only
  split <;> simp

@[simp] theorem Part.setAck_frame (p : Part) (k : ShortId) (b : Bool) :
    (Part.setAck p k b).anchor = p.anchor ∧
      (Part.setAck p k b).bus = p.bus ∧
      (Part.setAck p k b).arb = p.arb ∧
      (Part.setAck p k b).timer = p.timer ∧
      (Part.setAck p k b).port = p.port ∧
      (Part.setAck p k b).due = p.due ∧
      (Part.setAck p k b).image = p.image ∧
      (Part.setAck p k b).planner = p.planner ∧
      (Part.setAck p k b).adm = p.adm ∧
      (Part.setAck p k b).pool = p.pool ∧
      (Part.setAck p k b).tx = p.tx ∧
      (Part.setAck p k b).uplink = p.uplink ∧
      (Part.setAck p k b).ev = p.ev := by
  unfold Part.setAck
  simp

@[simp] theorem Part.takeUplink_frame (p : Part) (r : UpResult) (f : Option UpFragment) :
    (Part.takeUplink p r f).anchor = p.anchor ∧
      (Part.takeUplink p r f).bus = p.bus ∧
      (Part.takeUplink p r f).arb = p.arb ∧
      (Part.takeUplink p r f).timer = p.timer ∧
      (Part.takeUplink p r f).port = p.port ∧
      (Part.takeUplink p r f).due = p.due ∧
      (Part.takeUplink p r f).image = p.image ∧
      (Part.takeUplink p r f).planner = p.planner ∧
      (Part.takeUplink p r f).adm = p.adm ∧
      (Part.takeUplink p r f).pool = p.pool ∧
      (Part.takeUplink p r f).tx = p.tx ∧
      (Part.takeUplink p r f).ev = p.ev := by
  unfold Part.takeUplink
  split <;> simp

@[simp] theorem Part.takeResult_frame (p : Part) (r : UpResult) :
    (Part.takeResult p r).anchor = p.anchor ∧
      (Part.takeResult p r).bus = p.bus ∧
      (Part.takeResult p r).timer = p.timer ∧
      (Part.takeResult p r).port = p.port ∧
      (Part.takeResult p r).due = p.due ∧
      (Part.takeResult p r).image = p.image ∧
      (Part.takeResult p r).planner = p.planner := by
  unfold Part.takeResult
  dsimp only
  (repeat' split) <;> simp

@[simp] theorem Part.takeOldest_frame (p : Part) :
    (Part.takeOldest p).anchor = p.anchor ∧
      (Part.takeOldest p).bus = p.bus ∧
      (Part.takeOldest p).timer = p.timer ∧
      (Part.takeOldest p).port = p.port ∧
      (Part.takeOldest p).image = p.image ∧
      (Part.takeOldest p).planner = p.planner := by
  unfold Part.takeOldest
  split <;> simp

@[simp] theorem Part.timerFrameStart_frame (p : Part) :
    (Part.timerFrameStart p).anchor = p.anchor ∧
      (Part.timerFrameStart p).bus = p.bus ∧
      (Part.timerFrameStart p).arb = p.arb ∧
      (Part.timerFrameStart p).port = p.port ∧
      (Part.timerFrameStart p).due = p.due ∧
      (Part.timerFrameStart p).roster = p.roster ∧
      (Part.timerFrameStart p).image = p.image ∧
      (Part.timerFrameStart p).planner = p.planner ∧
      (Part.timerFrameStart p).adm = p.adm ∧
      (Part.timerFrameStart p).pool = p.pool ∧
      (Part.timerFrameStart p).tx = p.tx ∧
      (Part.timerFrameStart p).uplink = p.uplink := by
  unfold Part.timerFrameStart
  simp

@[simp] theorem Part.frameWork_frame (p : Part) (w : FrameWork) :
    (Part.frameWork p w).anchor = p.anchor ∧
      (Part.frameWork p w).bus = p.bus ∧
      (Part.frameWork p w).port = p.port := by
  unfold Part.frameWork
  (repeat' split) <;> simp

@[simp] theorem Part.frameWorkThenBeacon_frame (p : Part) (w : FrameWork) :
    (Part.frameWorkThenBeacon p w).anchor = p.anchor ∧
      (Part.frameWorkThenBeacon p w).bus = p.bus := by
  unfold Part.frameWorkThenBeacon
  simp

@[simp] theorem Part.workOfStart_frame (p : Part) (w : FrameWork) :
    (Part.workOfStart p w).anchor = p.anchor ∧
      (Part.workOfStart p w).bus = p.bus := by
  unfold Part.workOfStart
  split <;> simp

@[simp] theorem Part.flushResults_frame (p : Part) :
    (Part.flushResults p).anchor = p.anchor ∧
      (Part.flushResults p).bus = p.bus := by
  unfold Part.flushResults
  simp [foldl_keeps Part.anchor, foldl_keeps Part.bus]

@[simp] theorem Part.flushDue_frame (p : Part) :
    (Part.flushDue p).anchor = p.anchor ∧
      (Part.flushDue p).bus = p.bus := by
  unfold Part.flushDue
  dsimp only
  split <;> simp

@[simp] theorem Part.frameStart_frame (p : Part) (f : Word) (st : Settled) (o : List FrameWork) :
    (Part.frameStart p f st o).anchor = p.anchor ∧
      (Part.frameStart p f st o).bus = p.bus := by
  unfold Part.frameStart
  simp [foldl_keeps Part.anchor, foldl_keeps Part.bus]

end Sys2Proof.Machine
end

