-- ==== Sys2Proof/Laws/FramesBus.lean ====
section
/-! SUPPORT. What admission, the anchor, the bus and the commands leave unchanged. -/

namespace Sys2Proof.Machine

@[simp] theorem Part.setRing_frame (p : Part) (r : RingId) (x : DownRing) :
    (Part.setRing p r x).anchor = p.anchor ∧
      (Part.setRing p r x).bus = p.bus ∧
      (Part.setRing p r x).arb = p.arb ∧
      (Part.setRing p r x).timer = p.timer ∧
      (Part.setRing p r x).port = p.port ∧
      (Part.setRing p r x).due = p.due ∧
      (Part.setRing p r x).roster = p.roster ∧
      (Part.setRing p r x).image = p.image ∧
      (Part.setRing p r x).planner = p.planner ∧
      (Part.setRing p r x).pool = p.pool ∧
      (Part.setRing p r x).tx = p.tx ∧
      (Part.setRing p r x).uplink = p.uplink ∧
      (Part.setRing p r x).ev = p.ev := by
  unfold Part.setRing
  split <;> simp

@[simp] theorem Part.setHand_frame (p : Part) (r : Option RingId) :
    (Part.setHand p r).anchor = p.anchor ∧
      (Part.setHand p r).bus = p.bus ∧
      (Part.setHand p r).arb = p.arb ∧
      (Part.setHand p r).timer = p.timer ∧
      (Part.setHand p r).port = p.port ∧
      (Part.setHand p r).due = p.due ∧
      (Part.setHand p r).roster = p.roster ∧
      (Part.setHand p r).image = p.image ∧
      (Part.setHand p r).planner = p.planner ∧
      (Part.setHand p r).pool = p.pool ∧
      (Part.setHand p r).tx = p.tx ∧
      (Part.setHand p r).uplink = p.uplink ∧
      (Part.setHand p r).ev = p.ev := by
  unfold Part.setHand
  simp

@[simp] theorem Part.oweWriteBack_frame (p : Part) (w : WriteBack) :
    (Part.oweWriteBack p w).anchor = p.anchor ∧
      (Part.oweWriteBack p w).bus = p.bus ∧
      (Part.oweWriteBack p w).arb = p.arb ∧
      (Part.oweWriteBack p w).timer = p.timer ∧
      (Part.oweWriteBack p w).port = p.port ∧
      (Part.oweWriteBack p w).due = p.due ∧
      (Part.oweWriteBack p w).roster = p.roster ∧
      (Part.oweWriteBack p w).image = p.image ∧
      (Part.oweWriteBack p w).planner = p.planner ∧
      (Part.oweWriteBack p w).pool = p.pool ∧
      (Part.oweWriteBack p w).tx = p.tx ∧
      (Part.oweWriteBack p w).uplink = p.uplink ∧
      (Part.oweWriteBack p w).ev = p.ev := by
  unfold Part.oweWriteBack
  simp

@[simp] theorem Part.closeItem_frame (p : Part) (r : RingId) (i : Word) (c : Nat) :
    (Part.closeItem p r i c).anchor = p.anchor ∧
      (Part.closeItem p r i c).bus = p.bus ∧
      (Part.closeItem p r i c).arb = p.arb ∧
      (Part.closeItem p r i c).timer = p.timer ∧
      (Part.closeItem p r i c).port = p.port ∧
      (Part.closeItem p r i c).due = p.due ∧
      (Part.closeItem p r i c).roster = p.roster ∧
      (Part.closeItem p r i c).image = p.image ∧
      (Part.closeItem p r i c).planner = p.planner ∧
      (Part.closeItem p r i c).pool = p.pool ∧
      (Part.closeItem p r i c).tx = p.tx ∧
      (Part.closeItem p r i c).uplink = p.uplink ∧
      (Part.closeItem p r i c).ev = p.ev := by
  unfold Part.closeItem
  simp

@[simp] theorem Part.finishItem_frame (p : Part) (r : RingId) (i : Word) (c : Nat) (st : Status) :
    (Part.finishItem p r i c st).anchor = p.anchor ∧
      (Part.finishItem p r i c st).bus = p.bus ∧
      (Part.finishItem p r i c st).arb = p.arb ∧
      (Part.finishItem p r i c st).timer = p.timer ∧
      (Part.finishItem p r i c st).port = p.port ∧
      (Part.finishItem p r i c st).due = p.due ∧
      (Part.finishItem p r i c st).roster = p.roster ∧
      (Part.finishItem p r i c st).image = p.image ∧
      (Part.finishItem p r i c st).planner = p.planner ∧
      (Part.finishItem p r i c st).pool = p.pool ∧
      (Part.finishItem p r i c st).tx = p.tx ∧
      (Part.finishItem p r i c st).uplink = p.uplink ∧
      (Part.finishItem p r i c st).ev = p.ev := by
  unfold Part.finishItem
  simp

@[simp] theorem Part.allocate_frame (p : Part) (r : RingId) (it : OpenItem) (k : ShortId) (c : MsgClass) :
    (Part.allocate p r it k c).anchor = p.anchor ∧
      (Part.allocate p r it k c).bus = p.bus ∧
      (Part.allocate p r it k c).timer = p.timer ∧
      (Part.allocate p r it k c).port = p.port ∧
      (Part.allocate p r it k c).due = p.due ∧
      (Part.allocate p r it k c).image = p.image ∧
      (Part.allocate p r it k c).planner = p.planner ∧
      (Part.allocate p r it k c).uplink = p.uplink ∧
      (Part.allocate p r it k c).ev = p.ev := by
  unfold Part.allocate
  split <;> simp

@[simp] theorem Part.keepItem_frame (p : Part) (r : RingId) (it : OpenItem) :
    (Part.keepItem p r it).anchor = p.anchor ∧
      (Part.keepItem p r it).bus = p.bus ∧
      (Part.keepItem p r it).arb = p.arb ∧
      (Part.keepItem p r it).timer = p.timer ∧
      (Part.keepItem p r it).port = p.port ∧
      (Part.keepItem p r it).due = p.due ∧
      (Part.keepItem p r it).roster = p.roster ∧
      (Part.keepItem p r it).image = p.image ∧
      (Part.keepItem p r it).planner = p.planner ∧
      (Part.keepItem p r it).pool = p.pool ∧
      (Part.keepItem p r it).tx = p.tx ∧
      (Part.keepItem p r it).uplink = p.uplink ∧
      (Part.keepItem p r it).ev = p.ev := by
  unfold Part.keepItem
  simp

@[simp] theorem Part.allocStep_frame (p : Part) (r : RingId) (it : OpenItem) :
    (Part.allocStep p r it).anchor = p.anchor ∧
      (Part.allocStep p r it).bus = p.bus ∧
      (Part.allocStep p r it).timer = p.timer ∧
      (Part.allocStep p r it).port = p.port ∧
      (Part.allocStep p r it).due = p.due ∧
      (Part.allocStep p r it).image = p.image ∧
      (Part.allocStep p r it).planner = p.planner ∧
      (Part.allocStep p r it).uplink = p.uplink ∧
      (Part.allocStep p r it).ev = p.ev := by
  unfold Part.allocStep
  (repeat' split) <;> simp

@[simp] theorem Part.judgeItem_frame (p : Part) (r : RingId) (it : OpenItem) :
    (Part.judgeItem p r it).anchor = p.anchor ∧
      (Part.judgeItem p r it).bus = p.bus ∧
      (Part.judgeItem p r it).timer = p.timer ∧
      (Part.judgeItem p r it).port = p.port ∧
      (Part.judgeItem p r it).due = p.due ∧
      (Part.judgeItem p r it).image = p.image ∧
      (Part.judgeItem p r it).planner = p.planner ∧
      (Part.judgeItem p r it).uplink = p.uplink ∧
      (Part.judgeItem p r it).ev = p.ev := by
  unfold Part.judgeItem
  split <;> simp

@[simp] theorem Part.readOn_frame (p : Part) (r : RingId) (it : OpenItem) :
    (Part.readOn p r it).anchor = p.anchor ∧
      (Part.readOn p r it).bus = p.bus ∧
      (Part.readOn p r it).arb = p.arb ∧
      (Part.readOn p r it).timer = p.timer ∧
      (Part.readOn p r it).port = p.port ∧
      (Part.readOn p r it).due = p.due ∧
      (Part.readOn p r it).roster = p.roster ∧
      (Part.readOn p r it).image = p.image ∧
      (Part.readOn p r it).planner = p.planner ∧
      (Part.readOn p r it).pool = p.pool ∧
      (Part.readOn p r it).tx = p.tx ∧
      (Part.readOn p r it).uplink = p.uplink ∧
      (Part.readOn p r it).ev = p.ev := by
  unfold Part.readOn
  dsimp only
  split <;> simp

@[simp] theorem Part.beginItem_frame (p : Part) (r : RingId) (i : Word) (d : Descriptor) :
    (Part.beginItem p r i d).anchor = p.anchor ∧
      (Part.beginItem p r i d).bus = p.bus ∧
      (Part.beginItem p r i d).arb = p.arb ∧
      (Part.beginItem p r i d).timer = p.timer ∧
      (Part.beginItem p r i d).port = p.port ∧
      (Part.beginItem p r i d).due = p.due ∧
      (Part.beginItem p r i d).roster = p.roster ∧
      (Part.beginItem p r i d).image = p.image ∧
      (Part.beginItem p r i d).planner = p.planner ∧
      (Part.beginItem p r i d).pool = p.pool ∧
      (Part.beginItem p r i d).tx = p.tx ∧
      (Part.beginItem p r i d).uplink = p.uplink ∧
      (Part.beginItem p r i d).ev = p.ev := by
  unfold Part.beginItem
  split <;> simp

@[simp] theorem Part.takeData_frame (p : Part) (r : RingId) (it : OpenItem) (b c : Bool) (n : Nat) (a : Addr) (l : Nat) :
    (Part.takeData p r it b c n a l).anchor = p.anchor ∧
      (Part.takeData p r it b c n a l).bus = p.bus ∧
      (Part.takeData p r it b c n a l).timer = p.timer ∧
      (Part.takeData p r it b c n a l).port = p.port ∧
      (Part.takeData p r it b c n a l).due = p.due ∧
      (Part.takeData p r it b c n a l).image = p.image ∧
      (Part.takeData p r it b c n a l).planner = p.planner ∧
      (Part.takeData p r it b c n a l).uplink = p.uplink ∧
      (Part.takeData p r it b c n a l).ev = p.ev := by
  unfold Part.takeData
  (repeat' split) <;> simp

@[simp] theorem Part.extendItem_frame (p : Part) (r : RingId) (it : OpenItem) (d : Descriptor) :
    (Part.extendItem p r it d).anchor = p.anchor ∧
      (Part.extendItem p r it d).bus = p.bus ∧
      (Part.extendItem p r it d).timer = p.timer ∧
      (Part.extendItem p r it d).port = p.port ∧
      (Part.extendItem p r it d).due = p.due ∧
      (Part.extendItem p r it d).image = p.image ∧
      (Part.extendItem p r it d).planner = p.planner ∧
      (Part.extendItem p r it d).uplink = p.uplink ∧
      (Part.extendItem p r it d).ev = p.ev := by
  unfold Part.extendItem
  dsimp only
  (repeat' split) <;> simp

@[simp] theorem Part.takeDescriptor_frame (p : Part) (r : RingId) (d : Descriptor) :
    (Part.takeDescriptor p r d).anchor = p.anchor ∧
      (Part.takeDescriptor p r d).bus = p.bus ∧
      (Part.takeDescriptor p r d).timer = p.timer ∧
      (Part.takeDescriptor p r d).port = p.port ∧
      (Part.takeDescriptor p r d).due = p.due ∧
      (Part.takeDescriptor p r d).image = p.image ∧
      (Part.takeDescriptor p r d).planner = p.planner ∧
      (Part.takeDescriptor p r d).uplink = p.uplink ∧
      (Part.takeDescriptor p r d).ev = p.ev := by
  unfold Part.takeDescriptor
  split <;> simp

@[simp] theorem Part.serve_frame (p : Part) (r : RingId) :
    (Part.serve p r).anchor = p.anchor ∧
      (Part.serve p r).bus = p.bus ∧
      (Part.serve p r).timer = p.timer ∧
      (Part.serve p r).port = p.port ∧
      (Part.serve p r).due = p.due ∧
      (Part.serve p r).image = p.image ∧
      (Part.serve p r).planner = p.planner ∧
      (Part.serve p r).uplink = p.uplink ∧
      (Part.serve p r).ev = p.ev := by
  unfold Part.serve
  dsimp only
  (repeat' split) <;> simp

@[simp] theorem Part.engineRounds_frame (n : Nat) (p : Part) :
    (Part.engineRounds n p).anchor = p.anchor ∧
      (Part.engineRounds n p).bus = p.bus ∧
      (Part.engineRounds n p).timer = p.timer ∧
      (Part.engineRounds n p).port = p.port ∧
      (Part.engineRounds n p).due = p.due ∧
      (Part.engineRounds n p).image = p.image ∧
      (Part.engineRounds n p).planner = p.planner ∧
      (Part.engineRounds n p).uplink = p.uplink ∧
      (Part.engineRounds n p).ev = p.ev := by
  induction n generalizing p with
  | zero => simp [Part.engineRounds]
  | succ n ih => unfold Part.engineRounds; (repeat' split) <;> simp [ih]

@[simp] theorem Part.engine_frame (p : Part) :
    (Part.engine p).anchor = p.anchor ∧
      (Part.engine p).bus = p.bus ∧
      (Part.engine p).timer = p.timer ∧
      (Part.engine p).port = p.port ∧
      (Part.engine p).due = p.due ∧
      (Part.engine p).image = p.image ∧
      (Part.engine p).planner = p.planner ∧
      (Part.engine p).uplink = p.uplink ∧
      (Part.engine p).ev = p.ev := by
  unfold Part.engine
  simp

@[simp] theorem Part.withdrawAdmission_frame (p : Part) (k : TurnKind) :
    (Part.withdrawAdmission p k).anchor = p.anchor ∧
      (Part.withdrawAdmission p k).bus = p.bus ∧
      (Part.withdrawAdmission p k).timer = p.timer ∧
      (Part.withdrawAdmission p k).port = p.port ∧
      (Part.withdrawAdmission p k).due = p.due ∧
      (Part.withdrawAdmission p k).roster = p.roster ∧
      (Part.withdrawAdmission p k).image = p.image ∧
      (Part.withdrawAdmission p k).planner = p.planner ∧
      (Part.withdrawAdmission p k).adm = p.adm ∧
      (Part.withdrawAdmission p k).pool = p.pool ∧
      (Part.withdrawAdmission p k).tx = p.tx ∧
      (Part.withdrawAdmission p k).uplink = p.uplink ∧
      (Part.withdrawAdmission p k).ev = p.ev := by
  unfold Part.withdrawAdmission
  split <;> simp

@[simp] theorem Part.offerTail_frame (p : Part) (r : RingId) (t : Word) :
    (Part.offerTail p r t).anchor = p.anchor ∧
      (Part.offerTail p r t).bus = p.bus ∧
      (Part.offerTail p r t).timer = p.timer ∧
      (Part.offerTail p r t).port = p.port ∧
      (Part.offerTail p r t).due = p.due ∧
      (Part.offerTail p r t).image = p.image ∧
      (Part.offerTail p r t).planner = p.planner ∧
      (Part.offerTail p r t).uplink = p.uplink ∧
      (Part.offerTail p r t).ev = p.ev := by
  unfold Part.offerTail
  dsimp only
  (repeat' split) <;> simp

@[simp] theorem Part.descriptorWord_frame (p : Part) (w : Word) :
    (Part.descriptorWord p w).anchor = p.anchor ∧
      (Part.descriptorWord p w).bus = p.bus ∧
      (Part.descriptorWord p w).timer = p.timer ∧
      (Part.descriptorWord p w).port = p.port ∧
      (Part.descriptorWord p w).due = p.due ∧
      (Part.descriptorWord p w).image = p.image ∧
      (Part.descriptorWord p w).planner = p.planner ∧
      (Part.descriptorWord p w).uplink = p.uplink ∧
      (Part.descriptorWord p w).ev = p.ev := by
  unfold Part.descriptorWord
  dsimp only
  (repeat' split) <;> simp

@[simp] theorem Part.gatherWord_frame (p : Part) (w : Word) :
    (Part.gatherWord p w).anchor = p.anchor ∧
      (Part.gatherWord p w).bus = p.bus ∧
      (Part.gatherWord p w).timer = p.timer ∧
      (Part.gatherWord p w).port = p.port ∧
      (Part.gatherWord p w).due = p.due ∧
      (Part.gatherWord p w).image = p.image ∧
      (Part.gatherWord p w).planner = p.planner ∧
      (Part.gatherWord p w).uplink = p.uplink ∧
      (Part.gatherWord p w).ev = p.ev := by
  unfold Part.gatherWord
  (repeat' split) <;> simp

@[simp] theorem Part.answerDirective_frame (p : Part) (r : RingId) (it : OpenItem) (st : Status) :
    (Part.answerDirective p r it st).anchor = p.anchor ∧
      (Part.answerDirective p r it st).bus = p.bus ∧
      (Part.answerDirective p r it st).timer = p.timer ∧
      (Part.answerDirective p r it st).port = p.port ∧
      (Part.answerDirective p r it st).due = p.due ∧
      (Part.answerDirective p r it st).image = p.image ∧
      (Part.answerDirective p r it st).planner = p.planner ∧
      (Part.answerDirective p r it st).uplink = p.uplink ∧
      (Part.answerDirective p r it st).ev = p.ev := by
  unfold Part.answerDirective
  simp

@[simp] theorem Part.forgetName_frame (p : Part) (i : PoolId) :
    (Part.forgetName p i).anchor = p.anchor ∧
      (Part.forgetName p i).bus = p.bus ∧
      (Part.forgetName p i).arb = p.arb ∧
      (Part.forgetName p i).timer = p.timer ∧
      (Part.forgetName p i).port = p.port ∧
      (Part.forgetName p i).due = p.due ∧
      (Part.forgetName p i).roster = p.roster ∧
      (Part.forgetName p i).image = p.image ∧
      (Part.forgetName p i).planner = p.planner ∧
      (Part.forgetName p i).adm = p.adm ∧
      (Part.forgetName p i).tx = p.tx ∧
      (Part.forgetName p i).uplink = p.uplink ∧
      (Part.forgetName p i).ev = p.ev := by
  unfold Part.forgetName
  simp

@[simp] theorem Part.wroteBack_frame (p : Part) :
    (Part.wroteBack p).anchor = p.anchor ∧
      (Part.wroteBack p).bus = p.bus ∧
      (Part.wroteBack p).timer = p.timer ∧
      (Part.wroteBack p).port = p.port ∧
      (Part.wroteBack p).due = p.due ∧
      (Part.wroteBack p).image = p.image ∧
      (Part.wroteBack p).planner = p.planner ∧
      (Part.wroteBack p).ev = p.ev := by
  unfold Part.wroteBack
  dsimp only
  (repeat' split) <;> simp

@[simp] theorem Part.haltAdmission_frame (p : Part) :
    (Part.haltAdmission p).anchor = p.anchor ∧
      (Part.haltAdmission p).bus = p.bus ∧
      (Part.haltAdmission p).timer = p.timer ∧
      (Part.haltAdmission p).port = p.port ∧
      (Part.haltAdmission p).due = p.due ∧
      (Part.haltAdmission p).roster = p.roster ∧
      (Part.haltAdmission p).image = p.image ∧
      (Part.haltAdmission p).planner = p.planner ∧
      (Part.haltAdmission p).pool = p.pool ∧
      (Part.haltAdmission p).tx = p.tx ∧
      (Part.haltAdmission p).uplink = p.uplink ∧
      (Part.haltAdmission p).ev = p.ev := by
  unfold Part.haltAdmission
  simp

@[simp] theorem Part.setStatus_frame (p : Part) (c : StatusCode) (r : Reason) :
    (Part.setStatus p c r).bus = p.bus ∧
      (Part.setStatus p c r).arb = p.arb ∧
      (Part.setStatus p c r).timer = p.timer ∧
      (Part.setStatus p c r).port = p.port ∧
      (Part.setStatus p c r).due = p.due ∧
      (Part.setStatus p c r).roster = p.roster ∧
      (Part.setStatus p c r).image = p.image ∧
      (Part.setStatus p c r).planner = p.planner ∧
      (Part.setStatus p c r).adm = p.adm ∧
      (Part.setStatus p c r).pool = p.pool ∧
      (Part.setStatus p c r).tx = p.tx ∧
      (Part.setStatus p c r).uplink = p.uplink ∧
      (Part.setStatus p c r).ev = p.ev := by
  unfold Part.setStatus
  simp

@[simp] theorem Part.takeStart_frame (p : Part) :
    (Part.takeStart p).bus = p.bus ∧
      (Part.takeStart p).arb = p.arb ∧
      (Part.takeStart p).timer = p.timer ∧
      (Part.takeStart p).port = p.port ∧
      (Part.takeStart p).due = p.due ∧
      (Part.takeStart p).roster = p.roster ∧
      (Part.takeStart p).image = p.image ∧
      (Part.takeStart p).planner = p.planner ∧
      (Part.takeStart p).pool = p.pool ∧
      (Part.takeStart p).tx = p.tx ∧
      (Part.takeStart p).uplink = p.uplink := by
  unfold Part.takeStart
  split <;> simp

@[simp] theorem Part.takeHaltCode_frame (p : Part) :
    (Part.takeHaltCode p).bus = p.bus ∧
      (Part.takeHaltCode p).timer = p.timer ∧
      (Part.takeHaltCode p).port = p.port ∧
      (Part.takeHaltCode p).due = p.due ∧
      (Part.takeHaltCode p).roster = p.roster ∧
      (Part.takeHaltCode p).image = p.image ∧
      (Part.takeHaltCode p).planner = p.planner ∧
      (Part.takeHaltCode p).pool = p.pool ∧
      (Part.takeHaltCode p).tx = p.tx ∧
      (Part.takeHaltCode p).uplink = p.uplink := by
  unfold Part.takeHaltCode
  split <;> simp

@[simp] theorem Part.anchorCommand_frame (p : Part) (v : Word) :
    (Part.anchorCommand p v).bus = p.bus ∧
      (Part.anchorCommand p v).timer = p.timer ∧
      (Part.anchorCommand p v).port = p.port ∧
      (Part.anchorCommand p v).due = p.due ∧
      (Part.anchorCommand p v).roster = p.roster ∧
      (Part.anchorCommand p v).image = p.image ∧
      (Part.anchorCommand p v).planner = p.planner ∧
      (Part.anchorCommand p v).pool = p.pool ∧
      (Part.anchorCommand p v).tx = p.tx ∧
      (Part.anchorCommand p v).uplink = p.uplink := by
  unfold Part.anchorCommand
  (repeat' split) <;> simp

@[simp] theorem Part.rejectLoad_frame (p : Part) (r : Reason) :
    (Part.rejectLoad p r).bus = p.bus ∧
      (Part.rejectLoad p r).arb = p.arb ∧
      (Part.rejectLoad p r).timer = p.timer ∧
      (Part.rejectLoad p r).port = p.port ∧
      (Part.rejectLoad p r).due = p.due ∧
      (Part.rejectLoad p r).roster = p.roster ∧
      (Part.rejectLoad p r).image = p.image ∧
      (Part.rejectLoad p r).planner = p.planner ∧
      (Part.rejectLoad p r).adm = p.adm ∧
      (Part.rejectLoad p r).pool = p.pool ∧
      (Part.rejectLoad p r).tx = p.tx ∧
      (Part.rejectLoad p r).uplink = p.uplink := by
  unfold Part.rejectLoad
  simp

@[simp] theorem Part.setLoad_frame (p : Part) (l : Load) :
    (Part.setLoad p l).bus = p.bus ∧
      (Part.setLoad p l).arb = p.arb ∧
      (Part.setLoad p l).timer = p.timer ∧
      (Part.setLoad p l).port = p.port ∧
      (Part.setLoad p l).due = p.due ∧
      (Part.setLoad p l).roster = p.roster ∧
      (Part.setLoad p l).image = p.image ∧
      (Part.setLoad p l).planner = p.planner ∧
      (Part.setLoad p l).adm = p.adm ∧
      (Part.setLoad p l).pool = p.pool ∧
      (Part.setLoad p l).tx = p.tx ∧
      (Part.setLoad p l).uplink = p.uplink ∧
      (Part.setLoad p l).ev = p.ev := by
  unfold Part.setLoad
  simp

@[simp] theorem Part.setupWord_frame (p : Part) (w : Word) :
    (Part.setupWord p w).bus = p.bus ∧
      (Part.setupWord p w).arb = p.arb ∧
      (Part.setupWord p w).timer = p.timer ∧
      (Part.setupWord p w).port = p.port ∧
      (Part.setupWord p w).due = p.due ∧
      (Part.setupWord p w).roster = p.roster ∧
      (Part.setupWord p w).image = p.image ∧
      (Part.setupWord p w).planner = p.planner ∧
      (Part.setupWord p w).adm = p.adm ∧
      (Part.setupWord p w).pool = p.pool ∧
      (Part.setupWord p w).tx = p.tx ∧
      (Part.setupWord p w).uplink = p.uplink := by
  unfold Part.setupWord
  dsimp only
  (repeat' split) <;> simp

@[simp] theorem Part.haltTimer_frame (p : Part) :
    (Part.haltTimer p).anchor = p.anchor ∧
      (Part.haltTimer p).bus = p.bus ∧
      (Part.haltTimer p).arb = p.arb ∧
      (Part.haltTimer p).roster = p.roster ∧
      (Part.haltTimer p).image = p.image ∧
      (Part.haltTimer p).planner = p.planner ∧
      (Part.haltTimer p).adm = p.adm ∧
      (Part.haltTimer p).pool = p.pool ∧
      (Part.haltTimer p).tx = p.tx ∧
      (Part.haltTimer p).uplink = p.uplink ∧
      (Part.haltTimer p).ev = p.ev := by
  unfold Part.haltTimer
  simp

@[simp] theorem Part.takeHalt_frame (p : Part) (b : Bool) :
    (Part.takeHalt p b).bus = p.bus := by
  unfold Part.takeHalt
  (repeat' split) <;> simp

@[simp] theorem Part.teardown_frame (p : Part) :
    (Part.teardown p).bus = p.bus ∧
      (Part.teardown p).arb = p.arb ∧
      (Part.teardown p).timer = p.timer ∧
      (Part.teardown p).port = p.port ∧
      (Part.teardown p).due = p.due ∧
      (Part.teardown p).roster = p.roster ∧
      (Part.teardown p).image = p.image ∧
      (Part.teardown p).planner = p.planner ∧
      (Part.teardown p).adm = p.adm ∧
      (Part.teardown p).pool = p.pool ∧
      (Part.teardown p).tx = p.tx ∧
      (Part.teardown p).uplink = p.uplink ∧
      (Part.teardown p).ev = p.ev := by
  unfold Part.teardown
  dsimp only
  (repeat' split) <;> simp

@[simp] theorem Part.statusWritten_frame (p : Part) (t : Option TurnData) :
    (Part.statusWritten p t).arb = p.arb ∧
      (Part.statusWritten p t).timer = p.timer ∧
      (Part.statusWritten p t).port = p.port ∧
      (Part.statusWritten p t).due = p.due ∧
      (Part.statusWritten p t).roster = p.roster ∧
      (Part.statusWritten p t).image = p.image ∧
      (Part.statusWritten p t).planner = p.planner ∧
      (Part.statusWritten p t).adm = p.adm ∧
      (Part.statusWritten p t).pool = p.pool ∧
      (Part.statusWritten p t).tx = p.tx ∧
      (Part.statusWritten p t).uplink = p.uplink := by
  unfold Part.statusWritten
  split <;> simp

@[simp] theorem Part.beginRead_frame (p : Part) :
    (Part.beginRead p).anchor = p.anchor ∧
      (Part.beginRead p).bus = p.bus ∧
      (Part.beginRead p).arb = p.arb ∧
      (Part.beginRead p).timer = p.timer ∧
      (Part.beginRead p).port = p.port ∧
      (Part.beginRead p).due = p.due ∧
      (Part.beginRead p).roster = p.roster ∧
      (Part.beginRead p).image = p.image ∧
      (Part.beginRead p).planner = p.planner ∧
      (Part.beginRead p).pool = p.pool ∧
      (Part.beginRead p).tx = p.tx ∧
      (Part.beginRead p).uplink = p.uplink ∧
      (Part.beginRead p).ev = p.ev := by
  unfold Part.beginRead
  dsimp only
  (repeat' split) <;> simp

@[simp] theorem Part.postOne_frame (p : Part) (q : Requester) :
    (Part.postOne p q).anchor = p.anchor ∧
      (Part.postOne p q).bus = p.bus ∧
      (Part.postOne p q).timer = p.timer ∧
      (Part.postOne p q).port = p.port ∧
      (Part.postOne p q).due = p.due ∧
      (Part.postOne p q).roster = p.roster ∧
      (Part.postOne p q).image = p.image ∧
      (Part.postOne p q).planner = p.planner ∧
      (Part.postOne p q).pool = p.pool ∧
      (Part.postOne p q).tx = p.tx ∧
      (Part.postOne p q).uplink = p.uplink ∧
      (Part.postOne p q).ev = p.ev := by
  unfold Part.postOne
  (repeat' split) <;> simp

@[simp] theorem Part.post_frame (p : Part) :
    (Part.post p).anchor = p.anchor ∧
      (Part.post p).bus = p.bus ∧
      (Part.post p).timer = p.timer ∧
      (Part.post p).port = p.port ∧
      (Part.post p).due = p.due ∧
      (Part.post p).roster = p.roster ∧
      (Part.post p).image = p.image ∧
      (Part.post p).planner = p.planner ∧
      (Part.post p).pool = p.pool ∧
      (Part.post p).tx = p.tx ∧
      (Part.post p).uplink = p.uplink ∧
      (Part.post p).ev = p.ev := by
  unfold Part.post
  simp [foldl_keeps Part.anchor, foldl_keeps Part.bus, foldl_keeps Part.timer, foldl_keeps Part.port, foldl_keeps Part.due, foldl_keeps Part.roster, foldl_keeps Part.image, foldl_keeps Part.planner, foldl_keeps Part.pool, foldl_keeps Part.tx, foldl_keeps Part.uplink, foldl_keeps Part.ev]

@[simp] theorem Part.carryOut_frame (p : Part) (k : TurnKind) :
    (Part.carryOut p k).bus = p.bus ∧
      (Part.carryOut p k).arb = p.arb ∧
      (Part.carryOut p k).timer = p.timer ∧
      (Part.carryOut p k).port = p.port ∧
      (Part.carryOut p k).due = p.due ∧
      (Part.carryOut p k).roster = p.roster ∧
      (Part.carryOut p k).image = p.image ∧
      (Part.carryOut p k).planner = p.planner ∧
      (Part.carryOut p k).pool = p.pool ∧
      (Part.carryOut p k).tx = p.tx ∧
      (Part.carryOut p k).ev = p.ev := by
  unfold Part.carryOut
  split <;> simp

@[simp] theorem Part.grant_frame (p : Part) :
    (Part.grant p).bus = p.bus ∧
      (Part.grant p).timer = p.timer ∧
      (Part.grant p).port = p.port ∧
      (Part.grant p).due = p.due ∧
      (Part.grant p).roster = p.roster ∧
      (Part.grant p).image = p.image ∧
      (Part.grant p).planner = p.planner ∧
      (Part.grant p).pool = p.pool ∧
      (Part.grant p).tx = p.tx ∧
      (Part.grant p).ev = p.ev := by
  unfold Part.grant
  (repeat' split) <;> simp

@[simp] theorem Part.follow_frame (p : Part) :
    (Part.follow p).bus = p.bus ∧
      (Part.follow p).timer = p.timer ∧
      (Part.follow p).port = p.port ∧
      (Part.follow p).due = p.due ∧
      (Part.follow p).planner = p.planner ∧
      (Part.follow p).pool = p.pool ∧
      (Part.follow p).uplink = p.uplink ∧
      (Part.follow p).ev = p.ev := by
  unfold Part.follow
  simp

@[simp] theorem Part.countGuarded_frame (p : Part) (n : Nat) :
    (Part.countGuarded p n).anchor = p.anchor ∧
      (Part.countGuarded p n).arb = p.arb ∧
      (Part.countGuarded p n).timer = p.timer ∧
      (Part.countGuarded p n).port = p.port ∧
      (Part.countGuarded p n).due = p.due ∧
      (Part.countGuarded p n).roster = p.roster ∧
      (Part.countGuarded p n).image = p.image ∧
      (Part.countGuarded p n).planner = p.planner ∧
      (Part.countGuarded p n).adm = p.adm ∧
      (Part.countGuarded p n).pool = p.pool ∧
      (Part.countGuarded p n).tx = p.tx ∧
      (Part.countGuarded p n).uplink = p.uplink := by
  unfold Part.countGuarded
  dsimp only
  split <;> simp

@[simp] theorem Part.deliver_frame (p : Part) (v : Word) (x : Watched) :
    (Part.deliver p v x).bus = p.bus ∧
      (Part.deliver p v x).timer = p.timer ∧
      (Part.deliver p v x).port = p.port ∧
      (Part.deliver p v x).due = p.due ∧
      (Part.deliver p v x).image = p.image ∧
      (Part.deliver p v x).planner = p.planner := by
  unfold Part.deliver
  split <;> simp

@[simp] theorem Part.depositDone_frame (p : Part) (t : Turn) :
    (Part.depositDone p t).anchor = p.anchor ∧
      (Part.depositDone p t).bus = p.bus ∧
      (Part.depositDone p t).arb = p.arb ∧
      (Part.depositDone p t).timer = p.timer ∧
      (Part.depositDone p t).port = p.port ∧
      (Part.depositDone p t).due = p.due ∧
      (Part.depositDone p t).roster = p.roster ∧
      (Part.depositDone p t).image = p.image ∧
      (Part.depositDone p t).planner = p.planner ∧
      (Part.depositDone p t).adm = p.adm ∧
      (Part.depositDone p t).pool = p.pool ∧
      (Part.depositDone p t).tx = p.tx ∧
      (Part.depositDone p t).ev = p.ev := by
  unfold Part.depositDone
  simp

@[simp] theorem Part.entryWritten_frame (p : Part) :
    (Part.entryWritten p).anchor = p.anchor ∧
      (Part.entryWritten p).bus = p.bus ∧
      (Part.entryWritten p).arb = p.arb ∧
      (Part.entryWritten p).timer = p.timer ∧
      (Part.entryWritten p).port = p.port ∧
      (Part.entryWritten p).due = p.due ∧
      (Part.entryWritten p).image = p.image ∧
      (Part.entryWritten p).planner = p.planner ∧
      (Part.entryWritten p).adm = p.adm ∧
      (Part.entryWritten p).pool = p.pool ∧
      (Part.entryWritten p).tx = p.tx ∧
      (Part.entryWritten p).ev = p.ev := by
  unfold Part.entryWritten
  dsimp only
  (repeat' split) <;> simp

@[simp] theorem Part.entryWordDone_frame (p : Part) :
    (Part.entryWordDone p).anchor = p.anchor ∧
      (Part.entryWordDone p).bus = p.bus ∧
      (Part.entryWordDone p).arb = p.arb ∧
      (Part.entryWordDone p).timer = p.timer ∧
      (Part.entryWordDone p).port = p.port ∧
      (Part.entryWordDone p).due = p.due ∧
      (Part.entryWordDone p).image = p.image ∧
      (Part.entryWordDone p).planner = p.planner ∧
      (Part.entryWordDone p).adm = p.adm ∧
      (Part.entryWordDone p).pool = p.pool ∧
      (Part.entryWordDone p).tx = p.tx ∧
      (Part.entryWordDone p).ev = p.ev := by
  unfold Part.entryWordDone
  dsimp only
  split <;> simp

@[simp] theorem Part.headWordDone_frame (p : Part) (t : Turn) :
    (Part.headWordDone p t).anchor = p.anchor ∧
      (Part.headWordDone p t).bus = p.bus ∧
      (Part.headWordDone p t).arb = p.arb ∧
      (Part.headWordDone p t).timer = p.timer ∧
      (Part.headWordDone p t).port = p.port ∧
      (Part.headWordDone p t).due = p.due ∧
      (Part.headWordDone p t).roster = p.roster ∧
      (Part.headWordDone p t).image = p.image ∧
      (Part.headWordDone p t).planner = p.planner ∧
      (Part.headWordDone p t).adm = p.adm ∧
      (Part.headWordDone p t).pool = p.pool ∧
      (Part.headWordDone p t).tx = p.tx ∧
      (Part.headWordDone p t).uplink = p.uplink := by
  unfold Part.headWordDone
  split <;> simp

@[simp] theorem Part.eventWordDone_frame (p : Part) :
    (Part.eventWordDone p).anchor = p.anchor ∧
      (Part.eventWordDone p).bus = p.bus ∧
      (Part.eventWordDone p).arb = p.arb ∧
      (Part.eventWordDone p).timer = p.timer ∧
      (Part.eventWordDone p).port = p.port ∧
      (Part.eventWordDone p).due = p.due ∧
      (Part.eventWordDone p).roster = p.roster ∧
      (Part.eventWordDone p).image = p.image ∧
      (Part.eventWordDone p).planner = p.planner ∧
      (Part.eventWordDone p).adm = p.adm ∧
      (Part.eventWordDone p).pool = p.pool ∧
      (Part.eventWordDone p).tx = p.tx ∧
      (Part.eventWordDone p).uplink = p.uplink := by
  unfold Part.eventWordDone
  (repeat' split) <;> simp

@[simp] theorem Part.setSilence_frame (p : Part) (sil : Silence) :
    (Part.setSilence p sil).anchor = p.anchor ∧
      (Part.setSilence p sil).bus = p.bus ∧
      (Part.setSilence p sil).arb = p.arb ∧
      (Part.setSilence p sil).roster = p.roster ∧
      (Part.setSilence p sil).image = p.image ∧
      (Part.setSilence p sil).planner = p.planner ∧
      (Part.setSilence p sil).adm = p.adm ∧
      (Part.setSilence p sil).pool = p.pool ∧
      (Part.setSilence p sil).tx = p.tx ∧
      (Part.setSilence p sil).uplink = p.uplink := by
  unfold Part.setSilence Part.frameWorkThenBeacon Part.frameWork
  dsimp only
  (repeat' split) <;> simp

@[simp] theorem Part.orderSilence_frame (p : Part) (n m : Nat) :
    (Part.orderSilence p n m).anchor = p.anchor ∧
      (Part.orderSilence p n m).bus = p.bus ∧
      (Part.orderSilence p n m).arb = p.arb ∧
      (Part.orderSilence p n m).roster = p.roster ∧
      (Part.orderSilence p n m).image = p.image ∧
      (Part.orderSilence p n m).planner = p.planner ∧
      (Part.orderSilence p n m).adm = p.adm ∧
      (Part.orderSilence p n m).pool = p.pool ∧
      (Part.orderSilence p n m).tx = p.tx ∧
      (Part.orderSilence p n m).uplink = p.uplink := by
  unfold Part.orderSilence
  simp

@[simp] theorem Part.endQuiet_frame (p : Part) :
    (Part.endQuiet p).anchor = p.anchor ∧
      (Part.endQuiet p).bus = p.bus ∧
      (Part.endQuiet p).arb = p.arb ∧
      (Part.endQuiet p).roster = p.roster ∧
      (Part.endQuiet p).image = p.image ∧
      (Part.endQuiet p).planner = p.planner ∧
      (Part.endQuiet p).adm = p.adm ∧
      (Part.endQuiet p).pool = p.pool ∧
      (Part.endQuiet p).tx = p.tx ∧
      (Part.endQuiet p).uplink = p.uplink := by
  unfold Part.endQuiet
  simp

@[simp] theorem Part.nextSlot_frame (p : Part) :
    (Part.nextSlot p).anchor = p.anchor ∧
      (Part.nextSlot p).bus = p.bus ∧
      (Part.nextSlot p).image = p.image ∧
      (Part.nextSlot p).planner = p.planner := by
  unfold Part.nextSlot
  simp

@[simp] theorem Part.nextFrame_frame (p : Part) (o : List FrameWork) :
    (Part.nextFrame p o).anchor = p.anchor ∧
      (Part.nextFrame p o).bus = p.bus := by
  unfold Part.nextFrame
  split <;> simp

@[simp] theorem Part.slotBoundary_frame (p : Part) (o : List FrameWork) :
    (Part.slotBoundary p o).bus = p.bus := by
  unfold Part.slotBoundary
  dsimp only
  (repeat' split) <;> simp

end Sys2Proof.Machine
end

