-- ==== Sys2Proof/Laws/Bus.lean ====
section
/-! SUPPORT. What a step of the bus does: the pump, the taking and the ending of node-controller cycles, and
the completion of a part turn. -/

namespace Sys2Proof.Machine

/-! ### The pump -/

/-- After every command the machine beside the part is as the command left it. -/
@[simp] theorem State.pump_frame (s : State) :
    s.pump.pending = s.pending ∧ s.pump.resetPin = s.resetPin ∧ s.pump.straps = s.straps ∧
      s.pump.mem = s.mem ∧ s.pump.host = s.host ∧ s.pump.hostData = s.hostData := by
  simp [State.pump]

/-- The pump draws a free value exactly when the pool has hand-offs to take or to let wait (R95). -/
@[simp] theorem State.pump_free (s : State) :
    s.pump.free = if s.part.pool.handed = [] then s.free else s.free + 1 := rfl

/-- The blocks that the pump leaves alone. -/
@[simp] theorem State.pump_part (s : State) :
    s.pump.part.bus = s.part.bus ∧ s.pump.part.timer = s.part.timer ∧ s.pump.part.port = s.part.port ∧
      s.pump.part.due = s.part.due ∧ s.pump.part.planner = s.part.planner ∧
      s.pump.part.pool = (s.part.takeHandoffs s.free).pool ∧ s.pump.part.ev = s.part.ev := by
  unfold State.pump
  dsimp only
  split <;> simp

/-- Outside HALTING the pump begins no image pass. -/
theorem State.pump_image (s : State) (h : s.part.anchor.node ≠ .halting) :
    s.pump.part.roster = (s.part.takeHandoffs s.free).roster ∧ s.pump.part.image = s.part.image := by
  set q := s.part.takeHandoffs s.free with hq
  have hn : q.anchor = s.part.anchor := by simp [hq]
  have hi : q.image = s.part.image := by simp [hq]
  have hp : Part.haltingPass { q with tx := q.tx.startFetch } = { q with tx := q.tx.startFetch } := by
    simp [Part.haltingPass, hn, h]
  unfold State.pump Part.follow
  dsimp only
  rw [← hq, hp]
  split <;> simp [hi]

/-! ### Node-controller cycles -/

/-- What a cycle that goes to memory does. -/
theorem State.perform_frame (s : State) (c : HostCycle) :
    (s.perform c).pending = s.pending ∧ (s.perform c).free = s.free ∧
      (s.perform c).resetPin = s.resetPin ∧ (s.perform c).straps = s.straps ∧
      (s.perform c).host = some { c with held := false } := by
  unfold State.perform
  dsimp only
  split
  · simp
  · split <;> simp

/-- Memory after a cycle. -/
theorem State.perform_mem (s : State) (c : HostCycle) :
    (s.perform c).mem = s.mem ∨ ∃ w, c.write = some w ∧ (s.perform c).mem = writeLines s.mem w c.access := by
  unfold State.perform
  dsimp only
  split
  · exact .inl rfl
  · rename_i w hw
    split
    · exact .inl rfl
    · exact .inr ⟨w, hw, rfl⟩

/-- A cycle that begins while another is in progress stops the model; any other is taken. -/
theorem State.takeCycle_cases (s : State) (a : Access) (w : Option Word) :
    (s.host.isSome ∧ s.takeCycle a w = .fault .hostCycleOverlap) ∨
      (s.host = none ∧ ∃ t, s.takeCycle a w = .next t) := by
  unfold State.takeCycle
  split
  · rename_i h; exact .inl ⟨by simp [h], rfl⟩
  · rename_i h; exact .inr ⟨h, _, rfl⟩

/-! ### Completions -/

/-- A completion that meets no turn of its kind changes nothing. -/
theorem State.finishTurn_none (s : State) (kind : TurnKind → Bool) (f : Part → Turn → Word → Part)
    (h : ∀ t, s.part.arb.turn = some t → kind t.kind = false) : s.finishTurn kind f = s := by
  unfold State.finishTurn
  split
  · rfl
  · rename_i t ht; simp [h t ht]

/-- A completion of the turn in progress with no cycle held. -/
theorem State.finishTurn_some (s : State) (kind : TurnKind → Bool) (f : Part → Turn → Word → Part) (t : Turn)
    (ht : s.part.arb.turn = some t) (hk : kind t.kind = true) (hh : ∀ c, s.host = some c → c.held = false) :
    s.finishTurn kind f = State.pump
      { s with
        mem := s.afterTurn t
        part :=
          if t.abandoned then { s.part with arb := { s.part.arb with turn := none } }
          else f { s.part with arb := { s.part.arb with turn := none } } t (Mem.readWord s.mem t.addr) } := by
  unfold State.finishTurn
  rw [ht]
  simp only [hk, if_true]
  congr 1
  unfold State.serveHeld
  split
  · rfl
  · rename_i c hc
    simp [hh c hc]

end Sys2Proof.Machine
end

