-- ==== Sys2Proof/Laws/State.lean ====
section
/-! SUPPORT. The fields of State after each named update: one lemma per field and update, so that no later
proof unfolds a record update. -/

namespace Sys2Proof.Machine

/-! ### Values per class -/

@[simp] theorem PerClass.get_put_self {α : Type} (x : PerClass α) (c : MsgClass) (v : α) :
    (x.put c v).get c = v := by cases c <;> rfl

theorem PerClass.get_put_other {α : Type} (x : PerClass α) {c d : MsgClass} (v : α) (h : d ≠ c) :
    (x.put c v).get d = x.get d := by cases c <;> cases d <;> first | rfl | exact absurd rfl h

@[simp] theorem PerClass.get_all {α : Type} (v : α) (c : MsgClass) : (PerClass.all v).get c = v := by
  cases c <;> rfl

/-! ### Roster entries -/

@[simp] theorem Part.entry_setEntry_self (p : Part) (k : ShortId) (e : Entry) :
    (p.setEntry k e).entry k = e := by simp [Part.entry, Part.setEntry]

theorem Part.entry_setEntry_other (p : Part) {j k : ShortId} (e : Entry) (h : j ≠ k) :
    (p.setEntry k e).entry j = p.entry j := by
  simp only [Part.entry, Part.setEntry, Fin.getElem_fin]
  exact Vector.getElem_set_ne _ _ (fun e => h (Fin.ext e.symm))

@[simp] theorem Part.setEntry_ann (p : Part) (k : ShortId) (e : Entry) :
    (p.setEntry k e).roster.ann = p.roster.ann := rfl

@[simp] theorem Part.setEntry_joinsRefused (p : Part) (k : ShortId) (e : Entry) :
    (p.setEntry k e).roster.joinsRefused = p.roster.joinsRefused := rfl

@[simp] theorem Part.editEntry_ann (p : Part) (k : ShortId) (f : Entry → Entry) :
    (p.editEntry k f).roster.ann = p.roster.ann := rfl

/-- A written entry differs from what was asked at most in its dirty mark (R47). -/
theorem Entry.write_shown (old new : Entry) : (old.write new).shown = new.shown := by
  unfold Entry.write; split <;> rfl

/-- A write that changes a shown field marks the entry dirty, and only such a write does (R47). -/
theorem Entry.write_dirty (old new : Entry) :
    (old.write new).dirty = if old.shown = new.shown then new.dirty else true := by
  unfold Entry.write; split <;> rfl

@[simp] theorem Part.entry_editEntry_self (p : Part) (k : ShortId) (f : Entry → Entry) :
    (p.editEntry k f).entry k = (p.entry k).write (f (p.entry k)) := by simp [Part.editEntry]

theorem Part.entry_editEntry_other (p : Part) {j k : ShortId} (f : Entry → Entry) (h : j ≠ k) :
    (p.editEntry k f).entry j = p.entry j := by simp [Part.editEntry, Part.entry_setEntry_other p _ h]

/-! ### Message records -/

@[simp] theorem Part.record_setRecord_self (p : Part) (i : PoolId) (r : Option MsgRecord) :
    (p.setRecord i r).record i = r := by simp [Part.record, Part.setRecord]

theorem Part.record_setRecord_other (p : Part) {i j : PoolId} (r : Option MsgRecord) (h : j ≠ i) :
    (p.setRecord i r).record j = p.record j := by
  simp only [Part.record, Part.setRecord, Fin.getElem_fin]
  exact Vector.getElem_set_ne _ _ (fun e => h (Fin.ext e.symm))

@[simp] theorem Part.setRecord_answers (p : Part) (i : PoolId) (r : Option MsgRecord) :
    (p.setRecord i r).pool.answers = p.pool.answers := rfl

@[simp] theorem Part.record_editRecord_self (p : Part) (i : PoolId) (f : MsgRecord → MsgRecord) :
    (p.editRecord i f).record i = (p.record i).map f := by simp [Part.editRecord]

theorem Part.record_editRecord_other (p : Part) {i j : PoolId} (f : MsgRecord → MsgRecord) (h : j ≠ i) :
    (p.editRecord i f).record j = p.record j := by simp [Part.editRecord, Part.record_setRecord_other p _ h]

/-! ### Rings -/

@[simp] theorem Part.ring_setRing_self (p : Part) (r : RingId) (x : DownRing) : (p.setRing r x).ring r = x := by
  cases r <;> rfl

theorem Part.ring_setRing_other (p : Part) {r q : RingId} (x : DownRing) (h : q ≠ r) :
    (p.setRing r x).ring q = p.ring q := by
  cases r <;> cases q <;> first | rfl | exact absurd rfl h

@[simp] theorem Part.setRing_inHand (p : Part) (r : RingId) (x : DownRing) :
    (p.setRing r x).adm.inHand = p.adm.inHand := by cases r <;> rfl

@[simp] theorem Part.setRing_nextAdm (p : Part) (r : RingId) (x : DownRing) :
    (p.setRing r x).adm.nextAdm = p.adm.nextAdm := by cases r <;> rfl

@[simp] theorem Part.setRing_writeBacks (p : Part) (r : RingId) (x : DownRing) :
    (p.setRing r x).adm.writeBacks = p.adm.writeBacks := by cases r <;> rfl

@[simp] theorem Part.setRing_loadReads (p : Part) (r : RingId) (x : DownRing) :
    (p.setRing r x).adm.loadReads = p.adm.loadReads := by cases r <;> rfl

@[simp] theorem Part.setHand_inHand (p : Part) (r : Option RingId) : (p.setHand r).adm.inHand = r := rfl

@[simp] theorem Part.setHand_writeBacks (p : Part) (r : Option RingId) :
    (p.setHand r).adm.writeBacks = p.adm.writeBacks := rfl

@[simp] theorem Part.ring_setHand (p : Part) (r : Option RingId) (q : RingId) : (p.setHand r).ring q = p.ring q := by
  cases q <;> rfl

@[simp] theorem Part.ring_oweWriteBack (p : Part) (w : WriteBack) (q : RingId) :
    (p.oweWriteBack w).ring q = p.ring q := by cases q <;> rfl

@[simp] theorem Part.oweWriteBack_writeBacks (p : Part) (w : WriteBack) :
    (p.oweWriteBack w).adm.writeBacks = p.adm.writeBacks ++ [w] := rfl

@[simp] theorem Part.oweWriteBack_inHand (p : Part) (w : WriteBack) :
    (p.oweWriteBack w).adm.inHand = p.adm.inHand := rfl

@[simp] theorem Part.oweWriteBack_nextAdm (p : Part) (w : WriteBack) :
    (p.oweWriteBack w).adm.nextAdm = p.adm.nextAdm := rfl

/-! ### The arbiter -/

@[simp] theorem Arbiter.pend_setPend_self (a : Arbiter) (q : Requester) (k : Option TurnKind) :
    (a.setPend q k).pend q = k := by cases q <;> rfl

theorem Arbiter.pend_setPend_other (a : Arbiter) {q x : Requester} (k : Option TurnKind) (h : x ≠ q) :
    (a.setPend q k).pend x = a.pend x := by
  cases q <;> cases x <;> first | rfl | exact absurd rfl h

@[simp] theorem Arbiter.setPend_turn (a : Arbiter) (q : Requester) (k : Option TurnKind) :
    (a.setPend q k).turn = a.turn := by cases q <;> rfl

@[simp] theorem Arbiter.setPend_lastLow (a : Arbiter) (q : Requester) (k : Option TurnKind) :
    (a.setPend q k).lastLow = a.lastLow := by cases q <;> rfl

/-! ### The Anchor Unit and the Event Writer -/

@[simp] theorem Part.setNode_node (p : Part) (n : NodeState) : (p.setNode n).anchor.node = n := rfl

@[simp] theorem Part.setNode_setup (p : Part) (n : NodeState) : (p.setNode n).anchor.setup = p.anchor.setup := rfl

@[simp] theorem Part.setNode_status (p : Part) (n : NodeState) : (p.setNode n).anchor.status = p.anchor.status := rfl

@[simp] theorem Part.setNode_statusOwed (p : Part) (n : NodeState) :
    (p.setNode n).anchor.statusOwed = p.anchor.statusOwed := rfl

@[simp] theorem Part.setNode_load (p : Part) (n : NodeState) : (p.setNode n).anchor.load = p.anchor.load := rfl

@[simp] theorem Part.setStatus_node (p : Part) (c : StatusCode) (r : Reason) :
    (p.setStatus c r).anchor.node = p.anchor.node := rfl

@[simp] theorem Part.setStatus_status (p : Part) (c : StatusCode) (r : Reason) :
    (p.setStatus c r).anchor.status = { code := c, reason := r } := rfl

@[simp] theorem Part.setStatus_statusOwed (p : Part) (c : StatusCode) (r : Reason) :
    (p.setStatus c r).anchor.statusOwed = true := rfl

@[simp] theorem Part.setStatus_setup (p : Part) (c : StatusCode) (r : Reason) :
    (p.setStatus c r).anchor.setup = p.anchor.setup := rfl

/-- ATTN after it was judged stands as it is due (R181). -/
theorem Part.judgeAttn_attn (p : Part) : p.judgeAttn.ev.attn = p.judgeAttn.attnDue := rfl

@[simp] theorem Part.setNode_attn (p : Part) (n : NodeState) : (p.setNode n).ev.attn = (p.setNode n).attnDue := rfl

end Sys2Proof.Machine
end

