-- ==== Sys2Proof/Laws/GoesOn.lean ====
section
/-! SUPPORT. The going on of the part after a command, said once: what a grant does, and that every command that ends in
`State.pump` goes on as `State.goesOn` says. The statements of a command's effect follow from its own change and this. -/

namespace Sys2Proof.Machine

/-! ### Posting and granting -/

/-- Posting moves the arbiter and the reading of a descriptor, and no turn is granted by it. -/
theorem Part.post_turn (p : Part) : p.post.arb.turn = p.arb.turn := by
  refine foldl_keeps (fun q => q.arb.turn) Part.postOne (fun q x => ?_) requesters p
  unfold Part.postOne
  split
  · rfl
  · split
    · rfl
    · dsimp only
      split <;> simp

/-- What a grant does (R158, R159): without a request nothing; else the chosen requester's request becomes the
turn in progress, with the address and the value the state then gives. -/
theorem Part.grant_cases (p : Part) :
    (p.arb.choose = none ∧ p.grant = p) ∨
      ∃ q k, p.arb.choose = some q ∧ p.arb.pend q = some k ∧
        p.grant = { p.carryOut k with
          arb := { p.arb.setPend q none with
            turn := some { kind := k, addr := (p.turnOf k).1, write := (p.turnOf k).2, abandoned := false }
            lastLow := lowMark q p.arb.lastLow } } := by
  unfold Part.grant
  split
  · rename_i h; exact .inl ⟨h, rfl⟩
  · rename_i q hq
    cases hk : p.arb.pend q with
    | none =>
      exfalso
      revert hk hq
      unfold Arbiter.choose Arbiter.lowest Arbiter.pend
      rcases p.arb with ⟨u, t, a, d, i, e, tn, ll⟩
      rcases u with _ | u <;> rcases t with _ | t <;> rcases a with _ | a <;> rcases d with _ | d <;>
        rcases i with _ | i <;> rcases e with _ | e <;> cases q <;> simp <;> split <;> simp
    | some k =>
      refine .inr ⟨q, k, hq, hk, ?_⟩
      simp

/-! ### The pump -/

/-- After a command the pool takes what was handed to it (R95), what follows is posted, and an idle bus grants the next
turn. -/
theorem State.pump_goesOn (s : State) : s.goesOn s.part s.pump := by
  unfold State.pump State.goesOn
  simp

/-- A command that changes the part by `f` and lets the bus go on. -/
theorem State.act_runs (s : State) (f : Part → Part) :
    (s.act f).mem = s.mem ∧ s.sameOutside (s.act f) ∧ s.goesOn (f s.part) (s.act f) := by
  refine ⟨by simp [State.act], by simp [State.act, State.sameOutside], ?_⟩
  exact State.pump_goesOn { s with part := f s.part }

/-- A command that answers `s.act f` runs to the part `f` makes. -/
theorem State.runsTo_of_act {s : State} {c : Instr} {f : Part → Part} (h : exec c s = .next (s.act f)) :
    s.runsTo c s.mem (f s.part) :=
  ⟨_, h, (s.act_runs f).1, (s.act_runs f).2.1, (s.act_runs f).2.2⟩

/-! ### Completions and cycles -/

/-- The completion of a turn that its requester has not abandoned, with no cycle held: memory takes what the
turn writes and the requester's own work is done. -/
theorem State.runsTo_of_finishTurn {s : State} {c : Instr} {kind : TurnKind → Bool}
    {f : Part → Turn → Word → Part} {k : TurnKind} {tn : Turn} (hs : s.inTurn k tn) (hk : kind k = true)
    (h : exec c s = .next (s.finishTurn kind f)) :
    s.runsTo c (s.afterTurn tn) (f s.part.turnOver tn (Mem.readWord s.mem tn.addr)) := by
  obtain ⟨ht, rfl, ha, hh⟩ := hs
  rw [State.finishTurn_some s kind f tn ht hk hh] at h
  refine ⟨_, h, by simp, by simp [State.sameOutside], ?_⟩
  have := State.pump_goesOn
    { s with
      mem := s.afterTurn tn
      part :=
        if tn.abandoned then { s.part with arb := { s.part.arb with turn := none } }
        else f { s.part with arb := { s.part.arb with turn := none } } tn (Mem.readWord s.mem tn.addr) }
  simp only [ha, Part.turnOver, Bool.false_eq_true, if_false] at this ⊢
  exact this

/-- A write cycle on a free bus that is not withheld: it reaches memory on its lanes, and the value is taken by
the owner it is handed to. -/
theorem State.cycleTo_of_takeCycle {s : State} {c : Instr} {a : Access} {w : Word} (hs : s.freeBus)
    (hw : s.part.withheldAt a = none) (h : exec c s = s.takeCycle a (some w)) :
    s.cycleTo c (writeLines s.mem w a) (passedWrite a w (s.part.handTo a))
      (match s.part.handTo a with
        | none => s.part
        | some x => s.part.deliver w x) := by
  obtain ⟨hr, hh, ht⟩ := hs
  have hn : s.newCycle a (some w) = passedWrite a w (s.part.handTo a) := by
    simp [State.newCycle, hr, hw, ht, passedWrite]
  have e : s.takeCycle a (some w) = .next (State.pump
      { s with
        host := some (passedWrite a w (s.part.handTo a)), mem := writeLines s.mem w a
        part := match s.part.handTo a with
          | none => s.part
          | some x => s.part.deliver w x }) := by
    simp only [State.takeCycle, hh, hn]
    cases hx : s.part.handTo a <;> simp [passedWrite, State.takenPart, State.perform]
  rw [e] at h
  refine ⟨_, h, by simp, by simp, by simp, by simp, by simp, by simp, State.pump_goesOn _⟩

/-! ### The Admission Engine once it is free -/

/-- With nothing stalled and nothing kept, a free engine only chooses the ring it reads next (R89). -/
theorem Part.engine_of_nothingParked {p : Part}
    (h : ∀ r, (p.ring r).kept = none ∧ ∀ it, (p.ring r).item = some it → it.stage ≠ .stalled) :
    p.engine = if p.anchor.node = .running ∧ p.adm.inHand = none then p.setHand p.nextRing else p := by
  unfold Part.engine
  rw [Part.engineRounds]
  split
  · rename_i hp
    cases hr : p.nextRing with
    | none =>
      simp only
      obtain ⟨an, b, ar, ti, po, du, ro, im, pl, ⟨u, g, hd, n, wb, lr⟩, pool, tx, up, ev⟩ := p
      simp_all [Part.setHand]
    | some r =>
      simp only
      have hs : p.serve r = p.setHand (some r) := by
        obtain ⟨hk, hi⟩ := h r
        unfold Part.serve
        simp only [Part.ring_setHand, hk]
        cases hit : (p.ring r).item with
        | none => rfl
        | some it =>
          have := hi it hit
          cases hst : it.stage <;> simp_all
      rw [hs, Part.engineRounds]
      simp
  · rfl

end Sys2Proof.Machine
end

