-- ==== Sys2Proof/Laws/Memory.lean ====
section
/-! SUPPORT. The laws of memory: every operation keeps the canonical form, a read after a write, and a write
leaves every other byte alone. -/

namespace Sys2Proof.Machine

/-- Every listed address of a memory lies above `a`. -/
def Mem.above (a : Nat) (m : List Host.Cell) : Prop := ∀ c ∈ m, a < c.1

theorem Mem.wf_nil : Mem.wf [] := by simp [Mem.wf]

theorem Mem.wf_cons {x : Nat} {b : Byte} {m : List Host.Cell} :
    Mem.wf ((x, b) :: m) ↔ Mem.above x m ∧ x < 16777216 ∧ b ≠ Config.blankByte ∧ Mem.wf m := by
  simp only [Mem.wf, Mem.above, List.pairwise_cons, List.mem_cons, forall_eq_or_imp]
  tauto

/-- An address below every listed one is unlisted. -/
theorem Mem.read_of_above {a : Nat} : ∀ {m : List Host.Cell}, Mem.above a m → Mem.read m a = Config.blankByte
  | [], _ => rfl
  | (x, b) :: m, h => by
    have hx : a < x := h (x, b) List.mem_cons_self
    have hm : Mem.above a m := fun c hc => h c (List.mem_cons_of_mem _ hc)
    simp [Mem.read, Nat.ne_of_gt hx, Mem.read_of_above hm]

/-- A write lists no address below a bound that it and the old ones respect. -/
theorem Mem.above_write {y a : Nat} {b : Byte} (hy : y < a) :
    ∀ {m : List Host.Cell}, Mem.above y m → Mem.above y (Mem.write m a b)
  | [], _ => by
    unfold Mem.write; split <;> simp [Mem.above, hy]
  | (x, c) :: m, h => by
    have hx : y < x := h (x, c) List.mem_cons_self
    have hm : Mem.above y m := fun d hd => h d (List.mem_cons_of_mem _ hd)
    have cons : ∀ {z : Nat} {e : Byte} {l : List Host.Cell}, y < z → Mem.above y l → Mem.above y ((z, e) :: l) := by
      intro z e l hz hl d hd
      rcases List.mem_cons.1 hd with rfl | hd
      · exact hz
      · exact hl d hd
    unfold Mem.write
    split
    · split
      · exact h
      · exact cons hy h
    · split
      · split
        · exact hm
        · exact cons hy hm
      · exact cons hx (Mem.above_write hy hm)

/-- A write of a byte inside the space keeps the canonical form. -/
theorem Mem.wf_write {a : Nat} {b : Byte} (ha : a < 16777216) :
    ∀ {m : List Host.Cell}, Mem.wf m → Mem.wf (Mem.write m a b)
  | [], _ => by
    unfold Mem.write
    split
    · exact Mem.wf_nil
    · exact Mem.wf_cons.2 ⟨by simp [Mem.above], ha, ‹_›, Mem.wf_nil⟩
  | (x, c) :: m, h => by
    obtain ⟨hm, hx, hc, hw⟩ := Mem.wf_cons.1 h
    unfold Mem.write
    split
    · rename_i hax
      split
      · exact h
      · refine Mem.wf_cons.2 ⟨?_, ha, ‹_›, h⟩
        intro d hd
        rcases List.mem_cons.1 hd with rfl | hd
        · exact hax
        · exact Nat.lt_trans hax (hm d hd)
    · split
      · rename_i hax
        split
        · exact hw
        · exact Mem.wf_cons.2 ⟨hax ▸ hm, ha, ‹_›, hw⟩
      · exact Mem.wf_cons.2 ⟨Mem.above_write (by omega) hm, hx, hc, Mem.wf_write ha hw⟩

/-- A read after a write to the same address gives the byte written. -/
theorem Mem.read_write_self {a : Nat} {b : Byte} :
    ∀ {m : List Host.Cell}, Mem.wf m → Mem.read (Mem.write m a b) a = b
  | [], _ => by
    unfold Mem.write
    split
    · simp_all [Mem.read]
    · simp [Mem.read]
  | (x, c) :: m, h => by
    obtain ⟨hm, hx, hc, hw⟩ := Mem.wf_cons.1 h
    unfold Mem.write
    split
    · rename_i hax
      split
      · subst b
        refine Mem.read_of_above fun d hd => ?_
        rcases List.mem_cons.1 hd with rfl | hd
        · exact hax
        · exact Nat.lt_trans hax (hm d hd)
      · simp [Mem.read]
    · split
      · rename_i hax
        subst hax
        split
        · subst b
          exact Mem.read_of_above hm
        · simp [Mem.read]
      · rename_i hax
        simp [Mem.read, Ne.symm hax, Mem.read_write_self hw]

/-- A write leaves every other byte alone. -/
theorem Mem.read_write_other {a y : Nat} {b : Byte} (h : y ≠ a) :
    ∀ m : List Host.Cell, Mem.read (Mem.write m a b) y = Mem.read m y
  | [] => by
    unfold Mem.write
    split <;> simp [Mem.read, Ne.symm h]
  | (x, c) :: m => by
    unfold Mem.write
    split
    · split <;> simp [Mem.read, Ne.symm h]
    · split
      · rename_i hax
        subst hax
        split <;> simp [Mem.read, Ne.symm h]
      · simp [Mem.read, Mem.read_write_other h m]

/-- The base of a word is its address with the last bit cleared. -/
theorem wordBase_toNat (a : Addr) : (wordBase a).toNat = 2 * (a.toNat / 2) := by
  have h : wordBase a = (a >>> 1) <<< 1 := by
    unfold wordBase
    ext i hi
    simp only [BitVec.getElem_shiftLeft]
    interval_cases i <;> simp
  have ha := a.isLt
  rw [h]
  simp only [BitVec.toNat_shiftLeft, BitVec.toNat_ushiftRight, Nat.shiftLeft_eq, Nat.shiftRight_eq_div_pow]
  omega

/-- The word at an address lies inside the space. -/
theorem wordBase_lt (a : Addr) : (wordBase a).toNat + 1 < 16777216 := by
  have := a.isLt
  rw [wordBase_toNat]
  omega

theorem Mem.wf_writeWord {m : List Host.Cell} {a : Addr} {w : Word} (h : Mem.wf m) :
    Mem.wf (Mem.writeWord m a w) :=
  Mem.wf_write (wordBase_lt a) (Mem.wf_write (by have := wordBase_lt a; omega) h)

theorem Mem.wf_writeByte {m : List Host.Cell} {a : Addr} {b : Byte} (h : Mem.wf m) :
    Mem.wf (Mem.writeByte m a b) := Mem.wf_write a.isLt h

theorem Mem.wf_store {m : List Host.Cell} {a : Addr} {d : TurnData} (h : Mem.wf m) :
    Mem.wf (Mem.store m a d) := by
  cases d
  · exact Mem.wf_writeWord h
  · exact Mem.wf_writeByte h

theorem Mem.wf_writeLines {m : List Host.Cell} {w : Word} {a : Access} (h : Mem.wf m) :
    Mem.wf (writeLines m w a) := by
  cases a
  · exact Mem.wf_writeWord h
  · exact Mem.wf_writeByte h

/-- A word write leaves every byte outside its word alone. -/
theorem Mem.read_writeWord_other {m : List Host.Cell} {a : Addr} {w : Word} {y : Nat}
    (h₀ : y ≠ (wordBase a).toNat) (h₁ : y ≠ (wordBase a).toNat + 1) :
    Mem.read (Mem.writeWord m a w) y = Mem.read m y := by
  rw [Mem.writeWord, Mem.read_write_other h₁, Mem.read_write_other h₀]

/-- The bytes of a word written. -/
theorem Mem.read_writeWord_self {m : List Host.Cell} {a : Addr} {w : Word} (h : Mem.wf m) :
    Mem.read (Mem.writeWord m a w) (wordBase a).toNat = lowByte w ∧
      Mem.read (Mem.writeWord m a w) ((wordBase a).toNat + 1) = highByte w := by
  have h' := Mem.wf_write (a := (wordBase a).toNat) (b := lowByte w) (by have := wordBase_lt a; omega) h
  refine ⟨?_, Mem.read_write_self h'⟩
  rw [Mem.writeWord, Mem.read_write_other (by omega), Mem.read_write_self h]

/-- The word of two bytes has those bytes. -/
theorem wordOf_lowByte_highByte (w : Word) : wordOf (lowByte w) (highByte w) = w := by
  simp only [wordOf, lowByte, highByte]
  ext i hi
  simp only [BitVec.getElem_append, BitVec.getElem_setWidth, BitVec.getLsbD_ushiftRight]
  split
  · simp [BitVec.getLsbD_eq_getElem hi]
  · rw [Nat.add_sub_cancel' (by omega)]
    simp [BitVec.getLsbD_eq_getElem hi]

/-- A word written reads back. -/
theorem Mem.readWord_writeWord {m : List Host.Cell} {a : Addr} {w : Word} (h : Mem.wf m) :
    Mem.readWord (Mem.writeWord m a w) a = w := by
  obtain ⟨h₀, h₁⟩ := Mem.read_writeWord_self (w := w) (a := a) h
  rw [Mem.readWord, h₀, h₁, wordOf_lowByte_highByte]

end Sys2Proof.Machine
end

