-- ==== Sys2Proof/Tests/Slice0.lean ====
section
/-!
SUPPORT. Tests: ill-formed commands are refused by each check, one step of each command on a small state with the
result the manual gives, and for each obligation states and operands that meet its hypotheses.
-/

namespace Sys2Proof.Tests

-- One theorem after another: each kernel evaluation would otherwise hold a thread of its own.
set_option Elab.async false

open Sys2Proof.Machine

/-! ### Well-formedness -/

theorem test_odd_word_read_is_ill_formed : (Instr.hostRead (.word 0x1001)).wellFormed = false := by decide
theorem test_odd_word_write_is_ill_formed : (Instr.hostWrite (.word 3) 0).wellFormed = false := by decide
theorem test_odd_guarded_write_is_ill_formed : (Instr.guardedWrite (.word 0x8001) 0).wellFormed = false := by decide
theorem test_heard_beyond_its_class_is_ill_formed :
    (Instr.heard .ok 0 .A (List.replicate 65 0)).wellFormed = false := by decide
theorem test_empty_reset_pulse_is_ill_formed : (Instr.reset (.pin 0) false).wellFormed = false := by decide
theorem test_block_twice_at_a_frame_start_is_ill_formed :
    (Instr.slotBoundary [.timer, .build, .timer]).wellFormed = false := by decide
theorem test_commands_at_their_bounds_are_well_formed :
    [Instr.hostRead (.word 0x1002), .hostWrite (.byte 3) 0, .heard .ok 0 .A (List.replicate 64 0),
      .heard .crcFail 0 .A (List.replicate 65 0), .reset (.pin 1) false,
      .slotBoundary [.timer, .result, .roster, .ageing, .build, .image]].all Instr.wellFormed = true := by decide

/-! ### Layouts and sums of the manual -/

/-- 11.3: the beacon is 64 bytes, and an idle slot of its map is short id 63 without the up bit. -/
theorem test_beacon_is_a_whole_class_A_burst :
    (beaconBytes { nodeId := 17, frame := 0x0102, silencePending := false, resumed := false, rosterFull := false
                   countdown := 0, length := 0, pollPeriod := 4, grants := []
                   slotMap := List.replicate 36 252 }).length = 64 := by decide

/-- 11.3: kind 1, short id 5, CONTROL, seq 9, offset 1, last, sum present, 3 bytes. -/
theorem test_down_header_written_out :
    downHeader 1 5 1 9 1 true true 3 = [0x45, 0x49, 0x00, 0x07, 0x01, 0x80] := by decide

/-- 11.2: a BULK message to car 0x00C001 of 600 bytes. -/
theorem test_descriptor_written_out :
    parseDescriptor [0x0001, 0x0003, 0xC001, 0x0000, 600, 0xFFFF, 0x00FF, 0] =
      .message { cls := some .bulk, car := 0xC001, len := 600, hdr := 0, sumStart := none, stamp := none
                 lifetime := 0 } := by decide

/-- R115: 0xFFFF + 1 carries round to 1, and a last odd byte is a high half. -/
theorem test_one_s_complement_sum : sumBytes 0 0 [0xFF, 0xFF, 0x00, 0x01, 0x20] = 0x2001 := by decide

/-! ### States -/

/-- Setup values that pass every check of R171. -/
def setup : Setup where
  nodeId := 17
  pollPeriod := 2
  fadeAfter := 2
  loseAfter := 6
  retryLimit := 3
  dutyLimit := 100
  defaultWeight := 4
  urgent := { base := 0x1000, size := 8 }
  general := { base := 0x2000, size := 16 }
  uplink := { base := 0x3000, size := 8 }
  event := { base := 0x4000, size := 16 }
  bufferBase := 0x5000
  bufferSize := 256
  uplinkStart := 5
  eventStart := 9
  guarded := 0x8000

/-- The part as a START with that setup and done words 50 and 100 leaves it. -/
def fresh : Part := Part.reset.loadSuccess setup 50 100

/-- A state with a part. -/
def on (p : Part) : State := { State.reset with part := p }

/-- The part in another node state. -/
def node (n : NodeState) (p : Part) : Part := { p with anchor := { p.anchor with node := n } }

/-- The part in a slot of frame 7, ON, with an order and its answer. -/
def air (slot : Nat) (order : Option Order) (answer : Option Answer) (p : Part := fresh) : Part :=
  { p with
    timer := { p.timer with slot := slot, frame := 7, underWay := true, substate := .on }
    port := { order := order, answer := answer } }

/-- The part with a substate and a fault run. -/
def radio (sub : Substate) (run : Nat) (p : Part) : Part :=
  { p with timer := { p.timer with substate := sub, faultRun := run } }

/-- The part with a plan that uses one slot. -/
def planned (slot : Nat) (u : SlotUse) (p : Part) : Part :=
  { p with planner := { p.planner with
      plan := { p.planner.plan with slots := (List.replicate 36 SlotUse.idle).set (slot - 4) u } } }

/-- An ACTIVE car 0xC001. -/
def car : Entry :=
  { Entry.blank 4 with state := .active, car := 0xC001, quality := 100, cls := .B, capability := .D }

/-- The part with an entry at short id 2. -/
def withCar (e : Entry) (p : Part) : Part := p.setEntry 2 e

/-- A CURRENT CONTROL message of car 2 with 40 bytes, 20 of them sent. -/
def message : MsgRecord where
  state := .current
  sid := 2
  cls := .control
  ring := .general
  first := 100
  count := 2
  adm := 0
  len := 40
  hdr := 0
  sumStart := some 0
  stamp := none
  lifetime := 5
  age := 4
  pieces := [{ addr := 0x7000, len := 40 }]
  table := none
  seq := some 3
  acked := 10
  sentTo := 20
  watermark := 40
  sum := 0
  attempts := 1
  outcome := none

/-- The part with a record at pool place 0, in the class queue of car 2. -/
def withMessage (r : MsgRecord) (p : Part) : Part :=
  (withCar { car with queues := { car.queues with control := [0] } } p).setRecord 0 (some r)

/-- A turn of a kind in progress. -/
def inTurn (k : TurnKind) (a : Addr) (w : Option TurnData) (p : Part) : Part :=
  { p with arb := { p.arb with turn := some { kind := k, addr := a, write := w, abandoned := false } } }

/-- A node-controller cycle in progress. -/
def cycle (a : Access) (w : Option Word) (held : Bool) : HostCycle :=
  { access := a, write := w, handTo := none, withheld := false, held := held }

/-- The state after a command. -/
def after (c : Instr) (s : State) : State :=
  match exec c s with
  | .next t => t
  | _ => s

/-- An open item that the ring holds at index 100. -/
def item (stage : ItemStage) : OpenItem where
  first := 100
  count := 1
  fields := { cls := some .control, car := 0xC001, len := 40, hdr := 0, sumStart := none, stamp := none, lifetime := 0 }
  pieces := []
  table := none
  broken := false
  stage := stage

/-- The general ring at work on an item, its tail one descriptor beyond read. -/
def working (it : Option OpenItem) (p : Part) : Part :=
  { p with adm := { p.adm with
      inHand := some .general
      general := { p.adm.general with tail := 102, read := 101, item := it } } }

/-- A directive handed to its owner. -/
def handing (d : Directive) (p : Part) : Part := working (some (item (.handed d))) p

/-- Words stored from an address on. -/
def wordsAt (a : Addr) (ws : List Word) (m : List Host.Cell) : List Host.Cell :=
  (ws.foldl (fun x w => (x.1 + 2, Mem.writeWord x.2 x.1 w)) (a, m)).2

/-! ### Reset and the air, one step each -/

theorem test_power_on_resets_the_part :
    let t := after (.reset (.powerOn 2) false) (on (air 5 none none))
    t.part = Part.reset ∧ t.straps = 2 := by decide +kernel

/-- R167: the access of a turn that has begun completes. -/
theorem test_reset_pulse_keeps_what_has_begun :
    let t := after (.reset (.pin 4) true) (on (inTurn .headWord 0x3000 (some (.word 0x0605)) fresh))
    t.mem = [(0x3000, 5), (0x3001, 6)] ∧ t.resetPin = .lowTaken := by decide +kernel

theorem test_rising_edge_samples_the_straps :
    (after (.resetRisingEdge 3) { on fresh with resetPin := .lowTaken }).straps = 3 := by decide +kernel

/-- R1, R4: after slot 39 comes slot 0 of the next frame, whose order is the beacon. -/
theorem test_frame_starts_after_slot_39 :
    let q := (after (.slotBoundary []) (on (air 39 none none))).part
    q.timer.slot = 0 ∧ q.timer.frame = 8 ∧ q.port.order = some (.send .A (beaconBytes q.beacon)) := by decide +kernel

/-- R16: the eighth faulted slot in a row. -/
theorem test_eighth_fault_turns_the_radio_faulted :
    let q := (after (.slotBoundary []) (on (radio .on 7 (air 1 (some .listen) none)))).part
    q.timer.substate = .faulted ∧ q.ev.held = [(.radioFault, 6)] ∧ q.port.order = none := by decide +kernel

theorem test_sent_answers_a_send_order :
    (after (.sent false) (on (air 0 (some (.send .A [])) none))).part.port.answer = some .sent := by decide +kernel

/-- R5: an answer of the wrong kind is taken as FAULT. -/
theorem test_sent_to_a_listen_order_is_a_fault :
    (after (.sent false) (on (air 1 (some .listen) none))).part.port.answer = some .fault := by decide +kernel

theorem test_heard_keeps_what_was_heard :
    (after (.heard .ok 9 .B [7]) (on (air 1 (some .listen) none))).part.port.answer =
      some (.heard { outcome := .ok, q := 9, cls := .B, bytes := [7] }) := by decide +kernel

/-- R5: only the first answer is the slot's. -/
theorem test_second_answer_is_discarded :
    (after (.fault false) (on (air 0 (some (.send .A [])) (some .sent)))).part.port.answer = some .sent := by decide +kernel

/-- R5, R6: an answer that comes after its slot has ended is discarded, also when the next slot has an order. -/
theorem test_late_answer_is_discarded :
    ∀ c ∈ [Instr.sent true, .heard .ok 9 .B [7] true, .fault true],
      (after c (on (air 0 (some (.send .A [])) none))).part.port.answer = none ∧
        (after c (on (air 1 (some .listen) none))).part.port.answer = none := by decide +kernel

/-- R103: a record whose age reaches its lifetime retires EXPIRED. -/
theorem test_message_expires_at_its_lifetime :
    let p := withMessage message (air 0 none none)
    let q := (after .messageExpiry (on { p with due := { p.due with ageing := true } })).part
    (q.record 0).map (fun r => (r.age, r.outcome)) = some (5, some .expired) ∧ q.adm.writeBacks = [.record 0] := by
  decide +kernel

/-- R34: a GRANTED entry that has waited 4 frames is abandoned. -/
theorem test_grant_wait_runs_out :
    let p := withCar { car with state := .granted, grantWait := 4 } (air 0 none none)
    let q := (after .grantWaitExpiry (on { p with due := { p.due with roster := true, frame := 8 } })).part
    (q.entry 2).state = .free ∧ q.ev.held = [(.joinAbandoned, 1)] := by decide +kernel

/-- The part at a frame start that the Frame Timer has yet to take, with a silence state. -/
def starting (f : Word) (sil : Silence) (p : Part) : Part :=
  { p with due := { p.due with timer := true, frame := f }, timer := { p.timer with silence := sil } }

theorem test_silence_starts_at_its_frame :
    let q := (after .silenceStarts (on (starting 8 (.pending 8 20) (air 0 none none)))).part
    q.timer.silence = .active 20 ∧ q.timer.substate = .silent ∧ q.ev.held = [(.silenceBegun, 2)] := by
  decide +kernel

theorem test_silence_ends_at_its_frame :
    let q := (after .silenceEnds (on (starting 8 (.active 8) (radio .silent 0 (air 0 none none))))).part
    q.timer.silence = .none ∧ q.timer.substate = .on ∧ q.timer.resumed = true := by decide +kernel

/-- An up slot result of car 2 in frame 7. -/
def result (o : UpOutcome) (p : Part) : Part :=
  { p with due := { p.due with results := [{ owner := 2, slot := 9, frame := 7, outcome := o }] } }

/-- A poll response of car 2 without acks or fragment; `flags` is its second byte. -/
def poll (flags : Byte) : UpOutcome :=
  .heard { outcome := .ok, q := 40, cls := .B, bytes := [0xC2, flags, 0, 0] }

/-- R36, R56, R138: 100 + (160 − 100) / 4 = 115, and an alarm that rises. -/
theorem test_valid_response_is_taken :
    let q := (after .uplinkSlotResult (on (result (poll 0x80)
      (withCar { car with state := .fading, miss := 2 } (air 10 none none))))).part
    ((q.entry 2).state, (q.entry 2).miss, (q.entry 2).quality, (q.entry 2).alarm) = (.active, 0, 115, true) ∧
      q.ev.held = [(.carAlarm, 7)] := by decide +kernel

/-- R37, R56: 100 − 25 = 75, and the second miss makes the car FADING. -/
theorem test_missed_slot_is_counted :
    let q := (after .uplinkSlotResult (on (result .nothing (withCar { car with miss := 1 } (air 10 none none))))).part
    ((q.entry 2).state, (q.entry 2).miss, (q.entry 2).quality) = (.fading, 2, 75) := by decide +kernel

/-- R24, R45, R174. -/
theorem test_halt_is_taken_at_the_frame_end :
    let p := withCar car (air 39 none none)
    let q := (after (.haltTaken true) (on { p with anchor := { p.anchor with haltReq := true } })).part
    q.anchor.node = .halting ∧ q.timer.substate = .off ∧ (q.entry 2).state = .free := by decide +kernel

/-! ### The node controller, one step each -/

/-- 8.2: the low byte of a word is at the even address. -/
theorem test_word_read_takes_both_lanes :
    (after (.hostRead (.word 0x200)) { on fresh with mem := [(0x200, 0x34), (0x201, 0x12)] }).hostData = 0x1234 := by
  decide +kernel

theorem test_cycle_before_the_last_has_ended_stops :
    exec (.hostRead (.word 0)) { on fresh with host := some (cycle (.word 0) none false) } =
      .fault .hostCycleOverlap := by rfl

theorem test_byte_write_takes_one_lane :
    (after (.hostWrite (.byte 0x201) 0x77) { on fresh with mem := [(0x200, 0x34), (0x201, 0x12)] }).mem =
      [(0x200, 0x34), (0x201, 0x77)] := by decide +kernel

/-- R158: READY holds a cycle that meets a part turn. -/
theorem test_write_against_a_turn_is_held :
    let t := after (.hostWrite (.word 0x200) 1) (on (inTurn .headWord 0x3000 (some (.word 5)) fresh))
    t.host.map HostCycle.held = some true ∧ t.mem = [] := by decide +kernel

/-- R164, R165: the last byte of the guarded region. -/
theorem test_guarded_write_is_withheld :
    let t := after (.guardedWrite (.byte 0x87FF) 1) (on fresh)
    t.mem = [] ∧ t.part.bus.guardedWrites = 1 ∧ t.part.ev.held = [(.guardWrite, 2)] := by decide +kernel

theorem test_start_begins_a_load :
    let t := after .start (on Part.reset)
    t.part.anchor.node = .loading ∧ t.part.anchor.status.code = .loading ∧
      Mem.readWord t.mem 0xFFFFE0 = 0x0C01 := by decide +kernel

theorem test_halt_in_running_is_a_request :
    let q := (after .halt (on fresh)).part
    q.anchor.node = .running ∧ q.anchor.haltReq = true := by decide +kernel

/-- R87: the urgent ring has 8 descriptors, so a tail 8 beyond done is the last accepted. -/
theorem test_tail_at_the_ring_size_is_accepted :
    ((after (.tailWordWrite .urgent 58) (on fresh)).part.ring .urgent).tail = 58 ∧
      ((after (.tailWordWrite .urgent 59) (on fresh)).part.ring .urgent).tail = 50 := by decide +kernel

/-- R152: a consumer past head is ignored. -/
theorem test_uplink_consumer_goes_up_to_head :
    let p := { fresh with uplink := { fresh.uplink with head := 7, producer := 7 } }
    (after (.uplinkConsumerWrite 7) (on p)).part.uplink.consumer = 7 ∧
      (after (.uplinkConsumerWrite 8) (on p)).part.uplink.consumer = 5 := by decide +kernel

/-- The part with one event of level 2 written and held. -/
def withHeld (p : Part) : Part :=
  { p with ev := { p.ev with fill := 10, producer := 10, held := [(.carJoined, 2)], attn := true } }

theorem test_event_consumer_lowers_attn :
    let q := (after (.eventConsumerWrite 10) (on (withHeld fresh))).part
    q.ev.held = [] ∧ q.ev.attn = false := by decide +kernel

/-- R180: the level is clamped, the memory word is not. -/
theorem test_level_is_clamped :
    let t := after (.levelWordWrite 9) (on (withHeld fresh))
    t.part.ev.level = 7 ∧ t.part.ev.attn = false ∧ Mem.readWord t.mem 0x4004 = 9 := by decide +kernel

/-- R159: the Uplink Assembler goes before the Anchor Unit. -/
theorem test_cycle_end_grants_by_level :
    let p := { fresh with uplink := { fresh.uplink with headOwed := true } }
    let t := after .hostCycleEnd { on p with host := some (cycle (.word 0) none false) }
    t.part.arb.turn.map Turn.kind = some .headWord ∧ t.host = none := by decide +kernel

/-! ### The part's own turns, one step each -/

/-- R146: from an odd address one byte is written, on its own lane. -/
theorem test_deposit_frees_its_place :
    let p := { fresh with uplink := { fresh.uplink with staging := [{ index := 5, offset := 1, bytes := [9] }] } }
    let t := after .uplinkDepositDone (on (inTurn .deposit 0x5501 (some (.byte 9)) p))
    t.part.uplink.staging = [] ∧ t.mem = [(0x5501, 9)] := by decide +kernel

/-- A claim of car 2 at ring index 5. -/
def claim (st : ClaimState) : Claim where
  index := 5
  sid := 2
  car := 0xC001
  seq := 1
  state := st
  status := some .ok
  len := 1
  stored := 1
  sum := 0
  frame := 7

/-- The part with one decided claim whose entry write is at its word `n`. -/
def claiming (n : Nat) (p : Part) : Part :=
  { p with uplink := { p.uplink with
      producer := 6, claims := [claim .decided], entryWrites := [5], entryWord := some n } }

/-- R149, R151: after its eighth word the entry is written and head moves past it. -/
theorem test_head_passes_a_written_entry :
    let q := (after .uplinkEntryWriteDone (on (inTurn .entryWord 0x306E (some (.word 0)) (claiming 7 fresh)))).part
    q.uplink.head = 6 ∧ q.uplink.claims = [] := by decide +kernel

theorem test_head_word_written_reports_uplink_ready :
    let q := (after .headWordWriteDone (on (inTurn .headWord 0x3000 (some (.word 5)) fresh))).part
    q.ev.held = [(.uplinkReady, 1)] := by decide +kernel

/-- A fragment of 2 bytes of car 2's message in slot 5. -/
def fragment (c : FragCond) : FragEntry where
  slot := 5
  sid := 2
  record := 0
  cls := .control
  rate := .A
  seq := 3
  offset := 10
  len := 2
  hdr := 0
  stamp := none
  table := none
  last := false
  sumPresent := false
  cond := c
  live := true
  whole := false

/-- The part with that fragment in the fetch queue, and what is staged of it. -/
def sending (e : FragEntry) (g : List Staged) (p : Part) : Part :=
  withMessage message { p with tx := { p.tx with queue := [e], staging := g } }

/-- What is staged of the fragment. -/
def staged (bs : List Byte) (burst : Option (List Byte)) : Staged :=
  { slot := 5, size := 2, reread := none, bytes := bs, burst := burst }

/-- R112, R118: with its last bytes the fragment is READY with its header and a trailer of zero. -/
theorem test_last_word_makes_a_fragment_ready :
    let p := inTurn .fetch 0x700A none (sending (fragment .fetching) [staged [] none] fresh)
    let q := (after .fragmentFetchDone { on p with mem := [(0x700A, 1), (0x700B, 2)] }).part
    q.tx.queue.map FragEntry.cond = [.ready] ∧
      q.tx.staging.map Staged.burst = [some [0x42, 0x43, 0x00, 0x28, 0x01, 0x00, 1, 2, 0, 0]] := by decide +kernel

/-- The words of a SET_WEIGHT of 16 for car 0xC001 but for the last. -/
def sevenWords : List Word := [0x0003, 0x0002, 0xC001, 0, 16, 0, 0]

/-- The part with seven words of a descriptor read. -/
def reading (ws : List Word) (it : Option OpenItem) (p : Part) : Part :=
  let q := working it p
  { q with adm := { q.adm with general := { q.adm.general with words := some ws } } }

theorem test_directive_is_handed_to_its_owner :
    let q := (after .descriptorReadDone (on (inTurn .descRead 0x205E none (reading sevenWords none fresh)))).part
    q.handed.map (fun x => x.2.2) = some (.setWeight 0xC001 16) := by decide +kernel

/-- R91: the gather table gives the pieces; L + H must be their length (R92). -/
theorem test_gather_table_of_the_wrong_length_fails :
    let g : GatherFetch := { addr := 0x6000, count := 1, entries := 0, words := [0x7000, 0, 39] }
    let p := inTurn .gatherRead 0x6006 none (working (some (item (.gathering g))) fresh)
    (after .gatherReadDone (on p)).part.adm.writeBacks = [.item .general 100 .lengthMismatch] := by decide +kernel

/-- R98, R101: done moves past the leading written item. -/
theorem test_written_back_item_moves_done :
    let p := { fresh with adm := { fresh.adm with
      writeBacks := [.item .general 100 .noCar]
      general := { fresh.adm.general with
        tail := 102, read := 102, admitted := 102
        items := [{ first := 100, count := 2, written := false }] } } }
    let q := (after .statusWriteBackDone (on (inTurn .writeBack 0x2051 (some (.byte 5)) p))).part
    (q.ring .general).done = 102 ∧ (q.ring .general).items = [] := by decide +kernel

theorem test_done_word_reaches_memory :
    (after .doneWordWriteDone (on (inTurn (.doneWord .general) 0x2002 (some (.word 100)) fresh))).mem =
      [(0x2002, 100)] := by decide +kernel

/-- The part loading, with what it has read. -/
def loading (l : Load) (reads : List Word) : Part :=
  { node .loading Part.reset with
    anchor := { AnchorUnit.reset with node := .loading, load := some l }
    adm := { Part.reset.adm with loadReads := reads } }

/-- A load that has passed its checks. -/
def passed : Load := { address := [0x100, 0], record := [], sum := 0xFFFF, passed := some setup }

theorem test_second_done_word_ends_the_load :
    let p := inTurn .doneRead 0x2002 none (loading passed [50])
    let q := (after .doneWordReadDone { on p with mem := [(0x2002, 100)] }).part
    q.anchor.node = .running ∧ (q.ring .urgent).done = 50 ∧ (q.ring .general).done = 100 := by decide +kernel

/-- R170: an odd setup address fails the load. -/
theorem test_odd_setup_address_is_rejected :
    let p := inTurn .setupRead 0xFFFFE6 none (loading { address := [0x101], record := [], sum := 0, passed := none } [])
    let q := (after .setupReadDone (on p)).part
    q.anchor.node = .passive ∧ q.anchor.status = { code := .rejected, reason := .align } := by decide +kernel

theorem test_halted_written_makes_the_node_passive :
    let q := (after .anchorStatusWriteDone
      (on (inTurn .anchorStatus 0xFFFFE2 (some (.word 6)) (node .halting fresh)))).part
    q.anchor.node = .passive ∧ q.bus.armed = false := by decide +kernel

/-- The part writing a record of the image at its word `n`. -/
def imaging (x : ImageRecord) (n : Nat) (owed : Bool) (p : Part) : Part :=
  { p with image := { p.image with writing := some { record := x, fields := [], word := n }, owed := owed } }

/-- The part with no entry dirty. -/
def clean (p : Part) : Part := { p with roster := { p.roster with entries := Vector.replicate 48 (Entry.blank 4) } }

theorem test_counter_is_made_even_before_the_last_word :
    let q := (after .imageWriteDone (on (inTurn .imageWord 0x803E (some (.word 0)) (imaging (.entry 0) 15 false fresh)))).part
    q.image.counters[0] = 1 ∧ q.image.writing.map RecordWrite.word = some 16 := by decide +kernel

/-- An event record. -/
def record : EventRecord := nodeEvent .radioFault 7 1 0

/-- The part writing an event record at its turn `n`. -/
def reporting (n : Nat) (p : Part) : Part :=
  { p with ev := { p.ev with fill := 10, held := [(.radioFault, 6)], writes := [record], word := n } }

theorem test_producer_word_raises_attn :
    let q := (after .eventRecordWriteDone (on (inTurn .eventWord 0x4000 (some (.word 10)) (reporting 8 fresh)))).part
    q.ev.producer = 10 ∧ q.ev.attn = true ∧ q.ev.writes = [] := by decide +kernel

/-! ### Directives, one step each -/

/-- R40, R44: a car with nothing left in the part is FREE at once, and its notice waits for a beacon. -/
theorem test_evicted_car_is_free :
    let q := (after .evict (on (handing (.evict 0xC001) (withCar car fresh)))).part
    (q.entry 2).state = .free ∧ q.roster.ann = [{ car := 0xC001, sid := 63 }] := by decide +kernel

theorem test_set_weight :
    ((after .setWeight (on (handing (.setWeight 0xC001 9) (withCar car fresh)))).part.entry 2).weight = 9 := by
  decide +kernel

/-- R60: the class is lowered to the new ceiling. -/
theorem test_set_cap_lowers_the_class :
    let e := (after .setCap (on (handing (.setCap 0xC001 .A) (withCar car fresh)))).part.entry 2
    e.cap = .A ∧ e.cls = .A := by decide +kernel

theorem test_purge_retires_a_class :
    let q := (after .purge (on (handing (.purge 0xC001 (some .control)) (withMessage message fresh)))).part
    (q.record 0).map MsgRecord.outcome = some (some .purged) := by decide +kernel

/-- R19: lead 3 and length 5 in frame 7. -/
theorem test_silence_is_pending :
    (after .silence (on (handing (.silence 3 5) (air 4 none none)))).part.timer.silence = .pending 10 15 := by
  decide +kernel

/-- R22: an ACTIVE silence ends at the next frame start. -/
theorem test_quiet_end_ends_an_active_silence :
    (after .quietEnd (on (handing .quietEnd (starting 7 (.active 90) (air 4 none none))))).part.timer.silence =
      .active 8 := by decide +kernel

/-! ### The queue -/

theorem test_step_takes_the_front_command :
    step { on (air 0 (some (.send .A [])) none) with pending := [.sent false, .fault false] } =
      .next { on (air 0 (some (.send .A [])) (some .sent)) with pending := [.fault false] } := by rfl

/-! ### Witnesses: the terms of the hypotheses -/

/-- A turn as the witnesses have it. -/
def turn (k : TurnKind) (a : Addr) (w : Option TurnData) : Turn :=
  { kind := k, addr := a, write := w, abandoned := false }

theorem inTurn_on (k : TurnKind) (a : Addr) (w : Option TurnData) (p : Part) :
    (on (inTurn k a w p)).inTurn k (turn k a w) :=
  ⟨rfl, rfl, rfl, fun _ h => nomatch h⟩

/-- The checks of R171 pass. -/
def sound (u : Setup) : Bool := setupSizesOk u && setupAlignOk u && setupAreasOk u

/-- `State.windowOk`, as a check. -/
def windowFine (s : State) : Bool :=
  let a := s.part.anchor
  (s.part.bus.armed == (a.node = .running || a.node = .halting)) &&
    (!s.part.bus.armed || a.setup.any (fun u => s.part.bus.map = some (windowMap u) && sound u)) &&
    a.load.all (fun l => a.node = .loading && l.passed.all sound)

theorem windowOk_of {s : State} (h : windowFine s = true) : s.windowOk := by
  simp only [windowFine, Bool.and_eq_true] at h
  obtain ⟨⟨h1, h2⟩, h3⟩ := h
  refine ⟨?_, fun hb => ?_, fun l hl => ?_⟩
  · have h1 := beq_iff_eq.mp h1
    rw [h1]
    simp
  · rw [hb] at h2
    simp only [Bool.not_true, Bool.false_or, Option.any_eq_true] at h2
    obtain ⟨u, hu, h4⟩ := h2
    simp only [sound, Bool.and_eq_true, decide_eq_true_eq] at h4
    exact ⟨u, hu, h4.1, h4.2.1.1, h4.2.1.2, h4.2.2⟩
  · rw [hl] at h3
    simp only [Option.all_some, Bool.and_eq_true, decide_eq_true_eq] at h3
    refine ⟨h3.1, fun u hu => ?_⟩
    have h4 := h3.2
    rw [hu] at h4
    simp only [Option.all_some, sound, Bool.and_eq_true] at h4
    exact ⟨h4.1.1, h4.1.2, h4.2⟩

/-- `State.queuesOk`, as a check. -/
def queuesFine (s : State) : Bool :=
  let p := s.part
  let wbs := p.adm.writeBacks.filterMap WriteBack.place
  shortIds.all (fun k => classes.all (fun c =>
    let q := (p.entry k).queues.get c
    decide q.Nodup && q.all (fun i => (p.record i).any (fun r =>
      r.sid = k && r.cls = c && (r.state = .queued || r.state = .current) &&
        decide (r.state = .current ↔ q.head? = some i))))) &&
    poolIds.all (fun i => (p.record i).all (fun r =>
      (p.entry r.sid).state ≠ .free &&
        match r.state with
        | .retiring => wbs.contains i
        | .handed => p.pool.handed.contains i
        | _ => ((p.entry r.sid).queues.get r.cls).contains i)) &&
    decide p.pool.handed.Nodup && p.pool.handed.all (fun i => (p.record i).any (fun r => r.state = .handed)) &&
    decide wbs.Nodup && wbs.all (fun i => (p.record i).any (fun r => r.state = .retiring))

theorem queuesOk_of {s : State} (h : queuesFine s = true) : s.queuesOk := by
  simp only [queuesFine, Bool.and_eq_true, List.all_eq_true, decide_eq_true_eq] at h
  obtain ⟨⟨⟨⟨⟨h1, h2⟩, h3⟩, h4⟩, h5⟩, h6⟩ := h
  have cls : ∀ c, c ∈ classes := by intro c; cases c <;> decide
  have mem : ∀ k c i, i ∈ (s.part.entry k).queues.get c → ∃ r, s.part.record i = some r ∧
      r.sid = k ∧ r.cls = c ∧ (r.state = .queued ∨ r.state = .current) ∧
        (r.state = .current ↔ ((s.part.entry k).queues.get c).head? = some i) := by
    intro k c i hi
    have := (h1 k (List.mem_finRange k) c (cls c)).2 i hi
    simpa [Option.any_eq_true, and_assoc] using this
  have stands : ∀ i r, s.part.record i = some r → (s.part.entry r.sid).state ≠ .free ∧
      match r.state with
      | .retiring => i ∈ s.part.adm.writeBacks.filterMap WriteBack.place
      | .handed => i ∈ s.part.pool.handed
      | _ => i ∈ (s.part.entry r.sid).queues.get r.cls := by
    intro i r hr
    have := h2 i (List.mem_finRange i)
    rw [hr] at this
    cases hs : r.state <;> simpa [hs] using this
  refine ⟨fun k c => (h1 k (List.mem_finRange k) c (cls c)).1, fun k c i => ⟨fun hi => ?_, ?_⟩, ?_,
    fun i r hr => (stands i r hr).1, h3, fun i => ⟨fun hi => ?_, ?_⟩, h5, fun i => ⟨fun hi => ?_, ?_⟩⟩
  · obtain ⟨r, hr, a, b, d, -⟩ := mem k c i hi
    exact ⟨r, hr, a, b, d⟩
  · rintro ⟨r, hr, rfl, rfl, hs⟩
    have := (stands i r hr).2
    rcases hs with hs | hs <;> simpa [hs] using this
  · intro k c i r hi hr
    obtain ⟨r', hr', -, -, -, g⟩ := mem k c i hi
    rw [hr] at hr'
    cases hr'
    exact g
  · simpa [Option.any_eq_true] using h4 i hi
  · rintro ⟨r, hr, hs⟩
    have := (stands i r hr).2
    simpa [hs] using this
  · simpa [Option.any_eq_true] using h6 i hi
  · rintro ⟨r, hr, hs⟩
    have := (stands i r hr).2
    simpa [hs] using this

/-! ### Witnesses of the hypotheses: the queue, reset and the air -/

/-- A state for the statements over every step: a car with a message and an announcement, an event held, a claim,
a plan with a down and an up slot, a listed byte, and SENT waiting. -/
def busy : State :=
  let p := withMessage message (claiming 0 (withHeld (air 0 (some (.send .A [])) none)))
  { on { p with
      ev := { p.ev with attn := true }
      roster := { p.roster with ann := [{ car := 0xC001, sid := 2 }] }
      planner := { p.planner with
        plan := { p.planner.plan with
          slots := (List.replicate 36 SlotUse.idle).set 35 (.up 2), downs := 0, ups := 1 } } } with
    mem := [(0x200, 1)], pending := [.sent false] }

theorem witness_StepRunsFrontCommand :
    busy.pending = .sent false :: [] ∧ State.reset.pending = [] := ⟨rfl, rfl⟩

theorem witness_ResetTaken_pulses :
    (∀ n, ResetCause.powerOn 2 = .pin n → 4 ≤ n) ∧ (∀ n, ResetCause.pin 4 = .pin n → 4 ≤ n) ∧
      (cycle (.word 0) (some 1) true).held = true ∧ (cycle (.word 0) none true).write = none := by
  refine ⟨?_, ?_, rfl, rfl⟩ <;> intro n h <;> cases h
  decide

theorem witness_ResetTaken_short_pulses_and_edges :
    0 < 4 ∧ 3 < 4 ∧ (on fresh).resetPin ≠ .lowIgnored ∧
      { on fresh with resetPin := .lowIgnored }.resetPin = .lowIgnored := by decide

theorem witness_ModemAnswerTaken :
    (on (air 0 (some (.send .A [])) none)).part.port = { order := some (.send .A []), answer := none } ∧
      (on (air 1 (some .listen) none)).part.port = { order := some .listen, answer := none } ∧
      (on (air 5 none none)).part.port.order = none ∧
      (on (air 1 (some .listen) (some .sent))).part.port.answer ≠ none := by decide

/-- The part with a DOWN fragment in slot 39 of its plan and its fetch queue. -/
def downAt39 (c : FragCond) (g : List Staged) (p : Part) : Part :=
  let d : DownGrant := { sid := 2, cls := .control, record := 0, rate := .A, offset := 10, len := 2 }
  sending { fragment c with slot := 39 } g (planned 39 (.down d) p)

/-- The part with the scheduled slots of its frame withheld. -/
def withheld (p : Part) : Part := { p with timer := { p.timer with schedWithheld := true } }

theorem witness_IdleAndFaultedSlots_orders :
    (∀ x ∈ [air 38 none none, radio .silent 0 (air 3 none none), air 0 (some (.send .A [])) none, air 2 none none,
        withheld (air 3 none none), planned 39 (.up 2) (air 38 none none),
        downAt39 .empty [] (air 38 none none)],
      x.anchor.node = .running ∧ x.timer.underWay = true ∧ x.timer.slot < 39 ∧ x.nothingDue) ∧
      (let at39 := fun (p : Part) => (after (.slotBoundary []) (on p)).part
       (at39 (radio .silent 0 (air 3 none none))).timer.substate ≠ .on ∧
        (at39 (air 2 none none)).timer.substate = .on ∧
        (at39 (withheld (air 3 none none))).timer.schedWithheld = true ∧
        (at39 (air 38 none none)).planner.plan.use 39 = .idle ∧
        (at39 (planned 39 (.up 2) (air 38 none none))).planner.plan.use 39 = .up 2 ∧
        (at39 (downAt39 .empty [] (air 38 none none))).timer.substate = .on ∧
        ((at39 (downAt39 .empty [] (air 38 none none))).tx.entryAt 39).isSome = true) := by
  unfold Part.nothingDue
  decide +kernel

/-- The hypotheses of the statements about a boundary within a frame, with the slot that ends settled. -/
def atBoundary (p q : Part) : Prop :=
  p.anchor.node = .running ∧ p.timer.underWay = true ∧ p.timer.slot < 39 ∧ p.nothingDue ∧ p.slotEnds q

theorem atBoundary_of {p x : Part} {st : Settled} (hs : p.slotSettles x st)
    (h : p.anchor.node = .running ∧ p.timer.underWay = true ∧ p.timer.slot < 39 ∧ p.due = FrameWorkDue.nothing ∧
      p.timer.beaconDue = false) : atBoundary p (x.runCounted p.timer.slot st) :=
  ⟨h.1, h.2.1, h.2.2.1, ⟨by rw [h.2.2.2.1]; rfl, by rw [h.2.2.2.1]; rfl, by rw [h.2.2.2.1]; rfl,
    by rw [h.2.2.2.1]; rfl, by rw [h.2.2.2.1]; rfl, h.2.2.2.2, .inl (by rw [h.2.2.2.1]; rfl)⟩, x, st, hs, rfl⟩

/-- The part with no order and no answer. -/
def ended (p : Part) : Part := { p with port := { order := none, answer := none } }

/-- A burst heard by an access slot: a JOIN of car 0xC001 of rate class D. -/
def join : Heard := { outcome := .ok, q := 40, cls := .A, bytes := [0x80, 0, 0xC0, 0x01, 0x00, 0x07, 0x03, 0] }

/-- Faulted slots without a scheduled use: the beacon's with the eighth fault, and an access slot's. -/
theorem witness_IdleAndFaultedSlots_faulted :
    (∀ a ∈ [none, some Answer.fault],
      (let p := radio .on 7 (air 0 (some (.send .A [])) a)
       let q := (ended p).faultNoted.runCounted 0 .faulted
       atBoundary p q ∧ q.timer.substate = .faulted) ∧
      (let p := radio .on 6 (air 1 (some .listen) a)
       let q := (ended p).faultNoted.runCounted 1 .faulted
       atBoundary p q ∧ q.timer.substate = .on)) := by
  simp only [List.forall_mem_cons]
  refine ⟨⟨⟨atBoundary_of (.inl ⟨.inl (by decide), .inr ⟨⟨nofun, .inl rfl, rfl⟩, rfl⟩⟩) ?_, ?_⟩,
    atBoundary_of (.inl ⟨.inl (by decide), .inr ⟨⟨nofun, .inl rfl, rfl⟩, rfl⟩⟩) ?_, ?_⟩,
    ⟨⟨atBoundary_of (.inl ⟨.inl (by decide), .inr ⟨⟨nofun, .inr rfl, rfl⟩, rfl⟩⟩) ?_, ?_⟩,
    atBoundary_of (.inl ⟨.inl (by decide), .inr ⟨⟨nofun, .inr rfl, rfl⟩, rfl⟩⟩) ?_, ?_⟩, by simp⟩ <;> decide +kernel

/-- Slots without an order, before a LISTEN slot, an idle slot, and one of a frame that began FAULTED; and an access
slot that heard a JOIN. -/
theorem witness_IdleAndFaultedSlots_quiet :
    (∀ p ∈ [air 2 none none, air 38 none none, withheld (air 3 none none), radio .silent 0 (air 1 none none)],
      atBoundary p ((ended p).runCounted p.timer.slot .noOrder)) ∧
      (let p := planned 39 (.up 2) (air 38 none none)
       atBoundary p ((ended p).runCounted 38 .noOrder) ∧ (ended p).planner.plan.use 39 = .up 2) ∧
      (let p := air 2 (some .listen) (some (.heard join))
       atBoundary p (((ended p).accessHeard join).runCounted 2 .answered)) := by
  simp only [List.forall_mem_cons]
  refine ⟨⟨atBoundary_of (.inl ⟨.inl (by decide), .inl ⟨⟨rfl, rfl, rfl⟩, rfl⟩⟩) ?_,
    atBoundary_of (.inl ⟨.inr ?_, .inl ⟨⟨rfl, rfl, rfl⟩, rfl⟩⟩) ?_,
    atBoundary_of (.inl ⟨.inl (by decide), .inl ⟨⟨rfl, rfl, rfl⟩, rfl⟩⟩) ?_,
    atBoundary_of (.inl ⟨.inl (by decide), .inl ⟨⟨rfl, rfl, rfl⟩, rfl⟩⟩) ?_, by simp⟩,
    ⟨atBoundary_of (.inl ⟨.inr ?_, .inl ⟨⟨rfl, rfl, rfl⟩, rfl⟩⟩) ?_, ?_⟩,
    atBoundary_of (.inr (.inl ⟨by decide, by decide, join, ⟨rfl, rfl, rfl⟩, rfl⟩)) ?_⟩ <;> decide +kernel

/-- The part with an up slot result of car 2 added in a slot of frame 7. -/
def gave (slot : Nat) (u : UpOutcome) (p : Part) : Part :=
  { p with due := { p.due with results := p.due.results ++ [{ owner := 2, slot := slot, frame := 7, outcome := u }] } }

/-- An UP slot that ends withheld, faulted and heard. -/
theorem witness_IdleAndFaultedSlots_up :
    (let p := fun (o : Option Order) (a : Option Answer) => planned 38 (.up 2) (air 38 o a)
     let gives := fun (o : Option Order) (a : Option Answer) (u : UpOutcome) => gave 38 u (ended (p o a))
     atBoundary (p none none) ((gives none none .withheld).runCounted 38 .noOrder) ∧
      atBoundary (p (some .listen) none) ((gives (some .listen) none .nothing).faultNoted.runCounted 38 .faulted) ∧
      atBoundary (p (some .listen) (some (.heard join)))
        ((gives (some .listen) (some (.heard join)) (.heard join)).runCounted 38 .answered)) := by
  refine ⟨atBoundary_of (.inr (.inr (.inl ⟨by decide, 2, ?_, .inl ⟨⟨rfl, rfl, rfl⟩, rfl⟩⟩))) ?_,
    atBoundary_of (.inr (.inr (.inl ⟨by decide, 2, ?_, .inr (.inl ⟨⟨nofun, .inl rfl, rfl⟩, rfl⟩)⟩))) ?_,
    atBoundary_of (.inr (.inr (.inl ⟨by decide, 2, ?_, .inr (.inr ⟨join, ⟨rfl, rfl, rfl⟩, rfl⟩)⟩))) ?_⟩ <;>
    decide +kernel

/-- The part at the end of slot 3, which had no order, with a DOWN fragment in slot 4. -/
def downAt4 (c : FragCond) : Part :=
  let d : DownGrant := { sid := 2, cls := .control, record := 0, rate := .A, offset := 10, len := 2 }
  sending { fragment c with slot := 4 } [{ staged [1, 2] (some [7]) with slot := 4 }]
    (planned 4 (.down d) (air 3 none none))

theorem witness_DownSlots_begin :
    (∀ c ∈ [FragCond.ready, .empty, .waiting, .fetching],
      let q := (ended (downAt4 c)).runCounted 3 .noOrder
      atBoundary (downAt4 c) q ∧ q.tx.entryAt 4 = some { fragment c with slot := 4 } ∧
        q.tx.staging.find? (fun x => x.slot = 4) = some { staged [1, 2] (some [7]) with slot := 4 }) ∧
      (∃ g, (ended (downAt4 .ready)).planner.plan.use 4 = .down g) ∧
      (ended (downAt4 .ready)).timer.substate = .on ∧ (ended (downAt4 .ready)).timer.schedWithheld = false := by
  simp only [List.forall_mem_cons]
  refine ⟨⟨⟨atBoundary_of (.inl ⟨.inl (by decide), .inl ⟨⟨rfl, rfl, rfl⟩, rfl⟩⟩) ?_, rfl, rfl⟩,
    ⟨atBoundary_of (.inl ⟨.inl (by decide), .inl ⟨⟨rfl, rfl, rfl⟩, rfl⟩⟩) ?_, rfl, rfl⟩,
    ⟨atBoundary_of (.inl ⟨.inl (by decide), .inl ⟨⟨rfl, rfl, rfl⟩, rfl⟩⟩) ?_, rfl, rfl⟩,
    ⟨atBoundary_of (.inl ⟨.inl (by decide), .inl ⟨⟨rfl, rfl, rfl⟩, rfl⟩⟩) ?_, rfl, rfl⟩, by simp⟩,
    ⟨_, rfl⟩, ?_, ?_⟩ <;> decide +kernel

/-- A DOWN slot withheld: the radio SILENT or FAULTED, or ON in a frame that began FAULTED. -/
theorem witness_DownSlots_withheld :
    ∀ p ∈ [radio .silent 0 (downAt4 .ready), radio .faulted 8 (downAt4 .ready), withheld (downAt4 .ready)],
      atBoundary p ((ended p).runCounted p.timer.slot .noOrder) := by
  simp only [List.forall_mem_cons]
  refine ⟨atBoundary_of (.inl ⟨.inl (by decide), .inl ⟨⟨rfl, rfl, rfl⟩, rfl⟩⟩) ?_,
    atBoundary_of (.inl ⟨.inl (by decide), .inl ⟨⟨rfl, rfl, rfl⟩, rfl⟩⟩) ?_,
    atBoundary_of (.inl ⟨.inl (by decide), .inl ⟨⟨rfl, rfl, rfl⟩, rfl⟩⟩) ?_, by simp⟩ <;> decide +kernel

/-- The part at the end of DOWN slot 38, its fragment in a condition, with an order and an answer. -/
def endOf38 (e : FragEntry) (o : Option Order) (a : Option Answer) : Part :=
  let d : DownGrant := { sid := 2, cls := .control, record := 0, rate := .A, offset := 10, len := 2 }
  sending { e with slot := 38 } [{ staged [1] none with slot := 38 }] (planned 38 (.down d) (air 38 o a))

/-- A DOWN slot that ends withheld, faulted, with an empty burst sent, and with a whole one. -/
theorem witness_DownSlots_end :
    ∀ x ∈ [(fragment .fetching, none, none), (fragment .done, some (.send .A []), some .fault),
        (fragment .done, some (.send .A []), some .sent),
        ({ fragment .done with whole := true }, some (.send .A []), some .sent)],
      ∃ q, atBoundary (endOf38 x.1 x.2.1 x.2.2) q ∧ q.planner.plan.use 39 = .idle := by
  simp only [List.forall_mem_cons]
  refine ⟨⟨_, atBoundary_of (.inr (.inr (.inr ⟨by decide, ⟨_, rfl⟩, _, rfl, .inl ⟨⟨rfl, rfl, rfl⟩, rfl⟩⟩))) ?_, rfl⟩,
    ⟨_, atBoundary_of (.inr (.inr (.inr ⟨by decide, ⟨_, rfl⟩, _, rfl,
      .inr (.inl ⟨⟨nofun, .inr rfl, rfl⟩, rfl⟩)⟩))) ?_, rfl⟩,
    ⟨_, atBoundary_of (.inr (.inr (.inr ⟨by decide, ⟨_, rfl⟩, _, rfl,
      .inr (.inr (.inl ⟨⟨⟨_, _, rfl⟩, rfl, rfl⟩, .inl rfl, rfl⟩))⟩))) ?_, rfl⟩,
    ⟨_, atBoundary_of (.inr (.inr (.inr ⟨by decide, ⟨_, rfl⟩, _, rfl,
      .inr (.inr (.inr ⟨⟨⟨_, _, rfl⟩, rfl, rfl⟩, rfl, rfl, message, rfl, rfl⟩))⟩))) ?_, rfl⟩, by simp⟩ <;> decide +kernel

/-- R120, R122: a slot withheld while its fragment is fetched abandons the fetch, and its turn is dropped. -/
theorem test_withheld_slot_abandons_its_fetch :
    let p := inTurn .fetch 0x700A none (endOf38 (fragment .fetching) none none)
    let q := (after (.slotBoundary []) (on p)).part
    q.arb.turn.map Turn.abandoned = some true ∧ q.tx.staging = [] ∧ q.tx.queue.map FragEntry.cond = [.done] := by
  decide +kernel

/-- R55: a result of the frame before that is still due when slot 0 ends may be taken in the access slots. -/
theorem test_late_result_waits_in_the_access_slots :
    let q := (after (.slotBoundary []) (on (result .nothing (withCar car (air 0 (some (.send .A [])) (some .sent)))))).part
    q.timer.slot = 1 ∧ q.due.results.length = 1 := by decide +kernel

/-- Slot 39 settled at a frame start: idle, an UP slot withheld and heard, a DOWN slot; and the first frame. -/
theorem witness_FrameStartTaken :
    (∀ p ∈ [air 39 none none, fresh], p.anchor.node = .running ∧ p.anchor.haltReq = false ∧ p.nothingDue) ∧
      fresh.timer.underWay = false ∧ (air 39 none none).timer.underWay = true ∧ (air 39 none none).timer.slot = 39 ∧
      (air 39 none none).slotSettles (ended (air 39 none none)) .noOrder ∧
      (let p := planned 39 (.up 2) (air 39 none none)
       p.slotSettles (gave 39 .withheld (ended p)) .noOrder) ∧
      (let p := planned 39 (.up 2) (air 39 (some .listen) (some (.heard join)))
       p.slotSettles (gave 39 (.heard join) (ended p)) .answered) ∧
      ∃ q, (downAt39 .ready [] (air 39 none none)).slotSettles q .noOrder := by
  refine ⟨?_, ?_, ?_, ?_, .inl ⟨.inr ?_, .inl ⟨⟨rfl, rfl, rfl⟩, rfl⟩⟩,
    .inr (.inr (.inl ⟨by decide, 2, ?_, .inl ⟨⟨rfl, rfl, rfl⟩, rfl⟩⟩)),
    .inr (.inr (.inl ⟨by decide, 2, ?_, .inr (.inr ⟨join, ⟨rfl, rfl, rfl⟩, rfl⟩)⟩)),
    ⟨_, .inr (.inr (.inr ⟨by decide, ⟨_, rfl⟩, _, rfl, .inl ⟨⟨rfl, rfl, rfl⟩, rfl⟩⟩))⟩⟩ <;>
    first
    | decide +kernel
    | (unfold Part.nothingDue; decide +kernel)

/-- A boundary with works, and a HALT with a result, still to be taken; and a part with none. -/
theorem witness_FrameStartTaken_due :
    (∀ p ∈ [starting 8 .none (air 0 none none), result .nothing (air 39 none none)], p.anchor.node = .running) ∧
      (let p := { fresh with anchor := { fresh.anchor with haltReq := true } }
       p.anchor.haltReq = true ∧ (p.timer.underWay = true → p.timer.slot = 39)) ∧
      fresh.due = FrameWorkDue.nothing := by decide +kernel

/-- R2, R20: a silence that begins is left to its own command, whatever the order of the other works. -/
theorem test_frame_start_leaves_the_silence_to_its_command :
    let x := air 39 none none
    let p := { x with timer := { x.timer with silence := .pending 8 20 } }
    let q := (after (.slotBoundary [.image, .build]) (on p)).part
    q.timer.slot = 0 ∧ q.due.timer = true ∧ q.due.build = false ∧ q.timer.silence = .pending 8 20 := by decide +kernel

theorem witness_FrameStartSendsBeacon :
    ∀ x ∈ [fresh, air 39 none none, radio .on 7 (air 39 (some (.send .A [])) none),
        radio .faulted 8 (air 39 none none), starting 0 (.pending 9 20) (air 39 none none)],
      let p := { x with due := FrameWorkDue.nothing }
      p.anchor.node = .running ∧ p.anchor.haltReq = false ∧ p.nothingDue ∧
        (p.timer.underWay = true → p.timer.slot = 39 ∧ (p.planner.plan.use 39).isUp = false) ∧
        p.timer.substate ≠ .silent ∧
        (let f := if p.timer.underWay then p.timer.frame + 1 else 0
         p.timer.silence.begins f = false ∧ p.timer.silence.ends f = false) := by
  unfold Part.nothingDue
  decide +kernel

/-- The part in slot 0 with a beacon that carried two announcements of the queue. -/
def beacon (a : Option Answer) (sub : Substate) : Part :=
  let q : List Announcement := [{ car := 0xC001, sid := 2 }, { car := 0xC002, sid := 63 }]
  let p := radio sub 3 (air 0 (some (.send .A [])) a)
  { p with
    roster := { p.roster with ann := q }
    timer := { p.timer with carried := some { grants := q, resumed := true }, resumed := true } }

theorem witness_BeaconSettled :
    ∀ x ∈ [beacon (some .sent) .on, beacon (some .sent) .faulted, beacon none .faulted, beacon (some .fault) .faulted],
      x.anchor.node = .running ∧ x.timer.underWay = true ∧ x.timer.slot = 0 ∧ x.nothingDue ∧
        x.port.order = some (.send .A []) ∧ x.timer.carried.isSome = true := by
  unfold Part.nothingDue
  decide +kernel

/-- The part with the announcement queue full of other cars. -/
def queueFull (p : Part) : Part :=
  { p with roster := { p.roster with
      ann := (List.range 8).map (fun n => { car := BitVec.ofNat 24 (0xD000 + n), sid := noCarId }) } }

/-- The part with every entry DRAINING. -/
def rosterFull (p : Part) : Part :=
  { p with roster := { p.roster with
      entries := Vector.replicate 48 { Entry.blank 4 with state := .draining, car := 0xD000, drain := some .lost } } }

/-- The JOIN read by the fields of 11.3, and bursts that are no JOIN. -/
theorem witness_JoinsHandled_bursts :
    (let byte := fun (i : Nat) => join.bytes.getD i 0
     join.bytes.length = 8 ∧ (byte 0).toNat / 64 = 2 ∧ (byte 1 ++ byte 2 ++ byte 3 : CarNumber) = 0xC001) ∧
      { join with outcome := .crcFail }.outcome = .crcFail ∧ { join with bytes := [1] }.bytes.length ≠ 8 ∧
      { join with outcome := .nothing }.outcome = .nothing := by decide

/-- A new join with a place in the queue and without, a refusal with and without, a rejoin with and without. -/
theorem witness_JoinsHandled_new :
    ∀ p ∈ [air 1 none none, queueFull (air 1 none none)],
      queuesFine (on p) = true ∧ p.anchor.node = .running ∧
        (∀ k, (p.entry k).live = true → (p.entry k).car ≠ 0xC001) ∧ (p.entry 0).state = .free := by decide +kernel

theorem witness_JoinsHandled_refused :
    ∀ p ∈ [rosterFull (air 1 none none), queueFull (rosterFull (air 1 none none))],
      queuesFine (on p) = true ∧ p.anchor.node = .running ∧
        (∀ k, (p.entry k).live = true → (p.entry k).car ≠ 0xC001) ∧ ∀ k, (p.entry k).state ≠ .free := by
  decide +kernel

theorem witness_JoinsHandled_rejoin :
    (∀ p ∈ [withMessage message (air 1 none none), queueFull (withMessage message (air 1 none none))],
      queuesFine (on p) = true ∧ p.anchor.node = .running ∧ p.liveEntry 0xC001 = some 2) ∧
      (queueFull fresh).roster.ann.length = 8 ∧
      ({ car := 0xC001, sid := sidBits 2 } : Announcement) ∉ (queueFull fresh).roster.ann := by decide +kernel

/-- R30, R31: a JOIN of a live car keeps its entry and takes it back to GRANTED. -/
theorem test_rejoin_takes_the_car_back_to_granted :
    let q := (after (.slotBoundary []) (on (withCar car (air 1 (some .listen) (some (.heard join)))))).part
    (q.entry 2).state = .granted ∧ q.roster.ann = [{ car := 0xC001, sid := 2 }] ∧ q.ev.held = [(.carJoined, 2)] := by
  decide +kernel

/-- No silence begins or ends: in OFF at the first frame start, and in ON. -/
theorem witness_SilenceTransitions_neither :
    ∀ x ∈ [radio .off 0 (air 0 none none), air 0 none none],
      let p := starting 8 (.pending 9 20) x
      let r := p.runCounted 39 p.due.lastSlot
      p.anchor.node = .running ∧ p.due.timer = true ∧ r.timer.silence.begins r.due.frame = false ∧
        r.timer.silence.ends r.due.frame = false := by decide +kernel

theorem witness_SilenceTransitions :
    ∀ l ∈ [Settled.noOrder, .answered, .faulted],
      let at' := fun (p : Part) => { p with due := { p.due with lastSlot := l } }
      (let p := at' (starting 8 (.pending 8 20) (radio .on 7 (air 0 none none)))
       p.anchor.node = .running ∧ p.due.timer = true ∧
        (p.runCounted 39 l).timer.silence = .pending (p.runCounted 39 l).due.frame 20) ∧
      (let p := at' (starting 8 (.active 8) (radio .silent 0 (air 0 none none)))
       p.anchor.node = .running ∧ p.due.timer = true ∧
        (p.runCounted 39 l).timer.silence = .active (p.runCounted 39 l).due.frame) := by decide +kernel

theorem witness_AgeingExpiresRecords :
    (let p := withMessage message (air 0 none none)
     let s := on { p with due := { p.due with ageing := true } }
     s.queuesOk ∧ s.part.due.ageing = true) :=
  ⟨queuesOk_of (by decide +kernel), rfl⟩

/-- The part at a frame start that the Roster Table has yet to take, with a GRANTED car and one record of it. -/
def waiting (wait : Nat) (kept : Bool) : Part :=
  let e := { car with state := .granted, grantWait := wait }
  let r := { message with state := .retiring, outcome := some .purged }
  let p := withCar e (air 0 none none)
  let p := { p with due := { p.due with roster := true, frame := 8 } }
  if kept then { p.setRecord 0 (some r) with adm := { p.adm with writeBacks := [.record 0] } } else p

theorem witness_GrantWaitsRun :
    ∀ x ∈ [waiting 0 false, waiting 3 false, waiting 4 false, waiting 4 true],
      queuesFine (on x) = true ∧ x.anchor.node = .running ∧ x.due.roster = true ∧
        x.timer.silence.silent x.due.frame = false ∧ x.timer.substate ≠ .faulted ∧
        (∀ k, (x.entry k).state = .granted → (x.entry k).context = none) := by decide +kernel

/-- A silent frame, a frame in ON and one in FAULTED. -/
theorem witness_FaultedMisses_frame :
    (let p := starting 8 (.active 20) (waiting 0 false)
     p.due.roster = true ∧ p.timer.silence.silent p.due.frame = true) ∧
      (waiting 0 false).timer.silence.silent (waiting 0 false).due.frame = false ∧
      (radio .faulted 8 (waiting 0 false)).timer.substate = .faulted := by decide +kernel

/-- An entry at each bound: fade_after 2, lose_after 6, and 4 frames of grant wait. -/
theorem witness_FaultedMisses_entries :
    (∀ e ∈ [{ car with miss := 0 }, { car with miss := 1 }, { car with miss := 4 }, { car with miss := 5 },
        { car with state := .fading, miss := 31 }, { car with state := .granted, grantWait := 3, miss := 4 },
        { car with state := .granted, grantWait := 4, miss := 0 }, { car with state := .granted, miss := 5 },
        { car with state := .draining }],
      queuesFine (on (withCar e (air 0 none none))) = true ∧ ((withCar e (air 0 none none)).entry 2).state ≠ .free) ∧
      fresh.setup.fadeAfter = 2 ∧ fresh.setup.loseAfter = 6 ∧ (fresh.entry 0).state = .free := by decide +kernel

/-- A car about to miss its up slot, with a message waiting. -/
def missing (o : UpOutcome) (miss : Nat) : Part :=
  let p := withMessage message (air 10 none none)
  result o (withCar { p.entry 2 with miss := miss } p)

theorem witness_MissedSlotTaken :
    (∀ x ∈ [missing .nothing 0, missing .nothing 4, missing .nothing 5, missing .withheld 5],
      queuesFine (on x) = true ∧ x.anchor.node = .running ∧ x.due.results.length = 1 ∧ (x.entry 2).onAir = true) ∧
      UpResult.response { owner := 2, slot := 9, frame := 7, outcome := .nothing } = none ∧
      UpResult.response { owner := 2, slot := 9, frame := 7, outcome := .withheld } = none := by decide +kernel

/-- Poll responses with the leaving flag, the alarm flag and neither; and the last one of a car no longer live. -/
theorem witness_ValidResponseTaken :
    (∀ f ∈ [(0x80 : Byte), 0x40, 0], ∀ st ∈ [EntryState.granted, .active, .fading, .draining],
      let x := result (poll f) (withCar { car with state := st } (air 10 none none))
      let r : UpResult := { owner := 2, slot := 9, frame := 7, outcome := poll f }
      x.anchor.node = .running ∧ x.due.results = [r] ∧
        r.response = some (40, { alarm := f = 0x80, leaving := f = 0x40, acks := [], fragment := none })) ∧
      queuesFine (on (result (poll 0x40) (withMessage message (air 10 none none)))) = true := by decide +kernel

/-- R35, R36, R39: a valid response with the leaving flag sets the misses of a FADING car to 0 before it drains, and
leaves those of a GRANTED one. -/
theorem test_leaving_response_clears_the_misses :
    let left := fun (e : Entry) =>
      let p := withMessage message (air 10 none none)
      ((after .uplinkSlotResult (on (result (poll 0x40)
        (withCar { p.entry 2 with state := e.state, miss := e.miss } p)))).part).entry 2
    (∀ e ∈ [{ car with state := .fading, miss := 3 }, { car with state := .granted, miss := 3 }],
      (left e).state = .draining ∧ (left e).drain = some .left ∧ (left e).lastHeard = 7) ∧
      (left { car with state := .fading, miss := 3 }).miss = 0 ∧
      (left { car with state := .granted, miss := 3 }).miss = 3 := by decide +kernel

/-- An uplink fragment of message 1. -/
def piece (off len : Nat) (last : Bool) : UpFragment :=
  { seq := 1, last := last, sumPresent := true, offset := off, len := len, data := List.replicate len 7, trailer := 0 }

/-- The part with a message of car 2 in progress, `n` bytes of it taken, and `g` staging places taken. -/
def receiving (n g : Nat) : Part :=
  let x : UplinkContext := { seq := 1, expected := n, index := 5, truncated := false, sum := 0 }
  let p := withCar { car with context := some x } fresh
  { p with uplink := { p.uplink with
      producer := 6, claims := [{ claim .inProgress with status := none }]
      staging := List.replicate g { index := 5, offset := 0, bytes := [7] } } }

/-- One fragment for each case of the judgment of a message in progress. -/
theorem witness_FragmentJudged_in_progress :
    ((piece 0 0 true).len = 0 ∧ 16383 < (piece 16383 1 true).offset + (piece 16383 1 true).len) ∧
      ((receiving 20 0).entry 2).context.map UplinkContext.seq = some (piece 20 10 false).seq ∧
      20 < (piece 21 10 false).offset ∧ (piece 10 10 false).offset + (piece 10 10 false).len ≤ 20 ∧
      ((piece 15 10 true).data.drop 5).take (fresh.setup.bufferSize - 20) ≠ [] ∧
      (receiving 20 3).uplink.staging.length < 4 ∧ 4 ≤ (receiving 20 4).uplink.staging.length ∧
      ((piece 256 10 true).data.drop 0).take (fresh.setup.bufferSize - 256) = [] := by decide +kernel

/-- A finished message, a new message with room and without, and an offset that begins nothing. -/
theorem witness_FragmentJudged_begins :
    (let p := { withCar car fresh with uplink := { fresh.uplink with
        finished := fresh.uplink.finished.set 2 (some { seq := 1, len := 30 }) } }
     (p.entry 2).context = none ∧ p.uplink.finished[(2 : ShortId)] = some { seq := 1, len := 30 }) ∧
      ((withCar car fresh).entry 2).context = none ∧ (withCar car fresh).uplink.finished[(2 : ShortId)] = none ∧
      ahead fresh.uplink.consumer fresh.uplink.producer < fresh.setup.uplink.size ∧
      ((receiving 20 4).entry 2).context.map UplinkContext.seq ≠ some { piece 0 10 false with seq := 2 }.seq := by
  decide +kernel

/-- R139, R145: the last fragment of a message with the wrong sum decides it SUM_BAD and ends it. -/
theorem test_wrong_sum_decides_sum_bad :
    let r := (receiving 20 0).judgeFragment 2 (piece 20 10 true) 7 7
    r.2 = true ∧ r.1.uplink.claims.map Claim.status = [some .sumBad] ∧ (r.1.entry 2).context = none := by
  decide +kernel

/-- The part with a message of car 2 named in the answer list of frame 7. -/
def answering (r : MsgRecord) : Part :=
  let p := withMessage r (air 10 none none)
  { p with pool := { p.pool with answers := [{ sid := 2, frame := 7, records := [(0, 3)] }] } }

/-- Acks of the message: the highest counts, 40 completes it, 30 moves it on, 10 sends it back or lets it stand. -/
theorem witness_AnswerSettlesRecord_named :
    (∀ r ∈ [message, { message with attempts := 2 }, { message with sentTo := 10 }],
      queuesFine (on (answering r)) = true ∧ (answering r).anchor.node = .running ∧
        (answering r).current 2 .control = some (0, r) ∧ r.seq = some 3 ∧
        (answering r).pool.answers.find? (fun l => l.sid = 2 && l.frame = 7) =
          some { sid := 2, frame := 7, records := [(0, 3)] }) ∧
      selectAck [{ cls := some .control, seq := 3, offset := 99 }, { cls := some .control, seq := 3, offset := 12 }]
        message = some message.len ∧
      selectAck [{ cls := some .control, seq := 3, offset := 30 }] message = some 30 ∧ message.acked < 30 ∧
      selectAck [{ cls := some .control, seq := 4, offset := 30 }] message = none ∧ message.acked < message.sentTo ∧
      fresh.setup.retryLimit = 3 := by decide +kernel

/-- The same message outside the answer list: its list is of another frame. -/
theorem witness_AnswerSettlesRecord_outside :
    (answering message).pool.answers.find? (fun l => l.sid = 2 && l.frame = 8) = none ∧
      (answering message).current 2 .control = some (0, message) := by decide +kernel

/-- R124, R128: a STOP message that its car has whole is reported with its age. -/
theorem test_stop_delivered_is_reported :
    let r := { message with cls := .stop }
    let p := Part.setRecord (withCar { car with queues := { car.queues with stop := [0] } } (air 10 none none)) 0 (some r)
    let q := p.answer 2 7 (.valid [{ cls := some .stop, seq := 3, offset := 40 }])
    (q.record 0).map MsgRecord.outcome = some (some .ok) ∧ q.ev.writes.map EventRecord.kind = [.stopDelivered] ∧
      q.ev.writes.map EventRecord.data2 = [4] := by decide +kernel

/-- R37, R39, 10.1: a result of frame 7 taken after the frame number went on reports the car in frame 8. -/
theorem test_lost_and_left_name_the_frame_they_are_reported_in :
    (let at8 := fun (p : Part) => { p with timer := { p.timer with frame := 8 } }
     let frames := fun (p : Part) => (after .uplinkSlotResult (on (at8 p))).part.ev.writes.map
      (fun e => (e.kind, e.frame))
     frames (missing .nothing 5) = [(.carLost, 8)] ∧
      frames (result (poll 0x40) (withCar car (air 10 none none))) = [(.carLeft, 8)] ∧
      frames (result (poll 0x80) (withCar car (air 10 none none))) = [(.carAlarm, 7)]) := by decide +kernel

/-- R106, R174: with nothing left to admit, the Admission report is made at the HALT though a read it abandons runs. -/
theorem test_abandoned_read_holds_no_report_back :
    let p := inTurn .descRead 0x2050 none (reading [] none (air 39 none none))
    let q := (after (.haltTaken true) (on { p with anchor := { p.anchor with haltReq := true } })).part
    q.anchor.marks.admission = true ∧ q.arb.turn.map Turn.abandoned = some true := by decide +kernel

theorem witness_HaltTakenAtBoundary :
    ∀ x ∈ [withMessage message (air 39 none none), fresh, receiving 20 0, receiving 20 1],
      let p := { x with anchor := { x.anchor with haltReq := true } }
      queuesFine (on p) = true ∧ p.anchor.node = .running ∧ p.anchor.haltReq = true ∧
        (p.timer.underWay = true → p.timer.slot = 39) ∧ p.nothingDue ∧ (p.planner.plan.use 39).isUp = false ∧
        (∀ k, (p.entry k).state = .free → (p.entry k).context = none) := by
  unfold Part.nothingDue
  decide +kernel

/-- R45, R147, R150, log 46: the deliveries that a HALT aborts join the entry-write list by short id, car 2's of ring
entry 5 before car 9's of ring entry 4. -/
theorem test_halt_aborts_in_ascending_short_id :
    let p := receiving 20 0
    let x : UplinkContext := { seq := 3, expected := 8, index := 4, truncated := false, sum := 0 }
    let p := { p.setEntry 9 { car with car := 9, context := some x } with
      uplink := { p.uplink with claims := { claim .inProgress with index := 4, sid := 9 } :: p.uplink.claims } }
    let q := (after (.haltTaken false) (on { p with anchor := { p.anchor with haltReq := true } })).part
    q.uplink.entryWrites = [5, 4] := by decide +kernel

/-- Each state of the entry, and a climb, a fall and a hold at the thresholds of R57. -/
theorem witness_QualityFollowsSamples :
    (withCar car fresh).entry 2 = car ∧ car.quality ≤ 252 ∧
      (smooth 100 40, smooth 100 0, smooth 87 22) = (115, 75, 87) ∧
      (stepClass .B .D 88, stepClass .B .D 87, stepClass .B .D 39, stepClass .B .B 252) = (.C, .B, .A, .B) := by
  decide +kernel

/-- A build in ON with a down grant, its answer slot and the duty limit above the history. -/
theorem witness_PlanBuilt :
    let p := withMessage { message with sentTo := 10 } (air 0 none none)
    let q := p.buildPlan 8
    { p with due := { p.due with build := true } }.due.build = true ∧
    q.planner.plan.slots.countP SlotUse.isDown = 1 ∧ q.planner.plan.slots.getLast? = some (.up 2) ∧
      q.planner.h1 = 1 ∧ p.setup.dutyLimit = 100 := by decide +kernel

/-- The part with a STOP message of car 2 and a CONTROL message of car 5, the STOP one admitted first. -/
def twoClasses : Part :=
  let p := withCar { car with queues := { car.queues with stop := [0] } } (air 0 none none)
  let p := p.setEntry 5 { car with car := 0xC005, queues := { car.queues with control := [1] } }
  (p.setRecord 0 (some { message with cls := .stop, sentTo := 30 })).setRecord 1
    (some { message with sid := 5, adm := 1, sentTo := 30 })

/-- A plan that grants both, the STOP message first; car 2 polled in its phase of frame 8, car 5 as an answer. -/
theorem witness_PlanGrants :
    let p := twoClasses
    let q := p.buildPlan 8
    p.timer.substate = .on ∧
      (q.planner.plan.slots.take 2).map (fun u => match u with
        | .down g => some (g.sid, g.cls, g.offset, g.len)
        | _ => none) = [some (2, .stop, 30, 10), some (5, .control, 30, 10)] ∧
      q.planner.plan.slots.countP SlotUse.isUp = 2 ∧ (p.entry 2).onAir = true ∧ (p.entry 2).state = .active ∧
      2 % p.setup.pollPeriod = (8 : Word).toNat % p.setup.pollPeriod := by decide +kernel

/-- In that plan the STOP record earns car 2 nothing, and car 5 pays 16 for its CONTROL fragment, down to −64. -/
theorem witness_PlanGrants_credit :
    let p := twoClasses
    let poor := p.setEntry 5 { p.entry 5 with credit := -64, weight := 1 }
    let left := fun (p : Part) k => ((p.buildPlan 8).entry k).credit
    ((p.entry 5).credit, (p.entry 5).weight, left p 2) = (0, 4, 0) ∧ left p 5 = -12 ∧ left poor 5 = -64 := by
  decide +kernel

/-- A plan of a record with a seq, and of one without that takes its car's next one; classes agree with records. -/
theorem witness_PlanHandedOff :
    (∀ r ∈ [message, { message with seq := none }], queuesFine (on (withMessage r (air 0 none none))) = true) ∧
      (let q := (withMessage { message with seq := none, sentTo := 30 } (air 0 none none)).buildPlan 8
       (q.record 0).map MsgRecord.seq = some (some 0) ∧ (q.entry 2).nextSeq.control = 1 ∧
        q.tx.queue.map (fun e => (e.slot, e.record, e.offset, e.len, e.last)) = [(4, 0, 30, 10, true)] ∧
        q.pool.answers = [{ sid := 2, frame := 8, records := [(0, 0)] }]) := by decide +kernel

/-! ### Witnesses of the hypotheses: layouts -/

theorem witness_MemoryLayouts :
    fresh.anchor.node = .running ∧ (node .halting fresh).anchor.node = .halting := ⟨rfl, rfl⟩

/-- The largest offset and length of a fragment, and poll responses of car 5: three ack entries and a fragment of two
bytes that end with the burst; one byte fewer; four ack entries; another car's. -/
theorem witness_AirLayouts :
    16383 < 16384 ∧ 511 < 512 ∧
      (let acks := ([0x45, 0x01, 0x02, 0] ++ [0x80, 0, 0, 0] ++ [0xC0, 0, 0, 0] : List Byte)
       let whole := [0xC5, 0x63, 0, 0] ++ acks ++ [0x26, 0x01, 0x00, 0x04, 8, 9, 0x12, 0x34]
       parsePoll 5 whole = some
          { alarm := false, leaving := true
            acks := [{ cls := some .control, seq := 5, offset := 258 }, { cls := some .bulk, seq := 0, offset := 0 },
              { cls := none, seq := 0, offset := 0 }]
            fragment := some { seq := 9, last := true, sumPresent := false, offset := 64, len := 2, data := [8, 9]
                               trailer := 0x1234 } } ∧
        parsePoll 5 whole.dropLast = none ∧ parsePoll 4 whole = none ∧
        parsePoll 5 ([0xC5, 4, 0, 0] ++ List.replicate 16 0) = none) := by decide +kernel

/-! ### Witnesses of the hypotheses: directives -/

/-- Each silence state, with no frame start due and with one due that the directive may release. -/
theorem witness_SilenceDirectives :
    ∀ d ∈ [Directive.silence 1 4095, .quietEnd], ∀ sil ∈ [Silence.none, .pending 9 20, .active 20],
      ∀ x ∈ [air 4 none none, starting 7 sil (air 4 none none)],
        let p := handing d { x with timer := { x.timer with silence := sil } }
        p.anchor.node = .running ∧ p.handed = some (.general, item (.handed d), d) :=
  fun _ _ _ _ x hx => by
    simp only [List.mem_cons, List.not_mem_nil, or_false] at hx
    rcases hx with rfl | rfl <;> exact ⟨rfl, rfl⟩

/-- R20, R22: QUIET_END in slot 0 clears the PENDING silence that the frame start waits to begin, and the frame starts
with its beacon at once. -/
theorem test_quiet_end_releases_the_frame_start :
    let x := starting 8 (.pending 8 20) (air 0 none none)
    let p := handing .quietEnd { x with timer := { x.timer with beaconDue := true } }
    let q := (after .quietEnd (on p)).part
    q.timer.silence = .none ∧ q.timer.frame = 8 ∧ q.due.timer = false ∧
      q.port.order = some (.send .A (beaconBytes q.beacon)) := by decide +kernel

/-- A directive for car 0xC001, with that car live and with no car. -/
theorem witness_RosterDirectives_weight :
    ∀ w ∈ [1, 16], ∀ x ∈ [withCar car fresh, fresh],
      let p := handing (.setWeight 0xC001 w) x
      p.anchor.node = .running ∧ p.handed = some (.general, item (.handed (.setWeight 0xC001 w)), .setWeight 0xC001 w) ∧
        (p.liveEntry 0xC001 = some 2 ∨ ∀ k, (p.entry k).live = true → (p.entry k).car ≠ 0xC001) := by decide +kernel

theorem witness_RosterDirectives_cap :
    ∀ c ∈ [RateClass.A, .D], ∀ x ∈ [withCar car fresh, fresh],
      let p := handing (.setCap 0xC001 c) x
      p.anchor.node = .running ∧ p.handed = some (.general, item (.handed (.setCap 0xC001 c)), .setCap 0xC001 c) ∧
        (p.liveEntry 0xC001 = some 2 ∨ ∀ k, (p.entry k).live = true → (p.entry k).car ≠ 0xC001) := by decide +kernel

theorem witness_RosterDirectives_evict :
    ∀ x ∈ [withCar car fresh, withMessage message fresh, receiving 20 0, fresh],
      let p := handing (.evict 0xC001) x
      queuesFine (on p) = true ∧ p.anchor.node = .running ∧
        p.handed = some (.general, item (.handed (.evict 0xC001)), .evict 0xC001) ∧
        (p.liveEntry 0xC001 = some 2 ∨ ∀ k, (p.entry k).live = true → (p.entry k).car ≠ 0xC001) := by decide +kernel

/-- The hypotheses of `RecordsPurged` about a state. -/
def purging (d : Directive) (x : Part) : Bool :=
  let p := handing d x
  queuesFine (on p) && p.anchor.node = .running && p.handed = some (.general, item (.handed d), d)

theorem witness_RecordsPurged :
    purging (.purge 0 none) (withMessage message fresh) = true ∧
      purging (.purge 0xC001 (some .control)) (withMessage message fresh) = true ∧
      (handing (.purge 0xC001 (some .control)) (withMessage message fresh)).liveEntry 0xC001 = some 2 ∧
      purging (.purge 0xC001 none) fresh = true ∧
      (∀ k, ((handing (.purge 0xC001 none) fresh).entry k).live = true →
        ((handing (.purge 0xC001 none) fresh).entry k).car ≠ 0xC001) := by
  refine ⟨?_, ?_, ?_, ?_, ?_⟩ <;> decide +kernel

/-! ### Witnesses of the hypotheses: the node controller -/

theorem freeBus_on (p : Part) (h : p.arb.turn = none) : (on p).freeBus :=
  ⟨(by decide : ResetPin.high ≠ .lowTaken), rfl, h⟩

theorem witness_PlainCyclesReachMemory :
    (on fresh).freeBus ∧ (on fresh).memoryOk ∧
      ∀ a ∈ [Access.word 0x200, .word 0xFFFFFE, .byte 0x201, .byte 0x8800, .byte 0xFFFFE0],
        fresh.handTo a = none ∧ fresh.withheldAt a = none := by
  refine ⟨freeBus_on _ rfl, ?_, by decide +kernel⟩
  unfold State.memoryOk
  decide +kernel

/-- RESET low with no cycle in progress, on a memory that holds a byte; and the word cycles of each kind there. -/
theorem witness_PlainCyclesReachMemory_reset :
    let s := { State.reset with resetPin := .lowTaken, mem := [(0x201, 7)] }
    s.busShared ∧ s.resetPin = .lowTaken ∧ s.host = none ∧ s.memoryOk ∧
      (after (.hostRead (.word 0x200)) s).hostData = 0x0700 ∧
      ∀ c ∈ [Instr.hostWrite (.word 0xFFFFE0) 0x0C01, .start],
        (after c s).part = Part.reset ∧ (after c s).mem = [(0x201, 7), (0xFFFFE0, 1), (0xFFFFE1, 0x0C)] := by
  refine ⟨⟨fun _ => rfl, fun _ h => nomatch h⟩, rfl, rfl, ?_, by decide +kernel, by decide +kernel⟩
  unfold State.memoryOk
  decide +kernel

theorem witness_GuardedWriteWithheld :
    ∀ x ∈ [fresh, node .halting fresh],
      (on x).windowOk ∧ (on x).resetPin ≠ .lowTaken ∧ (on x).host = none ∧ x.anchor.setup = some setup ∧
        ∀ a ∈ [Access.byte 0x8000, .word 0x8400, .byte 0x87FF], (accessAddr a - setup.guarded).toNat < 2048 := by
  have h : ∀ x ∈ [fresh, node .halting fresh], windowFine (on x) = true ∧ (on x).resetPin ≠ .lowTaken ∧
      (on x).host = none ∧ x.anchor.setup = some setup ∧
      ∀ a ∈ [Access.byte 0x8000, .word 0x8400, .byte 0x87FF], (accessAddr a - setup.guarded).toNat < 2048 := by
    decide +kernel
  intro x hx
  exact ⟨windowOk_of (h x hx).1, (h x hx).2⟩

/-- START and HALT: every node state with a free bus. -/
theorem witness_AnchorCommands :
    ∀ x ∈ [Part.reset, loading passed [50], fresh, node .halting fresh], (on x).windowOk ∧ (on x).freeBus := by
  have h : ∀ x ∈ [Part.reset, loading passed [50], fresh, node .halting fresh],
      windowFine (on x) = true ∧ x.arb.turn = none := by decide +kernel
  intro x hx
  exact ⟨windowOk_of (h x hx).1, freeBus_on x (h x hx).2⟩

/-- A word handed to each owner, to none, and a byte to none. -/
theorem witness_PlainCyclesReachMemory_handed :
    fresh.bus.map.isSome = true ∧
      (∀ x ∈ [((0xFFFFE0 : Addr), Watched.anchor), (0x1000, .tail .urgent), (0x3002, .uplinkConsumer)],
        fresh.handTo (.word x.1) = some x.2 ∧ fresh.withheldAt (.word x.1) = none) ∧
      fresh.handTo (.word 0x7000) = none ∧ (node .halting fresh).handTo (.word 0x1000) = none ∧
      Part.reset.bus.map = none ∧ Part.reset.handTo (.word 0xFFFFE0) = some .anchor ∧
      (on Part.reset).freeBus ∧ Part.reset.withheldAt (.word 0xFFFFE0) = none := by
  refine ⟨by decide +kernel, by decide +kernel, by decide +kernel, by decide +kernel, by decide +kernel,
    by decide +kernel, freeBus_on _ rfl, by decide +kernel⟩

/-- The engine about to begin a descriptor of the urgent ring, its tail two beyond read. -/
def beginning : Part :=
  { fresh with adm := { fresh.adm with inHand := some .urgent, urgent := { fresh.adm.urgent with tail := 52 } } }

/-- The urgent ring at done 50 with 8 descriptors: 58 is the last tail taken, 59 and 49 are not; and of two
descriptors offered a tail of 50 leaves both out. -/
theorem witness_TailWriteOffersDescriptors :
    ∀ x ∈ [fresh, beginning, node .halting fresh],
      (on x).windowOk ∧ (on x).freeBus ∧ x.anchor.setup = some setup ∧
        (ahead 50 50 ≤ ahead 50 58 ∧ ahead 50 58 ≤ 8 ∧ 8 < ahead 50 59 ∧ 8 < ahead 50 49 ∧
          (x.ring .urgent).done = 50 ∧ (x.ring .urgent).words = none ∧ (x.ring .urgent).item = none) := by
  have h : ∀ x ∈ [fresh, beginning, node .halting fresh],
      windowFine (on x) = true ∧ x.arb.turn = none ∧ x.anchor.setup = some setup ∧
        (ahead 50 50 ≤ ahead 50 58 ∧ ahead 50 58 ≤ 8 ∧ 8 < ahead 50 59 ∧ 8 < ahead 50 49 ∧
          (x.ring .urgent).done = 50 ∧ (x.ring .urgent).words = none ∧ (x.ring .urgent).item = none) := by
    decide +kernel
  intro x hx
  obtain ⟨a, b, c, d⟩ := h x hx
  exact ⟨windowOk_of a, freeBus_on x b, c, d⟩

/-- The part with two uplink entries for the node controller. -/
def delivered (p : Part) : Part := { p with uplink := { p.uplink with head := 7, producer := 7 } }

theorem delivered_fine :
    ∀ x ∈ [delivered fresh, node .halting (delivered fresh)],
      windowFine (on x) = true ∧ x.arb.turn = none ∧ x.anchor.setup = some setup := by decide +kernel

/-- The consumer at 5 and head at 7: 6 and 7 are taken, 5 and 8 are not. -/
theorem witness_ConsumerAndLevelWrites_values :
    (delivered fresh).uplink.consumer = 5 ∧ (delivered fresh).uplink.head = 7 ∧
      1 ≤ ahead 5 6 ∧ ahead 5 7 ≤ ahead 5 7 ∧ ¬ 1 ≤ ahead 5 5 ∧ ¬ ahead 5 8 ≤ ahead 5 7 := by decide +kernel

theorem witness_ConsumerAndLevelWrites_uplink (x : Part) (h : x ∈ [delivered fresh, node .halting (delivered fresh)]) :
    (on x).windowOk ∧ (on x).freeBus ∧ x.anchor.setup = some setup :=
  ⟨windowOk_of (delivered_fine x h).1, freeBus_on x (delivered_fine x h).2.1, (delivered_fine x h).2.2⟩

/-- `State.eventsOk` of a part with no load in progress. -/
theorem eventsOk_of {s : State} (hl : s.part.anchor.load = none)
    (h : let v := s.part.ev
      v.held.length = ahead v.consumer v.fill ∧ v.writes.length = ahead v.producer v.fill ∧
        ahead v.consumer v.producer + v.writes.length = v.held.length ∧
        v.held.length ≤ s.part.setup.event.size ∧ s.part.setup.event.size ≤ 256 ∧ v.attn = s.part.attnDue) :
    s.eventsOk := by
  obtain ⟨a, b, c, d, e, f⟩ := h
  refine ⟨a, b, c, d, e, fun l u h => ?_, f⟩
  rw [hl] at h
  cases h

/-- The consumer at 9 and producer at 10, with and without a lost count: 10 is taken, 9 and 11 are not. -/
theorem witness_ConsumerAndLevelWrites_event :
    ∀ x ∈ [withHeld fresh, node .halting (withHeld fresh),
        { withHeld fresh with ev := { (withHeld fresh).ev with lostCount := 1, lostKind := some .guardWrite } }],
      (on x).windowOk ∧ (on x).eventsOk ∧ (on x).freeBus ∧ x.anchor.setup = some setup ∧ Mem.wf (on x).mem ∧
        (1 ≤ ahead x.ev.consumer 10 ∧ ahead x.ev.consumer 10 ≤ ahead x.ev.consumer x.ev.producer) ∧
        ¬ 1 ≤ ahead x.ev.consumer 9 ∧ ¬ ahead x.ev.consumer 11 ≤ ahead x.ev.consumer x.ev.producer := by
  have h : ∀ x ∈ [withHeld fresh, node .halting (withHeld fresh),
        { withHeld fresh with ev := { (withHeld fresh).ev with lostCount := 1, lostKind := some .guardWrite } }],
      windowFine (on x) = true ∧ x.anchor.load = none ∧
        (let v := x.ev
         v.held.length = ahead v.consumer v.fill ∧ v.writes.length = ahead v.producer v.fill ∧
          ahead v.consumer v.producer + v.writes.length = v.held.length ∧
          v.held.length ≤ x.setup.event.size ∧ x.setup.event.size ≤ 256 ∧ v.attn = x.attnDue) ∧
        x.arb.turn = none ∧ x.anchor.setup = some setup ∧ Mem.wf (on x).mem ∧
        (1 ≤ ahead x.ev.consumer 10 ∧ ahead x.ev.consumer 10 ≤ ahead x.ev.consumer x.ev.producer) ∧
        ¬ 1 ≤ ahead x.ev.consumer 9 ∧ ¬ ahead x.ev.consumer 11 ≤ ahead x.ev.consumer x.ev.producer := by
    decide +kernel
  intro x hx
  obtain ⟨a, b, c, d, e⟩ := h x hx
  exact ⟨windowOk_of a, eventsOk_of b c, freeBus_on x d, e⟩

theorem witness_ConsumerAndLevelWrites_after_reset :
    (after (.reset (.pin 4) false) (on (withHeld fresh))).resetPin = .lowTaken := by decide +kernel

theorem witness_CycleEndGrantsNextTurn :
    ∀ x ∈ [fresh, { fresh with uplink := { fresh.uplink with headOwed := true } }, reporting 0 fresh],
      let s := { on x with host := some (cycle (.word 0) none false) }
      s.host = some (cycle (.word 0) none false) ∧ (cycle (.word 0) none true).held = true := by decide +kernel

/-- The part with a request of each level and the lowest-level mark at either. -/
theorem witness_CycleEndGrantsNextTurn_levels :
    ∀ q ∈ [Requester.uplink, .transmit, .anchor, .admission, .image, .event], ∀ k ∈ [TurnKind.headWord, .imageWord],
      (fresh.arb.setPend q (some k)).pend q = some k := by decide +kernel

/-- R159: a fetch, an owed done word and an event record are requested, each by its own requester. -/
theorem witness_RequestsPosted :
    (let p := { fresh with adm := { fresh.adm with urgent := { fresh.adm.urgent with doneOwed := true } } }
     (p.post.arb.admission, p.post.arb.transmit) = (some (.doneWord .urgent), none)) ∧
      (sending (fragment .fetching) [] fresh).post.arb.transmit = some .fetch ∧
      (reporting 0 fresh).post.arb.event = some .eventWord ∧
      (let p := { reporting 0 fresh with arb := { fresh.arb with event := some .eventWord } }
       p.post.arb.event = some .eventWord) := by decide +kernel

/-- The hypotheses of the posts of a descriptor read, and of a pass due in HALTING. -/
theorem witness_RequestsPosted_read :
    (beginning.post.arb.admission = some .descRead ∧ beginning.adm.inHand = some .urgent ∧
        (beginning.ring .urgent).words = none ∧ (beginning.post.ring .urgent).read = 51) ∧
      (let p := node .halting fresh
       p.image.writing = none ∧ p.anchor.marks.image = false ∧ (p.entry 0).dirty = true) := by decide +kernel

/-- HALTING with nothing left to do but the image, with that done too, and a report held back by a turn. -/
theorem witness_TeardownReported :
    (let p := { node .halting fresh with anchor := { (node .halting fresh).anchor with
        status := { code := .halting, reason := .none } } }
     let m := p.teardown.anchor.marks
     (m.admission, m.uplink, m.image, m.event) = (true, true, false, true) ∧
      (inTurn .eventWord 0x4000 none p).teardown.anchor.marks.event = false ∧
      { p with anchor := { p.anchor with marks := { m with image := true } } }.teardown.anchor.status.code = .halted) ∧
      fresh.anchor.node ≠ .halting := by decide +kernel

/-- Every cycle that may meet a turn, each at an address that is not withheld. -/
theorem witness_HeldCycleServedNext :
    (let s := on (inTurn .headWord 0x3000 (some (.word 5)) fresh)
     s.resetPin ≠ .lowTaken ∧ s.host = none ∧ s.part.arb.turn = some (turn .headWord 0x3000 (some (.word 5))) ∧
      ∀ a ∈ [Access.word 0x200, .byte 0x201, .word 0xFFFFE0, .word 0x1000, .word 0x2000, .word 0x3002, .word 0x4002,
        .word 0x4004], s.part.withheldAt a = none) ∧
      fresh.bus.map = some { guarded := 0x8000, urgentTail := 0x1000, generalTail := 0x2000, uplinkConsumer := 0x3002
                             eventConsumer := 0x4002, level := 0x4004 } ∧
      ∀ (w : Option Word) (b : Bool) (x : Option Watched),
        let c := { cycle (.word 0x200) w true with withheld := b, handTo := x }
        let s := { on (inTurn .headWord 0x3000 (some (.word 5)) fresh) with host := some c }
        s.part.arb.turn = some (turn .headWord 0x3000 (some (.word 5))) ∧ s.host = some c ∧ c.held = true :=
  ⟨by decide +kernel, by decide +kernel, fun _ _ _ => ⟨rfl, rfl, rfl⟩⟩

/-- R158, R162: a tail write held by a turn is taken by its ring when the turn ends. -/
theorem test_held_tail_write_is_taken :
    let p := inTurn .headWord 0x3000 (some (.word 5)) fresh
    let t := after .headWordWriteDone (after (.tailWordWrite .urgent 52) (on p))
    (t.part.ring .urgent).tail = 52 ∧ Mem.readWord t.mem 0x1000 = 52 ∧ t.host.map HostCycle.held = some false := by
  decide +kernel

/-! ### Witnesses of the hypotheses: the part's own turns -/

theorem witness_TurnsStoreOnlyTheirBytes :
    ∀ w ∈ [none, some (TurnData.word 7), some (.byte 7)], ∀ b : Bool,
      let tn := { turn .headWord 0x3000 w with abandoned := b }
      let s := on { Part.reset with arb := { Part.reset.arb with turn := some tn } }
      s.part.arb.turn = some tn ∧ tn.kind = .headWord ∧ (∀ c, s.host = some c → c.held = false) ∧ Mem.wf s.mem :=
  fun _ _ _ => ⟨rfl, rfl, fun _ h => (nomatch h), (by decide : Mem.wf [])⟩

/-- A place with two bytes left of which one is written, and one with its last byte. -/
theorem witness_UplinkTurnsWritten_deposit :
    ∀ g ∈ [{ index := 5, offset := 1, bytes := [9, 8] }, ({ index := 5, offset := 1, bytes := [9] } : RecvPlace)],
      let p := { fresh with uplink := { fresh.uplink with staging := [g] } }
      (on (inTurn .deposit 0x5501 (some (.byte 9)) p)).inTurn .deposit (turn .deposit 0x5501 (some (.byte 9))) ∧
        p.uplink.staging = g :: [] ∧ (g.bytes.drop 1 ≠ [] ∨ g.bytes.drop 1 = []) :=
  fun g _ => ⟨inTurn_on .deposit 0x5501 (some (.byte 9)) _, rfl, (Decidable.em (g.bytes.drop 1 = [])).symm⟩

/-- The car of the claim DRAINING with nothing but the claim, and not. -/
theorem witness_UplinkTurnsWritten_entry (n : Nat) (p : Part) :
    (on (inTurn .entryWord 0x3060 (some (.word 0)) (claiming n p))).inTurn .entryWord
        (turn .entryWord 0x3060 (some (.word 0))) ∧
      (claiming n p).uplink.entryWrites = 5 :: [] ∧
      (claiming n p).uplink.claims.find? (fun x => x.index = 5) = some (claim .decided) :=
  ⟨inTurn_on _ _ _ _, rfl, rfl⟩

theorem witness_UplinkTurnsWritten_frees_the_car :
    let p := withCar { car with state := .draining, drain := some .lost } (claiming 7 fresh)
    (p.entry 2).state = .draining ∧ p.hasRecord 2 = false ∧ p.uplink.entryWord = some 7 ∧
      ((claiming 7 fresh).entry 2).state ≠ .draining := by decide +kernel

theorem witness_WordTurnsWritten :
    (on (inTurn .headWord 0x3000 (some (.word 5)) fresh)).inTurn .headWord (turn .headWord 0x3000 (some (.word 5))) ∧
      (on (inTurn (.doneWord .urgent) 0x1002 (some (.word 5)) fresh)).inTurn (.doneWord .urgent)
        (turn (.doneWord .urgent) 0x1002 (some (.word 5))) ∧
      (on (inTurn .anchorStatus 0xFFFFE2 (some (.word 6)) (node .halting fresh))).inTurn .anchorStatus
        (turn .anchorStatus 0xFFFFE2 (some (.word 6))) ∧
      fresh.anchor.node = .running ∧ (node .halting fresh).anchor.node = .halting :=
  ⟨inTurn_on _ _ _ _, inTurn_on _ _ _ _, inTurn_on _ _ _ _, by decide +kernel, rfl⟩

/-- A fragment's first word at the watermark, below it and across it, and the last bytes of a prototype with its
stamp. -/
theorem witness_FragmentBytesFetched :
    (∀ w ∈ [10, 11, 40],
      let r := { message with watermark := w }
      let p := (sending (fragment .fetching) [staged [] none] fresh).setRecord 0 (some r)
      p.tx.fetching = some (fragment .fetching) ∧
        p.tx.staging.find? (fun x => x.slot = (fragment .fetching).slot) = some (staged [] none) ∧
        p.record (fragment .fetching).record = some r ∧ r.pieces[0]? = some { addr := 0x7000, len := 40 } ∧
        (0x700A : Addr) = wordBase (0x7000 + BitVec.ofNat 24 (10 - 0))) ∧
      (let e := { fragment .fetching with hdr := 4, stamp := some 2 }
       let p := sending e [staged [1, 2] none] fresh
       p.tx.fetching = some e ∧ p.tx.staging.find? (fun x => x.slot = e.slot) = some (staged [1, 2] none) ∧
        p.record e.record = some message ∧ (0x7002 : Addr) = wordBase (0x7000 + BitVec.ofNat 24 (2 - 0))) := by
  decide +kernel

/-- R116: of a word at the watermark only the byte at sum_start is summed, as the first byte of the sum. -/
theorem test_bytes_below_sum_start_are_not_summed :
    let r := { message with watermark := 10, sumStart := some 11, sum := 5 }
    let p := (sending { fragment .fetching with len := 4 } [staged [] none] fresh).setRecord 0 (some r)
    let q := (after .fragmentFetchDone { on (inTurn .fetch 0x700A none p) with mem := [(0x700A, 1), (0x700B, 2)] }).part
    (q.record 0).map (fun x => (x.watermark, x.sum)) = some (12, 0x0205) := by decide +kernel

/-- A gather table of two entries read again: a word, the last word of its first entry, and of its second. -/
theorem witness_FragmentBytesFetched_table :
    ∀ x ∈ [(0, [0x7000, 0]), (0, [0x7000, 0, 20]), (1, [0x7000, 0, (20 : Word)])],
      let g := { staged [] none with reread := some {
        table := { addr := 0x6000, count := 2 }, pieces := List.replicate x.1 { addr := 0x7000, len := 20 }
        words := x.2 } }
      let p := sending (fragment .fetching) [g] fresh
      p.tx.fetching = some (fragment .fetching) ∧
        p.tx.staging.find? (fun y => y.slot = (fragment .fetching).slot) = some g ∧ p.record 0 = some message := by
  decide +kernel

/-- R88: with the fourth word of the last entry the table's entries are the pieces, and the bytes are fetched next. -/
theorem test_gather_table_is_read_again :
    let g := { staged [] none with reread := some {
      table := { addr := 0x6000, count := 1 }, pieces := [], words := [0x7100, 0, 40] } }
    let q := (after .fragmentFetchDone (on (inTurn .fetch 0x6006 none (sending (fragment .fetching) [g] fresh)))).part
    (q.record 0).map MsgRecord.pieces = some [{ addr := 0x7100, len := 40 }] ∧
      q.tx.staging.map Staged.reread = [none] ∧ q.arb.turn.map Turn.addr = some 0x710A := by decide +kernel

/-- The eighth word of a descriptor of each kind, no item open, and the node running. -/
theorem witness_DescriptorRead_begins (ws : List Word) :
    (on (inTurn .descRead 0x205E none (reading ws none fresh))).inTurn .descRead (turn .descRead 0x205E none) ∧
      (reading ws none fresh).adm.inHand = some .general ∧ ((reading ws none fresh).ring .general).words = some ws ∧
      ((reading ws none fresh).ring .general).item = none :=
  ⟨inTurn_on _ _ _ _, rfl, rfl, rfl⟩

theorem witness_each_kind_of_descriptor :
    parseDescriptor [0, 0, 0, 0, 0, 0, 0, 0] = .unknown ∧
      parseDescriptor [2, 1, 0x7000, 0, 40, 0, 0, 0] = .data true false 0 0x7000 40 ∧
      parseDescriptor [2, 0x0203, 0x7000, 0, 0, 0, 0, 0] = .data true true 2 0x7000 0 ∧
      parseDescriptor [3, 7, 0, 0, 0, 0, 0, 0] = .directive none ∧
      parseDescriptor (sevenWords ++ [0]) = .directive (some (.setWeight 0xC001 16)) ∧
      parseDescriptor [1, 2, 0xC001, 0, 40, 0xFFFF, 0xFF, 5] =
        .message { cls := some .control, car := 0xC001, len := 40, hdr := 0, sumStart := none, stamp := none
                   lifetime := 5 } := by decide

/-- A message open, sound and broken, with its first and its ninth DATA descriptor to come. -/
theorem witness_DescriptorRead_extends (it : OpenItem) :
    (on (inTurn .descRead 0x205E none (reading sevenWords (some it) fresh))).inTurn .descRead
        (turn .descRead 0x205E none) ∧
      (reading sevenWords (some it) fresh).adm.inHand = some .general ∧
      ((reading sevenWords (some it) fresh).ring .general).words = some sevenWords ∧ sevenWords.length = 7 ∧
      ((reading sevenWords (some it) fresh).ring .general).item = some it ∧
      1 + 1 ≤ 9 ∧ 9 < 9 + 1 ∧ (0x6000 : Addr).toNat + 8 * 8 ≤ 16777216 ∧ ¬ (0xFFFFF8 : Addr).toNat + 8 * 2 ≤ 16777216 :=
  ⟨inTurn_on _ _ _ _, rfl, rfl, rfl, rfl, by decide, by decide, by decide, by decide⟩

/-- The third and fourth word of the first of two entries of a gather table, and the last word of the second. -/
theorem witness_GatherTableRead :
    ∀ g ∈ [{ addr := 0x6000, count := 2, entries := 0, words := [0x7000, 0] },
        { addr := 0x6000, count := 2, entries := 0, words := [0x7000, 0, 39] },
        ({ addr := 0x6000, count := 2, entries := 1, words := [0x7000, 0, 39] } : GatherFetch)],
      let p := working (some (item (.gathering g))) fresh
      (on (inTurn .gatherRead 0x6006 none p)).inTurn .gatherRead (turn .gatherRead 0x6006 none) ∧
        p.adm.inHand = some .general ∧ (p.ring .general).item = some (item (.gathering g)) :=
  fun _ _ => ⟨inTurn_on _ _ _ _, rfl, rfl⟩

theorem witness_GatherTableRead_verdicts :
    judgeMessage .general (item .collecting).fields [{ addr := 0x7000, len := 39 }] false = some .lengthMismatch ∧
      judgeMessage .general (item .collecting).fields [{ addr := 0x7000, len := 40 }] false = none := by decide

/-- R92: one message for each outcome of its checks. -/
theorem witness_MessageJudgedAndAllocated_checks :
    let m : MsgFields :=
      { cls := some .stop, car := 1, len := 50, hdr := 6, sumStart := some 49, stamp := some 4, lifetime := 0 }
    judgeMessage .general m [] false = some .wrongRing ∧ judgeMessage .urgent m [] true = some .badDescriptor ∧
      judgeMessage .urgent m [{ addr := 0, len := 55 }] false = some .lengthMismatch ∧
      judgeMessage .urgent m [{ addr := 0, len := 5 }, { addr := 9, len := 51 }] false = some .badDescriptor ∧
      judgeMessage .urgent { m with len := 51 } [{ addr := 0, len := 57 }] false = some .tooLong ∧
      judgeMessage .urgent m [{ addr := 0, len := 56 }] false = none := by decide

/-- The part with only `n` pool places free. -/
def crowded (n : Nat) (p : Part) : Part :=
  { p with pool := { p.pool with
      records := Vector.ofFn (fun i => if i.val < 96 - n then some { message with state := .retiring } else none) } }

/-- Each outcome of the allocation step: no car, a full queue, no room, room. -/
theorem witness_MessageJudgedAndAllocated_steps :
    (item .collecting).fields.cls = some .control ∧
      (∀ k, (fresh.entry k).live = true → (fresh.entry k).car ≠ 0xC001) ∧
      (withCar car fresh).liveEntry 0xC001 = some 2 ∧
      24 ≤ Entry.queued { car with queues := { car.queues with control := List.replicate 24 0 } } ∧
      (crowded 8 (withCar car fresh)).freeRecords = 8 ∧ (crowded 9 (withCar car fresh)).freeRecords = 9 := by
  refine ⟨?_, ?_, ?_, ?_, ?_, ?_⟩ <;> decide +kernel

/-- R93: of a car with 23 records queued and one handed over, the next message finds the queue full. -/
theorem test_handed_records_count_in_the_car_load :
    let p := withCar { car with queues := { car.queues with bulk := List.replicate 23 5 } } fresh
    let p := { p.setRecord 0 (some { message with state := .handed }) with pool := { p.pool with
      records := p.pool.records.set 0 (some { message with state := .handed }), handed := [0] } }
    (p.allocStep .general (item .collecting)).adm.writeBacks = [.item .general 100 .queueFull] := by decide +kernel

/-- R93: a record allocated is handed to the pool and joins no queue in the same step. -/
theorem test_allocated_record_is_handed_to_the_pool :
    let q := (working (some (item .collecting)) (withCar car fresh)).allocStep .general (item .collecting)
    (q.record 0).map MsgRecord.state = some .handed ∧ q.pool.handed = [0] ∧ (q.entry 2).queues = car.queues := by
  decide +kernel

/-- The part with an item open in a ring at a stage, or a descriptor kept, and the engine free. -/
def serving (r : RingId) (it : Option OpenItem) (kept : Option Descriptor) : Part :=
  let p := withCar car fresh
  p.setRing r { p.ring r with item := it, kept := kept, tail := (p.ring r).read + 1 }

/-- A stalled item with room, a kept descriptor, an item that waits on its tail, and a ring with nothing open; the
urgent ring with work and without. -/
theorem witness_EngineServes :
    ∀ r ∈ [RingId.urgent, .general],
      ∀ x ∈ [(some (item .stalled), none), (none, some Descriptor.unknown), (some (item .collecting), none), (none, none)],
        let p := serving r x.1 x.2
        (∀ z ∈ [RingId.urgent, .general], (p.ring z).kept ≠ none → (p.ring z).item = none) ∧ p.anchor.node = .running ∧
          p.adm.inHand = none ∧ 8 < p.freeRecords ∧ ahead (p.ring r).done (p.ring r).read < ahead (p.ring r).done (p.ring r).tail ∧
          (r = .general → (p.ring .urgent).item = none ∧ (p.ring .urgent).kept = none ∧
            (p.ring .urgent).tail = (p.ring .urgent).read) := by decide +kernel

/-- The part with a record handed to its pool, its car in a state. -/
def handingOver (st : EntryState) (why : Option DrainReason) (waited : Bool) : Part :=
  let r := { message with state := .handed, seq := none, acked := 0, sentTo := 0, watermark := 0, attempts := 0 }
  let p := Part.setRecord (withCar { car with state := st, drain := why } fresh) 0 (some r)
  { p with pool := { p.pool with handed := [0], waited := waited } }

/-- A record handed over, its car live and DRAINING, that has waited and that has not; and no record handed over. -/
theorem witness_HandoffsTaken :
    (∀ x ∈ [handingOver .active none false, handingOver .active none true, handingOver .draining (some .lost) true],
      queuesFine (on x) = true ∧ x.pool.handed ≠ []) ∧
      queuesFine (on fresh) = true ∧ fresh.pool.handed = [] := by decide +kernel

/-- R103: a record handed over before a frame start ages at it, and may expire. -/
theorem test_handed_record_ages_at_the_frame_start :
    let x := handingOver .active none true
    let q := Part.frameWork { x with due := { x.due with ageing := true } } .ageing
    (q.record 0).map (fun r => (r.age, r.outcome)) = some (5, some .expired) ∧ q.pool.handed = [] := by decide +kernel

/-- R95: a record that has waited joins the empty class queue as its CURRENT message. -/
theorem test_handed_record_joins_as_current :
    let q := (handingOver .active none true).takeHandoffs 0
    (q.record 0).map MsgRecord.state = some .current ∧ (q.entry 2).queues.control = [0] := by decide +kernel

/-- R42, R106: a record whose car drains before it joins retires with the drain reason on joining. -/
theorem test_handed_record_of_a_draining_car_retires :
    let q := (handingOver .draining (some .lost) true).takeHandoffs 0
    (q.record 0).map MsgRecord.outcome = some (some .lost) ∧ q.adm.writeBacks = [.record 0] := by decide +kernel

/-- The part with an item or a record to write back. -/
def owing (wb : WriteBack) (p : Part) : Part := { p with adm := { p.adm with writeBacks := [wb] } }

theorem witness_StatusWrittenBack :
    (∀ wb, (on (inTurn .writeBack 0x2051 (some (.byte 5)) (owing wb fresh))).inTurn .writeBack
        (turn .writeBack 0x2051 (some (.byte 5))) ∧ (owing wb fresh).adm.writeBacks = wb :: []) ∧
      (let r := { message with state := .retiring, outcome := some .lost }
       let p := withCar { car with state := .draining, drain := some .lost } ((owing (.record 0) fresh).setRecord 0 (some r))
       p.record 0 = some r ∧ (p.entry 2).state = .draining ∧ (∀ j, j ≠ 0 → p.record j = none) ∧
        p.hasClaim 2 = false) :=
  ⟨fun _ => ⟨inTurn_on _ _ _ _, rfl⟩, by decide +kernel⟩

/-- Log 44: an answer list no longer names the place of a record that is freed. -/
theorem test_freed_record_leaves_the_answer_lists :
    let r := { message with state := .retiring, outcome := some .purged }
    let p := owing (.record 0) ((answering message).setRecord 0 (some r))
    (after .statusWriteBackDone (on (inTurn .writeBack 0x2051 (some (.byte 4)) p))).part.pool.answers =
      [{ sid := 2, frame := 7, records := [] }] := by decide +kernel

theorem witness_LoadSucceeds (reads : List Word) :
    (on (inTurn .doneRead 0x2002 none (loading passed reads))).inTurn .doneRead (turn .doneRead 0x2002 none) ∧
      (loading passed reads).anchor.load = some passed ∧ passed.passed = some setup ∧
      (loading passed reads).adm.loadReads = reads :=
  ⟨inTurn_on _ _ _ _, rfl, rfl, rfl⟩

theorem witness_SetupWordRead (l : Load) :
    (on (inTurn .setupRead 0xFFFFE6 none (loading l []))).inTurn .setupRead (turn .setupRead 0xFFFFE6 none) ∧
      (loading l []).anchor.load = some l :=
  ⟨inTurn_on _ _ _ _, rfl⟩

/-- The words of a record that passes, of the setup above; each change of one word meets the next check. -/
def recordWords : List Word :=
  [17, 0x0202, 0x0306, 0x0464, 0x1000, 0, 8, 0, 0x2000, 0, 16, 0, 0x3000, 0, 8, 0, 0x4000, 0, 16, 0, 0x5000, 0, 256,
    5, 9, 0, 0x8000, 0, 0, 0, 0]

/-- The word that makes the sum of a record all ones. -/
def sumWord (ws : List Word) : Word := ~~~(onesSum ws)

/-- The end addresses of the setup record: odd, one word too far, and the last that fits. -/
theorem witness_SetupWordRead_address :
    (0x0101 + 65536 * (0 % 256)) % 2 = 1 ∧ 0xFFFFE0 < 0xFFA2 + 65536 * (0xFF % 256) + 64 ∧
      0xFFA0 + 65536 * (0xFF % 256) + 64 = 0xFFFFE0 := by decide

theorem witness_SetupWordRead_checks :
    let why := fun (ws : List Word) => setupFailure (ws ++ [sumWord ws]) (onesSum (ws ++ [sumWord ws]))
    recordWords.length = 31 ∧ why recordWords = none ∧ parseSetup (recordWords ++ [sumWord recordWords]) = setup ∧
      setupFailure (recordWords ++ [0]) (onesSum (recordWords ++ [0])) = some .sum ∧
      why (recordWords.set 6 9) = some .size ∧ why (recordWords.set 4 0x1008) = some .align ∧
      why (recordWords.set 4 0x2000) = some .overlap := by decide +kernel

/-- R172: fields beyond their ranges are clamped: a node id of 0, poll_period 0 with fade_after 255, lose_after 0. -/
theorem test_setup_fields_are_clamped :
    let u := parseSetup (((recordWords.set 0 0).set 1 0xFF00).set 2 0xFF00)
    (u.nodeId, u.pollPeriod, u.fadeAfter, u.loseAfter, u.retryLimit) = (1, 1, 7, 8, 15) := by decide +kernel

/-- The words of a record, its last and the counter after it, of the last entry, of one before a dirty entry and
of the summary, with and without a pass owed. -/
theorem witness_ImageRecordsWritten :
    (∀ x n owed p, (on (inTurn .imageWord 0x8000 (some (.word 0)) (imaging x n owed p))).inTurn .imageWord
        (turn .imageWord 0x8000 (some (.word 0))) ∧
        (imaging x n owed p).image.writing = some { record := x, fields := [], word := n } ∧
        (imaging x n owed p).image.owed = owed) ∧
      (∀ k, ((clean fresh).entry k).dirty = false) ∧ (fresh.entry 0).dirty = true ∧ fresh.anchor.node = .running :=
  ⟨fun _ _ _ _ => ⟨inTurn_on _ _ _ _, rfl, rfl⟩, by decide +kernel, by decide +kernel, by decide +kernel⟩

/-- The same in HALTING, with the image complete and not: a pass begun after the HALT, and one before it. -/
theorem witness_HaltingImage :
    (∀ x n owed p, (on (inTurn .imageWord 0x8000 (some (.word 0)) (node .halting (imaging x n owed p)))).inTurn .imageWord
        (turn .imageWord 0x8000 (some (.word 0))) ∧
        (node .halting (imaging x n owed p)).image.writing = some { record := x, fields := [], word := n }) ∧
      fresh.pool.handed = [] ∧ fresh.anchor.marks.image = false ∧ fresh.image.postHalt = false ∧
      (∀ k, ((clean fresh).entry k).state = .free ∧ ((clean fresh).entry k).dirty = false) ∧ (fresh.entry 0).dirty = true :=
  ⟨fun _ _ _ _ => ⟨inTurn_on _ _ _ _, rfl⟩, by decide +kernel⟩

/-- R52: the summary of a pass begun after the HALT, with every entry FREE, completes the image. -/
theorem test_halting_image_completes :
    let x := imaging .summary 16 false (clean fresh)
    let p := node .halting { x with image := { x.image with postHalt := true } }
    let q := (after .imageWriteDone (on (inTurn .imageWord 0x8000 (some (.word 0)) p))).part
    q.anchor.marks.image = true ∧ q.image.writing = none := by decide +kernel

theorem witness_WordTurnsWritten_event (n : Nat) :
    (on (inTurn .eventWord 0x4000 (some (.word 10)) (reporting n fresh))).inTurn .eventWord
        (turn .eventWord 0x4000 (some (.word 10))) ∧
      (reporting n fresh).ev.writes = record :: [] ∧ (reporting n fresh).ev.word = n :=
  ⟨inTurn_on _ _ _ _, rfl, rfl⟩

/-! ### Witnesses of the invariants -/

theorem busy_step : step busy = .next (after (.sent false) { busy with pending := [] }) := rfl

theorem witness_MemoryFormKept : busy.memoryOk := (by decide : Mem.wf [(0x200, 1)])

theorem witness_BusAndWindowKept : busy.busShared ∧ busy.windowOk :=
  ⟨⟨fun h => (nomatch h), fun _ h => nomatch h⟩, windowOk_of (by decide +kernel)⟩

/-- The state that the end of a cycle leaves, with the requests of `busy` posted. -/
theorem witness_BusAndWindowKept_live :
    let s := after .hostCycleEnd { busy with host := some (cycle (.word 0) none false) }
    s.busLive ∧ s.part.arb.turn.isSome = true := by
  have h : ∀ q, ((after .hostCycleEnd { busy with host := some (cycle (.word 0) none false) }).part.arb.pend q).all
      (fun k => k.requester = q) = true := by
    intro q
    cases q <;> decide +kernel
  have g : (after .hostCycleEnd { busy with host := some (cycle (.word 0) none false) }).part.arb.turn.isSome = true := by
    decide +kernel
  refine ⟨⟨?_, fun q k hq => ?_, fun hi => ?_⟩, g⟩
  · unfold Part.settled
    decide +kernel
  · have := h q
    rw [hq] at this
    simpa using this
  · rw [hi.2] at g
    cases g

theorem witness_RosterAndReserveKept_queue : busy.annOk ∧ busy.reserveOk := by
  unfold State.annOk State.reserveOk
  decide +kernel

theorem witness_RosterAndReserveKept_cars : busy.carsUnique := by
  have h : ∀ k, (busy.part.entry k).live = true → k = 2 := by decide +kernel
  intro j k hj hk _
  rw [h j hj, h k hk]

theorem witness_RosterAndReserveKept_entries : busy.entriesOk := by
  have h : ∀ k, (busy.part.entry k).quality ≤ 252 ∧ -64 ≤ (busy.part.entry k).credit ∧
      (busy.part.entry k).credit ≤ 64 ∧ (busy.part.entry k).context.isSome = false := by decide +kernel
  intro k
  obtain ⟨a, b, c, d⟩ := h k
  refine ⟨a, b, c, fun g => absurd ?_ g⟩
  cases hx : (busy.part.entry k).context with
  | none => rfl
  | some x => rw [hx] at d; cases d

theorem witness_QueuesKept : busy.queuesOk ∧ busy.loadOk := by
  refine ⟨queuesOk_of (by decide +kernel), ?_⟩
  unfold State.loadOk
  decide +kernel

theorem witness_PlanAndAirKept_plan : busy.planOk := by
  refine ⟨by decide +kernel, by decide +kernel, by decide +kernel, by decide +kernel, by decide +kernel, ?_⟩
  have h : ∀ x ∈ busy.part.planner.plan.slots, x.isDown = false := by decide +kernel
  intro i j u v hu _ hd _
  rw [h u (List.mem_of_getElem? hu)] at hd
  cases hd

theorem witness_PlanAndAirKept_air : busy.windowOk ∧ busy.airQuiet := by
  refine ⟨windowOk_of (by decide +kernel), ?_⟩
  unfold State.airQuiet
  decide +kernel

theorem witness_RingsKept_staging : busy.stagingOk ∧ busy.keptOk :=
  ⟨(by decide : (0 : Nat) ≤ 1024 ∧ 0 ≤ 4), fun r h => by cases r <;> exact absurd rfl h⟩

theorem witness_RingsKept_event : busy.eventsOk := eventsOk_of rfl (by decide +kernel)

theorem witness_RingsKept_uplink : busy.uplinkOk := by
  refine ⟨by decide +kernel, by decide +kernel, by decide +kernel, by decide +kernel, ?_, fun _ _ h => nomatch h⟩
  intro i c h
  have hc : busy.part.uplink.claims = [claim .decided] := rfl
  rw [hc] at h
  match i, h with
  | 0, h => cases h; rfl

end Sys2Proof.Tests
end

