-- ==== Sys2Proof/Proofs/AirMoves.lean ====
section
/-! SUPPORT. What a command does to the air side: the node state, the load, the Frame Timer, the Burst Port, the work
due and the plan. Every command is a sequence of the moves of `AirMove`, so that a property of the air side is kept by
every step once each move keeps it. -/

namespace Sys2Proof.Machine

/-- What the two sides of the part agree on when a change does not concern the air. -/
structure Part.sameAir (p q : Part) : Prop where
  node : q.anchor.node = p.anchor.node
  load : q.anchor.load = p.anchor.load
  timer : q.timer = p.timer
  port : q.port = p.port
  due : q.due = p.due
  planner : q.planner = p.planner

/-- The moves of the air side. -/
inductive AirMove : Part → Part → Prop
  | other {p q : Part} (h : p.sameAir q) : AirMove p q
  | reset (p : Part) : AirMove p Part.reset
  | answer (p : Part) (a : Answer) : AirMove p { p with port := p.port.take a }
  | work (p : Part) (w : FrameWork) : AirMove p (p.frameWorkThenBeacon w)
  | boundary {p : Part} (order : List FrameWork) (h : p.anchor.node = .running) : AirMove p (p.slotBoundary order)
  | halt {p : Part} (first : Bool) (h : p.anchor.node = .running) : AirMove p (p.flushDue.takeHalt first)
  | silence (p : Part) (sil : Silence) : AirMove p (p.setSilence sil)
  | anchor (p : Part) (v : Word) : AirMove p (p.anchorCommand v)
  | setupWord (p : Part) (w : Word) : AirMove p (p.setupWord w)
  | doneWord (p : Part) (w : Word) : AirMove p (p.doneWordRead w)
  | status (p : Part) (t : Option TurnData) : AirMove p (p.statusWritten t)

/-- A sequence of moves of the air side. -/
abbrev AirMoves : Part → Part → Prop := Relation.ReflTransGen AirMove

/-- What every move keeps, every sequence of moves keeps. -/
theorem AirMoves.keep {I : Part → Prop} (h : ∀ p q, AirMove p q → I p → I q) {p q : Part} (hm : AirMoves p q)
    (hp : I p) : I q := by
  induction hm with
  | refl => exact hp
  | tail _ hx ih => exact h _ _ hx ih

/-- A change that leaves the anchor unit and the air side alone is no move of the air. -/
theorem Part.sameAir_of_frame {p q : Part} (ha : q.anchor = p.anchor) (ht : q.timer = p.timer) (hp : q.port = p.port)
    (hd : q.due = p.due) (hq : q.planner = p.planner) : p.sameAir q :=
  ⟨by rw [ha], by rw [ha], ht, hp, hd, hq⟩

/-! ### The pump and the cycles of the node controller -/

@[simp] theorem Part.teardown_mode (p : Part) :
    p.teardown.anchor.node = p.anchor.node ∧ p.teardown.anchor.load = p.anchor.load := by
  unfold Part.teardown Part.setStatus
  dsimp only
  (repeat' split) <;> simp

@[simp] theorem Part.setStatus_load (p : Part) (c : StatusCode) (r : Reason) :
    (p.setStatus c r).anchor.load = p.anchor.load := rfl

@[simp] theorem Part.carryOut_mode (p : Part) (k : TurnKind) :
    (p.carryOut k).anchor.node = p.anchor.node ∧ (p.carryOut k).anchor.load = p.anchor.load := by
  cases k <;> simp [Part.carryOut]

@[simp] theorem Part.grant_mode (p : Part) :
    p.grant.anchor.node = p.anchor.node ∧ p.grant.anchor.load = p.anchor.load := by
  obtain ⟨_, h⟩ | ⟨q, k, _, _, h⟩ := p.grant_cases <;> simp [h]

@[simp] theorem Part.follow_mode (p : Part) :
    p.follow.anchor.node = p.anchor.node ∧ p.follow.anchor.load = p.anchor.load := by
  simp [Part.follow]

/-- After a command the part goes on without touching the air. -/
theorem State.pump_sameAir (s : State) : s.part.sameAir s.pump.part := by
  obtain ⟨-, ht, hp, hd, hq, -, -⟩ := s.pump_part
  refine ⟨?_, ?_, ht, hp, hd, hq⟩ <;>
  · unfold State.pump
    dsimp only
    split <;> simp

theorem State.act_moves (s : State) (f : Part → Part) (h : AirMoves s.part (f s.part)) :
    AirMoves s.part (s.act f).part :=
  h.tail (.other (State.pump_sameAir { s with part := f s.part }))

/-- A written value reaches its owner: of the air, only START and HALT concern it. -/
theorem Part.deliver_moves (p : Part) (v : Word) (x : Watched) : AirMoves p (p.deliver v x) := by
  cases x with
  | anchor => exact .single (.anchor p v)
  | _ => exact .single (.other (Part.sameAir_of_frame (by simp [Part.deliver]) (by simp) (by simp) (by simp) (by simp)))

theorem State.perform_moves (s : State) (c : HostCycle) : AirMoves s.part (s.perform c).part := by
  unfold State.perform
  dsimp only
  split
  · exact .refl
  · split
    · exact .refl
    · dsimp only
      split
      · exact .refl
      · exact Part.deliver_moves ..

theorem State.serveHeld_moves (s : State) : AirMoves s.part s.serveHeld.part := by
  unfold State.serveHeld
  split
  · exact .refl
  · split
    · exact s.perform_moves _
    · exact .refl

theorem State.takeCycle_moves {s t : State} {a : Access} {w : Option Word} (h : s.takeCycle a w = .next t) :
    AirMoves s.part t.part := by
  have taken : AirMoves s.part (s.takenPart a (s.newCycle a w)) := by
    unfold State.takenPart
    split
    · exact .single (.other (Part.sameAir_of_frame (by simp) (by simp) (by simp) (by simp) (by simp)))
    · exact .refl
  unfold State.takeCycle at h
  split at h
  · cases h
  · cases h
    refine Relation.ReflTransGen.tail ?_ (.other (State.pump_sameAir _))
    split
    · exact taken
    · exact taken.trans (State.perform_moves { s with part := s.takenPart a (s.newCycle a w) } _)

theorem State.takeMapped_moves {s t : State} {f : WindowMap → Addr} {w : Word} (h : s.takeMapped f w = .next t) :
    AirMoves s.part t.part := by
  unfold State.takeMapped at h
  split at h
  · cases h; exact .refl
  · exact State.takeCycle_moves h

/-! ### Completions and directives -/

theorem State.finishTurn_moves (s : State) (kind : TurnKind → Bool) {f : Part → Turn → Word → Part}
    (h : ∀ p t w, AirMoves p (f p t w)) : AirMoves s.part (s.finishTurn kind f).part := by
  unfold State.finishTurn
  split
  · exact .refl
  · split
    · refine Relation.ReflTransGen.tail ?_ (.other (State.pump_sameAir _))
      refine Relation.ReflTransGen.trans ?_ (State.serveHeld_moves _)
      have free : AirMoves s.part { s.part with arb := { s.part.arb with turn := none } } :=
        .single (.other (Part.sameAir_of_frame rfl rfl rfl rfl rfl))
      dsimp only
      split
      · exact free
      · exact free.trans (h _ _ _)
    · exact .refl

theorem State.takeDirective_moves (s : State) {effect : Part → Directive → Option (Part × Status)}
    (h : ∀ p d x, effect p d = some x → AirMoves p x.1) : AirMoves s.part (s.takeDirective effect).part := by
  unfold State.takeDirective
  split
  · exact .refl
  · split
    · exact .refl
    · rename_i q st he
      refine State.act_moves s _ ((h _ _ _ he).tail ?_)
      exact .other (Part.sameAir_of_frame (by simp) (by simp) (by simp) (by simp) (by simp))

@[simp] theorem Part.imageWritten_mode (p : Part) :
    p.imageWritten.anchor.node = p.anchor.node ∧ p.imageWritten.anchor.load = p.anchor.load := by
  unfold Part.imageWritten Part.endPass
  dsimp only
  (repeat' split) <;> simp

/-! ### Every command -/

/-- The part after a reset that is taken: a cycle it releases is handed to no owner (R167). -/
@[simp] theorem State.takeReset_part (s : State) (b : Bool) : (s.takeReset b).part = Part.reset := by
  unfold State.takeReset State.releaseHeld State.perform
  dsimp only
  (repeat' split) <;> simp_all

theorem State.answerModem_moves (s : State) (late : Bool) (a : Answer) :
    AirMoves s.part (s.answerModem late a).part := by
  unfold State.answerModem
  split
  · exact .refl
  · exact .single (.answer _ _)

/-- Every command is a sequence of moves of the air side. -/
theorem exec_moves (c : Instr) {s t : State} (h : exec c s = .next t) : AirMoves s.part t.part := by
  have free : ∀ {p q : Part}, q.anchor = p.anchor → q.timer = p.timer → q.port = p.port → q.due = p.due →
      q.planner = p.planner → AirMoves p q := fun a b c d e => .single (.other (Part.sameAir_of_frame a b c d e))
  cases c with
  | reset cause b =>
    cases h
    (repeat' split)
    all_goals first | exact .refl | (simp only [State.takeReset_part]; exact .single (.reset _))
  | slotBoundary o =>
    cases h
    split
    · next hn => exact State.act_moves s _ (.single (.boundary o hn))
    · exact .refl
  | sent late => cases h; exact s.answerModem_moves late _
  | heard o q c bs late => cases h; exact s.answerModem_moves late _
  | fault late => cases h; exact s.answerModem_moves late _
  | messageExpiry | grantWaitExpiry | silenceStarts | silenceEnds =>
    cases h
    split
    exacts [State.act_moves s _ (.single (.work _ _)), .refl]
  | uplinkSlotResult => cases h; split; exacts [.refl, State.act_moves s _ (.single (.work _ _))]
  | haltTaken first =>
    cases h
    split
    · next hc =>
      simp only [Bool.and_eq_true, decide_eq_true_eq] at hc
      exact State.act_moves s _ (.single (.halt first hc.1.1))
    · exact .refl
  | hostRead a => exact State.takeCycle_moves h
  | hostWrite a w => exact State.takeCycle_moves h
  | guardedWrite a w => exact State.takeCycle_moves h
  | start => exact State.takeCycle_moves h
  | halt => exact State.takeCycle_moves h
  | tailWordWrite r v => exact State.takeMapped_moves h
  | uplinkConsumerWrite v => exact State.takeMapped_moves h
  | eventConsumerWrite v => exact State.takeMapped_moves h
  | levelWordWrite v => exact State.takeMapped_moves h
  | hostCycleEnd =>
    cases h
    unfold State.endCycle
    split
    · exact .refl
    · split
      · exact .refl
      · exact .single (.other (State.pump_sameAir { s with host := none }))
  | uplinkDepositDone | uplinkEntryWriteDone | headWordWriteDone | fragmentFetchDone | descriptorReadDone
  | gatherReadDone | statusWriteBackDone | eventRecordWriteDone =>
    cases h
    exact s.finishTurn_moves _ fun p t w => free (by simp) (by simp) (by simp) (by simp) (by simp)
  | doneWordWriteDone => cases h; exact s.finishTurn_moves _ fun p t w => .refl
  | doneWordReadDone => cases h; exact s.finishTurn_moves _ fun p t w => .single (.doneWord p w)
  | setupReadDone => cases h; exact s.finishTurn_moves _ fun p t w => .single (.setupWord p w)
  | anchorStatusWriteDone => cases h; exact s.finishTurn_moves _ fun p t w => .single (.status p t.write)
  | imageWriteDone =>
    cases h
    exact s.finishTurn_moves _ fun p t w => .single (.other ⟨by simp, by simp, by simp, by simp, by simp, by simp⟩)
  | evict | setWeight | setCap | purge =>
    cases h
    refine s.takeDirective_moves fun p d x he => ?_
    cases d <;> cases he
    exact free (by simp) (by simp) (by simp) (by simp) (by simp)
  | silence | quietEnd =>
    cases h
    refine s.takeDirective_moves fun p d x he => ?_
    cases d <;> cases he
    exact .single (.silence _ _)
  | resetRisingEdge st =>
    cases h
    split <;> exact .refl

/-- Every step is a sequence of moves of the air side. -/
theorem step_moves {s t : State} (h : step s = .next t) : AirMoves s.part t.part := by
  unfold step at h
  split at h
  · cases h; exact .refl
  · next c cs _ => exact exec_moves (s := { s with pending := cs }) c h

end Sys2Proof.Machine
end

