-- ==== Sys2Proof/Proofs/Settlement.lean ====
section
/-! SUPPORT. The end of a slot (R6, R7): how the port's answer settles it, what its use makes of that, and what every
settlement leaves as it is. -/

namespace Sys2Proof.Machine

/-! ### The cases of a settlement -/

/-- How a slot without an order, a faulted one and an answered one are settled (R6). -/
theorem BurstPort.settled_of {b : BurstPort} :
    (b.order = none → b.settled = .noOrder) ∧
      (b.order ≠ none → b.answer = none ∨ b.answer = some .fault → b.settled = .faulted) ∧
      (b.order ≠ none → b.answer = some .sent ∨ (∃ h, b.answer = some (.heard h)) → b.settled = .answered) := by
  obtain ⟨o, a⟩ := b
  refine ⟨fun h => ?_, fun h ha => ?_, fun h ha => ?_⟩
  · subst h; rfl
  · obtain ⟨o, rfl⟩ := Option.ne_none_iff_exists'.mp h
    rcases ha with rfl | rfl <;> rfl
  · obtain ⟨o, rfl⟩ := Option.ne_none_iff_exists'.mp h
    rcases ha with rfl | ⟨x, rfl⟩ <;> rfl

/-- What an up slot gave (R7). -/
theorem BurstPort.upOutcome_of {b : BurstPort} :
    (b.order = none → b.upOutcome = .withheld) ∧
      (b.order ≠ none → b.answer = none ∨ b.answer = some .fault → b.upOutcome = .nothing) ∧
      (∀ h, b.order ≠ none → b.answer = some (.heard h) → b.upOutcome = .heard h) := by
  obtain ⟨o, a⟩ := b
  refine ⟨fun h => ?_, fun h ha => ?_, fun x h ha => ?_⟩
  · subst h; rfl
  · obtain ⟨o, rfl⟩ := Option.ne_none_iff_exists'.mp h
    rcases ha with rfl | rfl <;> rfl
  · obtain ⟨o, rfl⟩ := Option.ne_none_iff_exists'.mp h
    subst ha
    rfl

/-- The part at the end of a slot once the port is clear and a faulted slot is counted (R6). -/
def Part.slotCleared (p : Part) (st : Settled) : Part :=
  { p with
    port := { order := none, answer := none }
    timer := if st = .faulted then { p.timer with faultedSlots := satInc p.timer.faultedSlots } else p.timer }

/-- What a slot's use makes of its settlement (R7). -/
theorem Part.settleSlot_cases (p : Part) :
    (p.timer.slot = 0 → p.port.settled ≠ .answered → p.settleSlot = (p.slotCleared p.port.settled, p.port.settled)) ∧
      (p.timer.slot = 0 → p.port.settled = .answered → p.settleSlot = ((p.slotCleared .answered).beaconSent, .answered)) ∧
      (1 ≤ p.timer.slot → p.timer.slot ≤ 3 → (∀ h, p.port.answer ≠ some (.heard h)) →
        p.settleSlot = (p.slotCleared p.port.settled, p.port.settled)) ∧
      (∀ h, 1 ≤ p.timer.slot → p.timer.slot ≤ 3 → p.port.answer = some (.heard h) →
        p.settleSlot = ((p.slotCleared p.port.settled).accessHeard h, p.port.settled)) ∧
      (4 ≤ p.timer.slot → p.planner.plan.use p.timer.slot = .idle →
        p.settleSlot = (p.slotCleared p.port.settled, p.port.settled)) ∧
      (∀ g, 4 ≤ p.timer.slot → p.planner.plan.use p.timer.slot = .down g →
        p.settleSlot = ((p.slotCleared p.port.settled).settleDown p.timer.slot (decide (p.port.settled = .answered)),
          p.port.settled)) ∧
      (∀ k, 4 ≤ p.timer.slot → p.planner.plan.use p.timer.slot = .up k →
        p.settleSlot =
          ({ p.slotCleared p.port.settled with
              due := { p.due with
                results := p.due.results ++
                  [{ owner := k, slot := p.timer.slot, frame := p.timer.frame, outcome := p.port.upOutcome }] } },
            p.port.settled)) := by
  refine ⟨fun hs hst => ?_, fun hs hst => ?_, fun h1 h3 ha => ?_, fun h h1 h3 ha => ?_, fun h4 hu => ?_,
    fun g h4 hu => ?_, fun k h4 hu => ?_⟩
  · simp [Part.settleSlot, Part.slotCleared, hs, hst]
  · simp [Part.settleSlot, Part.slotCleared, hs, hst]
  · cases hc : p.port.answer with
    | none => simp [Part.settleSlot, Part.slotCleared, show p.timer.slot ≠ 0 by omega, h3, hc]
    | some a =>
      cases a with
      | heard h => exact absurd hc (ha h)
      | _ => simp [Part.settleSlot, Part.slotCleared, show p.timer.slot ≠ 0 by omega, h3, hc]
  · simp [Part.settleSlot, Part.slotCleared, show p.timer.slot ≠ 0 by omega, h3, ha]
  · simp [Part.settleSlot, Part.slotCleared, show p.timer.slot ≠ 0 by omega, show ¬ p.timer.slot ≤ 3 by omega, hu]
  · simp [Part.settleSlot, Part.slotCleared, show p.timer.slot ≠ 0 by omega, show ¬ p.timer.slot ≤ 3 by omega, hu]
  · by_cases hst : p.port.settled = .faulted <;>
      simp [Part.settleSlot, Part.slotCleared, show p.timer.slot ≠ 0 by omega, show ¬ p.timer.slot ≤ 3 by omega, hu, hst]

/-! ### What a settlement leaves -/

/-- What a settled slot leaves of the Frame Timer: the frame under way and its place in it. -/
structure FrameTimer.sameClock (t u : FrameTimer) : Prop where
  slot : u.slot = t.slot
  frame : u.frame = t.frame
  underWay : u.underWay = t.underWay
  silence : u.silence = t.silence
  beaconDue : u.beaconDue = t.beaconDue
  schedWithheld : u.schedWithheld = t.schedWithheld

theorem Part.beaconSent_clock (p : Part) : p.timer.sameClock p.beaconSent.timer := by
  unfold Part.beaconSent
  dsimp only
  split <;> constructor <;> simp

theorem Part.accessHeard_clock (p : Part) (h : Heard) : p.timer.sameClock (p.accessHeard h).timer := by
  unfold Part.accessHeard
  (repeat' split) <;> constructor <;> simp

theorem Part.countRun_clock (p : Part) (n : Nat) (f : Word) (st : Settled) :
    p.timer.sameClock (p.countRun n f st).timer := by
  unfold Part.countRun
  (repeat' split) <;> constructor <;> simp

/-- What a settlement can make of a part: the cases of `Part.settleSlot_cases` without their conditions. -/
theorem Part.settleSlot_inv (p : Part) :
    let q := p.slotCleared p.port.settled
    p.settleSlot.2 = p.port.settled ∧
      (p.settleSlot.1 = q ∨ p.settleSlot.1 = q.beaconSent ∨ (∃ h, p.settleSlot.1 = q.accessHeard h) ∨
        (∃ n b, p.settleSlot.1 = q.settleDown n b) ∨ ∃ rs, p.settleSlot.1 = { q with due := { p.due with results := rs } }) := by
  obtain ⟨c0, c0', c1, c2, c3, c4, c5⟩ := p.settleSlot_cases
  obtain h0 | ⟨h1, h3⟩ | h4 : p.timer.slot = 0 ∨ (1 ≤ p.timer.slot ∧ p.timer.slot ≤ 3) ∨ 4 ≤ p.timer.slot := by omega
  · by_cases hst : p.port.settled = .answered
    · rw [c0' h0 hst, hst]
      exact ⟨rfl, .inr (.inl rfl)⟩
    · rw [c0 h0 hst]
      exact ⟨rfl, .inl rfl⟩
  · by_cases ha : ∃ h, p.port.answer = some (.heard h)
    · obtain ⟨h, ha⟩ := ha
      rw [c2 h h1 h3 ha]
      exact ⟨rfl, .inr (.inr (.inl ⟨h, rfl⟩))⟩
    · rw [c1 h1 h3 (fun h hc => ha ⟨h, hc⟩)]
      exact ⟨rfl, .inl rfl⟩
  · cases hu : p.planner.plan.use p.timer.slot with
    | idle => rw [c3 h4 hu]; exact ⟨rfl, .inl rfl⟩
    | down g => rw [c4 g h4 hu]; exact ⟨rfl, .inr (.inr (.inr (.inl ⟨_, _, rfl⟩)))⟩
    | up k => rw [c5 k h4 hu]; exact ⟨rfl, .inr (.inr (.inr (.inr ⟨_, rfl⟩)))⟩

theorem FrameTimer.sameClock.trans {t u v : FrameTimer} (a : t.sameClock u) (b : u.sameClock v) : t.sameClock v :=
  ⟨b.slot.trans a.slot, b.frame.trans a.frame, b.underWay.trans a.underWay, b.silence.trans a.silence,
    b.beaconDue.trans a.beaconDue, b.schedWithheld.trans a.schedWithheld⟩

/-- Settling a slot leaves the clock as it is. -/
theorem Part.settleSlot_clock (p : Part) : p.timer.sameClock p.settleSlot.1.timer := by
  have hq : p.timer.sameClock (p.slotCleared p.port.settled).timer := by
    unfold Part.slotCleared
    dsimp only
    split <;> constructor <;> rfl
  obtain ⟨-, h | h | ⟨x, h⟩ | ⟨n, b, h⟩ | ⟨rs, h⟩⟩ := p.settleSlot_inv
  · rw [h]; exact hq
  · rw [h]; exact hq.trans (Part.beaconSent_clock _)
  · rw [h]; exact hq.trans (Part.accessHeard_clock _ x)
  · rw [h]; simpa using hq
  · rw [h]; exact hq

/-- Settling a slot takes the order and its answer away. -/
theorem Part.settleSlot_port (p : Part) : p.settleSlot.1.port = { order := none, answer := none } := by
  obtain ⟨-, h | h | ⟨x, h⟩ | ⟨n, b, h⟩ | ⟨rs, h⟩⟩ := p.settleSlot_inv <;> simp [h, Part.slotCleared]

/-- Of what is due, settling a slot adds at most a result. -/
theorem Part.settleSlot_dueTimer (p : Part) : p.settleSlot.1.due.timer = p.due.timer := by
  obtain ⟨-, h | h | ⟨x, h⟩ | ⟨n, b, h⟩ | ⟨rs, h⟩⟩ := p.settleSlot_inv <;> simp [h, Part.slotCleared]

end Sys2Proof.Machine
end

