-- ==== Sys2Proof/Proofs/PlanAndAir.lean ====
section
/-! PROOF. Every plan fits its frame (R71, R81), and the modem has no order while the radio is SILENT or OFF or no frame
is under way (R4, R21, R24): obligation O59. -/

namespace Sys2Proof.Machine

/-! ### The tallies of a build (R71, R72, R81) -/

/-- A build counts its grants and fits the frame (R71). -/
structure Build.Fits (b : Build) : Prop where
  downs : b.downs = b.downList.length
  ups : b.ups = b.upList.length
  room : b.downs + b.ups + gapOf b.downs b.ups ≤ Config.scheduled

theorem Build.grantDown_fits {b : Build} (records : Vector (Option MsgRecord) 96) (k : ShortId) (c : MsgClass)
    (h : b.Fits) (hf : b.downFits k = true) : (b.grantDown records k c).Fits := by
  obtain ⟨hd, hu, hr⟩ := h
  unfold Build.grantDown
  split
  · exact ⟨hd, hu, hr⟩
  · refine ⟨by simp [hd], ?_, by simpa [Build.downFits, tallyFits] using hf⟩
    simp only [Build.upsAfterDown]
    split <;> simp [hu]

theorem Build.grantPoll_fits {b : Build} (k : ShortId) (h : b.Fits) (hf : b.pollFits = true) :
    (b.grantPoll k).Fits := by
  obtain ⟨hd, hu, -⟩ := h
  exact ⟨hd, by simp [Build.grantPoll, hu], by simpa [Build.grantPoll, Build.pollFits, tallyFits] using hf⟩

/-- A property that each step of a fold keeps holds of the fold. -/
theorem foldl_induct {α β : Type} {I : α → Prop} {f : α → β → α} (h : ∀ p x, I p → I (f p x)) (l : List β) {p : α}
    (hp : I p) : I (l.foldl f p) := by
  induction l generalizing p with
  | nil => exact hp
  | cons x l ih => exact ih (h p x hp)

theorem Build.stopPass_fits {b : Build} (records : Vector (Option MsgRecord) 96) (n : Word) (h : b.Fits) :
    (b.stopPass records n).Fits := by
  refine foldl_induct (I := Build.Fits) (fun q k hq => ?_) _ h
  split
  · next hf => exact grantDown_fits records k .stop hq hf
  · exact hq

theorem Build.pollPass_fits {b : Build} (period : Nat) (f : Word) (h : b.Fits) : (b.pollPass period f).Fits := by
  refine foldl_induct (I := Build.Fits) (fun q k hq => ?_) _ h
  split
  · next hf =>
    simp only [Bool.and_eq_true] at hf
    exact grantPoll_fits k hq hf.2
  · exact hq

/-- A pick is eligible, so its grant fits (R78). -/
theorem Build.downFits_of_pick {b : Build} {records : Vector (Option MsgRecord) 96} {c : MsgClass} {k : ShortId}
    (h : b.pick records c = some k) : b.downFits k = true := by
  have eligible : ∀ j, b.pick records c = some j → b.eligible records c j = true := by
    refine foldl_induct (I := fun o => ∀ j, o = some j → b.eligible records c j = true) (fun o x ho => ?_) _
      (fun _ h => nomatch h)
    intro j hj
    split at hj
    · next hx =>
      cases o with
      | none => cases hj; exact hx
      | some y =>
        dsimp only at hj
        split at hj
        · cases hj; exact hx
        · exact ho j hj
    · exact ho j hj
  have := eligible k h
  simp only [Build.eligible, Bool.and_eq_true] at this
  exact this.1.2

theorem Build.sharePass_fits (records : Vector (Option MsgRecord) 96) (c : MsgClass) (fuel : Nat) {b : Build}
    (h : b.Fits) : (Build.sharePass records c fuel b).Fits := by
  induction fuel generalizing b with
  | zero => exact h
  | succ n ih =>
    unfold Build.sharePass
    split
    · exact h
    · next k hk =>
      obtain ⟨hd, hu, hr⟩ := grantDown_fits records k c h (downFits_of_pick hk)
      exact ih ⟨hd, hu, hr⟩

theorem buildPasses_fits (p : Part) (f : Word) : (buildPasses p f).Fits := by
  unfold buildPasses
  extract_lets records es start stops spent allowed polls
  have hstart : start.Fits := ⟨rfl, rfl, (by decide : 0 + 0 + gapOf 0 0 ≤ Config.scheduled)⟩
  have hstops : stops.Fits := Build.stopPass_fits _ _ hstart
  clear_value stops
  have hallowed : allowed.Fits := ⟨hstops.downs, hstops.ups, hstops.room⟩
  have hpolls : polls.Fits := Build.pollPass_fits _ _ hallowed
  clear_value polls
  exact Build.sharePass_fits _ _ _ (Build.sharePass_fits _ _ _ hpolls)

/-! ### The layout (R66, R81) -/

/-- A plan that fits its frame: what `State.planOk` says of it. -/
def Plan.fits (q : Plan) : Prop :=
  q.slots.length = Config.scheduled ∧ q.slots.countP SlotUse.isDown = q.downs ∧
    q.slots.countP SlotUse.isUp = q.ups ∧ q.gap = gapOf q.downs q.ups ∧
    q.downs + q.ups + q.gap ≤ Config.scheduled ∧
    ∀ i j u v, q.slots[i]? = some u → q.slots[j]? = some v → u.isDown = true → v.isUp = true → i + 1 < j

theorem State.planOk_iff (s : State) : s.planOk ↔ s.part.planner.plan.fits := Iff.rfl

/-- A down slot of a layout is one of the first, as many as there are down grants. -/
theorem Build.layout_down {b : Build} {i : Nat} {u : SlotUse} (h : b.layout[i]? = some u) (hu : u.isDown = true) :
    i < b.downList.length := by
  by_contra hi
  rw [Build.layout, List.append_assoc, List.getElem?_append_right (by simpa using hi)] at h
  have := List.mem_of_getElem? h
  simp only [List.mem_append, List.mem_replicate, List.mem_reverse, List.mem_map] at this
  obtain ⟨-, rfl⟩ | ⟨k, -, rfl⟩ := this <;> cases hu

/-- An up slot of a layout is one of the last, as many as there are up slots. -/
theorem Build.layout_up {b : Build} {j : Nat} {v : SlotUse} (h : b.layout[j]? = some v) (hv : v.isUp = true)
    (hb : b.downList.length + b.upList.length ≤ Config.scheduled) : Config.scheduled - b.upList.length ≤ j := by
  by_contra hj
  rw [Build.layout, List.getElem?_append_left (by simp; omega)] at h
  have := List.mem_of_getElem? h
  simp only [List.mem_append, List.mem_replicate, List.mem_map] at this
  obtain ⟨g, -, rfl⟩ | ⟨-, rfl⟩ := this <;> cases hv

theorem Build.plan_fits {b : Build} (h : b.Fits) (f : Word) : (b.plan f).fits := by
  obtain ⟨hd, hu, hr⟩ := h
  have hb : b.downList.length + b.upList.length ≤ Config.scheduled := by omega
  refine ⟨?_, ?_, ?_, rfl, hr, ?_⟩
  · simp [Build.plan, Build.layout]; omega
  · simp [Build.plan, Build.layout, List.countP_map, List.countP_replicate, Function.comp_def, SlotUse.isDown, hd]
  · simp [Build.plan, Build.layout, List.countP_map, List.countP_replicate, Function.comp_def, SlotUse.isUp, hu]
  · intro i j u v hi hj hdu hvu
    have hlow := Build.layout_down hi hdu
    have hhigh := Build.layout_up hj hvu hb
    have hlen : j < b.layout.length := (List.getElem?_eq_some_iff.mp hj).1
    have hl : b.layout.length = Config.scheduled := by simp [Build.layout]; omega
    have hg : gapOf b.downs b.ups = 1 := by unfold gapOf; rw [if_pos (by omega)]
    omega

theorem Plan.blank_fits (f : Word) : (Plan.blank f).fits := by
  refine ⟨rfl, rfl, rfl, rfl, (by decide : 0 + 0 + 0 ≤ Config.scheduled), ?_⟩
  intro i j u v hi _ hd _
  have := List.mem_of_getElem? hi
  simp only [Plan.blank, List.mem_replicate] at this
  obtain ⟨-, rfl⟩ := this
  cases hd

/-! ### Every step keeps a plan that fits -/

/-- A build leaves a plan that fits, whatever stood before (R66, R70). -/
theorem Part.buildPlan_fits (p : Part) (f : Word) : (p.buildPlan f).planner.plan.fits := by
  unfold Part.buildPlan
  dsimp only
  split
  · simpa [Planner.shift] using Build.plan_fits (buildPasses_fits p f) f
  · simpa [Planner.shift] using Plan.blank_fits f

theorem Part.frameWork_fits {p : Part} (w : FrameWork) (h : p.planner.plan.fits) :
    (p.frameWork w).planner.plan.fits := by
  cases w with
  | build =>
    unfold Part.frameWork
    dsimp only
    split
    · exact Part.buildPlan_fits _ _
    · exact h
  | _ =>
    unfold Part.frameWork
    dsimp only
    (try split) <;> simpa using h

theorem Part.frameWorkThenBeacon_fits {p : Part} (w : FrameWork) (h : p.planner.plan.fits) :
    (p.frameWorkThenBeacon w).planner.plan.fits := by
  simpa [Part.frameWorkThenBeacon] using Part.frameWork_fits w h

/-- Works of a frame start keep what each of them keeps. -/
theorem Part.works_induct {I : Part → Prop} (h : ∀ p w, I p → I (p.frameWorkThenBeacon w)) (l : List FrameWork)
    {p : Part} (hp : I p) : I (l.foldl Part.frameWorkThenBeacon p) := foldl_induct h l hp

theorem Part.flushDue_induct {I : Part → Prop} (h : ∀ p w, I p → I (p.frameWorkThenBeacon w)) {p : Part} (hp : I p) :
    I p.flushDue := by
  unfold Part.flushDue Part.flushResults
  dsimp only
  split
  · exact works_induct h _ hp
  · exact works_induct h _ (works_induct h _ hp)

theorem Part.workOfStart_induct {I : Part → Prop} (h : ∀ p w, I p → I (p.frameWorkThenBeacon w)) (l : List FrameWork)
    {p : Part} (hp : I p) : I (l.foldl Part.workOfStart p) := by
  refine foldl_induct (fun q w hq => ?_) l hp
  unfold Part.workOfStart
  split
  · exact hq
  · exact h q w hq

/-- What holds of the part at the start of a frame, and what each work keeps, holds after the frame start. -/
theorem Part.frameStart_induct {I : Part → Prop} (h : ∀ p w, I p → I (p.frameWorkThenBeacon w)) {p : Part} {f : Word}
    {st : Settled} (order : List FrameWork) (hp : I (p.frameBegun f st)) : I (p.frameStart f st order) :=
  workOfStart_induct h _ (works_induct h order hp)

@[simp] theorem Part.takeHalt_plan (p : Part) (first : Bool) :
    ∃ f, (p.takeHalt first).planner.plan = Plan.blank f := by
  unfold Part.takeHalt
  exact ⟨_, by simp; rfl⟩

theorem Part.slotBoundary_fits {p : Part} (order : List FrameWork) (h : p.planner.plan.fits) :
    (p.slotBoundary order).planner.plan.fits := by
  have hf : p.flushDue.planner.plan.fits :=
    flushDue_induct (I := fun q => q.planner.plan.fits) (fun _ w hq => frameWorkThenBeacon_fits w hq) h
  unfold Part.slotBoundary
  dsimp only
  split
  · split
    · obtain ⟨f, e⟩ := p.flushDue.takeHalt_plan (order.contains .result)
      rw [e]
      exact Plan.blank_fits f
    · unfold Part.nextFrame
      dsimp only
      split <;>
      · refine frameStart_induct (I := fun q => q.planner.plan.fits) (fun _ w hq => frameWorkThenBeacon_fits w hq) order ?_
        simpa [Part.frameBegun] using hf
  · simpa using hf

theorem AirMove.keeps_fits {p q : Part} (h : AirMove p q) (hp : p.planner.plan.fits) : q.planner.plan.fits := by
  cases h with
  | other h => rw [h.planner]; exact hp
  | reset => exact Plan.blank_fits 0
  | answer a => exact hp
  | work w => exact Part.frameWorkThenBeacon_fits w hp
  | boundary order hn => exact Part.slotBoundary_fits order hp
  | halt first hn =>
    obtain ⟨f, e⟩ := p.flushDue.takeHalt_plan first
    rw [e]
    exact Plan.blank_fits f
  | silence sil => simpa using hp
  | anchor v => simpa using hp
  | setupWord w => simpa using hp
  | status t => simpa using hp
  | doneWord w =>
    unfold Part.doneWordRead
    dsimp only
    (repeat' split)
    · exact hp
    · exact Plan.blank_fits 0
    · exact hp
    · exact hp

/-! ### The air is quiet -/

/-- What `State.airQuiet` says of the part, with a load in progress only in LOADING. -/
structure Part.Quiet (p : Part) : Prop where
  stopped : p.anchor.node ≠ .running → p.timer.underWay = false
  noBeacon : p.timer.underWay = false → p.timer.beaconDue = false
  silent : p.timer.underWay = false ∨ p.due.timer = true ∨ p.timer.substate = .silent ∨ p.timer.substate = .off →
    p.port.order = none
  loading : p.anchor.load ≠ none → p.anchor.node = .loading

/-- What concerns the modem's order is the same in both. -/
theorem Part.Quiet.of_same {p q : Part} (h : p.Quiet) (ha : q.anchor = p.anchor) (ht : q.timer = p.timer)
    (hp : q.port.order = p.port.order) (hd : q.due.timer = p.due.timer) : q.Quiet :=
  ⟨by rw [ha, ht]; exact h.stopped, by rw [ht]; exact h.noBeacon, by rw [ht, hp, hd]; exact h.silent,
    by rw [ha]; exact h.loading⟩

/-- With no frame under way and no order, all is quiet. -/
theorem Part.Quiet.of_stopped {p : Part} (hu : p.timer.underWay = false) (hb : p.timer.beaconDue = false)
    (ho : p.port.order = none) (hl : p.anchor.load ≠ none → p.anchor.node = .loading) : p.Quiet :=
  ⟨fun _ => hu, fun _ => hb, fun _ => ho, hl⟩

/-- While RUNNING with a frame under way, quiet is a matter of the order alone. -/
theorem Part.Quiet.of_running {p : Part} (hn : p.anchor.node = .running) (hl : p.anchor.load = none)
    (hu : p.timer.underWay = true)
    (ho : p.due.timer = true ∨ p.timer.substate = .silent ∨ p.timer.substate = .off → p.port.order = none) : p.Quiet :=
  ⟨fun h => absurd hn h, fun h => by simp [hu] at h, fun h => ho (by simpa [hu] using h), fun h => absurd hl h⟩

theorem Part.Quiet.load_none {p : Part} (h : p.Quiet) (hn : p.anchor.node ≠ .loading) : p.anchor.load = none :=
  Classical.byContradiction fun hl => hn (h.loading hl)

/-- The transition of a frame start keeps what says whether a frame is under way. -/
@[simp] theorem Part.silenceTransition_underWay (p : Part) (f : Word) :
    (p.silenceTransition f).timer.underWay = p.timer.underWay ∧
      (p.silenceTransition f).timer.beaconDue = p.timer.beaconDue := by
  unfold Part.silenceTransition
  (repeat' split) <;> simp

@[simp] theorem Part.countRun_underWay (p : Part) (slot : Nat) (f : Word) (st : Settled) :
    (p.countRun slot f st).timer.underWay = p.timer.underWay ∧
      (p.countRun slot f st).timer.beaconDue = p.timer.beaconDue := by
  unfold Part.countRun
  (repeat' split) <;> simp

@[simp] theorem Part.timerFrameStart_underWay (p : Part) :
    p.timerFrameStart.timer.underWay = p.timer.underWay ∧ p.timerFrameStart.timer.beaconDue = p.timer.beaconDue := by
  simp [Part.timerFrameStart]

/-- Before the Frame Timer has taken a frame start there is no order, and its transition presents none. -/
theorem Part.Quiet.frameWork {p : Part} (h : p.Quiet) (w : FrameWork) : (p.frameWork w).Quiet := by
  cases w with
  | timer =>
    unfold Part.frameWork
    dsimp only
    split
    · next hd =>
      have ho := h.silent (.inr (.inl hd))
      exact ⟨by simpa using h.stopped, by simpa using h.noBeacon, fun _ => by simpa using ho, by simpa using h.loading⟩
    · exact h
  | result =>
    have hd : p.takeOldest.due.timer = p.due.timer := by
      unfold Part.takeOldest
      split <;> simp
    exact h.of_same (by simp [Part.frameWork]) (by simp [Part.frameWork]) (by simp) hd
  | roster | ageing | build | image =>
    unfold Part.frameWork
    dsimp only
    split
    · exact h.of_same (by simp) (by simp) (by simp) (by simp)
    · exact h

/-- A beacon is presented only in ON or FAULTED, in a frame under way and after the transition (R8). -/
theorem Part.Quiet.tryBeacon {p : Part} (h : p.Quiet) : p.tryBeacon.Quiet := by
  unfold Part.tryBeacon
  dsimp only
  split
  · next hb =>
    obtain ⟨hb, hd, -, -⟩ := hb
    have hu : p.timer.underWay = true := by
      cases hu : p.timer.underWay with
      | true => rfl
      | false => exact absurd hb (by simp [h.noBeacon hu])
    have hn : p.anchor.node = .running := Classical.byContradiction fun hn => by simp [h.stopped hn] at hu
    have hl := h.load_none (by simp [hn])
    split
    · next hs =>
      refine .of_running (by simpa using hn) (by simpa using hl) (by simpa using hu) fun ho => ?_
      have : p.timer.substate = .silent ∨ p.timer.substate = .off := by simpa [hd] using ho
      rcases hs with hs | hs <;> simp [hs] at this
    · exact .of_running hn hl hu fun ho => h.silent (.inr ho)
  · exact h

theorem Part.Quiet.frameWorkThenBeacon {p : Part} (h : p.Quiet) (w : FrameWork) : (p.frameWorkThenBeacon w).Quiet :=
  (h.frameWork w).tryBeacon

theorem Part.Quiet.flushDue {p : Part} (h : p.Quiet) : p.flushDue.Quiet :=
  flushDue_induct (fun _ w hq => hq.frameWorkThenBeacon w) h

/-! ### What a boundary has taken -/

/-- The Frame Timer's work, once taken, is not due again. -/
theorem Part.frameWork_dueTimer {p : Part} (w : FrameWork) (h : p.due.timer = false) :
    (p.frameWork w).due.timer = false := by
  cases w with
  | result =>
    unfold Part.frameWork Part.takeOldest
    dsimp only
    split <;> simp [h]
  | timer | roster | ageing | build | image =>
    unfold Part.frameWork
    dsimp only
    split <;> simp [h]

theorem Part.frameWorkThenBeacon_dueTimer {p : Part} (w : FrameWork) (h : p.due.timer = false) :
    (p.frameWorkThenBeacon w).due.timer = false := by
  simpa [Part.frameWorkThenBeacon] using frameWork_dueTimer w h

/-- After what was left to be taken no transition is due. -/
theorem Part.flushDue_dueTimer (p : Part) : p.flushDue.due.timer = false := by
  have first : (p.frameWorkThenBeacon .timer).due.timer = false := by
    simp only [Part.frameWorkThenBeacon, tryBeacon_frame, Part.frameWork]
    split
    · simp
    · next h => simpa using h
  have keep : ∀ (l : List FrameWork) {q : Part}, q.due.timer = false →
      (l.foldl Part.frameWorkThenBeacon q).due.timer = false := fun l _ h =>
    works_induct (I := fun q => q.due.timer = false) (fun _ w => frameWorkThenBeacon_dueTimer w) l h
  unfold Part.flushDue Part.flushResults
  dsimp only
  split
  · rw [List.foldl_cons]
    exact keep _ first
  · rw [List.foldl_cons]
    exact keep _ (keep _ first)

/-- A frame that begins has no order until its transition is made. -/
theorem Part.Quiet.frameStart {p : Part} (hn : p.anchor.node = .running) (hl : p.anchor.load = none)
    (ho : p.port.order = none) (f : Word) (st : Settled) (order : List FrameWork) :
    (p.frameStart f st order).Quiet :=
  frameStart_induct (fun _ w hq => hq.frameWorkThenBeacon w) order (.of_running hn hl rfl fun _ => ho)

theorem Part.Quiet.nextFrame {p : Part} (h : p.Quiet) (hn : p.anchor.node = .running) (order : List FrameWork) :
    (p.nextFrame order).Quiet := by
  have hl := h.load_none (by simp [hn])
  unfold Part.nextFrame
  dsimp only
  split
  · exact .frameStart (by simpa using hn) (by simpa using hl) (by simp [p.settleSlot_port]) _ _ _
  · next hu => exact .frameStart hn hl (h.silent (.inl (by simpa using hu))) _ _ _

/-- A slot begins with an order only in ON (R4). -/
theorem Part.beginSlot_order (p : Part) (n : Nat) (hs : p.timer.substate ≠ .on) : (p.beginSlot n).port = p.port := by
  simp [Part.beginSlot, hs]

theorem Part.Quiet.nextSlot {p : Part} (h : p.Quiet) (hn : p.anchor.node = .running) (hd : p.due.timer = false)
    (hu : p.timer.underWay = true) : p.nextSlot.Quiet := by
  have ho : p.settleSlot.1.port.order = none := by simp [p.settleSlot_port]
  have hd' := p.settleSlot_dueTimer
  have hu' := p.settleSlot_clock.underWay
  unfold Part.nextSlot
  dsimp only
  set q := p.settleSlot.1.countRun p.timer.slot p.timer.frame p.settleSlot.2 with hq
  have hqo : q.port.order = none := by simpa [hq] using ho
  have hqu : q.timer.underWay = true := by simpa [hq, hu'] using hu
  have hqd : q.due.timer = false := by simpa [hq, hd'] using hd
  have hqn : q.anchor.node = .running := by simpa [hq] using hn
  have hql : q.anchor.load = none := by simpa [hq] using h.load_none (by simp [hn])
  have ht : (q.beginSlot (p.timer.slot + 1)).timer = { q.timer with slot := p.timer.slot + 1 } := by
    unfold Part.beginSlot
    dsimp only
    (repeat' split) <;> simp
  refine .of_running (by simpa using hqn) (by simpa using hql) (by simpa [ht] using hqu) fun hs => ?_
  have hs : q.timer.substate = .silent ∨ q.timer.substate = .off := by simpa [ht, hqd] using hs
  rw [Part.beginSlot_order _ _ (by rcases hs with hs | hs <;> simp [hs])]
  exact hqo

/-- A HALT leaves no frame under way and no order (R24). -/
theorem Part.Quiet.takeHalt {p : Part} (h : p.anchor.load = none) (first : Bool) : (p.takeHalt first).Quiet := by
  have hl : (p.takeHalt first).anchor.load = none := by
    unfold Part.takeHalt
    dsimp only
    (repeat' split) <;> simp [h]
  refine .of_stopped ?_ ?_ ?_ (fun hc => absurd hl hc) <;>
  · unfold Part.takeHalt
    simp [Part.haltTimer]

theorem Part.Quiet.slotBoundary {p : Part} (h : p.Quiet) (hn : p.anchor.node = .running) (order : List FrameWork) :
    (p.slotBoundary order).Quiet := by
  have hf := h.flushDue
  have hnf : p.flushDue.anchor.node = .running := by simpa using hn
  unfold Part.slotBoundary
  dsimp only
  split
  · split
    · exact .takeHalt (hf.load_none (by simp [hn])) _
    · exact hf.nextFrame hnf order
  · next ha =>
    refine hf.nextSlot hnf p.flushDue_dueTimer ?_
    simp only [Part.atFrameEnd, Bool.or_eq_true, not_or] at ha
    simpa using ha.1

/-! ### Every move keeps the air quiet -/

/-- The anchor unit's own changes: START and HALT, and the words of a load, happen with no frame under way (R168). -/
theorem Part.Quiet.anchorCommand {p : Part} (h : p.Quiet) (v : Word) : (p.anchorCommand v).Quiet := by
  have stopped : p.anchor.node ≠ .running → p.timer.underWay = false ∧ p.timer.beaconDue = false ∧
      p.port.order = none := fun hn =>
    ⟨h.stopped hn, h.noBeacon (h.stopped hn), h.silent (.inl (h.stopped hn))⟩
  unfold Part.anchorCommand Part.takeStart Part.takeHaltCode
  split
  · split
    · next hn =>
      obtain ⟨hu, hb, ho⟩ := stopped (by simp [hn])
      exact .of_stopped (by simpa using hu) (by simpa using hb) (by simpa using ho) (fun _ => rfl)
    · exact h
  · split
    · split
      · next hn =>
        obtain ⟨hu, hb, ho⟩ := stopped (by simp [hn])
        exact .of_stopped (by simpa using hu) (by simpa using hb) (by simpa using ho) (fun hc => absurd rfl hc)
      · exact ⟨h.stopped, h.noBeacon, h.silent, h.loading⟩
      · exact h
    · exact h

theorem Part.Quiet.setupWord {p : Part} (h : p.Quiet) (w : Word) : (p.setupWord w).Quiet := by
  have rejected : ∀ {l} why, p.anchor.load = some l → (p.rejectLoad why).Quiet := by
    intro l why hl
    have hn := h.loading (by simp [hl])
    have hu := h.stopped (by simp [hn])
    exact .of_stopped (by simpa using hu) (by simpa using h.noBeacon hu) (by simpa using h.silent (.inl hu))
      (fun hc => absurd rfl hc)
  have kept : ∀ {l} l', p.anchor.load = some l → (p.setLoad l').Quiet := fun l' hl =>
    ⟨h.stopped, h.noBeacon, h.silent, fun _ => h.loading (by simp [hl])⟩
  unfold Part.setupWord
  split
  · exact h
  · next l hl =>
    dsimp only
    (repeat' split) <;> first | exact rejected _ hl | exact kept _ hl

theorem Part.Quiet.doneWordRead {p : Part} (h : p.Quiet) (w : Word) : (p.doneWordRead w).Quiet := by
  unfold Part.doneWordRead
  (repeat' split)
  · exact h
  · exact .of_stopped rfl rfl rfl (fun hc => absurd rfl hc)
  · exact h.of_same rfl rfl rfl rfl
  · exact h

theorem Part.Quiet.statusWritten {p : Part} (h : p.Quiet) (t : Option TurnData) : (p.statusWritten t).Quiet := by
  unfold Part.statusWritten
  split
  · next hc =>
    have hu := h.stopped (by simp [hc.1])
    exact .of_stopped (by simpa using hu) (by simpa using h.noBeacon hu) (by simpa using h.silent (.inl hu))
      (fun hl => absurd (h.load_none (by simp [hc.1])) hl)
  · exact h

theorem Part.Quiet.setSilence {p : Part} (h : p.Quiet) (sil : Silence) : (p.setSilence sil).Quiet := by
  have hq : Part.Quiet { p with timer := { p.timer with silence := sil } } :=
    ⟨h.stopped, h.noBeacon, h.silent, h.loading⟩
  unfold Part.setSilence
  dsimp only
  split
  · exact hq.frameWorkThenBeacon .timer
  · exact hq

theorem BurstPort.take_order (b : BurstPort) (a : Answer) : (b.take a).order = b.order := by
  unfold BurstPort.take
  split <;> simp_all

theorem AirMove.keeps_quiet {p q : Part} (h : AirMove p q) (hp : p.Quiet) : q.Quiet := by
  cases h with
  | other h =>
    obtain ⟨hn, hl, ht, ho, hd, -⟩ := h
    exact ⟨by rw [hn, ht]; exact hp.stopped, by rw [ht]; exact hp.noBeacon, by rw [ht, ho, hd]; exact hp.silent,
      by rw [hn, hl]; exact hp.loading⟩
  | reset => exact .of_stopped rfl rfl rfl (fun hc => absurd rfl hc)
  | answer a => exact hp.of_same rfl rfl (p.port.take_order a) rfl
  | work w => exact hp.frameWorkThenBeacon w
  | boundary order hn => exact hp.slotBoundary hn order
  | halt first hn => exact .takeHalt (hp.flushDue.load_none (by simp [hn])) first
  | silence sil => exact hp.setSilence sil
  | anchor v => exact hp.anchorCommand v
  | setupWord w => exact hp.setupWord w
  | doneWord w => exact hp.doneWordRead w
  | status t => exact hp.statusWritten t

/-- Settles O59: both parts are kept by every move of the air side, of which every step is a sequence. -/
theorem planAndAirKept : Obligations.PlanAndAirKept := by
  refine ⟨fun s t hs ht => ?_, fun s t hw hs ht => ?_⟩
  · exact AirMoves.keep (I := fun q => q.planner.plan.fits) (fun _ _ h => h.keeps_fits) (step_moves ht) hs
  · obtain ⟨hstop, hbeacon, hsilent⟩ := hs
    have load : s.part.anchor.load ≠ none → s.part.anchor.node = .loading := fun h =>
      have ⟨l, hl⟩ := Option.ne_none_iff_exists'.mp h
      (hw.2.2 l hl).1
    have hq := AirMoves.keep (fun _ _ h => h.keeps_quiet) (step_moves ht) (p := s.part) ⟨hstop, hbeacon, hsilent, load⟩
    exact ⟨hq.stopped, hq.noBeacon, hq.silent⟩

end Sys2Proof.Machine
end

