-- ==== Sys2Proof/Proofs/ModemAnswers.lean ====
section
/-! PROOF. The modem's answers (R5, R6, R25): obligation O5. -/

namespace Sys2Proof.Machine

theorem State.answerModem_late (s : State) (a : Answer) : s.answerModem true a = s := rfl

/-- An answer without an order, or after the first, is discarded (R5). -/
theorem BurstPort.take_discarded {b : BurstPort} (h : b.order = none ∨ b.answer ≠ none) (a : Answer) :
    b.take a = b := by
  unfold BurstPort.take
  obtain ⟨o, x⟩ := b
  cases o with
  | none => rfl
  | some o =>
    cases x with
    | none => simp at h
    | some x => cases o <;> rfl

theorem State.answerModem_discarded {s : State} {late : Bool}
    (h : late = true ∨ s.part.port.order = none ∨ s.part.port.answer ≠ none) (a : Answer) :
    s.answerModem late a = s := by
  cases late with
  | true => exact s.answerModem_late a
  | false =>
    have hp := BurstPort.take_discarded (h.resolve_left Bool.false_ne_true) a
    simp [State.answerModem, hp]

/-- Settles O5: the first answer by the kind of the order, and every other answer discarded. -/
theorem modemAnswerTaken : Obligations.ModemAnswerTaken := by
  unfold Obligations.ModemAnswerTaken
  dsimp only
  intro s o q c bs
  have taken : ∀ a, s.answerModem false a = { s with part := { s.part with port := s.part.port.take a } } :=
    fun _ => rfl
  refine ⟨fun c' b' ho ha => ?_, fun ho ha => ?_, fun late h => ?_⟩
  · have port : s.part.port = { order := some (.send c' b'), answer := none } := by rw [← ho, ← ha]
    simp [exec, execSent, execHeard, execFault, taken, port, BurstPort.take]
  · have port : s.part.port = { order := some .listen, answer := none } := by rw [← ho, ← ha]
    simp [exec, execSent, execHeard, execFault, taken, port, BurstPort.take]
  · simp [exec, execSent, execHeard, execFault, State.answerModem_discarded h]

end Sys2Proof.Machine
end

