-- ==== Sys2Proof/Proofs/ResetState.lean ====
section
/-! PROOF. The values after reset, and that the machine meets there every invariant that a step keeps: obligation O4. -/

namespace Sys2Proof.Machine

/-! ### What stands in the tables after reset -/

theorem Part.reset_entry (k : ShortId) : Part.reset.entry k = Entry.blank 4 := by
  simp [Part.entry, Part.reset, Roster.fresh]

theorem Part.reset_record (i : PoolId) : Part.reset.record i = none := by
  simp [Part.record, Part.reset, Pool.reset]

theorem Part.reset_ring (r : RingId) : Part.reset.ring r = DownRing.fresh 0 := by
  cases r <;> rfl

theorem Part.reset_pend (q : Requester) : Part.reset.arb.pend q = none := by
  cases q <;> rfl

/-! ### The invariants at reset -/

theorem State.reset_busShared : State.reset.busShared :=
  ⟨fun _ => rfl, fun _ h => nomatch h⟩

theorem State.reset_windowOk : State.reset.windowOk :=
  ⟨by decide, fun h => absurd h (by decide), fun l h => absurd (show Option.none = some l from h) (by simp)⟩

/-- After reset nothing is owed and no request is due (R112, R159, R174). -/
theorem State.reset_busLive : State.reset.busLive := by
  refine ⟨?_, fun q k h => ?_, fun _ q => Part.reset_pend q⟩
  · rfl
  · rw [show State.reset.part.arb.pend q = none from Part.reset_pend q] at h
    cases h

theorem State.reset_annOk : State.reset.annOk := ⟨List.nodup_nil, Nat.zero_le _⟩

theorem State.reset_carsUnique : State.reset.carsUnique := by
  intro j k hj
  rw [show State.reset.part.entry j = Entry.blank 4 from Part.reset_entry j] at hj
  cases hj

theorem State.reset_reserveOk : State.reset.reserveOk := by
  have none : ∀ i, State.reset.part.record i = none := Part.reset_record
  simp [State.reserveOk, none]

theorem State.reset_entriesOk : State.reset.entriesOk := by
  intro k
  rw [show State.reset.part.entry k = Entry.blank 4 from Part.reset_entry k]
  exact ⟨by decide, by decide, by decide, fun h => absurd rfl h⟩

/-- Every queue, every record place and every list of records is empty after reset. -/
theorem State.reset_queuesOk : State.reset.queuesOk := by
  have record : ∀ i, State.reset.part.record i = none := Part.reset_record
  have queue : ∀ k c, (State.reset.part.entry k).queues.get c = [] := fun k c => by
    rw [show State.reset.part.entry k = Entry.blank 4 from Part.reset_entry k]
    simp [Entry.blank]
  have handed : State.reset.part.pool.handed = [] := rfl
  have owed : State.reset.part.adm.writeBacks = [] := rfl
  simp [State.queuesOk, record, queue, handed, owed]

theorem State.reset_loadOk : State.reset.loadOk := by
  intro k
  rw [show State.reset.part.entry k = Entry.blank 4 from Part.reset_entry k]
  exact Nat.zero_le 24

theorem State.reset_keptOk : State.reset.keptOk := by
  intro r h
  rw [show State.reset.part.ring r = DownRing.fresh 0 from Part.reset_ring r] at h
  exact absurd rfl h

theorem State.reset_airQuiet : State.reset.airQuiet := ⟨fun _ => rfl, fun _ => rfl, fun _ => rfl⟩

theorem State.reset_eventsOk : State.reset.eventsOk :=
  ⟨rfl, rfl, rfl, Nat.zero_le _, by decide, fun l _ h => absurd (show Option.none = some l from h) (by simp), rfl⟩

theorem State.reset_uplinkOk : State.reset.uplinkOk := by
  refine ⟨rfl, rfl, by decide, by decide, fun i c h => ?_, fun l _ h => absurd (show Option.none = some l from h) (by simp)⟩
  rw [show State.reset.part.uplink.claims = [] from rfl] at h
  simp at h

theorem State.reset_stagingOk : State.reset.stagingOk := ⟨Nat.zero_le _, Nat.zero_le _⟩

/-- Settles O4: the tables by their entries, everything else by the reset values as they are written. -/
theorem resetValues : Obligations.ResetValues := by
  refine ⟨⟨rfl, rfl, rfl, rfl, rfl, rfl, rfl, rfl⟩, ⟨Part.reset_pend, rfl, rfl⟩,
    ⟨rfl, rfl, rfl, rfl, rfl, rfl, rfl, rfl, rfl⟩, ⟨Part.reset_entry, rfl, rfl, fun k => ?_, rfl, rfl, rfl⟩,
    ⟨rfl, rfl, rfl, rfl⟩, ⟨Part.reset_ring, rfl, rfl, rfl, Part.reset_record, rfl, rfl, rfl⟩, ⟨rfl, rfl, rfl, rfl⟩,
    ⟨fun k => ?_, rfl, rfl, rfl, rfl, rfl, rfl⟩, ⟨rfl, rfl, rfl, rfl, rfl, rfl, rfl, rfl, rfl⟩, ?_⟩
  · simp [State.reset, Part.reset, ImageWriter.reset, Vector.get]
  · simp [State.reset, Part.reset, Uplink.fresh, Vector.get]
  · exact ⟨⟨Mem.wf_nil, State.reset_busShared, State.reset_windowOk, State.reset_busLive, State.reset_annOk,
      State.reset_carsUnique, State.reset_reserveOk, State.reset_entriesOk⟩, State.reset_queuesOk,
      State.reset_loadOk, State.reset_keptOk, Plan.blank_fits 0, State.reset_airQuiet, State.reset_eventsOk,
      State.reset_uplinkOk, State.reset_stagingOk⟩

end Sys2Proof.Machine
end

