-- ==== Sys2Proof/Proofs/AirTerms.lean ====
section
/-! SUPPORT. The terms in which the statements of the air speak of a step, each tied to the operation of the model that it
describes: a submission while RUNNING, the beacon, the fault run, a dropped fetch, a settled slot, and what a boundary
takes first. -/

namespace Sys2Proof.Machine

/-! ### Submissions, the fault run and the beacon -/

/-- While RUNNING every submission is taken (R177). -/
theorem Part.submit_running {p : Part} (h : p.anchor.node = .running) (b : Bool) (r : EventRecord) :
    p.submit b r = p.withEvent r := by
  simp [Part.submit, Part.withEvent, h]

/-- The counting of a settled slot into the fault run, as the statements say it (R16). -/
theorem Part.countRun_eq {p : Part} (h : p.anchor.node = .running) (slot : Nat) (st : Settled) :
    p.countRun slot p.timer.frame st = p.runCounted slot st := by
  unfold Part.countRun Part.runCounted
  by_cases hs : p.timer.substate = .on
  · cases st with
    | noOrder | answered => simp [hs]
    | faulted =>
      by_cases hr : p.timer.faultRun < 7
      · simp [hs, hr, show ¬ 8 ≤ p.timer.faultRun + 1 by omega]
      · simp only [hs, hr, show 8 ≤ p.timer.faultRun + 1 by omega, if_true, if_false, ne_eq, not_true]
        apply Part.submit_running
        exact h
  · simp [hs]

/-- The beacon, as the statements say it (R8, R9). -/
theorem Part.tryBeacon_eq (p : Part) : p.tryBeacon = p.thenBeacon := by
  have waits : p.acksWait = false ↔ p.due.results = [] ∨ p.planner.plan.polls = false := by
    simp only [Part.acksWait, Bool.and_eq_false_iff, Bool.not_eq_false', List.isEmpty_iff]
  unfold Part.tryBeacon Part.thenBeacon
  exact if_congr (and_congr_right fun _ => and_congr_right fun _ => and_congr_right fun _ => waits) rfl rfl

theorem Part.frameWorkThenBeacon_eq (p : Part) (w : FrameWork) : p.frameWorkThenBeacon w = p.works w :=
  Part.tryBeacon_eq _

/-- What a boundary takes first, as the statements say it (log 8, 9). -/
theorem Part.flushDue_eq (p : Part) : p.flushDue = p.dueTaken := by
  have works : Part.frameWorkThenBeacon = Part.works := funext fun p => funext fun w => p.frameWorkThenBeacon_eq w
  unfold Part.flushDue Part.dueTaken Part.flushResults Part.resultsMayWait
  simp only [works, List.map_const', Bool.and_eq_true, Bool.not_eq_true', decide_eq_true_eq, and_assoc]

/-! ### A boundary with nothing due -/

/-- A work that is not due changes nothing (R2). -/
theorem Part.frameWork_notDue {p : Part} :
    (p.due.timer = false → p.frameWork .timer = p) ∧ (p.due.roster = false → p.frameWork .roster = p) ∧
      (p.due.ageing = false → p.frameWork .ageing = p) ∧ (p.due.build = false → p.frameWork .build = p) ∧
      (p.due.image = false → p.frameWork .image = p) ∧ (p.due.results = [] → p.frameWork .result = p) := by
  refine ⟨?_, ?_, ?_, ?_, ?_, ?_⟩ <;> intro h <;> simp [Part.frameWork, Part.takeOldest, h]

theorem Part.tryBeacon_notDue {p : Part} (h : p.timer.beaconDue = false) : p.tryBeacon = p := by
  simp [Part.tryBeacon, h]

/-- With nothing left to be taken a boundary takes nothing first. -/
theorem Part.flushDue_nothingDue {p : Part} (h : p.nothingDue) : p.flushDue = p := by
  obtain ⟨ht, hr, ha, hb, hi, hc, hres⟩ := h
  obtain ⟨wt, wr, wa, wb, wi, -⟩ := p.frameWork_notDue
  have works : [FrameWork.timer, .roster, .ageing, .build, .image].foldl Part.frameWorkThenBeacon p = p := by
    simp [Part.frameWorkThenBeacon, wt ht, wr hr, wa ha, wb hb, wi hi, Part.tryBeacon_notDue hc]
  unfold Part.flushDue
  rw [works]
  rcases hres with hres | ⟨hu, hs⟩
  · simp [Part.flushResults, hres]
  · simp [Part.resultsMayWait, hu, hs, hc]

/-- The boundary within a frame settles the slot that ends and begins the next (R1). -/
theorem Part.slotBoundary_within {p : Part} (hu : p.timer.underWay = true) (hs : p.timer.slot < 39) (h : p.nothingDue)
    (order : List FrameWork) : p.slotBoundary order = p.nextSlot := by
  have hend : p.atFrameEnd = false := by simp [Part.atFrameEnd, hu]; omega
  simp [Part.slotBoundary, Part.flushDue_nothingDue h, hend]

/-- SLOT_BOUNDARY while RUNNING runs to the part after the boundary. -/
theorem State.slotBoundary_runsTo {s : State} (hn : s.part.anchor.node = .running) (order : List FrameWork) :
    s.runsTo (.slotBoundary order) s.mem (s.part.slotBoundary order) :=
  State.runsTo_of_act (f := fun p => p.slotBoundary order) (by simp [exec, execSlotBoundary, hn])

/-! ### The slot that ends (R6, R7, R122) -/

/-- A dropped fetch, as the statements say it (R120, R121). -/
theorem Arbiter.dropFetch_eq (a : Arbiter) : a.dropFetch = a.fetchDropped := by
  unfold Arbiter.dropFetch Arbiter.fetchDropped
  congr 1
  refine congrArg (fun f => a.turn.map f) (funext fun t => ?_)
  obtain ⟨k, ad, w, ab⟩ := t
  by_cases hk : k = .fetch <;> simp [hk]

theorem Part.slotCleared_of {p : Part} :
    (∀ st, st ≠ .faulted → p.slotCleared st = { p with port := { order := none, answer := none } }) ∧
      p.slotCleared .faulted = Part.faultNoted { p with port := { order := none, answer := none } } := by
  refine ⟨fun st h => ?_, ?_⟩
  · simp [Part.slotCleared, h]
  · simp [Part.slotCleared, Part.faultNoted, satInc]

/-- A DOWN slot settled frees its staging, and a whole burst SENT moves sent_to of a record still CURRENT (R122). -/
theorem Part.settleDown_of {p : Part} {n : Nat} {e : FragEntry} (he : p.tx.entryAt n = some e) :
    let freed : Part :=
      { p with
        tx := { p.tx with
          queue := p.tx.queue.map (fun x => if x.slot = n then { x with cond := .done } else x)
          staging := p.tx.staging.filter (fun g => g.slot ≠ n) }
        arb := if e.cond = .fetching then p.arb.fetchDropped else p.arb }
    (∀ sent, sent = false ∨ e.whole = false ∨ e.live = false → p.settleDown n sent = freed) ∧
      (e.whole = true → e.live = true → ∀ r, p.record e.record = some r →
        p.settleDown n true = freed.setRecord e.record (some { r with
          sentTo := if e.offset ≤ r.sentTo then max r.sentTo (e.offset + e.len) else r.sentTo })) := by
  refine ⟨fun sent h => ?_, fun hw hl r hr => ?_⟩
  · have hc : (sent && e.whole && e.live) = false := by
      rcases h with h | h | h <;> simp [h]
    simp [Part.settleDown, he, hc, Transmit.unstage, Transmit.editSlot, Arbiter.dropFetch_eq]
  · have hr' : p.pool.records[e.record] = some r := hr
    simp [Part.settleDown, he, hw, hl, Transmit.unstage, Transmit.editSlot, Arbiter.dropFetch_eq, Part.editRecord,
      Part.record, hr', sentAfter]

/-- A slot settled as `Part.slotSettles` says is what the model's settlement makes of it. -/
theorem Part.settleSlot_of_settles {p q : Part} {st : Settled} (h : p.slotSettles q st) : p.settleSlot = (q, st) := by
  obtain ⟨hno, hfault, hans⟩ := @BurstPort.settled_of p.port
  obtain ⟨hup, hup', hup''⟩ := @BurstPort.upOutcome_of p.port
  obtain ⟨hcl, hclf⟩ := @Part.slotCleared_of p
  obtain ⟨c0, -, c1, c2, c3, c4, c5⟩ := p.settleSlot_cases
  obtain ⟨hn, h⟩ | ⟨hn, hn', hd, ⟨ho, ha, rfl⟩, rfl⟩ | ⟨hn, k, hk, h⟩ | ⟨hn, ⟨g, hg⟩, e, he, h⟩ := h
  · have quiet : p.port.settled ≠ .answered → (∀ x, p.port.answer ≠ some (.heard x)) →
        p.settleSlot = (p.slotCleared p.port.settled, p.port.settled) := by
      intro hs hx
      by_cases h0 : p.timer.slot = 0
      · exact c0 h0 hs
      · by_cases h3 : p.timer.slot ≤ 3
        · exact c1 (by omega) h3 hx
        · exact c3 (by omega) (hn.resolve_left h3)
    obtain ⟨⟨ho, ha, rfl⟩, rfl⟩ | ⟨⟨ho, ha, rfl⟩, rfl⟩ := h
    · rw [quiet (by simp [hno ho]) (by simp [ha]), hno ho, hcl _ (by simp)]
    · rw [quiet (by simp [hfault ho ha]) (by rcases ha with ha | ha <;> simp [ha]), hfault ho ha, hclf]
  · have hs := hans (by simp [ho]) (.inr ⟨hd, ha⟩)
    rw [c2 hd hn hn' ha, hs, hcl _ (by simp)]
  · rw [c5 k hn hk]
    obtain ⟨⟨ho, ha, rfl⟩, rfl⟩ | ⟨⟨ho, ha, rfl⟩, rfl⟩ | ⟨x, ⟨ho, ha, rfl⟩, rfl⟩ := h
    · rw [hno ho, hup ho, hcl _ (by simp)]
    · rw [hfault ho ha, hup' ho ha, hclf]
      rfl
    · rw [hans (by simp [ho]) (.inr ⟨x, ha⟩), hup'' x (by simp [ho]) ha, hcl _ (by simp)]
  · have down := fun st => @Part.settleDown_of (p.slotCleared st) p.timer.slot e he
    rw [c4 g hn hg]
    obtain ⟨⟨ho, ha, rfl⟩, rfl⟩ | ⟨⟨ho, ha, rfl⟩, rfl⟩ | ⟨⟨⟨c, bs, ho⟩, ha, rfl⟩, hw, rfl⟩ |
      ⟨⟨⟨c, bs, ho⟩, ha, rfl⟩, hw, hl, r, hr, rfl⟩ := h
    · rw [hno ho, decide_eq_false (by simp), (down _).1 _ (.inl rfl), hcl _ (by simp)]
    · rw [hfault ho ha, decide_eq_false (by simp), (down _).1 _ (.inl rfl), hclf]
      rfl
    · rw [hans (by simp [ho]) (.inl ha), (down _).1 _ (.inr hw), hcl _ (by simp)]
    · rw [hans (by simp [ho]) (.inl ha), decide_eq_true rfl, (down _).2 hw hl r hr, hcl _ (by simp)]

/-- A slot ended as `Part.slotEnds` says is settled and counted into the fault run by the model. -/
theorem Part.nextSlot_of_ends {p q : Part} (hn : p.anchor.node = .running) (h : p.slotEnds q) :
    p.nextSlot = q.beginSlot (p.timer.slot + 1) := by
  obtain ⟨x, st, hs, rfl⟩ := h
  have hx := Part.settleSlot_of_settles hs
  have hf : x.timer.frame = p.timer.frame := by
    have := p.settleSlot_clock.frame
    rwa [hx] at this
  have hnx : x.anchor.node = .running := by
    have := p.settleSlot_frame.1
    rw [hx] at this
    rw [this, hn]
  simp only [Part.nextSlot, hx]
  rw [← hf, Part.countRun_eq hnx]

end Sys2Proof.Machine
end

