-- ==== Sys2Proof/Proofs/SlotBegins.lean ====
section
/-! PROOF. The boundary within a frame (R1, R4, R6, R10, R13, R16, R17, R119, R120): obligations O6, O7 and O10. -/

namespace Sys2Proof.Machine

/-! ### The rate of a slot's fragment -/

/-- The slots of the fetch queue with their rate classes, which no change of a fragment moves (R109). -/
def Transmit.rates (t : Transmit) : List (Nat × RateClass) := t.queue.map (fun e => (e.slot, e.rate))

/-- Fragments changed in place, but for slot and rate, leave the rates. -/
theorem Transmit.rates_map {t u : Transmit} {f : FragEntry → FragEntry} (h : u.queue = t.queue.map f)
    (hf : ∀ e, (f e).slot = e.slot ∧ (f e).rate = e.rate) : u.rates = t.rates := by
  unfold Transmit.rates
  rw [h, List.map_map]
  exact List.map_congr_left fun e _ => by simp [hf e]

theorem Transmit.rates_editSlot (t : Transmit) (n : Nat) {f : FragEntry → FragEntry}
    (hf : ∀ e, (f e).slot = e.slot ∧ (f e).rate = e.rate) : (t.editSlot n f).rates = t.rates :=
  rates_map (f := fun e => if e.slot = n then f e else e) rfl fun e => by split <;> simp [hf e]

/-- The rate of a slot's fragment is read from the rates. -/
theorem Transmit.rate_of_rates {t u : Transmit} (h : u.rates = t.rates) {n : Nat} {e : FragEntry}
    (he : u.entryAt n = some e) : ∃ e', t.entryAt n = some e' ∧ e'.rate = e.rate := by
  have find : ∀ v : Transmit, (v.entryAt n).map (fun e => (e.slot, e.rate)) = v.rates.find? (fun x => x.1 = n) := by
    intro v
    rw [Transmit.rates, List.find?_map]
    rfl
  have ht := find t
  rw [← h, ← find u, he] at ht
  obtain ⟨e', he', hr⟩ := Option.map_eq_some_iff.mp ht
  exact ⟨e', he', (Prod.mk.inj hr).2⟩

theorem Part.dropFragments_rates (p : Part) (i : PoolId) : (p.dropFragments i).tx.rates = p.tx.rates :=
  Transmit.rates_map (f := fun e => if e.record = i ∧ e.live = true then
    { e with live := false, cond := if e.cond = .done then .done else .empty } else e) rfl
    fun e => by split <;> simp

theorem Part.retireOne_rates (st : Status) (p : Part) (i : PoolId) : (Part.retireOne st p i).tx.rates = p.tx.rates := by
  unfold Part.retireOne
  split
  · rfl
  · split
    · rfl
    · simp [Part.dropFragments_rates]

theorem Part.retireAll_rates (p : Part) (st : Status) (ids : List PoolId) : (p.retireAll st ids).tx.rates = p.tx.rates := by
  unfold Part.retireAll
  dsimp only
  rw [foldl_keeps (fun q : Part => q.tx.rates) Part.promoteAll (fun q k => by simp)]
  exact foldl_keeps (fun q : Part => q.tx.rates) _ (fun q i => Part.retireOne_rates st q i) ids p

theorem Part.joinQueue_rates (p : Part) (i : PoolId) : (p.joinQueue i).tx.rates = p.tx.rates := by
  unfold Part.joinQueue
  split
  · rfl
  · dsimp only
    split
    · exact Part.retireAll_rates ..
    · simp

theorem Part.takeHandoffs_rates (p : Part) (n : Nat) : (p.takeHandoffs n).tx.rates = p.tx.rates := by
  unfold Part.takeHandoffs Part.joinHanded
  (repeat' split)
  · rfl
  · rfl
  · exact foldl_keeps (fun q : Part => q.tx.rates) _ Part.joinQueue_rates _ _

theorem Part.follow_rates (p : Part) : p.follow.tx.rates = p.tx.rates := by
  have start : p.tx.startFetch.rates = p.tx.rates := by
    unfold Transmit.startFetch
    split
    · rfl
    · split
      · exact p.tx.rates_editSlot _ fun e => ⟨rfl, rfl⟩
      · rfl
  simpa [Part.follow] using start

theorem State.pump_rates (s : State) : s.pump.part.tx.rates = s.part.tx.rates := by
  unfold State.pump
  dsimp only
  split <;> simp [Part.follow_rates, Part.takeHandoffs_rates]

theorem Part.lateFragment_rates (p : Part) (e : FragEntry) : (p.lateFragment e).tx.rates = p.tx.rates :=
  Transmit.rates_map (f := fun x =>
    if x.slot = e.slot then { x with cond := .done }
    else if x.record = e.record ∧ x.live = true ∧ e.slot < x.slot then { x with cond := .empty } else x) rfl
    fun x => by (repeat' split) <;> simp

/-! ### The slot that begins (R4) -/

/-- The Frame Timer at the beginning of a slot. -/
theorem Part.beginSlot_timer (p : Part) (n : Nat) : (p.beginSlot n).timer = { p.timer with slot := n } := by
  unfold Part.beginSlot
  dsimp only
  (repeat' split) <;> simp

/-- The slot that begins has no order unless the substate is ON, LISTEN in an access slot, and in a scheduled slot what
the plan gives, unless the frame began FAULTED. -/
theorem Part.beginSlot_cases (p : Part) (n : Nat) :
    let quiet := { p with timer := { p.timer with slot := n } }
    (p.timer.substate ≠ .on → p.beginSlot n = quiet) ∧
      (p.timer.substate = .on → n ≤ 3 → p.beginSlot n = quiet.present .listen) ∧
      (4 ≤ n → p.timer.schedWithheld = true ∨ p.planner.plan.use n = .idle → p.beginSlot n = quiet) ∧
      (p.timer.substate = .on → 4 ≤ n → p.timer.schedWithheld = false →
        (∀ k, p.planner.plan.use n = .up k → p.beginSlot n = quiet.present .listen) ∧
          ∀ g, p.planner.plan.use n = .down g → p.beginSlot n = quiet.beginDown n) := by
  refine ⟨fun hs => ?_, fun hs hn => ?_, fun hn hw => ?_, fun hs hn hw => ⟨fun k hk => ?_, fun g hg => ?_⟩⟩
  · simp [Part.beginSlot, hs]
  · simp [Part.beginSlot, hs, hn]
  · unfold Part.beginSlot
    dsimp only
    rw [if_neg (show ¬ n ≤ 3 by omega)]
    split
    · rcases hw with hw | hw <;> simp [hw]
    · rfl
  · simp [Part.beginSlot, hs, show ¬ n ≤ 3 by omega, hw, hk]
  · simp [Part.beginSlot, hs, show ¬ n ≤ 3 by omega, hw, hg]

/-- The order of a DOWN slot with a fragment is a burst of the fragment's rate class (R119). -/
theorem Part.beginDown_order {p : Part} {n : Nat} {e : FragEntry} (he : p.tx.entryAt n = some e) :
    ∃ bs, (p.beginDown n).port = { order := some (.send e.rate bs), answer := none } := by
  unfold Part.beginDown
  rw [he]
  dsimp only
  split <;> exact ⟨_, rfl⟩

theorem Part.beginDown_answer {p : Part} (n : Nat) (h : p.port.answer = none) : (p.beginDown n).port.answer = none := by
  unfold Part.beginDown
  split
  · exact h
  · dsimp only
    split <;> rfl

theorem Part.beginSlot_answer {p : Part} (n : Nat) (h : p.port.answer = none) : (p.beginSlot n).port.answer = none := by
  unfold Part.beginSlot
  dsimp only
  (repeat' split) <;> first | exact h | rfl | exact Part.beginDown_answer n h

theorem Part.beginDown_rates (p : Part) (n : Nat) : (p.beginDown n).tx.rates = p.tx.rates := by
  unfold Part.beginDown
  split
  · rfl
  · dsimp only
    split
    · exact p.tx.rates_editSlot n fun e => ⟨rfl, rfl⟩
    · exact p.tx.rates_editSlot n fun e => ⟨rfl, rfl⟩
    · rfl
    · exact p.lateFragment_rates _
    · exact p.lateFragment_rates _

/-! ### O6: however the slot before ended -/

/-- The orders of the slot that begins, as `Obligations.IdleAndFaultedSlots` states them of the part. -/
theorem Part.beginSlot_orders {p : Part} (n : Nat) (hp : p.port = { order := none, answer := none }) :
    let q := p.beginSlot n
    q.port.answer = none ∧
      (q.timer.substate ≠ .on → q.port.order = none) ∧
      (q.timer.substate = .on → n ≤ 3 → q.port.order = some .listen) ∧
      (q.timer.substate = .on → 4 ≤ n → q.timer.schedWithheld = true → q.port.order = none) ∧
      (q.timer.substate = .on → 4 ≤ n → q.timer.schedWithheld = false →
        (q.planner.plan.use n = .idle → q.port.order = none) ∧
          (∀ k, q.planner.plan.use n = .up k → q.port.order = some .listen) ∧
          ∀ g (tx : Transmit) (e : FragEntry), tx.rates = q.tx.rates → q.planner.plan.use n = .down g → tx.entryAt n = some e →
            ∃ bs, q.port.order = some (.send e.rate bs)) := by
  intro q
  have ht : q.timer = { p.timer with slot := n } := p.beginSlot_timer n
  have hpl : q.planner = p.planner := by simp [q]
  obtain ⟨off, access, withheld, sched⟩ := p.beginSlot_cases n
  rw [ht, hpl]
  refine ⟨?_, fun hs => ?_, fun hs hn => ?_, fun hs hn hw => ?_,
    fun hs hn hw => ⟨fun hi => ?_, fun k hk => ?_, fun g tx e hr hg he => ?_⟩⟩
  · exact Part.beginSlot_answer n (congrArg BurstPort.answer hp)
  · rw [show q = _ from off hs]; exact congrArg BurstPort.order hp
  · rw [show q = _ from access hs hn]; rfl
  · rw [show q = _ from withheld hn (.inl hw)]; exact congrArg BurstPort.order hp
  · rw [show q = _ from withheld hn (.inr hi)]; exact congrArg BurstPort.order hp
  · rw [show q = _ from (sched hs hn hw).1 k hk]; rfl
  · have hq := (sched hs hn hw).2 g hg
    obtain ⟨e', he', hrate⟩ := Transmit.rate_of_rates
      (t := p.tx) (by rw [hr, show q = _ from hq, Part.beginDown_rates]) he
    obtain ⟨bs, ho⟩ := @Part.beginDown_order { p with timer := { p.timer with slot := n } } n e' he'
    exact ⟨bs, by rw [show q = _ from hq, ho, hrate]⟩

/-- Settles O6: the slot that begins by its cases, whatever its predecessor left; and the whole part, from the way the
slot before ended. -/
theorem idleAndFaultedSlots : Obligations.IdleAndFaultedSlots := by
  refine ⟨fun s order hn hu hs hd => ?_, fun s order q hn hu hs hd hq => ?_⟩
  · have next := Part.slotBoundary_within hu hs hd order
    refine ⟨s.act (fun p => p.slotBoundary order), by simp [exec, execSlotBoundary, hn], (s.act_runs _).1,
      (s.act_runs _).2.1, ?_⟩
    obtain ⟨-, ht, hp, -, hpl, -, -⟩ := State.pump_part { s with part := s.part.slotBoundary order }
    have hr := State.pump_rates { s with part := s.part.slotBoundary order }
    simp only [State.act, next] at ht hp hpl hr ⊢
    set y := s.part.settleSlot.1.countRun s.part.timer.slot s.part.timer.frame s.part.settleSlot.2 with hy
    have hport : y.port = { order := none, answer := none } := by simp [hy, s.part.settleSlot_port]
    have hframe : y.timer.frame = s.part.timer.frame := by
      rw [hy, (Part.countRun_clock _ _ _ _).frame, s.part.settleSlot_clock.frame]
    have hnext : s.part.nextSlot = y.beginSlot (s.part.timer.slot + 1) := rfl
    obtain ⟨ha, o1, o2, o3, o4⟩ := y.beginSlot_orders (s.part.timer.slot + 1) hport
    rw [hnext] at ht hp hpl hr ⊢
    rw [ht, hp, hpl]
    refine ⟨by simp [Part.beginSlot_timer], by simp [Part.beginSlot_timer, hframe], by simp [hy], ha, o1, o2, o3,
      fun hs4 hn4 hw => ?_⟩
    obtain ⟨p1, p2, p3⟩ := o4 hs4 hn4 hw
    exact ⟨p1, p2, fun g e hg he => p3 g _ e hr hg he⟩
  · have run : ∀ x, q.beginSlot (s.part.timer.slot + 1) = x → s.runsTo (.slotBoundary order) s.mem x := by
      rintro x rfl
      rw [← Part.nextSlot_of_ends hn hq, ← Part.slotBoundary_within hu hs hd order]
      exact s.slotBoundary_runsTo hn order
    obtain ⟨off, access, withheld, sched⟩ := q.beginSlot_cases (s.part.timer.slot + 1)
    exact ⟨fun h => run _ (off h), fun h h3 => run _ (access h h3), fun h4 h => run _ (withheld h4 h),
      fun h h4 hw k hk => run _ ((sched h h4 hw).1 k hk)⟩

end Sys2Proof.Machine
end

