-- ==== Sys2Proof/Proofs/DownSlotsAndBeacon.lean ====
section
/-! PROOF. The DOWN slots (R119, R120) and the settled beacon (R11, R12, R17): obligations O7 and O10. -/

namespace Sys2Proof.Machine

/-! ### O7: what a DOWN slot sends -/

theorem Transmit.entryAt_slot {t : Transmit} {n : Nat} {e : FragEntry} (h : t.entryAt n = some e) : e.slot = n := by
  simpa using List.find?_some h

/-- The staging without the fragments of the entries of a queue that a test names. -/
theorem Transmit.unstage_filter (t : Transmit) (queue : List FragEntry) (f : FragEntry → Bool) :
    t.unstage ((queue.filter f).map FragEntry.slot) =
      { t with staging := t.staging.filter (fun g => !queue.any (fun x => f x && x.slot = g.slot)) } := by
  have named : ∀ g : Staged, ((queue.filter f).map FragEntry.slot).contains g.slot =
      queue.any (fun x => f x && x.slot = g.slot) := fun g => by
    rw [Bool.eq_iff_iff]
    simp [and_assoc]
  simp only [Transmit.unstage, named]

/-- A late fragment, as the statements say it (R120). -/
theorem Part.lateFragment_eq (p : Part) (e : FragEntry) :
    let mine := fun (x : FragEntry) => x.record = e.record && x.live
    p.lateFragment e =
      { p with
        tx :=
          { queue := p.tx.queue.map (fun x =>
              if x.slot = e.slot then { x with cond := .done }
              else if mine x = true ∧ e.slot < x.slot then { x with cond := .empty } else x)
            staging := p.tx.staging.filter (fun g => !p.tx.queue.any (fun x => mine x && x.slot = g.slot))
            late := if p.tx.late.contains e.record then p.tx.late else p.tx.late ++ [e.record]
            lateFragments := if p.tx.late.contains e.record then p.tx.lateFragments
              else min (p.tx.lateFragments + 1) 65535 }
        arb := if p.tx.queue.any (fun x => mine x && x.cond = .fetching) then p.arb.fetchDropped else p.arb } := by
  simp [Part.lateFragment, Transmit.unstage_filter, Arbiter.dropFetch_eq, List.any_filter, satInc, and_assoc]

/-- What a DOWN slot with a fragment sends, by the fragment's condition (R119, R120). -/
theorem Part.beginDown_cases {p : Part} {n : Nat} {e : FragEntry} (he : p.tx.entryAt n = some e) :
    let sends := fun (q : Part) (bs : List Byte) =>
      { q with port := { order := some (.send e.rate bs), answer := none } }
    (∀ x bs, e.cond = .ready → p.tx.staging.find? (fun x => x.slot = n) = some x → x.burst = some bs →
        p.beginDown n = sends { p with tx := p.tx.editSlot n (fun x => { x with cond := .done, whole := true }) } bs) ∧
      (e.cond = .empty →
        p.beginDown n = sends { p with tx := p.tx.editSlot n (fun x => { x with cond := .done }) } (emptyBurst e)) ∧
      (e.cond = .waiting ∨ e.cond = .fetching → p.beginDown n = sends (p.lateFragment e) (emptyBurst e)) := by
  refine ⟨fun x bs hc hx hb => ?_, fun hc => ?_, fun hc => ?_⟩
  · simp [Part.beginDown, he, hc, hx, hb]
  · simp [Part.beginDown, he, hc]
  · rcases hc with hc | hc <;> simp [Part.beginDown, he, hc]

/-- Settles O7: the DOWN slot by the condition of its fragment, after the slot before as it ended. -/
theorem downSlots : Obligations.DownSlots := by
  intro s order q hn hu hs hd hq n quiet h4 g hg
  have run : ∀ x, q.beginSlot n = x → s.runsTo (.slotBoundary order) s.mem x := by
    rintro x rfl
    rw [← Part.nextSlot_of_ends hn hq, ← Part.slotBoundary_within hu hs hd order]
    exact s.slotBoundary_runsTo hn order
  obtain ⟨off, -, withheld, sched⟩ := q.beginSlot_cases n
  refine ⟨fun h => h.elim (fun h => run _ (off h)) (fun h => run _ (withheld h4 (.inl h))), fun e hon hw he => ?_⟩
  have begins : q.beginSlot n = quiet.beginDown n := (sched hon h4 hw).2 g hg
  obtain ⟨ready, empty, late⟩ := @Part.beginDown_cases quiet n e he
  refine ⟨fun x bs hc hx hb => run _ (begins.trans (ready x bs hc hx hb)), fun hc => run _ (begins.trans (empty hc)),
    fun hc => run _ (begins.trans ((late hc).trans ?_))⟩
  have hslot := Transmit.entryAt_slot he
  rw [Part.lateFragment_eq, hslot]

/-! ### O10: the beacon's slot ends -/

/-- A beacon SENT from ON, and from FAULTED with RADIO_RESTORED (R11, R12, R17). -/
theorem Part.beaconSent_cases {p : Part} {k : Carried} (hn : p.anchor.node = .running) (hk : p.timer.carried = some k) :
    let told : Part :=
      { p with
        roster := { p.roster with ann := p.roster.ann.filter (fun a => !k.grants.contains a) }
        timer := { p.timer with resumed := p.timer.resumed && !k.resumed } }
    (p.timer.substate ≠ .faulted → p.beaconSent = told) ∧
      (p.timer.substate = .faulted →
        p.beaconSent = Part.withEvent { told with timer := { told.timer with substate := .on, faultRun := 0 } }
          (nodeEvent .radioRestored p.timer.frame 0 0)) := by
  refine ⟨fun hs => ?_, fun hs => ?_⟩
  · simp [Part.beaconSent, hk, hs, Part.dropCarried]
  · simp only [Part.beaconSent, hk, Option.getD_some, Part.dropCarried, hs, if_true]
    apply Part.submit_running
    exact hn

/-- Settles O10: slot 0 settled by its answer, in ON and in FAULTED, and slot 1 as the substate then gives it. -/
theorem beaconSettled : Obligations.BeaconSettled := by
  intro s order c bs k hn hu h0 hd ho hk p sent
  have run : ∀ x, s.part.nextSlot = x → s.runsTo (.slotBoundary order) s.mem x := by
    rintro x rfl
    rw [← Part.slotBoundary_within hu (by omega) hd order]
    exact s.slotBoundary_runsTo hn order
  obtain ⟨-, hfault, hans⟩ := @BurstPort.settled_of s.part.port
  obtain ⟨c0, c0', -⟩ := s.part.settleSlot_cases
  obtain ⟨hcl, hclf⟩ := @Part.slotCleared_of s.part
  have told := fun (h : s.part.port.answer = some .sent) => c0' h0 (hans (by simp [ho]) (.inl h))
  rw [hcl _ (by simp)] at told
  obtain ⟨on, restored⟩ :=
    Part.beaconSent_cases (p := { s.part with port := { order := none, answer := none } }) hn hk
  refine ⟨fun ha hs => run _ ?_, fun ha hs => run _ ?_, fun ha hs => run _ ?_⟩
  · have hs : s.part.timer.substate = .on := hs
    rw [on (by simp [hs])] at told
    simp [Part.nextSlot, told ha, Part.countRun, Part.beginSlot, Part.present, hs, h0, sent, p]
  · have hs : s.part.timer.substate = .faulted := hs
    rw [restored hs] at told
    simp [Part.nextSlot, told ha, Part.withEvent, Part.countRun, Part.beginSlot, Part.present, h0, sent, p, Part.setup]
  · have hs : s.part.timer.substate = .faulted := hs
    have hst := hfault (by simp [ho]) ha
    have settled := c0 h0 (by simp [hst])
    rw [hst, hclf] at settled
    simp [Part.nextSlot, settled, Part.faultNoted, Part.countRun, Part.beginSlot, hs, h0, p]

end Sys2Proof.Machine
end

