-- ==== Sys2Proof/Proofs/Silence.lean ====
section
/-! PROOF. The silence transitions and the directives that order them (R19, R20, R21, R22): obligations O12 and O25. -/

namespace Sys2Proof.Machine

/-! ### The transition of a frame start (R20) -/

/-- A settled slot counted leaves the silence state, and never turns the radio OFF or out of SILENT. -/
theorem Part.runCounted_frame (p : Part) (n : Nat) (st : Settled) :
    (p.runCounted n st).anchor = p.anchor ∧ (p.runCounted n st).due = p.due ∧
      (p.runCounted n st).timer.silence = p.timer.silence ∧ (p.runCounted n st).timer.frame = p.timer.frame ∧
      (p.runCounted n st).timer.resumed = p.timer.resumed := by
  unfold Part.runCounted Part.withEvent
  (repeat' split) <;> simp

/-- Where no silence begins or ends the silence stands (R20). -/
theorem Part.silenceTransition_none {p : Part} {f : Word} (hb : p.timer.silence.begins f = false)
    (he : p.timer.silence.ends f = false) : p.silenceTransition f = p := by
  unfold Part.silenceTransition
  split
  · rfl
  · next hs =>
    rw [hs] at hb
    exact if_neg (of_decide_eq_false hb)
  · next hs =>
    rw [hs] at he
    exact if_neg (of_decide_eq_false he)

/-- The Frame Timer's work at a frame start that begins a silence, at one that ends it, and at any other (R20). -/
theorem Part.timerWork_cases {p : Part} (hn : p.anchor.node = .running) (hd : p.due.timer = true) :
    let ran := p.runCounted 39 p.due.lastSlot
    let f := ran.due.frame
    let sub := if ran.timer.substate = .off then Substate.on else ran.timer.substate
    let taken := { ran.due with timer := false }
    (∀ stop, ran.timer.silence = .pending f stop →
      p.frameWork .timer = Part.withEvent
        { ran with
          timer := { ran.timer with
            frame := f, silence := .active stop, substate := .silent, faultRun := 0, schedWithheld := false }
          due := taken } (nodeEvent .silenceBegun f stop (stop - f))) ∧
      (ran.timer.silence = .active f →
        p.frameWork .timer = Part.withEvent
          { ran with
            timer := { ran.timer with
              frame := f, silence := .none, substate := .on, faultRun := 0, resumed := true, schedWithheld := false }
            due := taken } (nodeEvent .silenceEnded f 0 0)) ∧
      (ran.timer.silence.begins f = false → ran.timer.silence.ends f = false →
        p.frameWork .timer =
          { ran with
            timer := { ran.timer with frame := f, substate := sub, schedWithheld := decide (sub = .faulted) }
            due := taken }) := by
  intro ran f sub taken
  have due : ∀ (q : Part) d n st, Part.runCounted { q with due := d } n st = { q.runCounted n st with due := d } := by
    intro q d n st
    unfold Part.runCounted Part.withEvent
    (repeat' split) <;> rfl
  obtain ⟨hra, hrd, -, -, -⟩ := p.runCounted_frame 39 p.due.lastSlot
  have work : p.frameWork .timer =
      (let x := Part.silenceTransition
        { ran with timer := { ran.timer with frame := f, substate := sub }, due := taken } f
       { x with timer := { x.timer with schedWithheld := decide (x.timer.substate = .faulted) } }) := by
    have counted := Part.countRun_eq (p := { p with due := { p.due with timer := false } }) hn 39 p.due.lastSlot
    rw [due] at counted
    simp only [Part.frameWork, hd, if_true, Part.timerFrameStart]
    rw [counted]
    simp only [f, taken, ran, hrd]
    rfl
  have hra : ran.anchor.node = .running := by rw [hra, hn]
  refine ⟨fun stop hs => ?_, fun hs => ?_, fun hb he => ?_⟩
  · rw [work]
    simp only [Part.silenceTransition, hs, if_true, Part.submit, hra, Part.withEvent]
    rfl
  · rw [work]
    simp only [Part.silenceTransition, hs, if_true, Part.submit, hra, Part.withEvent]
    rfl
  · have stays := Part.silenceTransition_none
      (p := { ran with timer := { ran.timer with frame := f, substate := sub }, due := taken }) hb he
    rw [work, stays]

/-! ### O12: SILENCE_STARTS and SILENCE_ENDS -/

theorem State.silenceStarts_runsTo {s : State} (hd : s.part.due.timer = true)
    (hb : s.part.timer.silence.begins s.part.due.frame = true) :
    s.runsTo .silenceStarts s.mem (s.part.frameWork .timer).thenBeacon := by
  rw [← Part.tryBeacon_eq]
  exact State.runsTo_of_act (f := fun p => p.frameWorkThenBeacon .timer) (by simp [exec, execSilenceStarts, hd, hb])

theorem State.silenceEnds_runsTo {s : State} (hd : s.part.due.timer = true)
    (he : s.part.timer.silence.ends s.part.due.frame = true) :
    s.runsTo .silenceEnds s.mem (s.part.frameWork .timer).thenBeacon := by
  rw [← Part.tryBeacon_eq]
  exact State.runsTo_of_act (f := fun p => p.frameWorkThenBeacon .timer) (by simp [exec, execSilenceEnds, hd, he])

/-- Settles O12: the Frame Timer's work by the silence state that the frame start finds. -/
theorem silenceTransitions : Obligations.SilenceTransitions := by
  intro s hn hd p f starts sub works
  obtain ⟨-, hdue, hsil, -, -⟩ := s.part.runCounted_frame 39 s.part.due.lastSlot
  have hf : f = s.part.due.frame := congrArg FrameWorkDue.frame hdue
  have hsil : p.timer.silence = s.part.timer.silence := hsil
  obtain ⟨begins, ends, other⟩ := Part.timerWork_cases hn hd
  refine ⟨fun stop hs => ?_, fun hs => ?_, fun hb he => other hb he, fun hb => ?_, fun he => ?_⟩
  · have work := begins stop hs
    have run := State.silenceStarts_runsTo hd (by rw [← hsil, ← hf, hs]; exact decide_eq_true rfl)
    rw [work] at run
    exact ⟨work, run⟩
  · have work := ends hs
    have run := State.silenceEnds_runsTo hd (by rw [← hsil, ← hf, hs]; exact decide_eq_true rfl)
    rw [work] at run
    exact ⟨work, run⟩
  · rw [hsil, hf] at hb
    simp [exec, execSilenceStarts, hb]
  · rw [hsil, hf] at he
    simp [exec, execSilenceEnds, he]

/-! ### O25: SILENCE and QUIET_END -/

/-- An item finished and the engine free again, as the statements say it (R89, R98). -/
theorem Part.answerDirective_eq (p : Part) (r : RingId) (it : OpenItem) (st : Status) :
    p.answerDirective r it st = p.itemFinished r it.first it.count st := rfl

/-- The silence state set by a directive; a frame start due at which no silence begins or ends any more is taken with it
(R20, log 8). -/
theorem Part.setSilence_eq {p : Part} (hn : p.anchor.node = .running) (sil : Silence) :
    let g := p.due.frame
    let set := { p with timer := { p.timer with silence := sil } }
    let ran := set.runCounted 39 p.due.lastSlot
    let sub := if ran.timer.substate = .off then Substate.on else ran.timer.substate
    p.setSilence sil =
      if p.due.timer = true ∧ sil.begins g = false ∧ sil.ends g = false then
        Part.thenBeacon { ran with
          timer := { ran.timer with frame := g, substate := sub, schedWithheld := decide (sub = .faulted) }
          due := { ran.due with timer := false } }
      else set := by
  intro g set ran sub
  obtain ⟨-, hdue, hsil, -, -⟩ := set.runCounted_frame 39 set.due.lastSlot
  by_cases goes : p.due.timer = true ∧ sil.begins g = false ∧ sil.ends g = false
  · obtain ⟨hd, hb, he⟩ := goes
    obtain ⟨-, -, other⟩ := Part.timerWork_cases (p := set) hn hd
    rw [hsil, hdue] at other
    have own : set.ownCommand .timer = false := by
      show (sil.begins g || sil.ends g) = false
      rw [hb, he]
      rfl
    have taken : p.setSilence sil = set.frameWorkThenBeacon .timer := by
      unfold Part.setSilence
      exact if_pos (by rw [own]; simpa using hd)
    rw [if_pos ⟨hd, hb, he⟩, taken, Part.frameWorkThenBeacon, Part.tryBeacon_eq, other hb he,
      show ran.due = set.due from hdue]
  · rw [if_neg goes]
    unfold Part.setSilence
    refine if_neg fun hc => goes ?_
    simp only [Bool.and_eq_true, Bool.not_eq_true'] at hc
    obtain ⟨hd, own⟩ := hc
    have own : (sil.begins g || sil.ends g) = false := own
    exact ⟨hd, Bool.or_eq_false_iff.mp own⟩

/-- Settles O25: each directive sets the silence state by the one it finds, and its item finishes OK. -/
theorem silenceDirectives : Obligations.SilenceDirectives := by
  refine ⟨fun s r it d hn hh => ?_, fun p u x y => rfl⟩
  intro p f g finishes
  have run : ∀ (c : Instr) (sil : Silence),
      exec c s = .next (s.act fun _ => (p.setSilence sil).answerDirective r it .ok) → finishes c sil := by
    intro c sil h
    have := State.runsTo_of_act (f := fun _ => (p.setSilence sil).answerDirective r it .ok) h
    have eq : p.setSilence sil = _ := Part.setSilence_eq hn sil
    rw [Part.answerDirective_eq, eq] at this
    exact this
  refine ⟨fun n m hd => ?_, fun hd => ?_⟩
  · subst hd
    intro b e sil
    have order : p.timer.silence.order f n m = sil := by
      simp only [sil]
      cases p.timer.silence <;> rfl
    refine ⟨run .silence sil ?_, fun e' hs => ?_⟩
    · simp [exec, execSilence, State.takeDirective, hh, Part.orderSilence, ← order, p, f]
    · refine ⟨if ahead f e' ≤ ahead f e then e else e', by simp [sil, hs], ?_⟩
      split
      · assumption
      · exact le_rfl
  · subst hd
    have quiet : ∀ sil, p.timer.silence.quiet f = sil → finishes .quietEnd sil := by
      rintro sil rfl
      refine run .quietEnd _ ?_
      simp [exec, execQuietEnd, State.takeDirective, hh, Part.endQuiet, p, f]
    refine quiet _ ?_
    cases p.timer.silence <;> rfl

end Sys2Proof.Machine
end

