-- ==== Sys2Proof/Proofs/LoadEnds.lean ====
section
/-! PROOF. A load that succeeds (R23, R105, R173): obligation O48. -/

namespace Sys2Proof.Machine

/-- With no event held ATTN does not call (R181). -/
theorem Part.attnDue_of_noEvents {p : Part} (h : p.ev.held = []) : p.attnDue = false := by
  simp [Part.attnDue, EventWriter.calls, EventWriter.unconsumed, h]

/-- A done word read in a load whose checks have passed: the first is kept, the second ends the load (R105). -/
theorem Part.doneWordRead_cases {p : Part} {l : Load} {u : Setup} (hl : p.anchor.load = some l)
    (hu : l.passed = some u) (w : Word) :
    (p.adm.loadReads = [] → p.doneWordRead w = { p with adm := { p.adm with loadReads := [w] } }) ∧
      ∀ x xs, p.adm.loadReads = x :: xs → p.doneWordRead w = p.loadSuccess u x w := by
  refine ⟨fun h => ?_, fun x xs h => ?_⟩ <;> simp [Part.doneWordRead, hl, hu, h]

/-- A successful load, with ATTN judged: no event is held yet (R173, R181). -/
theorem Part.loadSuccess_eq (p : Part) (u : Setup) (x y : Word) :
    p.loadSuccess u x y =
      { anchor := { p.anchor with
          node := .running, haltReq := false, load := none, setup := some u
          status := { code := .running, reason := .none }, statusOwed := true
          marks := { admission := false, uplink := false, image := false, event := false } }
        bus := { map := some (windowMap u), armed := true, guardedWrites := 0 }
        arb := { p.arb with lastLow := .event }
        timer := FrameTimer.reset
        port := { order := none, answer := none }
        due := FrameWorkDue.nothing
        roster := { Roster.fresh u.defaultWeight with
          entries := Vector.replicate 48 { Entry.blank u.defaultWeight with dirty := true } }
        image := ImageWriter.reset
        planner := Planner.reset
        adm := Admission.fresh x y
        pool := Pool.reset
        tx := Transmit.reset
        uplink := Uplink.fresh u.uplinkStart
        ev := EventWriter.fresh u.eventStart } := by
  have attn : ∀ q : Part, q.ev = EventWriter.fresh u.eventStart → q.judgeAttn = q := by
    intro q hq
    have hd := Part.attnDue_of_noEvents (p := q) (by rw [hq]; rfl)
    simp only [Part.judgeAttn, hd]
    rw [show ({ q.ev with attn := false } : EventWriter) = q.ev by rw [hq]; rfl]
  unfold Part.loadSuccess Part.setNode
  rw [attn _ rfl]
  rfl

/-- Settles O48: the two reads of a load, and each block's START values as they are written. -/
theorem loadSucceeds : Obligations.LoadSucceeds := by
  intro s tn l u ht hw hl hu p w ring
  have run := State.runsTo_of_finishTurn (c := .doneWordReadDone) (kind := fun k => k = .doneRead)
    (f := fun p _ w => p.doneWordRead w) ht (by simp) rfl
  have mem : s.afterTurn tn = s.mem := by simp [State.afterTurn, hw]
  rw [mem] at run
  obtain ⟨first, second⟩ := Part.doneWordRead_cases (p := p) hl hu w
  refine ⟨fun h => ?_, fun x xs h => ?_⟩
  · rw [first h] at run
    exact run
  · rw [second x xs h] at run
    rw [Part.loadSuccess_eq] at run
    exact run

end Sys2Proof.Machine
end

