-- ==== Sys2Proof/Proofs/AirBursts.lean ====
section
/-! PROOF. The bytes of the bursts (R11, R12, R117, R118, R135, R184, 11.1, 11.3): obligation O53. -/

namespace Sys2Proof.Machine

/-! ### Bytes as numbers -/

theorem toNat_append_byte {n : Nat} (x : BitVec n) (y : Byte) : (x ++ y).toNat = x.toNat * 256 + y.toNat := by
  rw [BitVec.toNat_append, ← Nat.shiftLeft_add_eq_or_of_lt y.isLt, Nat.shiftLeft_eq]

theorem getLsbD_eq_decide {n : Nat} (x : BitVec n) (i : Nat) : x.getLsbD i = decide (x.toNat / 2 ^ i % 2 = 1) := by
  rw [← BitVec.testBit_toNat, Nat.testBit_eq_decide_div_mod_eq]

/-- A 16-bit value as it is sent (R184). -/
theorem airWord_eq (w : Word) : airWord w = [BitVec.ofNat 8 (w.toNat / 256), BitVec.ofNat 8 w.toNat] := by
  have hw := w.isLt
  simp only [airWord, highByte, lowByte, List.cons.injEq, and_true]
  refine ⟨?_, ?_⟩ <;> apply BitVec.eq_of_toNat_eq <;>
    simp only [BitVec.toNat_setWidth, BitVec.toNat_ushiftRight, Nat.shiftRight_eq_div_pow, BitVec.toNat_ofNat]

/-- A 24-bit value as it is sent (R184). -/
theorem airTriple_eq (x : BitVec 24) :
    airTriple x = airWord (BitVec.ofNat 16 (x.toNat / 256)) ++ [BitVec.ofNat 8 x.toNat] := by
  have hx := x.isLt
  simp only [airTriple, airWord_eq, List.cons_append, List.nil_append, List.cons.injEq, and_true]
  refine ⟨?_, ?_, ?_⟩ <;> apply BitVec.eq_of_toNat_eq <;>
    simp only [BitVec.toNat_setWidth, BitVec.toNat_ushiftRight, Nat.shiftRight_eq_div_pow, BitVec.toNat_ofNat] <;> omega

/-! ### The bursts the part sends -/

theorem bit_le_one (b : Bool) : bit b ≤ 1 := by cases b <;> decide

/-- The downlink header by its fields (11.3). -/
theorem downHeader_eq {kind sid cls seq offset len : Nat} (last sumPresent : Bool) (ho : offset < 16384)
    (hl : len < 512) :
    downHeader kind sid cls seq offset last sumPresent len =
      [kind * 64 + sid, cls * 64 + seq, offset / 64, 4 * (offset % 64) + 2 * bit last + bit sumPresent, len / 2,
        128 * (len % 2)].map (BitVec.ofNat 8) := by
  have h1 := bit_le_one last
  have h2 := bit_le_one sumPresent
  simp only [downHeader, List.map_cons, List.map_nil, List.cons.injEq, true_and, and_true]
  refine ⟨?_, ?_, ?_, ?_⟩ <;> apply BitVec.eq_of_toNat_eq <;>
    simp only [BitVec.toNat_setWidth, BitVec.toNat_ushiftRight, Nat.shiftRight_eq_div_pow, BitVec.toNat_ofNat] <;> omega

theorem grantBytes_eq (a : Option Announcement) :
    grantBytes a = (match a with
      | some a => airWord (BitVec.ofNat 16 (a.car.toNat / 256)) ++ [BitVec.ofNat 8 a.car.toNat, a.sid.setWidth 8]
      | none => [0, 0, 0, 63]) := by
  cases a with
  | none => rfl
  | some a => simp [grantBytes, airTriple_eq]

theorem grantBytes_length (a : Option Announcement) : (grantBytes a).length = 4 := by
  cases a <;> rfl

theorem beaconBytes_length {b : Beacon} (h : b.slotMap.length = 36) : (beaconBytes b).length = 64 := by
  simp [beaconBytes, downHeader, airWord, grantBytes_length, h]

/-! ### The poll response -/

/-- The four bytes of a fragment header as a number (11.3). -/
theorem airQuadAt_toNat (bs : List Byte) (i : Nat) :
    (airQuadAt bs i).toNat = 16777216 * (byteAt bs i).toNat + 65536 * (byteAt bs (i + 1)).toNat +
      256 * (byteAt bs (i + 2)).toNat + (byteAt bs (i + 3)).toNat := by
  simp only [airQuadAt, toNat_append_byte]
  omega

theorem airWordAt_toNat (bs : List Byte) (i : Nat) :
    (airWordAt bs i).toNat = 256 * (byteAt bs i).toNat + (byteAt bs (i + 1)).toNat := by
  simp only [airWordAt, toNat_append_byte]
  omega

/-- An ack entry by its fields (11.3). -/
theorem ackAt_eq (bs : List Byte) (j : Nat) :
    let b := fun (i : Nat) => (bs.getD i 0).toNat
    ackAt bs j =
      { cls := if b j / 64 = 0 then some .stop else if b j / 64 = 1 then some .control
          else if b j / 64 = 2 then some .bulk else none
        seq := BitVec.ofNat 6 (b j), offset := 256 * (b (j + 1) % 64) + b (j + 2) } := by
  intro b
  have hb := (bs.getD j 0).isLt
  have hb1 := (bs.getD (j + 1) 0).isLt
  have hb2 := (bs.getD (j + 2) 0).isLt
  unfold ackAt
  congr 1
  · have : (byteAt bs j).toNat / 64 < 4 := by simp only [byteAt]; omega
    show classOfAir ((byteAt bs j).toNat / 64) = _
    have hj : b j / 64 = (byteAt bs j).toNat / 64 := rfl
    rw [hj]
    interval_cases (byteAt bs j).toNat / 64 <;> rfl
  · rw [airWordAt_toNat, show j + 1 + 1 = j + 2 from rfl]
    simp only [byteAt, b]
    omega

/-- A fragment by its fields (11.3). -/
theorem fragmentAt_eq (bs : List Byte) (i : Nat) :
    let b := fun (i : Nat) => (bs.getD i 0).toNat
    let len := 128 * (b (i + 2) % 4) + b (i + 3) / 2
    fragmentAt bs i =
      { seq := BitVec.ofNat 6 (b i / 4), last := decide (b i / 2 % 2 = 1), sumPresent := decide (b i % 2 = 1)
        offset := 64 * b (i + 1) + b (i + 2) / 4, len := len, data := (bs.drop (i + 4)).take len
        trailer := BitVec.ofNat 16 (256 * b (i + 4 + len) + b (i + 5 + len)) } := by
  intro b len
  have hb := (bs.getD i 0).isLt
  have hb1 := (bs.getD (i + 1) 0).isLt
  have hb2 := (bs.getD (i + 2) 0).isLt
  have hb3 := (bs.getD (i + 3) 0).isLt
  have hq := airQuadAt_toNat bs i
  simp only [byteAt] at hq
  have hlen : (airQuadAt bs i >>> 1).toNat % 512 = len := by
    simp only [BitVec.toNat_ushiftRight, Nat.shiftRight_eq_div_pow, hq, len, b]
    omega
  unfold fragmentAt
  simp only [hlen]
  congr 1
  · apply BitVec.eq_of_toNat_eq
    simp only [BitVec.toNat_setWidth, BitVec.toNat_ushiftRight, Nat.shiftRight_eq_div_pow, hq, BitVec.toNat_ofNat, b]
    omega
  · rw [getLsbD_eq_decide, hq]
    exact decide_eq_decide.mpr (by simp only [b]; omega)
  · rw [getLsbD_eq_decide, hq]
    exact decide_eq_decide.mpr (by simp only [b]; omega)
  · simp only [BitVec.toNat_ushiftRight, Nat.shiftRight_eq_div_pow, hq, b]
    omega
  · apply BitVec.eq_of_toNat_eq
    rw [airWordAt_toNat]
    simp only [byteAt, BitVec.toNat_ofNat, b]
    have h4 := (bs.getD (i + 4 + len) 0).isLt
    have h5 := (bs.getD (i + 4 + len + 1) 0).isLt
    rw [show i + 5 + len = i + 4 + len + 1 by omega]
    omega

/-- The header byte of a poll response names the kind and the slot's owner. -/
theorem pollHeader_iff (x : Byte) (owner : ShortId) :
    (x >>> 6 = 3 ∧ x.toNat % 64 = owner.val) ↔ x.toNat = 192 + owner.val := by
  have hx := x.isLt
  have ho := owner.isLt
  have h6 : x >>> 6 = 3 ↔ x.toNat / 64 = 3 := by
    rw [← BitVec.toNat_inj]
    simp [Nat.shiftRight_eq_div_pow]
  rw [h6]
  omega

/-- Settles O53: each burst by its fields. -/
theorem airLayouts : Obligations.AirLayouts := by
  unfold Obligations.AirLayouts
  intro flag bytes
  have hflag : ∀ b, flag b = bit b := fun b => by cases b <;> rfl
  have hbytes : ∀ w, bytes w = airWord w := fun w => (airWord_eq w).symm
  refine ⟨fun e contents trailer ho hl => ?_, fun b => ?_, fun owner bs => ?_, fun r q x => ?_⟩
  · intro cls header
    have hcls : airClass e.cls = cls := by cases hc : e.cls <;> simp [cls, hc, airClass]
    have hhead : ∀ l s n, n < 512 → fragHeader e l s n = header l s n := by
      intro l s n hn
      rw [fragHeader, downHeader_eq l s ho hn, hcls]
      simp only [header, hflag, one_mul, mul_comm cls]
    simp [wholeBurst, emptyBurst, hhead _ _ _ hl, hhead _ _ 0 (by omega), hbytes]
  · intro grant
    have hgrant : ∀ a, grant a = grantBytes a := fun a => by
      rw [grantBytes_eq]
      cases a <;> simp [grant, hbytes]
    refine ⟨?_, beaconBytes_length⟩
    simp [beaconBytes, hgrant, hbytes, hflag, mul_comm, downHeader_eq, bit]
  · intro b count i len ack fragment carries valid
    have hack : ∀ j, ackAt bs j = ack j := fun j => ackAt_eq bs j
    have hfrag : fragmentAt bs i = fragment := fragmentAt_eq bs i
    have bit1 : ∀ n, (byteAt bs 1).getLsbD n = decide (b 1 / 2 ^ n % 2 = 1) := fun n => getLsbD_eq_decide _ n
    have h1 := (bs.getD 1 0).isLt
    have alarm : (b 1 / 2 ^ 7 % 2 = 1) ↔ (b 1 / 128 = 1) := by simp only [b]; omega
    have hvalid : valid ↔ ((byteAt bs 0 >>> 6) = 3 ∧ (byteAt bs 0).toNat % 64 = owner.val ∧ count ≤ 3 ∧
        (if (byteAt bs 1).getLsbD 5 then i + 6 + (fragmentAt bs i).len else i) ≤ bs.length) := by
      rw [← and_assoc, pollHeader_iff, bit1, hfrag]
      simp only [valid, carries, decide_eq_true_eq]
      rfl
    refine ⟨fun hv => ?_, fun hv => ?_⟩
    · refine (if_pos (hvalid.mp hv)).trans ?_
      simp only [bit1, hack, decide_eq_true_eq, decide_eq_decide.mpr alarm,
        show fragmentAt bs (4 + 4 * ((byteAt bs 1).toNat % 8)) = fragment from hfrag]
      rfl
    · exact if_neg (mt hvalid.mpr hv)
  · unfold UpResult.response
    cases ho : r.outcome with
    | nothing => simp
    | withheld => simp
    | heard h =>
      cases hh : h.outcome with
      | ok =>
        simp only [hh, Option.map_eq_some_iff, Prod.mk.injEq, UpOutcome.heard.injEq]
        refine ⟨fun ⟨y, hy, hq, hx⟩ => ⟨h, rfl, hh, hq.symm, hx ▸ hy⟩, ?_⟩
        rintro ⟨g, rfl, -, hq, hx⟩
        exact ⟨x, hx, hq.symm, rfl⟩
      | crcFail | nothing =>
        simp only [hh, UpOutcome.heard.injEq, reduceCtorEq, false_iff]
        rintro ⟨g, rfl, ho', -⟩
        rw [hh] at ho'
        cases ho'

end Sys2Proof.Machine
end

