-- ==== Sys2Proof/Proofs/FrameStart.lean ====
section
/-! PROOF. The frame start taken by the blocks in the order of the operand, and what a boundary left taken first (R1, R2,
R7, R8): obligation O8. -/

namespace Sys2Proof.Machine

/-! ### What is due, work by work -/

/-- The work of a block is due. -/
def Part.isDue (p : Part) : FrameWork → Bool
  | .timer => p.due.timer
  | .roster => p.due.roster
  | .ageing => p.due.ageing
  | .build => p.due.build
  | .image => p.due.image
  | .result => !p.due.results.isEmpty

/-- A work that is not due changes nothing (R2). -/
theorem Part.frameWork_of_notDue {p : Part} {w : FrameWork} (h : p.isDue w = false) : p.frameWork w = p := by
  cases w <;> simp_all [Part.isDue, Part.frameWork, Part.takeOldest]

/-- A work that is taken leaves the other works as they were due, and its own no longer is. -/
theorem Part.frameWork_due (p : Part) (w : FrameWork) :
    (p.frameWork w).due = (match w with
      | .timer => { p.due with timer := false }
      | .roster => { p.due with roster := false }
      | .ageing => { p.due with ageing := false }
      | .build => { p.due with build := false }
      | .image => { p.due with image := false }
      | .result => { p.due with results := p.due.results.tail }) := by
  cases h : p.isDue w with
  | false =>
    rw [Part.frameWork_of_notDue h]
    cases w with
    | result =>
      have h : p.due.results = [] := by simpa [Part.isDue] using h
      dsimp only
      rw [h, List.tail_nil, ← h]
    | _ =>
      simp only [Part.isDue] at h
      simp only [← h]
  | true =>
    cases w with
    | result =>
      unfold Part.frameWork Part.takeOldest
      dsimp only
      split <;> simp_all [Part.isDue]
    | _ => simp_all [Part.isDue, Part.frameWork]

/-- A frame-start work, once taken, is not due again; of the results the oldest is taken. -/
theorem Part.frameWorkThenBeacon_due (p : Part) (w : FrameWork) :
    (p.frameWorkThenBeacon w).due = (p.frameWork w).due := by
  simp [Part.frameWorkThenBeacon]

/-- Every work leaves the place in the frame as it is. -/
theorem Part.frameWorkThenBeacon_place (p : Part) (w : FrameWork) :
    (p.frameWorkThenBeacon w).timer.slot = p.timer.slot ∧
      (p.frameWorkThenBeacon w).timer.underWay = p.timer.underWay := by
  have transition : ∀ (q : Part) f, (q.silenceTransition f).timer.slot = q.timer.slot := by
    intro q f
    unfold Part.silenceTransition
    (repeat' split) <;> simp
  have beacon : ∀ q : Part, q.tryBeacon.timer.slot = q.timer.slot ∧ q.tryBeacon.timer.underWay = q.timer.underWay := by
    intro q
    unfold Part.tryBeacon
    dsimp only
    (repeat' split) <;> simp
  rw [Part.frameWorkThenBeacon, (beacon _).1, (beacon _).2]
  cases w with
  | timer =>
    unfold Part.frameWork
    dsimp only
    split
    · simp [Part.timerFrameStart, transition, (Part.countRun_clock _ _ _ _).slot]
    · simp
  | result => simp [Part.frameWork]
  | roster | ageing | build | image =>
    unfold Part.frameWork
    dsimp only
    split <;> simp

/-- A beacon waits only for the transition, the build, or acknowledgements (R8, R9). -/
theorem Part.tryBeacon_done {p : Part} (ht : p.due.timer = false) (hb : p.due.build = false)
    (ha : p.acksWait = false) : p.tryBeacon.timer.beaconDue = false := by
  unfold Part.tryBeacon
  cases h : p.timer.beaconDue with
  | false => simp [h]
  | true =>
    simp only [ht, hb, ha, and_self, if_true]
    split <;> rfl

/-- The works of a boundary in the model's order. -/
def boundaryWorks : List FrameWork := [.timer, .roster, .ageing, .build, .image]

/-- After the works of a boundary none of them is due, and a beacon still waiting waits for results. -/
theorem Part.boundaryWorks_due (p : Part) :
    let q := boundaryWorks.foldl Part.frameWorkThenBeacon p
    q.due = { p.due with timer := false, roster := false, ageing := false, build := false, image := false } ∧
      (q.due.results = [] → q.timer.beaconDue = false) := by
  have due : ∀ q : Part, boundaryWorks.foldl Part.frameWorkThenBeacon q =
      (((((q.frameWorkThenBeacon .timer).frameWorkThenBeacon .roster).frameWorkThenBeacon .ageing).frameWorkThenBeacon
        .build).frameWorkThenBeacon .image) := fun _ => rfl
  intro q
  have hq : q.due =
      { p.due with timer := false, roster := false, ageing := false, build := false, image := false } := by
    simp only [q, due, Part.frameWorkThenBeacon_due, Part.frameWork_due]
  refine ⟨hq, fun hr => ?_⟩
  simp only [q, due] at hq hr ⊢
  rw [Part.frameWorkThenBeacon] at hq hr ⊢
  simp only [Part.tryBeacon_frame] at hq hr
  refine Part.tryBeacon_done (by rw [hq]) (by rw [hq]) ?_
  simp [Part.acksWait, hr]

/-- All the results taken: none is due, and no beacon waits for them. -/
theorem Part.flushResults_due {p : Part} (ht : p.due.timer = false) (hb : p.due.build = false)
    (hc : p.due.results = [] → p.timer.beaconDue = false) :
    p.flushResults.due = { p.due with results := [] } ∧ p.flushResults.timer.beaconDue = false := by
  unfold Part.flushResults
  generalize hrs : p.due.results = rs
  induction rs generalizing p with
  | nil =>
    refine ⟨?_, hc hrs⟩
    show p.due = { p.due with results := [] }
    rw [← hrs]
  | cons r rs ih =>
    have hd : (p.frameWorkThenBeacon .result).due = { p.due with results := rs } := by
      rw [Part.frameWorkThenBeacon_due, Part.frameWork_due, hrs]
      rfl
    have := @ih (p.frameWorkThenBeacon .result) (by rw [hd]; exact ht) (by rw [hd]; exact hb) (fun hn => ?_) (by rw [hd])
    · rw [hd] at this
      exact this
    · rw [hd] at hn
      rw [Part.frameWorkThenBeacon] at hd ⊢
      simp only [Part.tryBeacon_frame] at hd
      exact Part.tryBeacon_done (by rw [hd]; exact ht) (by rw [hd]; exact hb)
        (by simp only [Part.acksWait, hd]; simp [show rs = [] from hn])

/-- After a boundary has taken what was left nothing is due any more. -/
theorem Part.flushDue_done (p : Part) : p.flushDue.nothingDue := by
  obtain ⟨hd, hb⟩ := p.boundaryWorks_due
  unfold Part.flushDue
  rw [show [FrameWork.timer, .roster, .ageing, .build, .image] = boundaryWorks from rfl]
  set q := boundaryWorks.foldl Part.frameWorkThenBeacon p with hq
  dsimp only
  split
  · next hw =>
    simp only [Part.resultsMayWait, Bool.and_eq_true, decide_eq_true_eq, Bool.not_eq_true'] at hw
    obtain ⟨⟨hu, hs⟩, hbeacon⟩ := hw
    exact ⟨by rw [hd], by rw [hd], by rw [hd], by rw [hd], by rw [hd], hbeacon, .inr ⟨hu, hs⟩⟩
  · obtain ⟨hr, hbeacon⟩ := Part.flushResults_due (p := q) (by rw [hd]) (by rw [hd]) hb
    exact ⟨by rw [hr, hd], by rw [hr, hd], by rw [hr, hd], by rw [hr, hd], by rw [hr, hd], hbeacon, .inl (by rw [hr])⟩

theorem Part.flushDue_idem (p : Part) : p.flushDue.flushDue = p.flushDue :=
  Part.flushDue_nothingDue p.flushDue_done

theorem Part.flushDue_place (p : Part) :
    p.flushDue.timer.slot = p.timer.slot ∧ p.flushDue.timer.underWay = p.timer.underWay :=
  flushDue_induct (I := fun q => q.timer.slot = p.timer.slot ∧ q.timer.underWay = p.timer.underWay)
    (fun q w ⟨hs, hu⟩ => ⟨(q.frameWorkThenBeacon_place w).1.trans hs, (q.frameWorkThenBeacon_place w).2.trans hu⟩)
    ⟨rfl, rfl⟩

/-! ### The frame start -/

/-- A record that the ageing of this frame start expires (R103). -/
theorem MsgRecord.aged_expired (r : MsgRecord) :
    r.aged.expired = ((r.state = .queued || r.state = .current) && decide (r.lifetime ≠ 0) &&
      decide (r.lifetime ≤ min (r.age + 1) 65535)) := by
  unfold MsgRecord.aged MsgRecord.expired
  cases hs : r.state <;> simp [satInc, hs]

/-- A frame boundary with nothing due and no halt request starts a frame (R1). -/
theorem Part.slotBoundary_frame_start {p : Part} (hh : p.anchor.haltReq = false) (hd : p.nothingDue)
    (he : p.atFrameEnd = true) (order : List FrameWork) : p.slotBoundary order = p.nextFrame order := by
  simp [Part.slotBoundary, Part.flushDue_nothingDue hd, he, hh]

/-- Settles O8: the frame start by its folds of works, and what a boundary takes first, after which nothing is due. -/
theorem frameStartTaken : Obligations.FrameStartTaken := by
  have works : Part.frameWorkThenBeacon = Part.works := funext fun p => funext fun w => p.frameWorkThenBeacon_eq w
  refine ⟨fun s order hn hh hd => ?_, fun s hn => ?_, fun _ => Part.frameWork_notDue, fun s => ?_⟩
  · intro left starts
    have own : ∀ y w, Part.ownCommand y w = left y w := by
      intro y w
      cases w with
      | ageing =>
        simp only [Part.ownCommand, left, MsgRecord.aged_expired]
        congr 1
        funext i
        cases y.joinHanded.record i <;> rfl
      | _ => rfl
    have begun : ∀ (p : Part) f st, p.frameStart f st order = starts (p.frameBegun f st) := by
      intro p f st
      have start : Part.workOfStart = fun y w => if left y w then y else y.works w := by
        funext y w
        rw [Part.workOfStart, own, works]
      simp only [Part.frameStart, works, start]
      rfl
    have run : ∀ x, s.part.atFrameEnd = true → s.part.nextFrame order = x → s.runsTo (.slotBoundary order) s.mem x := by
      rintro x he rfl
      rw [← Part.slotBoundary_frame_start hh hd he order]
      exact s.slotBoundary_runsTo hn order
    refine ⟨fun hu => run _ (by simp [Part.atFrameEnd, hu]) ?_, fun q st hu hs hq => run _ (by simp [Part.atFrameEnd, hs]) ?_⟩
    · simp [Part.nextFrame, hu, begun]
    · simp [Part.nextFrame, hu, Part.settleSlot_of_settles hq, begun]
  · intro t
    have ht : t.part = s.part.flushDue := s.part.flushDue_eq.symm
    refine ⟨by rw [ht]; exact s.part.flushDue_done, fun order => ?_, fun hh hend first => ?_⟩
    · have hnt : t.part.anchor.node = .running := by rw [ht]; simpa using hn
      have boundary : t.part.slotBoundary order = s.part.slotBoundary order := by
        rw [ht]
        simp only [Part.slotBoundary, Part.flushDue_idem]
      simp only [exec, execSlotBoundary, hn, hnt, if_true, State.act, boundary]
      rfl
    · have hht : t.part.anchor.haltReq = true := by rw [ht]; simpa using hh
      have hnt : t.part.anchor.node = .running := by rw [ht]; simpa using hn
      have atEnd : ∀ p : Part, (p.timer.underWay = true → p.timer.slot = 39) → p.atFrameEnd = true := by
        intro p h
        cases hu : p.timer.underWay with
        | false => simp [Part.atFrameEnd, hu]
        | true => simp [Part.atFrameEnd, h hu]
      have hendt : t.part.timer.underWay = true → t.part.timer.slot = 39 := by
        rw [ht, s.part.flushDue_place.1, s.part.flushDue_place.2]
        exact hend
      have taken : t.part.flushDue.takeHalt first = s.part.flushDue.takeHalt first := by rw [ht, Part.flushDue_idem]
      simp only [exec, execHaltTaken, hn, hh, atEnd _ hend, hnt, hht, atEnd _ hendt, State.act, taken]
      rfl
  · exact ⟨fun h => by simp [exec, execGrantWaitExpiry, h], fun h => by simp [exec, execMessageExpiry, h],
      fun h => by simp [exec, execUplinkSlotResult, h]⟩

end Sys2Proof.Machine
end

