-- ==== Sys2Proof/Proofs/BeaconFace.lean ====
section
/-! SUPPORT. What the beacon shows of the roster, and which of the frame start's works leave it: the states and ack bits
of the entries and the announcement queue (R9, R11); and what a work submits to the Event Writer (R177). -/

namespace Sys2Proof.Machine

/-! ### The face of the roster -/

/-- The state and the ack bit of every entry, and the announcement queue. -/
def Part.faces (p : Part) : (ShortId → EntryState × Bool) × List Announcement :=
  (fun k => ((p.entry k).state, (p.entry k).ackBit), p.roster.ann)

theorem Part.faces_of_roster {p q : Part} (h : q.roster = p.roster) : q.faces = p.faces := by
  simp only [Part.faces, Part.entry, h]

theorem Part.faces_iff {p q : Part} : q.faces = p.faces ↔
    (∀ k, (q.entry k).state = (p.entry k).state ∧ (q.entry k).ackBit = (p.entry k).ackBit) ∧
      q.roster.ann = p.roster.ann := by
  simp only [Part.faces, Prod.mk.injEq, funext_iff]

theorem Part.setEntry_faces {p : Part} {k : ShortId} {e : Entry} (hs : e.state = (p.entry k).state)
    (ha : e.ackBit = (p.entry k).ackBit) : (p.setEntry k e).faces = p.faces := by
  refine Part.faces_iff.mpr ⟨fun j => ?_, rfl⟩
  by_cases h : j = k
  · subst h; simp [hs, ha]
  · simp [Part.entry_setEntry_other p e h]

/-- A write gives the entry the state and the ack bit asked for (R47). -/
@[simp] theorem Entry.write_face (old new : Entry) :
    (old.write new).state = new.state ∧ (old.write new).ackBit = new.ackBit := by
  unfold Entry.write
  split <;> simp

theorem Part.editEntry_faces {p : Part} {k : ShortId} {f : Entry → Entry} (hs : (f (p.entry k)).state = (p.entry k).state)
    (ha : (f (p.entry k)).ackBit = (p.entry k).ackBit) : (p.editEntry k f).faces = p.faces := by
  exact Part.setEntry_faces (by simpa using hs) (by simpa using ha)

@[simp] theorem Part.setRecord_faces (p : Part) (i : PoolId) (r : Option MsgRecord) :
    (p.setRecord i r).faces = p.faces := Part.faces_of_roster (by simp)

@[simp] theorem Part.editRecord_faces (p : Part) (i : PoolId) (f : MsgRecord → MsgRecord) :
    (p.editRecord i f).faces = p.faces := Part.faces_of_roster (by simp)

@[simp] theorem Part.dropFragments_faces (p : Part) (i : PoolId) : (p.dropFragments i).faces = p.faces :=
  Part.faces_of_roster (by simp)

@[simp] theorem Part.oweWriteBack_faces (p : Part) (w : WriteBack) : (p.oweWriteBack w).faces = p.faces :=
  Part.faces_of_roster (by simp)

@[simp] theorem Part.promoteAll_faces (p : Part) (k : ShortId) : (p.promoteAll k).faces = p.faces :=
  Part.faces_of_roster (by simp)

/-- One record retired, step by step (R99). -/
theorem Part.retireOne_eq {p : Part} {i : PoolId} {r : MsgRecord} (st : Status) (hr : p.record i = some r)
    (hs : r.state ≠ .retiring) :
    Part.retireOne st p i =
      (((p.setRecord i (some { r with state := .retiring, outcome := some st })).editEntry r.sid
        (fun e => { e with queues := e.queues.put r.cls ((e.queues.get r.cls).erase i) })).oweWriteBack
          (.record i)).dropFragments i := by
  simp only [Part.retireOne, hr, hs, if_false]
  rfl

/-- A record that is absent or RETIRING already is left as it is. -/
theorem Part.retireOne_none {p : Part} {i : PoolId} (st : Status)
    (h : ∀ r, p.record i = some r → r.state = .retiring) : Part.retireOne st p i = p := by
  unfold Part.retireOne
  split
  · rfl
  · next r hr => simp [h r hr]

theorem Part.retireOne_faces (st : Status) (p : Part) (i : PoolId) : (Part.retireOne st p i).faces = p.faces := by
  by_cases h : ∀ r, p.record i = some r → r.state = .retiring
  · rw [Part.retireOne_none st h]
  · simp only [not_forall] at h
    obtain ⟨r, hr, hs⟩ := h
    rw [Part.retireOne_eq st hr hs, Part.dropFragments_faces, Part.oweWriteBack_faces, Part.editEntry_faces rfl rfl,
      Part.setRecord_faces]

theorem Part.retireAll_faces (p : Part) (st : Status) (ids : List PoolId) : (p.retireAll st ids).faces = p.faces := by
  unfold Part.retireAll
  dsimp only
  rw [foldl_keeps Part.faces Part.promoteAll Part.promoteAll_faces]
  exact foldl_keeps Part.faces _ (fun q i => Part.retireOne_faces st q i) ids p

theorem Part.joinQueue_faces (p : Part) (i : PoolId) : (p.joinQueue i).faces = p.faces := by
  unfold Part.joinQueue
  split
  · rfl
  · dsimp only
    split
    · exact Part.retireAll_faces _ _ _
    · rw [Part.editRecord_faces, Part.editEntry_faces rfl rfl]

theorem Part.joinHanded_faces (p : Part) : p.joinHanded.faces = p.faces :=
  (foldl_keeps Part.faces _ Part.joinQueue_faces _ _).trans (Part.faces_of_roster rfl)

theorem Part.takeHandoffs_faces (p : Part) (n : Nat) : (p.takeHandoffs n).faces = p.faces := by
  obtain h | h | h := p.takeHandoffs_cases n
  · rw [h]
  · rw [h.2]
    exact Part.faces_of_roster rfl
  · rw [h, Part.joinHanded_faces]

theorem Part.ageRecords_faces (p : Part) : p.ageRecords.faces = p.faces := by
  unfold Part.ageRecords
  dsimp only
  rw [Part.retireAll_faces, foldl_keeps Part.faces _ (fun q i => q.editRecord_faces i _), Part.joinHanded_faces]

theorem Part.queueFragment_faces (p : Part) (n : Nat) (g : DownGrant) : (p.queueFragment n g).faces = p.faces := by
  have seq : ∀ (q : Part) x, q.faces = p.faces →
      (q.setEntry g.sid { q.entry g.sid with nextSeq := x }).faces = p.faces := fun q x h =>
    (Part.setEntry_faces (e := { q.entry g.sid with nextSeq := x }) rfl rfl).trans h
  unfold Part.queueFragment
  split
  · rfl
  · next r _ =>
    cases hs : r.seq with
    | some x => exact Part.faces_of_roster rfl
    | none => exact (Part.faces_of_roster rfl).trans (seq (p.editRecord g.record _) _ (p.editRecord_faces _ _))

theorem Part.handOff_faces (p : Part) : p.handOff.faces = p.faces := by
  have queued : ∀ (q : Part) (l : List (Nat × DownGrant)), (l.foldl (fun q (x : Nat × DownGrant) => q.queueFragment x.1 x.2) q).faces = q.faces :=
    fun q l => foldl_keeps Part.faces _ (fun q x => q.queueFragment_faces x.1 x.2) l q
  unfold Part.handOff
  refine (Part.faces_of_roster (p := List.foldl _ _ _) rfl).trans ((queued _ _).trans ?_)
  exact Part.faces_of_roster rfl

/-! ### The plan and the image -/

/-- A down grant leaves the entries (R79, R80). -/
theorem Build.grantDown_entries (b : Build) (records : Vector (Option MsgRecord) 96) (k : ShortId) (c : MsgClass) :
    (b.grantDown records k c).entries = b.entries := by
  unfold Build.grantDown
  split <;> rfl

theorem Build.stopPass_entries (b : Build) (records : Vector (Option MsgRecord) 96) (n : Word) :
    (b.stopPass records n).entries = b.entries :=
  foldl_keeps Build.entries _ (fun b k => by split <;> simp [Build.grantDown_entries]) _ b

theorem Build.pollPass_entries (b : Build) (period : Nat) (f : Word) : (b.pollPass period f).entries = b.entries :=
  foldl_keeps Build.entries _ (fun b k => by split <;> rfl) _ b

section
variable {γ : Type} (φ : Vector Entry 48 → γ)

/-- What the setting of a credit keeps of the entries, the shares of CONTROL and BULK keep (R78, R79). -/
theorem Build.sharePass_entries
    (hset : ∀ (v : Vector Entry 48) (k : ShortId) c, φ (v.set k ((v[k]).write { v[k] with credit := c })) = φ v)
    (records : Vector (Option MsgRecord) 96) (c : MsgClass) (fuel : Nat) (b : Build) :
    φ (Build.sharePass records c fuel b).entries = φ b.entries := by
  induction fuel generalizing b with
  | zero => rfl
  | succ n ih =>
    unfold Build.sharePass
    split
    · rfl
    · next k _ =>
      rw [ih]
      dsimp only
      rw [Build.grantDown_entries]
      exact hset b.entries k _

theorem creditUpdate_keeps
    (hset : ∀ (v : Vector Entry 48) (k : ShortId) c, φ (v.set k ((v[k]).write { v[k] with credit := c })) = φ v)
    (records : Vector (Option MsgRecord) 96) (es : Vector Entry 48) : φ (creditUpdate records es) = φ es := by
  unfold creditUpdate
  exact foldl_keeps φ _ (fun v k => hset v k _) shortIds es

/-- What the setting of a credit keeps of the entries, a build keeps (R70). -/
theorem buildPasses_entries
    (hset : ∀ (v : Vector Entry 48) (k : ShortId) c, φ (v.set k ((v[k]).write { v[k] with credit := c })) = φ v)
    (p : Part) (f : Word) : φ (buildPasses p f).entries = φ p.roster.entries := by
  have hcredit := creditUpdate_keeps φ hset p.pool.records p.roster.entries
  unfold buildPasses
  extract_lets records es start stops spent allowed polls
  have hes : φ es = φ p.roster.entries := hcredit
  clear_value es
  have hstops : stops.entries = es := start.stopPass_entries records p.adm.nextAdm
  have hallowed : allowed.entries = stops.entries := rfl
  have hpolls : polls.entries = allowed.entries := allowed.pollPass_entries p.setup.pollPeriod f
  have hφ : φ polls.entries = φ p.roster.entries := by rw [hpolls, hallowed, hstops, hes]
  clear_value polls
  exact (Build.sharePass_entries φ hset records .bulk _ _).trans
    ((Build.sharePass_entries φ hset records .control _ _).trans hφ)

end

/-- A build changes of the roster the credits alone (R75, R79). -/
theorem Part.buildPlan_faces (p : Part) (f : Word) : (p.buildPlan f).faces = p.faces := by
  let face := fun (v : Vector Entry 48) (k : ShortId) => (v[k].state, v[k].ackBit)
  have hset : ∀ (v : Vector Entry 48) (k : ShortId) c, face (v.set k ((v[k]).write { v[k] with credit := c })) = face v := by
    intro v k c
    funext j
    by_cases h : j = k
    · subst h; simp [face]
    · have : k.val ≠ j.val := fun e => h (Fin.ext e.symm)
      simp [face, Vector.getElem_set_ne, this]
  have h := congrFun (buildPasses_entries face hset p f)
  unfold Part.buildPlan
  dsimp only
  rw [Part.handOff_faces]
  generalize buildPasses p f = b at h ⊢
  split
  · exact Part.faces_iff.mpr ⟨fun k => Prod.mk.inj (h k), rfl⟩
  · exact Part.faces_of_roster rfl

theorem Part.passDue_faces (p : Part) : p.passDue.faces = p.faces := by
  have entry : ∀ (q : Part) k, (q.beginEntryRecord k).faces = q.faces := fun q k =>
    (Part.faces_of_roster (p := q.setEntry k { q.entry k with dirty := false }) rfl).trans
      (Part.setEntry_faces (e := { q.entry k with dirty := false }) rfl rfl)
  unfold Part.passDue Part.beginPass Part.imageFrom
  split
  · split
    · exact (entry _ _).trans (Part.faces_of_roster rfl)
    · exact Part.faces_of_roster rfl
  · exact Part.faces_of_roster rfl

/-! ### What a work submits -/

/-- `q` has the anchor unit of `p`, and its Event Writer has taken some events after `p`'s (R177). -/
def Part.hears (p q : Part) : Prop :=
  q.anchor = p.anchor ∧ ∃ es : List EventRecord, q.ev = es.foldl (fun v e => v.take p.setup.event.size e) p.ev

theorem Part.hears_of_eq {p q : Part} (ha : q.anchor = p.anchor) (he : q.ev = p.ev) : p.hears q := ⟨ha, [], he⟩

theorem Part.hears.trans {p q r : Part} (h : p.hears q) (h' : q.hears r) : p.hears r := by
  obtain ⟨ha, es, he⟩ := h
  obtain ⟨ha', es', he'⟩ := h'
  have hs : q.setup = p.setup := by simp only [Part.setup, ha]
  exact ⟨ha'.trans ha, es ++ es', by rw [he', he, hs, List.foldl_append]⟩

/-- A submission is one event taken, or none. -/
theorem Part.submit_hears (p : Part) (b : Bool) (r : EventRecord) : p.hears (p.submit b r) := by
  unfold Part.submit
  split
  · exact ⟨rfl, [r], rfl⟩
  · exact ⟨rfl, [], rfl⟩

theorem Part.hears_submit {p q : Part} (ha : q.anchor = p.anchor) (he : q.ev = p.ev) (b : Bool) (r : EventRecord) :
    p.hears (q.submit b r) := (Part.hears_of_eq ha he).trans (q.submit_hears b r)

theorem Part.countMiss_hears (p : Part) (k : ShortId) (f : Word) : p.hears (p.countMiss k f) := by
  unfold Part.countMiss
  dsimp only
  split
  · exact Part.hears_submit (by simp) (by simp) _ _
  · split <;> exact Part.hears_of_eq (by simp) (by simp)

theorem Part.abandon_hears (p : Part) (k : ShortId) (f : Word) : p.hears (p.abandon k f) := by
  unfold Part.abandon
  exact Part.hears_submit (by simp) (by simp) _ _

theorem Part.editEntry_hears (p : Part) (k : ShortId) (f : Entry → Entry) : p.hears (p.editEntry k f) :=
  Part.hears_of_eq (by simp) (by simp)

theorem Part.frameStartEntry_hears (f : Word) (b : Bool) (p : Part) (k : ShortId) :
    p.hears (Part.frameStartEntry f b p k) := by
  have counted : p.hears (if b = true then p.countMiss k f else p) := by
    cases b
    · exact Part.hears_of_eq rfl rfl
    · exact p.countMiss_hears k f
  unfold Part.frameStartEntry
  dsimp only
  cases hs : (p.entry k).state with
  | granted =>
    dsimp only
    generalize (if b = true then min 31 ((p.entry k).miss + 1) else (p.entry k).miss) = n
    have missed := p.editEntry_hears k (fun e => { e with miss := n })
    generalize p.editEntry k (fun e => { e with miss := n }) = q at missed ⊢
    split
    · exact missed.trans (q.abandon_hears k f)
    · exact missed.trans (q.editEntry_hears k _)
  | active | fading => exact counted
  | free | draining => exact Part.hears_of_eq rfl rfl

theorem Part.rosterFrameStart_hears (p : Part) (f : Word) : p.hears (p.rosterFrameStart f) := by
  unfold Part.rosterFrameStart
  split
  · exact Part.hears_of_eq rfl rfl
  · exact foldl_induct (I := p.hears) (fun q k h => h.trans (Part.frameStartEntry_hears f _ q k)) _
      (Part.hears_of_eq rfl rfl)

/-- A GRANTED entry whose grant wait has not run out waits one frame more (R34). -/
theorem Part.frameStartEntry_waits {p : Part} {k : ShortId} {f : Word} (hs : (p.entry k).state = .granted)
    (hw : (p.entry k).grantWait < 4) :
    Part.frameStartEntry f false p k =
      (p.editEntry k (fun e => { e with miss := (p.entry k).miss })).editEntry k
        (fun e => { e with grantWait := e.grantWait + 1 }) := by
  simp [Part.frameStartEntry, hs, show ¬ 4 ≤ (p.entry k).grantWait by omega]

theorem Part.frameStartEntry_stands {p : Part} {k : ShortId} {f : Word} (hs : (p.entry k).state ≠ .granted) :
    Part.frameStartEntry f false p k = p := by
  cases h : (p.entry k).state <;> simp_all [Part.frameStartEntry]

/-- With the radio not FAULTED and no grant wait run out, the roster only counts grant waits on (R34). -/
theorem Part.rosterFrameStart_faces {p : Part} {f : Word} (hs : p.timer.substate ≠ .faulted)
    (hw : p.timer.silence.silent f = false → ∀ k, (p.entry k).state = .granted → (p.entry k).grantWait < 4) :
    (p.rosterFrameStart f).faces = p.faces := by
  have fold : ∀ (l : List ShortId) (q : Part), l.Nodup →
      (∀ k ∈ l, (q.entry k).state = .granted → (q.entry k).grantWait < 4) →
      (l.foldl (Part.frameStartEntry f false) q).faces = q.faces := by
    intro l
    induction l with
    | nil => exact fun _ _ _ => rfl
    | cons k l ih =>
      intro q hn hq
      obtain ⟨hk, hn⟩ := List.nodup_cons.mp hn
      obtain ⟨hf, hother⟩ : (Part.frameStartEntry f false q k).faces = q.faces ∧
          ∀ j, j ≠ k → (Part.frameStartEntry f false q k).entry j = q.entry j := by
        by_cases hs : (q.entry k).state = .granted
        · have wait := hq k List.mem_cons_self hs
          rw [Part.frameStartEntry_waits hs wait]
          refine ⟨(Part.editEntry_faces ?_ ?_).trans (Part.editEntry_faces ?_ ?_), fun j hj => ?_⟩
          · rfl
          · rfl
          · rfl
          · rfl
          · rw [Part.entry_editEntry_other _ _ hj, Part.entry_editEntry_other _ _ hj]
        · rw [Part.frameStartEntry_stands hs]
          exact ⟨rfl, fun _ _ => rfl⟩
      rw [List.foldl_cons, ih _ hn fun j hj => ?_, hf]
      rw [hother j fun e => hk (e ▸ hj)]
      exact hq j (List.mem_cons_of_mem k hj)
  unfold Part.rosterFrameStart
  split
  · rfl
  · next hsil =>
    rw [decide_eq_false hs]
    exact fold _ _ (List.nodup_finRange 48) (fun k _ => hw (by simpa using hsil) k)

end Sys2Proof.Machine
end

