-- ==== Sys2Proof/Proofs/FrameStartBeacon.lean ====
section
/-! PROOF. The beacon of a frame start in the default order of the works (R8, R9, R11): obligation O9. -/

namespace Sys2Proof.Machine

/-! ### The Frame Timer first -/

/-- The fault of a settled slot that is the eighth in a row in ON (R16). -/
def Part.eighthFault (p : Part) (st : Settled) : Prop :=
  p.timer.substate = .on ∧ 7 ≤ p.timer.faultRun ∧ st = .faulted

theorem Part.runCounted_eighth {p : Part} {n : Nat} {st : Settled} (h : p.eighthFault st) :
    p.runCounted n st = Part.withEvent { p with timer := { p.timer with faultRun := 8, substate := .faulted } }
      (nodeEvent .radioFault p.timer.frame (BitVec.ofNat 16 n) 0) := by
  obtain ⟨hon, hrun, rfl⟩ := h
  simp [Part.runCounted, hon, show ¬ p.timer.faultRun < 7 by omega]

theorem Part.runCounted_noEighth {p : Part} {n : Nat} {st : Settled} (h : ¬ p.eighthFault st) :
    ∃ r, p.runCounted n st = { p with timer := { p.timer with faultRun := r } } := by
  unfold Part.runCounted
  split
  · exact ⟨_, rfl⟩
  · next hon =>
    cases st with
    | noOrder => exact ⟨_, rfl⟩
    | answered => exact ⟨_, rfl⟩
    | faulted =>
      have hrun : p.timer.faultRun < 7 := by
        by_contra hc
        exact h ⟨of_not_not hon, by omega, rfl⟩
      exact ⟨p.timer.faultRun + 1, by simp [hrun]⟩

/-- The substate of a frame whose start makes no silence transition (R16, R20). -/
def Part.startSubstate (p : Part) (st : Settled) (sub : Substate) : Prop :=
  (p.timer.substate = .off → sub = .on) ∧ (p.eighthFault st → sub = .faulted) ∧
    (p.timer.substate ≠ .off → ¬ p.eighthFault st → sub = p.timer.substate)

/-- The Frame Timer's work where no silence begins or ends: it moves the frame, counts slot 39, and may find the eighth
fault (R16, R20). -/
theorem Part.timerWork_quiet {p : Part} (hn : p.anchor.node = .running) (hd : p.due.timer = true)
    (hb : p.timer.silence.begins p.due.frame = false) (he : p.timer.silence.ends p.due.frame = false) {sub : Substate}
    (hsub : p.startSubstate p.due.lastSlot sub) :
    ∃ r v, p.frameWork .timer =
        { p with
          timer := { p.timer with
            faultRun := r, frame := p.due.frame, substate := sub, schedWithheld := decide (sub = .faulted) }
          due := { p.due with timer := false }
          ev := v } ∧
      (p.eighthFault p.due.lastSlot →
        v = p.ev.take p.setup.event.size (nodeEvent .radioFault p.timer.frame 39 0)) ∧
      (¬ p.eighthFault p.due.lastSlot → v = p.ev) := by
  obtain ⟨off, faulted, stays⟩ := hsub
  obtain ⟨-, hdue, hsil, -, -⟩ := p.runCounted_frame 39 p.due.lastSlot
  obtain ⟨-, -, other⟩ := Part.timerWork_cases hn hd
  rw [hdue, hsil] at other
  have work := other hb he
  by_cases h8 : p.eighthFault p.due.lastSlot
  · rw [Part.runCounted_eighth h8] at work
    refine ⟨8, _, ?_, fun _ => rfl, fun hc => absurd h8 hc⟩
    rw [work, faulted h8]
    rfl
  · obtain ⟨r, hr⟩ := Part.runCounted_noEighth (n := 39) h8
    rw [hr] at work
    refine ⟨r, p.ev, ?_, fun hc => absurd hc h8, fun _ => rfl⟩
    rw [work]
    have : (if p.timer.substate = .off then Substate.on else p.timer.substate) = sub := by
      split
      · next ho => exact (off ho).symm
      · next ho => exact (stays ho h8).symm
    rw [this]

/-! ### The roster and the ageing -/

/-- `q` is `p` after works that come while the beacon waits for the build: they leave the Frame Timer, the port and the
planner, they submit events, and in ON they leave the face of the roster. -/
structure Part.awaits (p q : Part) : Prop where
  timer : q.timer = p.timer
  port : q.port = p.port
  planner : q.planner = p.planner
  dueTimer : q.due.timer = p.due.timer
  dueBuild : q.due.build = p.due.build
  dueFrame : q.due.frame = p.due.frame
  results : q.due.results = p.due.results
  hears : p.hears q
  faces : p.timer.substate = .on → q.faces = p.faces

theorem Part.awaits.refl (p : Part) : p.awaits p :=
  ⟨rfl, rfl, rfl, rfl, rfl, rfl, rfl, Part.hears_of_eq rfl rfl, fun _ => rfl⟩

theorem Part.awaits.trans {p q r : Part} (h : p.awaits q) (h' : q.awaits r) : p.awaits r where
  timer := h'.timer.trans h.timer
  port := h'.port.trans h.port
  planner := h'.planner.trans h.planner
  dueTimer := h'.dueTimer.trans h.dueTimer
  dueBuild := h'.dueBuild.trans h.dueBuild
  dueFrame := h'.dueFrame.trans h.dueFrame
  results := h'.results.trans h.results
  hears := h.hears.trans h'.hears
  faces := fun hon => (h'.faces (by rw [h.timer]; exact hon)).trans (h.faces hon)

/-- The beacon waits for the build (R8). -/
theorem Part.tryBeacon_awaitsBuild {p : Part} (h : p.due.build = true) : p.tryBeacon = p := by
  simp [Part.tryBeacon, h]

theorem Part.workOfStart_awaits {p : Part} {w : FrameWork} (hb : p.due.build = true)
    (h : p.ownCommand w = false → p.awaits (p.frameWork w)) : p.awaits (p.workOfStart w) := by
  unfold Part.workOfStart
  split
  · exact .refl p
  · next hown =>
    have hw := h (by simpa using hown)
    rw [Part.frameWorkThenBeacon, Part.tryBeacon_awaitsBuild (hw.dueBuild.trans hb)]
    exact hw

theorem Part.rosterWork_awaits {p : Part} (hb : p.due.build = true) : p.awaits (p.workOfStart .roster) := by
  refine Part.workOfStart_awaits hb fun hown => ?_
  unfold Part.frameWork
  dsimp only
  split
  · refine ⟨?_, ?_, ?_, ?_, ?_, ?_, ?_, ?_, fun hon => ?_⟩
    case refine_8 =>
      exact (Part.hears_of_eq rfl rfl).trans
        (Part.rosterFrameStart_hears { p with due := { p.due with roster := false } } p.due.frame)
    case refine_9 =>
      refine (Part.rosterFrameStart_faces (p := { p with due := { p.due with roster := false } }) ?_ ?_).trans
        (Part.faces_of_roster rfl)
      · rw [hon]
        exact nofun
      · intro hsil k hk
        by_contra hw
        have : p.ownCommand .roster = true := by
          refine Bool.and_eq_true_iff.mpr ⟨by simpa using hsil, List.any_eq_true.mpr ⟨k, List.mem_finRange k, ?_⟩⟩
          exact Bool.and_eq_true_iff.mpr ⟨decide_eq_true hk, decide_eq_true (not_lt.mp hw)⟩
        rw [this] at hown
        exact absurd hown nofun
    all_goals simp
  · exact .refl p

theorem Part.ageingWork_awaits {p : Part} (hb : p.due.build = true) : p.awaits (p.workOfStart .ageing) := by
  refine Part.workOfStart_awaits hb fun _ => ?_
  unfold Part.frameWork
  dsimp only
  split
  · refine ⟨?_, ?_, ?_, ?_, ?_, ?_, ?_, Part.hears_of_eq ?_ ?_, fun _ => ?_⟩
    case refine_10 => exact (Part.ageRecords_faces _).trans (Part.faces_of_roster rfl)
    all_goals simp
  · exact .refl p

/-! ### The build, the beacon and the image -/

/-- The plan built is that of the frame. -/
theorem Part.buildPlan_planFrame (p : Part) (f : Word) : (p.buildPlan f).planner.plan.frame = f := by
  unfold Part.buildPlan
  dsimp only
  split <;> simp [Planner.shift, Build.plan, Plan.blank]

/-- The beacon presented by the build, with no result to wait for (R8, R9). -/
theorem Part.buildWork_presents {p : Part} (hd : p.due.build = true) (ht : p.due.timer = false)
    (hr : p.due.results = []) (hdue : p.timer.beaconDue = true)
    (hs : p.timer.substate = .on ∨ p.timer.substate = .faulted) :
    let m := p.frameWork .build
    p.workOfStart .build =
      { m with
        timer := { p.timer with
          beaconDue := false, carried := some { grants := m.beacon.grants, resumed := m.beacon.resumed } }
        port := { order := some (.send .A (beaconBytes m.beacon)), answer := none } } := by
  intro m
  have hm : m = Part.buildPlan { p with due := { p.due with build := false } } p.due.frame := if_pos hd
  have hmt : m.timer = p.timer := by simp [hm]
  have hmd : m.due = { p.due with build := false } := by simp [hm]
  have works : p.workOfStart .build = m.thenBeacon := Part.tryBeacon_eq m
  rw [works, Part.thenBeacon, hmt, hmd]
  simp only [hdue, ht, hr, hs, true_or, and_self, if_true]

/-- The works of a frame start up to the build, the roster and the ageing left out where a command of their own stands
for them. -/
def Part.builtFrame (p : Part) (f : Word) (st : Settled) : Part :=
  ((((p.frameBegun f st).workOfStart .timer).workOfStart .roster).workOfStart .ageing).frameWork .build

/-- What the beacon of a frame start without a silence transition finds. -/
structure Part.builtFor (p : Part) (f : Word) (st : Settled) (sub : Substate) (m : Part) : Prop where
  timer : ∃ r, m.timer = { p.timer with
    slot := 0, underWay := true, beaconDue := true, carried := none, faultRun := r, frame := f, substate := sub
    schedWithheld := decide (sub = .faulted) }
  anchor : m.anchor = p.anchor
  planFrame : m.planner.plan.frame = f
  faces : sub = .on → m.faces = p.faces
  eighth : p.eighthFault st → ∃ es : List EventRecord,
    m.ev = (nodeEvent .radioFault p.timer.frame 39 0 :: es).foldl (fun v e => v.take p.setup.event.size e) p.ev
  noEighth : ¬ p.eighthFault st → ∃ es : List EventRecord, m.ev = es.foldl (fun v e => v.take p.setup.event.size e) p.ev
  presents : ((((p.frameBegun f st).workOfStart .timer).workOfStart .roster).workOfStart .ageing).workOfStart .build =
    { m with
      timer := { m.timer with
        beaconDue := false, carried := some { grants := m.beacon.grants, resumed := m.beacon.resumed } }
      port := { order := some (.send .A (beaconBytes m.beacon)), answer := none } }

theorem Part.builtFrame_for {p : Part} {f : Word} {st : Settled} {sub : Substate} (hn : p.anchor.node = .running)
    (hr : p.due.results = []) (hb : p.timer.silence.begins f = false) (he : p.timer.silence.ends f = false)
    (hs : p.timer.substate ≠ .silent) (hsub : p.startSubstate st sub) : p.builtFor f st sub (p.builtFrame f st) := by
  obtain ⟨r, v, timed, ev8, ev0⟩ := Part.timerWork_quiet (p := p.frameBegun f st) hn rfl hb he hsub
  have hx : (p.frameBegun f st).workOfStart .timer = (p.frameBegun f st).frameWork .timer := by
    have own : (p.frameBegun f st).ownCommand .timer = false := Bool.or_eq_false_iff.mpr ⟨hb, he⟩
    rw [Part.workOfStart, own, Part.frameWorkThenBeacon]
    exact Part.tryBeacon_awaitsBuild (by rw [timed]; rfl)
  rw [timed] at hx
  set x := (p.frameBegun f st).workOfStart .timer with hx0
  have hxb : x.due.build = true := by rw [hx]; rfl
  have roster := Part.rosterWork_awaits hxb
  have waits := roster.trans (Part.ageingWork_awaits (roster.dueBuild.trans hxb))
  set y := (x.workOfStart .roster).workOfStart .ageing with hy
  have built : p.builtFrame f st = y.frameWork .build := rfl
  have hyb : y.due.build = true := waits.dueBuild.trans hxb
  have hm : y.frameWork .build = Part.buildPlan { y with due := { y.due with build := false } } y.due.frame := if_pos hyb
  have hyf : y.due.frame = f := by rw [waits.dueFrame, hx]; rfl
  have hyt := waits.timer
  have hon : sub = .on ∨ sub = .faulted := by
    obtain ⟨off, eighth, stays⟩ := hsub
    by_cases h8 : p.eighthFault st
    · exact .inr (eighth h8)
    · cases hc : p.timer.substate <;> simp_all
  have sees : ∃ es : List EventRecord, (y.frameWork .build).ev = es.foldl (fun v e => v.take p.setup.event.size e) v := by
    obtain ⟨-, es, hes⟩ := waits.hears
    refine ⟨es, ?_⟩
    rw [hm, (Part.buildPlan_frame _ _).2.2.2.2.2.2.2.2]
    refine hes.trans ?_
    rw [hx]
    rfl
  rw [built]
  refine ⟨⟨r, ?_⟩, ?_, ?_, fun h => ?_, fun h8 => ?_, fun h8 => ?_, ?_⟩
  · rw [hm]
    simp only [Part.buildPlan_frame]
    rw [hyt, hx]
    rfl
  · rw [hm]
    simp only [Part.buildPlan_frame]
    rw [waits.hears.1, hx]
    rfl
  · rw [hm, Part.buildPlan_planFrame, hyf]
  · rw [hm, Part.buildPlan_faces]
    refine (Part.faces_of_roster rfl).trans ((waits.faces (by rw [hx]; exact h)).trans ?_)
    rw [hx]
    exact Part.faces_of_roster rfl
  · obtain ⟨es, hes⟩ := sees
    exact ⟨es, by rw [hes, ev8 h8]; rfl⟩
  · obtain ⟨es, hes⟩ := sees
    exact ⟨es, by rw [hes, ev0 h8]; rfl⟩
  · have shown := Part.buildWork_presents hyb (by rw [waits.dueTimer, hx]) (by rw [waits.results, hx]; exact hr)
      (by rw [hyt, hx]; rfl) (by rw [hyt, hx]; exact hon)
    rw [shown]
    simp [hm]

/-- The image last: it changes neither what the beacon showed nor the port (R8, R49). -/
theorem Part.imageWork_keeps {p : Part} (hb : p.timer.beaconDue = false) :
    let q := p.workOfStart .image
    q.anchor = p.anchor ∧ q.timer = p.timer ∧ q.port = p.port ∧ q.planner = p.planner ∧ q.ev = p.ev ∧
      q.faces = p.faces := by
  have work : p.workOfStart .image = (p.frameWork .image).tryBeacon := rfl
  have timer : (p.frameWork .image).timer = p.timer := by
    unfold Part.frameWork
    dsimp only
    split <;> simp
  have done : p.workOfStart .image = p.frameWork .image := by
    rw [work, Part.tryBeacon_notDue (by rw [timer]; exact hb)]
  dsimp only
  rw [done]
  unfold Part.frameWork
  dsimp only
  split
  · exact ⟨by simp, by simp, by simp, by simp, by simp, (Part.passDue_faces _).trans (Part.faces_of_roster rfl)⟩
  · simp

/-- The frame start as its image work on the part with the beacon presented. -/
theorem Part.frameStart_default (p : Part) (f : Word) (st : Settled) :
    p.frameStart f st [] =
      Part.workOfStart (((((p.frameBegun f st).workOfStart .timer).workOfStart .roster).workOfStart .ageing).workOfStart
        .build) .image := by
  show List.foldl Part.workOfStart (p.frameBegun f st) boundaryWorks = _
  simp only [boundaryWorks, List.foldl_cons, List.foldl_nil]

/-- A frame start without a silence transition: the part it leaves goes on from what the build left, with the beacon
shown (R8, R9). -/
theorem Part.frameStart_shows {p : Part} {f : Word} {st : Settled} {sub : Substate} (hn : p.anchor.node = .running)
    (hr : p.due.results = []) (hb : p.timer.silence.begins f = false) (he : p.timer.silence.ends f = false)
    (hs : p.timer.substate ≠ .silent) (hsub : p.startSubstate st sub) :
    ∃ m, p.builtFor f st sub m ∧
      (let t := p.frameStart f st []
       t.anchor = p.anchor ∧ t.planner = m.planner ∧ t.ev = m.ev ∧ t.faces = m.faces ∧
        t.timer = { m.timer with
          beaconDue := false, carried := some { grants := m.beacon.grants, resumed := m.beacon.resumed } } ∧
        t.port = { order := some (.send .A (beaconBytes m.beacon)), answer := none }) := by
  have built := Part.builtFrame_for hn hr hb he hs hsub
  set m := p.builtFrame f st
  refine ⟨m, built, ?_⟩
  dsimp only
  rw [Part.frameStart_default, built.presents]
  set shown : Part := { m with
    timer := { m.timer with
      beaconDue := false, carried := some { grants := m.beacon.grants, resumed := m.beacon.resumed } }
    port := { order := some (.send .A (beaconBytes m.beacon)), answer := none } } with hshown
  obtain ⟨ha, ht, hp, hq, hv, hf⟩ := Part.imageWork_keeps (p := shown) rfl
  exact ⟨ha.trans built.anchor, hq, hv, hf.trans (Part.faces_of_roster rfl), ht, hp⟩

/-! ### Slot 39 before it -/

/-- A slot 39 that is no UP slot leaves of the frame's end a counted fault and a DOWN slot's staging (R6, R7, R122). -/
theorem Part.settleSlot_frameEnd {p : Part} (hs : p.timer.slot = 39) (hu : (p.planner.plan.use 39).isUp = false) :
    let q := p.settleSlot.1
    q.anchor = p.anchor ∧ q.ev = p.ev ∧ q.roster = p.roster ∧ q.due = p.due ∧
      ∃ n, q.timer = { p.timer with faultedSlots := n } := by
  obtain ⟨-, -, -, -, idle, down, -⟩ := p.settleSlot_cases
  have timer : ∃ n, (p.slotCleared p.port.settled).timer = { p.timer with faultedSlots := n } := by
    unfold Part.slotCleared
    dsimp only
    split
    · exact ⟨_, rfl⟩
    · exact ⟨p.timer.faultedSlots, rfl⟩
  rw [hs] at idle down
  cases hc : p.planner.plan.use 39 with
  | idle =>
    rw [idle (by omega) hc]
    exact ⟨rfl, rfl, rfl, rfl, timer⟩
  | down g =>
    rw [down g (by omega) hc]
    simp only [Part.settleDown_frame]
    exact ⟨rfl, rfl, rfl, rfl, timer⟩
  | up k =>
    rw [hc] at hu
    exact absurd hu nofun

/-- A port settles as faulted when its order stood unanswered or failed (R6). -/
theorem BurstPort.settled_faulted_iff (b : BurstPort) :
    b.settled = .faulted ↔ b.order ≠ none ∧ (b.answer = none ∨ b.answer = some .fault) := by
  obtain ⟨o, a⟩ := b
  cases o with
  | none => simp [BurstPort.settled]
  | some o =>
    cases a with
    | none => simp [BurstPort.settled]
    | some a => cases a <;> simp [BurstPort.settled]

/-- What a frame start begins from: slot 39 settled, or before the first frame the part as it is (R1, R6). -/
theorem Part.nextFrame_default (p : Part) (hn : p.nothingDue)
    (hu : p.timer.underWay = true → p.timer.slot = 39 ∧ (p.planner.plan.use 39).isUp = false) :
    ∃ (q : Part) (st : Settled) (n : Nat), p.nextFrame [] = q.frameStart (if p.timer.underWay then p.timer.frame + 1 else 0) st [] ∧
      q.anchor = p.anchor ∧ q.ev = p.ev ∧ q.roster = p.roster ∧ q.due.results = [] ∧
      q.timer = { p.timer with faultedSlots := n } ∧
      (st = .faulted ↔ p.timer.underWay = true ∧ p.port.order ≠ none ∧ (p.port.answer = none ∨ p.port.answer = some .fault)) := by
  obtain ⟨-, -, -, -, -, -, hres⟩ := hn
  cases hw : p.timer.underWay with
  | false =>
    refine ⟨p, .noOrder, p.timer.faultedSlots, by simp [Part.nextFrame, hw], rfl, rfl, rfl, ?_, rfl, by simp⟩
    rw [hw] at hres
    simpa using hres
  | true =>
    obtain ⟨hs, hup⟩ := hu hw
    obtain ⟨ha, hv, hr, hd, n, ht⟩ := Part.settleSlot_frameEnd hs hup
    refine ⟨p.settleSlot.1, p.settleSlot.2, n, by simp [Part.nextFrame, hw], ha, hv, hr, ?_, ht, ?_⟩
    · rw [hd]
      simpa [hs] using hres
    · rw [p.settleSlot_inv.1, BurstPort.settled_faulted_iff]
      simp

/-! ### O9 -/

/-- What the beacon says of the silence state (R11, R20). -/
theorem Part.beacon_silence (m : Part) :
    (∀ first stop, m.timer.silence = .pending first stop →
      m.beacon.silencePending = true ∧ m.beacon.countdown = ahead m.timer.frame first ∧
        m.beacon.length = ahead first stop) ∧
      ((∀ first stop, m.timer.silence ≠ .pending first stop) →
        m.beacon.silencePending = false ∧ m.beacon.countdown = 0 ∧ m.beacon.length = 0) := by
  unfold Part.beacon
  cases m.timer.silence <;> simp

theorem Part.freeEntry_of_faces {p q : Part} (h : q.faces = p.faces) : q.freeEntry = p.freeEntry := by
  unfold Part.freeEntry
  congr 1
  funext k
  rw [((Part.faces_iff.mp h).1 k).1]

/-- Settles O9: the part that the build leaves is what the beacon shows, and nothing after it changes that face. -/
theorem frameStartSendsBeacon : Obligations.FrameStartSendsBeacon := by
  intro s hn hh hd hu hs p f eighth sub hb he
  obtain ⟨q, st, n, next, qa, qv, qr, qres, qt, qst⟩ := p.nextFrame_default hd hu
  have hend : p.atFrameEnd = true := by
    cases hw : p.timer.underWay with
    | false => simp [Part.atFrameEnd, hw]
    | true => simp [Part.atFrameEnd, (hu hw).1, p]
  have h8 : q.eighthFault st ↔ eighth := by
    simp only [Part.eighthFault, qt, qst, eighth]
    tauto
  have hsub : q.startSubstate st sub := by
    simp only [Part.startSubstate, h8, qt, sub]
    refine ⟨fun ho => if_pos ho, fun hf => ?_, fun ho hf => ?_⟩
    · rw [if_neg (by rw [hf.2.1]; exact nofun), if_pos hf]
    · rw [if_neg ho, if_neg hf]
  obtain ⟨m, built, ta, tq, tv, tf, tt, tp⟩ := Part.frameStart_shows (p := q) (f := f) (st := st) (sub := sub)
    (by rw [qa]; exact hn) qres (by rw [qt]; exact hb) (by rw [qt]; exact he) (by rw [qt]; exact hs) hsub
  have next : p.nextFrame [] = q.frameStart f st [] := next
  rw [← next] at ta tq tv tf tt tp
  obtain ⟨mem, outside, -⟩ := s.act_runs (fun p => p.nextFrame [])
  set t := s.act (fun p => p.nextFrame []) with ht
  obtain ⟨-, pt, pp, -, pq, -, pv⟩ := State.pump_part { s with part := p.nextFrame [] }
  have pr := (State.pump_image { s with part := p.nextFrame [] } (by
    show (p.nextFrame []).anchor.node ≠ .halting
    rw [ta, qa, hn]
    exact nofun)).1
  have face : t.part.faces = m.faces :=
    ((Part.faces_of_roster pr).trans (Part.takeHandoffs_faces _ _)).trans tf
  obtain ⟨entries, ann⟩ := Part.faces_iff.mp face
  have hrun : exec (.slotBoundary []) s = .next t := by
    have : p.slotBoundary [] = p.nextFrame [] := Part.slotBoundary_frame_start hh hd hend []
    simp only [exec, execSlotBoundary, hn, if_true, ht, State.act]
    rw [this]
  obtain ⟨r, mt⟩ := built.timer
  have timer : t.part.timer = _ := pt.trans tt
  have port : t.part.port = _ := pp.trans tp
  have planner : t.part.planner = m.planner := pq.trans tq
  have ev : t.part.ev = m.ev := pv.trans tv
  have setup : m.setup = p.setup := by
    have : m.anchor = p.anchor := built.anchor.trans qa
    simp only [Part.setup, this]
  refine ⟨t, m.beacon, hrun, mem, outside, ?_, ?_, ?_, ?_, ?_, ?_, port, ?_, ?_, ?_, ?_, ?_, ?_, ?_, ?_, ?_, ?_, ?_, ?_, ?_⟩
  case refine_1 => rw [timer, mt]
  case refine_2 => rw [timer, mt]
  case refine_3 => rw [timer, mt]
  case refine_4 => rw [timer, mt]
  case refine_5 => rw [timer, mt, qt]
  case refine_6 => rw [timer, mt]
  case refine_7 => rw [timer]
  case refine_8 => rw [← setup]; rfl
  case refine_9 => rw [← setup]; rfl
  case refine_10 => exact congrArg FrameTimer.frame mt
  case refine_11 =>
    show m.timer.resumed = p.timer.resumed
    rw [mt, qt]
  case refine_12 => exact congrArg Option.isNone (Part.freeEntry_of_faces face).symm
  case refine_13 => exact congrArg (List.take 2) ann.symm
  case refine_14 =>
    intro hon
    obtain ⟨kept, keptAnn⟩ := Part.faces_iff.mp
      (face.trans ((built.faces hon).trans (Part.faces_of_roster qr)))
    exact ⟨keptAnn, fun k => (kept k).1⟩
  case refine_15 =>
    have qsetup : q.setup = p.setup := by simp only [Part.setup, qa]
    by_cases h : eighth
    · obtain ⟨es, hes⟩ := built.eighth (h8.mpr h)
      refine ⟨es, ?_⟩
      rw [ev, hes, if_pos h, qv, qsetup, qt]
      rfl
    · obtain ⟨es, hes⟩ := built.noEighth (fun hc => h (h8.mp hc))
      refine ⟨es, ?_⟩
      rw [ev, hes, if_neg h, qv, qsetup]
      rfl
  case refine_16 =>
    intro first stop hp
    have := m.beacon_silence.1 first stop (by rw [mt, qt]; exact hp)
    rwa [mt] at this
  case refine_17 =>
    intro hp
    exact m.beacon_silence.2 (by rw [mt, qt]; exact hp)
  case refine_18 => rw [planner, built.planFrame]
  case refine_19 =>
    show m.planner.plan.slots.map (slotMapByte m) = _
    rw [planner]
    congr 1
    funext u
    cases u with
    | idle => rfl
    | down g => rfl
    | up k =>
      dsimp only [slotMapByte]
      rw [(entries k).2]

end Sys2Proof.Machine
end

