-- ==== Sys2Proof/Proofs/Joins.lean ====
section
/-! PROOF. A JOIN heard in an access slot: a new join, a refusal, a rejoin or nothing (R28-R32, R59, R131, R150):
obligation O11. -/

namespace Sys2Proof.Machine

/-! ### Fragments dropped (R121) -/

theorem Arbiter.fetchDropped_idem (a : Arbiter) : a.fetchDropped.fetchDropped = a.fetchDropped := by
  unfold Arbiter.fetchDropped
  cases a.turn <;> simp

/-- The fragments of the records that `gone` names are dropped. -/
def Part.dropOf (p : Part) (gone : PoolId → Bool) : Part := p.fragmentsDropped (fun e => e.live && gone e.record)

theorem Part.dropFragments_eq (p : Part) (i : PoolId) : p.dropFragments i = p.dropOf (fun j => decide (j = i)) := by
  have queue : ∀ e : FragEntry, (e.record = i ∧ e.live = true) ↔ (e.live && decide (e.record = i)) = true := by
    intro e
    simp [and_comm]
  have fetch : ∀ l : List FragEntry,
      (l.filter (fun e => e.record = i && e.live && e.cond ≠ .done)).any (fun e => e.cond = .fetching) =
        l.any (fun e => (e.live && decide (e.record = i)) && e.cond = .fetching) := by
    intro l
    rw [Bool.eq_iff_iff]
    simp only [List.any_filter, List.any_eq_true, Bool.and_eq_true, decide_eq_true_eq]
    refine exists_congr fun e => and_congr_right fun _ => ⟨fun ⟨⟨⟨hi, hl⟩, _⟩, hf⟩ => ⟨⟨hl, hi⟩, hf⟩,
      fun ⟨⟨hl, hi⟩, hf⟩ => ⟨⟨⟨hi, hl⟩, by rw [hf]; exact nofun⟩, hf⟩⟩
  have staged : ∀ e : FragEntry, ∀ n : Nat, ((e.record = i && e.live && e.cond ≠ .done) && decide (e.slot = n)) =
      ((e.live && decide (e.record = i)) && e.cond ≠ .done && decide (e.slot = n)) := by
    intro e n
    rw [Bool.and_comm (decide (e.record = i))]
  unfold Part.dropFragments Part.dropOf Part.fragmentsDropped
  dsimp only
  rw [Transmit.unstage_filter]
  simp only [fetch, queue, staged, Arbiter.dropFetch_eq]

/-- Nothing named, nothing dropped. -/
theorem Part.dropOf_none (p : Part) : p.dropOf (fun _ => false) = p := by
  have none : ∀ l : List FragEntry, (l.any fun _ => false) = false := fun l => by simp
  simp [Part.dropOf, Part.fragmentsDropped, none]

/-- The fragment of a record named by `gone`, once dropped. -/
def FragEntry.droppedOf (gone : PoolId → Bool) (e : FragEntry) : FragEntry :=
  if e.live && gone e.record then { e with live := false, cond := if e.cond = .done then .done else .empty } else e

theorem FragEntry.droppedOf_droppedOf (a b : PoolId → Bool) (e : FragEntry) :
    (e.droppedOf a).droppedOf b = e.droppedOf (fun i => a i || b i) := by
  unfold FragEntry.droppedOf
  cases hl : e.live <;> cases ha : a e.record <;> simp [hl, ha]

/-- A fragment dropped for the first list is not dropped again for the second. -/
theorem FragEntry.dropped_once (a b : PoolId → Bool) (Q : FragEntry → Bool) (l : List FragEntry) :
    (l.any fun e => e.live && (a e.record || b e.record) && Q e) =
      ((l.any fun e => e.live && a e.record && Q e) ||
        (l.map (FragEntry.droppedOf a)).any fun e => e.live && b e.record && Q e) := by
  induction l with
  | nil => rfl
  | cons e l ih =>
    rw [List.any_cons, List.any_cons, List.map_cons, List.any_cons, ih]
    have here : (e.live && (a e.record || b e.record) && Q e) = ((e.live && a e.record && Q e) ||
        ((e.droppedOf a).live && b (e.droppedOf a).record && Q (e.droppedOf a))) := by
      unfold FragEntry.droppedOf
      cases hl : e.live <;> cases a e.record <;> simp [hl]
    rw [here]
    simp only [Bool.or_assoc, Bool.or_left_comm]

/-- A fetch under way is for a record that `gone` names. -/
def FragEntry.fetchOf (gone : PoolId → Bool) (l : List FragEntry) : Bool :=
  l.any (fun e => e.live && gone e.record && e.cond = .fetching)

/-- A slot carries a fragment, not yet sent, of a record that `gone` names. -/
def FragEntry.stagedOf (gone : PoolId → Bool) (l : List FragEntry) (n : Nat) : Bool :=
  l.any (fun e => e.live && gone e.record && (e.cond ≠ .done && e.slot = n))

theorem Part.dropOf_eq (p : Part) (gone : PoolId → Bool) : p.dropOf gone =
    { p with
      tx := { p.tx with
        queue := p.tx.queue.map (FragEntry.droppedOf gone)
        staging := p.tx.staging.filter (fun g => !FragEntry.stagedOf gone p.tx.queue g.slot) }
      arb := if FragEntry.fetchOf gone p.tx.queue then p.arb.fetchDropped else p.arb } := by
  simp only [Part.dropOf, Part.fragmentsDropped, FragEntry.stagedOf, FragEntry.fetchOf, Bool.and_assoc]
  rfl

/-- The pool takes no part in a drop. -/
theorem Part.dropOf_pool (p : Part) (x : Pool) (gone : PoolId → Bool) :
    Part.dropOf { p with pool := x } gone = { p.dropOf gone with pool := x } := rfl

/-- Two drops one after the other are one. -/
theorem Part.dropOf_dropOf (p : Part) (a b : PoolId → Bool) :
    (p.dropOf a).dropOf b = p.dropOf (fun i => a i || b i) := by
  have fetch : FragEntry.fetchOf (fun i => a i || b i) p.tx.queue = (FragEntry.fetchOf a p.tx.queue ||
      FragEntry.fetchOf b (p.tx.queue.map (FragEntry.droppedOf a))) := FragEntry.dropped_once a b _ _
  have staged : ∀ n, FragEntry.stagedOf (fun i => a i || b i) p.tx.queue n = (FragEntry.stagedOf a p.tx.queue n ||
      FragEntry.stagedOf b (p.tx.queue.map (FragEntry.droppedOf a)) n) := fun n => FragEntry.dropped_once a b _ _
  have queue : FragEntry.droppedOf b ∘ FragEntry.droppedOf a = FragEntry.droppedOf (fun i => a i || b i) :=
    funext (FragEntry.droppedOf_droppedOf a b)
  have arb : ∀ x y : Bool, (if x || y then p.arb.fetchDropped else p.arb) =
      if y then (if x then p.arb.fetchDropped else p.arb).fetchDropped else if x then p.arb.fetchDropped else p.arb := by
    intro x y
    cases x <;> cases y <;> simp [Arbiter.fetchDropped_idem]
  simp only [Part.dropOf_eq, List.map_map, List.filter_filter, fetch, staged, queue, Bool.not_or, arb,
    Bool.and_comm (! FragEntry.stagedOf b _ _)]

/-- A drop goes by what its list says of the records in the queue. -/
theorem Part.fragmentsDropped_congr {p : Part} {f g : FragEntry → Bool} (h : ∀ e ∈ p.tx.queue, f e = g e) :
    p.fragmentsDropped f = p.fragmentsDropped g := by
  have queue : p.tx.queue.map (fun e =>
        if f e then { e with live := false, cond := if e.cond = .done then .done else .empty } else e) =
      p.tx.queue.map (fun e =>
        if g e then { e with live := false, cond := if e.cond = .done then .done else .empty } else e) :=
    List.map_congr_left fun e he => by rw [h e he]
  have any : ∀ Q : FragEntry → Bool, (p.tx.queue.any fun e => f e && Q e) = p.tx.queue.any fun e => g e && Q e := by
    intro Q
    rw [Bool.eq_iff_iff]
    simp only [List.any_eq_true]
    exact exists_congr fun e => and_congr_right fun he => by rw [h e he]
  simp only [Part.fragmentsDropped, queue, Bool.and_assoc, any]

/-! ### The rejoin's restart (R131) -/

/-- A CURRENT record of a car, of one of some classes. -/
def MsgRecord.restarts (k : ShortId) (cs : List MsgClass) (r : MsgRecord) : Bool :=
  decide (r.sid = k ∧ r.state = .current) && cs.contains r.cls

/-- The part with the records that `f` names restarted and their fragments dropped. -/
def Part.restartedBy (p : Part) (f : MsgRecord → Bool) : Part :=
  { p.fragmentsDropped (fun e => e.live && (p.record e.record).any f) with
    pool := { p.pool with
      records := Vector.ofFn (fun i => (p.record i).map (fun r => if f r then r.restarted else r)) } }

theorem Part.record_restartedBy (p : Part) (f : MsgRecord → Bool) (i : PoolId) :
    (p.restartedBy f).record i = (p.record i).map (fun r => if f r then r.restarted else r) := by
  simp [Part.restartedBy, Part.record]

/-- What is restarted goes by the records in use. -/
theorem Part.restartedBy_congr {p : Part} {f g : MsgRecord → Bool} (h : ∀ i r, p.record i = some r → f r = g r) :
    p.restartedBy f = p.restartedBy g := by
  have any : ∀ i, (p.record i).any f = (p.record i).any g := by
    intro i
    cases hr : p.record i with
    | none => rfl
    | some r => exact h i r hr
  have map : ∀ i, (p.record i).map (fun r => if f r then r.restarted else r) =
      (p.record i).map (fun r => if g r then r.restarted else r) := by
    intro i
    cases hr : p.record i with
    | none => rfl
    | some r => simp [h i r hr]
  simp only [Part.restartedBy, any, map]

theorem Part.restartedBy_none (p : Part) : p.restartedBy (fun _ => false) = p := by
  have drop : p.fragmentsDropped (fun e => e.live && (p.record e.record).any fun _ => false) = p := by
    refine Eq.trans ?_ p.dropOf_none
    refine Part.fragmentsDropped_congr fun e _ => ?_
    cases p.record e.record <;> simp
  have records : (Vector.ofFn fun i : PoolId => (p.record i).map fun r => if false then r.restarted else r) =
      p.pool.records := by
    ext i hi : 1
    simp [Part.record]
  unfold Part.restartedBy
  rw [drop, records]

theorem Part.current_some {p : Part} {k : ShortId} {c : MsgClass} {i : PoolId} {r : MsgRecord} :
    p.current k c = some (i, r) ↔
      ((p.entry k).queues.get c).head? = some i ∧ p.record i = some r ∧ r.state = .current := by
  unfold Part.current
  cases hh : ((p.entry k).queues.get c).head? with
  | none => simp
  | some j =>
    constructor
    · intro h
      cases hr : p.record j with
      | none => simp [hr] at h
      | some x =>
        by_cases hc : x.state = .current
        · obtain ⟨rfl, rfl⟩ : j = i ∧ x = r := by simpa [hr, hc] using h
          exact ⟨rfl, hr, hc⟩
        · simp [hr, hc] at h
    · rintro ⟨hj, hr, hc⟩
      obtain rfl := Option.some.inj hj
      simp [hr, hc]

/-- The CURRENT record of a class queue is the car's one CURRENT record of the class (R95). -/
theorem State.current_iff {s : State} (hq : s.queuesOk) {k : ShortId} {c : MsgClass} {i : PoolId} {r : MsgRecord} :
    s.part.current k c = some (i, r) ↔ s.part.record i = some r ∧ r.sid = k ∧ r.cls = c ∧ r.state = .current := by
  obtain ⟨-, mem, head, -⟩ := hq
  rw [Part.current_some]
  constructor
  · rintro ⟨hh, hr, hc⟩
    obtain ⟨x, hx, hk, hcls, -⟩ := (mem k c i).mp (List.mem_of_mem_head? hh)
    obtain rfl := Option.some.inj (hr.symm.trans hx)
    exact ⟨hr, hk, hcls, hc⟩
  · rintro ⟨hr, hk, hcls, hc⟩
    have hi := (mem k c i).mpr ⟨r, hr, hk, hcls, .inr hc⟩
    exact ⟨(head k c i r hi hr).mp hc, hr, hc⟩

/-- One more record restarted (R121, R131). -/
theorem Part.restartedBy_one {p : Part} {f g : MsgRecord → Bool} {i : PoolId} {r : MsgRecord}
    (hr : p.record i = some r) (hg : ∀ j x, p.record j = some x → g x = (f x || decide (j = i))) :
    ((p.restartedBy f).setRecord i (some r.restarted)).dropFragments i = p.restartedBy g := by
  have drop : (p.dropOf fun j => (p.record j).any f).dropOf (fun j => decide (j = i)) =
      p.dropOf fun j => (p.record j).any g := by
    rw [Part.dropOf_dropOf]
    congr 1
    funext j
    cases hj : p.record j with
    | none =>
      have : j ≠ i := by
        rintro rfl
        rw [hr] at hj
        exact absurd hj nofun
      simp [this]
    | some x => exact (hg j x hj).symm
  have records : (p.restartedBy f).pool.records.set i (some r.restarted) = (p.restartedBy g).pool.records := by
    ext j hj : 1
    by_cases h : j = i.val
    · subst h
      have hgr : g r = true := by simp [hg i r hr]
      simp [Part.restartedBy, hr, hgr]
    · have ne : (⟨j, hj⟩ : PoolId) ≠ i := fun e => h (congrArg Fin.val e)
      rw [Vector.getElem_set_ne _ _ (Ne.symm h)]
      simp only [Part.restartedBy, Vector.getElem_ofFn]
      cases hx : p.record ⟨j, hj⟩ with
      | none => rfl
      | some x => simp [hg _ x hx, ne]
  rw [Part.dropFragments_eq]
  have set : (p.restartedBy f).setRecord i (some r.restarted) =
      { p.dropOf (fun j => (p.record j).any f) with
        pool := { p.pool with records := (p.restartedBy f).pool.records.set i (some r.restarted) } } := by
    simp only [Part.setRecord, Part.restartedBy, Part.dropOf]
  rw [set, Part.dropOf_pool, drop, records]
  rfl

/-- The restart of one class of a car (R131). -/
def Part.restartClass (k : ShortId) (q : Part) (c : MsgClass) : Part :=
  match q.current k c with
  | none => q
  | some (i, r) => (q.setRecord i (some r.restarted)).dropFragments i

theorem State.restartClass_eq {s : State} (hq : s.queuesOk) (k : ShortId) {c : MsgClass} {cs : List MsgClass}
    (hc : c ∉ cs) : Part.restartClass k (s.part.restartedBy (MsgRecord.restarts k cs)) c =
      s.part.restartedBy (MsgRecord.restarts k (c :: cs)) := by
  have names : ∀ r : MsgRecord, MsgRecord.restarts k (c :: cs) r =
      (MsgRecord.restarts k cs r || decide (r.sid = k ∧ r.cls = c ∧ r.state = .current)) := by
    intro r
    rw [Bool.eq_iff_iff]
    simp only [MsgRecord.restarts, Bool.and_eq_true, Bool.or_eq_true, decide_eq_true_eq, List.contains_iff_mem,
      List.mem_cons]
    tauto
  have other : ∀ r : MsgRecord, r.cls = c → MsgRecord.restarts k cs r = false := by
    intro r hr
    simp [MsgRecord.restarts, hr, hc]
  have current : ∀ i x, (s.part.restartedBy (MsgRecord.restarts k cs)).current k c = some (i, x) ↔
      s.part.current k c = some (i, x) := by
    intro i x
    have entry : (s.part.restartedBy (MsgRecord.restarts k cs)).entry k = s.part.entry k := rfl
    rw [Part.current_some, Part.current_some, entry, Part.record_restartedBy]
    refine and_congr_right fun hh => and_congr_left fun _ => ?_
    obtain ⟨r, hr, -, hcls, -⟩ := (hq.2.1 k c i).mp (List.mem_of_mem_head? hh)
    rw [hr]
    simp [other r hcls]
  unfold Part.restartClass
  cases h : s.part.current k c with
  | none =>
    have none : (s.part.restartedBy (MsgRecord.restarts k cs)).current k c = none := by
      refine Option.eq_none_iff_forall_ne_some.mpr fun ⟨i, x⟩ hx => ?_
      rw [(current i x).mp hx] at h
      exact absurd h nofun
    rw [none]
    refine Part.restartedBy_congr fun i r hr => ?_
    have : ¬ (r.sid = k ∧ r.cls = c ∧ r.state = .current) := fun hm => by
      rw [(State.current_iff hq).mpr ⟨hr, hm⟩] at h
      exact absurd h nofun
    simp [names, this]
  | some x =>
    obtain ⟨i, r⟩ := x
    rw [(current i r).mpr h]
    obtain ⟨hr, hk, hcls, hcur⟩ := (State.current_iff hq).mp h
    refine Part.restartedBy_one hr fun j x hx => ?_
    rw [names]
    congr 1
    rw [Bool.eq_iff_iff, decide_eq_true_eq, decide_eq_true_eq]
    constructor
    · intro hm
      have := (State.current_iff hq).mpr ⟨hx, hm⟩
      rw [h] at this
      exact (Prod.mk.inj (Option.some.inj this)).1.symm
    · rintro rfl
      rw [hr] at hx
      rw [← Option.some.inj hx]
      exact ⟨hk, hcls, hcur⟩

/-- A rejoined car's CURRENT messages restart and their fragments are dropped (R131). -/
theorem State.restartCar_eq {s : State} (hq : s.queuesOk) (k : ShortId) :
    s.part.restartCar k = s.part.restartedBy (fun r => decide (r.sid = k ∧ r.state = .current)) := by
  have start : s.part = s.part.restartedBy (MsgRecord.restarts k []) := by
    rw [show MsgRecord.restarts k [] = fun _ => false from funext fun r => by simp [MsgRecord.restarts],
      Part.restartedBy_none]
  have car : s.part.restartCar k =
      Part.restartClass k (Part.restartClass k (Part.restartClass k s.part .stop) .control) .bulk := rfl
  rw [car]
  conv_lhs => rw [start]
  rw [State.restartClass_eq hq k (by simp), State.restartClass_eq hq k (by simp), State.restartClass_eq hq k (by simp)]
  refine Part.restartedBy_congr fun i r _ => ?_
  cases hc : r.cls <;> simp [MsgRecord.restarts, hc]

/-! ### The aborted delivery (R150) -/

theorem Uplink.abortOwed (u : Uplink) (x : UplinkContext) (size : Nat) (f : Word) :
    (u.editClaim x.index (Claim.abort x size f)).oweEntry x.index =
      { u with
        claims := u.claims.map fun c => if c.index = x.index then c.abort x size f else c
        entryWrites :=
          if u.claims.any (fun c => c.index = x.index) && !u.staging.any (fun g => g.index = x.index)
              && !u.entryWrites.contains x.index then
            u.entryWrites ++ [x.index]
          else u.entryWrites } := by
  have ended : ((u.claims.map fun c => if c.index = x.index then c.abort x size f else c).any
      fun c => decide (c.index = x.index) && c.ended) = u.claims.any fun c => decide (c.index = x.index) := by
    rw [List.any_map]
    congr 1
    funext c
    by_cases hc : c.index = x.index <;> simp [hc, Claim.abort, Claim.ended]
  simp only [Uplink.oweEntry, Uplink.editClaim, Uplink.bound, ended]
  split <;> rfl

/-- A context removed is a shown field changed (R47). -/
theorem Entry.write_noContext {e : Entry} {x : UplinkContext} (h : e.context = some x) :
    e.write { e with context := none } = { e with context := none, dirty := true } := by
  unfold Entry.write
  refine if_neg fun hs => ?_
  have := congrArg Shown.hasContext hs
  simp [Entry.shown, h] at this

theorem Part.abortUplink_eq (p : Part) (k : ShortId) (f : Word) : p.abortUplink k f = p.uplinkAborted k f := by
  unfold Part.abortUplink Part.uplinkAborted
  cases hx : (p.entry k).context with
  | none => rfl
  | some x =>
    dsimp only
    rw [Part.editEntry, Entry.write_noContext hx, Uplink.abortOwed]
    rfl

/-- An aborted delivery leaves the anchor unit, and of the entry it takes the context (R150). -/
theorem Part.uplinkAborted_entry (p : Part) (k : ShortId) (f : Word) :
    (p.uplinkAborted k f).anchor = p.anchor ∧
      ∃ b, (p.uplinkAborted k f).entry k = { p.entry k with context := none, dirty := b } := by
  unfold Part.uplinkAborted
  cases hx : (p.entry k).context with
  | none =>
    refine ⟨rfl, (p.entry k).dirty, ?_⟩
    show p.entry k = _
    rw [← hx]
  | some x => exact ⟨rfl, true, Part.entry_setEntry_self p k _⟩

/-! ### The sorts of a JOIN (R28) -/

/-- What a valid JOIN reads as (R13). -/
theorem parseJoin_eq (bs : List Byte) :
    let byte := fun (i : Nat) => bs.getD i 0
    let car : CarNumber := byte 1 ++ byte 2 ++ byte 3
    parseJoin bs =
      if bs.length = 8 ∧ (byte 0).toNat / 64 = 2 ∧ car ≠ 0 then
        some { car := car, prevNode := (byte 4 ++ byte 5).setWidth 12
               capability := rateOfCode ((byte 6).toNat % 4) }
      else none := by
  intro byte car
  have kind : byteAt bs 0 >>> 6 = 2 ↔ (byte 0).toNat / 64 = 2 := by
    rw [← BitVec.toNat_inj, BitVec.toNat_ushiftRight, Nat.shiftRight_eq_div_pow]
    rfl
  unfold parseJoin
  simp only [kind]
  rfl

theorem Part.liveEntry_none {p : Part} {car : CarNumber} (h : ∀ k, (p.entry k).live = true → (p.entry k).car ≠ car) :
    p.liveEntry car = none := by
  refine List.find?_eq_none.mpr fun k _ hk => ?_
  simp only [Bool.and_eq_true, decide_eq_true_eq] at hk
  exact h k hk.1 hk.2

/-- The lowest FREE entry (R29). -/
theorem Part.freeEntry_some {p : Part} {k : ShortId} (hk : (p.entry k).state = .free)
    (low : ∀ j, j < k → (p.entry j).state ≠ .free) : p.freeEntry = some k := by
  refine List.find?_eq_some_iff_getElem.mpr ⟨by simpa using hk, k.val, by simp [shortIds], by simp [shortIds], ?_⟩
  intro j hj
  have := low ⟨j, by omega⟩ (Fin.lt_def.mpr hj)
  simpa [shortIds] using this

theorem Part.freeEntry_none {p : Part} (h : ∀ k, (p.entry k).state ≠ .free) : p.freeEntry = none :=
  List.find?_eq_none.mpr fun k _ => by simpa using h k

theorem announce_eq (q : List Announcement) (a : Announcement) : announce q a = if a ∈ q then q else q ++ [a] := by
  simp [announce]

/-- An outcome finds the place it needs unless the queue is full without it (R28). -/
theorem canAnnounce_iff (q : List Announcement) (a : Announcement) :
    canAnnounce q a = true ↔ ¬ (a ∉ q ∧ 8 ≤ q.length) := by
  rw [canAnnounce, Bool.or_eq_true, List.contains_iff_mem, decide_eq_true_iff, show Config.annPlaces = 8 from rfl,
    not_and, not_le, or_iff_not_imp_left]

theorem Part.newJoin_eq {p : Part} (hn : p.anchor.node = .running) (k : ShortId) (j : Join) :
    p.newJoin k j = Part.withEvent (Part.announce (p.setEntry k (Entry.joined p.setup.defaultWeight j))
      { car := j.burst.car, sid := sidBits k }) (joinedEvent j k false) := by
  apply Part.submit_running
  exact hn

theorem Part.refuseJoin_eq {p : Part} (hn : p.anchor.node = .running) (j : Join) :
    p.refuseJoin j = Part.withEvent
      { p with roster := { p.roster with
          ann := Machine.announce p.roster.ann { car := j.burst.car, sid := noCarId }
          joinsRefused := satInc p.roster.joinsRefused } }
      (eventOf .joinRefused noCarId j.burst.car j.frame (j.burst.prevNode.setWidth 16) 0) := by
  apply Part.submit_running
  exact hn

/-- A rejoin: the restart, the aborted delivery, and the entry as it joins again (R31, R131, R150). -/
theorem State.rejoin_eq {s : State} (hq : s.queuesOk) (hn : s.part.anchor.node = .running) (k : ShortId) (j : Join) :
    let ab := (s.part.restartedBy (fun r => decide (r.sid = k ∧ r.state = .current))).uplinkAborted k j.frame
    s.part.rejoin k j = Part.withEvent
      (Part.announce
        (({ ab with uplink := { ab.uplink with finished := ab.uplink.finished.set k none } } : Part).setEntry k
          { (s.part.entry k).rejoined j with context := none })
        { car := j.burst.car, sid := sidBits k }) (joinedEvent j k true) := by
  intro ab
  have rejoined : (ab.entry k).rejoined j = { (s.part.entry k).rejoined j with context := none } := by
    obtain ⟨-, b, hb⟩ := Part.uplinkAborted_entry
      (s.part.restartedBy fun r => decide (r.sid = k ∧ r.state = .current)) k j.frame
    rw [show ab.entry k = _ from hb]
    rfl
  have eq : s.part.rejoin k j = Part.submit
      (Part.announce
        (({ ab with uplink := { ab.uplink with finished := ab.uplink.finished.set k none } } : Part).setEntry k
          ((ab.entry k).rejoined j))
        { car := j.burst.car, sid := sidBits k }) true (joinedEvent j k true) := by
    unfold Part.rejoin
    dsimp only
    rw [State.restartCar_eq hq, Part.abortUplink_eq]
    rfl
  rw [eq, rejoined]
  apply Part.submit_running
  show ab.anchor.node = .running
  rw [(Part.uplinkAborted_entry _ _ _).1]
  exact hn

/-- Every class is at most D (R59). -/
theorem rateMin_top (c : RateClass) : rateMin .D c = c := by
  cases c <;> rfl

theorem Part.uplinkAborted_ann (p : Part) (k : ShortId) (f : Word) :
    (p.uplinkAborted k f).roster.ann = p.roster.ann := by
  unfold Part.uplinkAborted
  split <;> rfl

/-- Settles O11: the sorts of a JOIN by the entry it finds and the place it needs. -/
theorem joinsHandled : Obligations.JoinsHandled := by
  intro s h hq hn p q byte car prev top valid f n reached low full announced joined nobody
  have place : ∀ a : Announcement, canAnnounce p.roster.ann a = true ↔ ¬ full a := canAnnounce_iff p.roster.ann
  have adds : ∀ (r : Part) (a : Announcement), r.roster.ann = p.roster.ann → r.announce a = announced r a := by
    intro r a hr
    simp only [Part.announce, announce_eq, hr, announced]
  have lower : ∀ x y, rateMin x y = low x y := fun x y => by simp only [rateMin, rateLe, decide_eq_true_eq, low]
  let j : Join := { burst := { car := car, prevNode := prev, capability := top }, q := h.q.toNat, frame := f
                    slot := p.timer.slot }
  have parsed : parseJoin h.bytes = if valid then some j.burst else none := parseJoin_eq h.bytes
  refine ⟨fun ho => ?_, fun ho => ?_, fun ho hv => ?_⟩
  · simp [q, Part.accessHeard, ho]
  · obtain ho | ⟨ho, hv⟩ := ho
    · simp [q, Part.accessHeard, ho, satInc]
    · rw [if_neg hv] at parsed
      simp [q, Part.accessHeard, ho, parsed, satInc]
  · rw [if_pos hv] at parsed
    have join : q = p.join j := by simp [q, Part.accessHeard, ho, parsed, j, f, p]
    refine ⟨join, fun k hk free lowest => ⟨fun hfull => ?_, fun room => ?_⟩, fun hk free => ⟨fun hfull => ?_, fun room => ?_⟩,
      fun k hk => ⟨fun hfull => ?_, fun room => ?_⟩⟩
    · rw [join, Part.join, Part.liveEntry_none hk, Part.freeEntry_some free lowest]
      exact if_neg (not_lt.mpr hfull)
    · rw [join, Part.join, Part.liveEntry_none hk, Part.freeEntry_some free lowest]
      refine (if_pos room).trans ?_
      have entry : Entry.joined p.setup.defaultWeight j = { Entry.blank p.setup.defaultWeight with
          state := .granted, car := car, prevNode := prev, capability := top, lastHeard := f, quality := n
          cls := low reached top, dirty := true } := by
        rw [Entry.joined, rateMin_top, lower]
        rfl
      rw [Part.newJoin_eq hn]
      refine (congrArg (fun r => Part.withEvent r (joinedEvent j k false)) (adds (p.setEntry k _) _ rfl)).trans ?_
      rw [← entry]
      rfl
    · rw [join, Part.join, Part.liveEntry_none hk, Part.freeEntry_none free]
      exact if_neg fun hc => (place _).mp hc hfull
    · rw [join, Part.join, Part.liveEntry_none hk, Part.freeEntry_none free]
      refine (if_pos ((place _).mpr room)).trans ?_
      rw [Part.refuseJoin_eq hn, announce_eq]
      rfl
    · rw [join, Part.join, hk]
      exact if_neg fun hc => (place _).mp hc hfull
    · rw [join, Part.join, hk]
      refine (if_pos ((place _).mpr room)).trans ?_
      have entry : { (p.entry k).rejoined j with context := none } = { p.entry k with
          state := .granted, prevNode := prev, capability := top, lastHeard := f, miss := 0
          grantWait := 0, quality := n, cls := low reached (low (p.entry k).cap top), credit := 0
          ackBit := false, alarm := false, context := none, dirty := true } := by
        rw [Entry.rejoined, lower, lower]
        rfl
      rw [State.rejoin_eq hq hn, entry]
      refine (congrArg (fun r => Part.withEvent r (joinedEvent j k true)) (adds _ _ ?_)).trans ?_
      · exact Part.uplinkAborted_ann _ _ _
      · rfl

end Sys2Proof.Machine
end

