-- ==== Sys2Proof/Proofs/ResultsTaken.lean ====
section
/-! SUPPORT. What the retiring of records and the taking of an up slot result leave of the roster entries, the rings, the
transmit figures and the turn in progress (R99, R121, R136). -/

namespace Sys2Proof.Machine

/-! ### The entries apart from their queues -/

/-- An entry without its class queues and its dirty mark. -/
def Entry.core (e : Entry) : Entry := { e with queues := PerClass.all [], dirty := false }

/-- The entries without their class queues and their dirty marks. -/
def Part.cores (p : Part) : ShortId → Entry := fun k => (p.entry k).core

@[simp] theorem Entry.write_core (old new : Entry) : (old.write new).core = new.core := by
  unfold Entry.write
  split <;> rfl

theorem Part.cores_of_entries {p q : Part} (h : q.roster.entries = p.roster.entries) : q.cores = p.cores := by
  funext k
  exact congrArg (fun v : Vector Entry 48 => v[k].core) h

theorem Part.cores_of_roster {p q : Part} (h : q.roster = p.roster) : q.cores = p.cores :=
  Part.cores_of_entries (by rw [h])

theorem Part.setEntry_cores {p : Part} {k : ShortId} {e : Entry} (h : e.core = (p.entry k).core) :
    (p.setEntry k e).cores = p.cores := by
  funext j
  by_cases hj : j = k
  · subst hj
    simp [Part.cores, h]
  · simp [Part.cores, Part.entry_setEntry_other p e hj]

theorem Part.editEntry_cores {p : Part} {k : ShortId} {f : Entry → Entry} (h : (f (p.entry k)).core = (p.entry k).core) :
    (p.editEntry k f).cores = p.cores := Part.setEntry_cores (by simpa using h)

@[simp] theorem Part.setRecord_cores (p : Part) (i : PoolId) (r : Option MsgRecord) : (p.setRecord i r).cores = p.cores :=
  Part.cores_of_roster (by simp)

@[simp] theorem Part.editRecord_cores (p : Part) (i : PoolId) (f : MsgRecord → MsgRecord) :
    (p.editRecord i f).cores = p.cores := Part.cores_of_roster (by simp)

@[simp] theorem Part.submit_cores (p : Part) (b : Bool) (r : EventRecord) : (p.submit b r).cores = p.cores :=
  Part.cores_of_roster (by simp)

@[simp] theorem Part.oweWriteBack_cores (p : Part) (w : WriteBack) : (p.oweWriteBack w).cores = p.cores :=
  Part.cores_of_roster (by simp)

@[simp] theorem Part.dropFragments_cores (p : Part) (i : PoolId) : (p.dropFragments i).cores = p.cores :=
  Part.cores_of_roster (by simp)

theorem Part.promoteAll_cores (p : Part) (k : ShortId) : (p.promoteAll k).cores = p.cores :=
  Part.cores_of_roster (by simp)

theorem Part.retireOne_cores (st : Status) (p : Part) (i : PoolId) : (Part.retireOne st p i).cores = p.cores := by
  by_cases h : ∀ r, p.record i = some r → r.state = .retiring
  · rw [Part.retireOne_none st h]
  · simp only [not_forall] at h
    obtain ⟨r, hr, hs⟩ := h
    rw [Part.retireOne_eq st hr hs, Part.dropFragments_cores, Part.oweWriteBack_cores, Part.editEntry_cores rfl,
      Part.setRecord_cores]

theorem Part.retireAll_cores (p : Part) (st : Status) (ids : List PoolId) : (p.retireAll st ids).cores = p.cores := by
  unfold Part.retireAll
  dsimp only
  rw [foldl_keeps Part.cores Part.promoteAll Part.promoteAll_cores]
  exact foldl_keeps Part.cores _ (fun q i => Part.retireOne_cores st q i) ids p

theorem Part.joinQueue_cores (p : Part) (i : PoolId) : (p.joinQueue i).cores = p.cores := by
  unfold Part.joinQueue
  split
  · rfl
  · dsimp only
    split
    · exact Part.retireAll_cores _ _ _
    · exact (Part.editRecord_cores _ _ _).trans (Part.editEntry_cores rfl)

theorem Part.takeHandoffs_cores (p : Part) (n : Nat) : (p.takeHandoffs n).cores = p.cores := by
  obtain h | ⟨-, h⟩ | h := p.takeHandoffs_cases n
  · rw [h]
  · rw [h]
    exact Part.cores_of_roster rfl
  · rw [h]
    exact (foldl_keeps Part.cores _ Part.joinQueue_cores _ _).trans (Part.cores_of_roster rfl)

theorem Part.answer_cores (p : Part) (k : ShortId) (f : Word) (ans : PoolAnswer) : (p.answer k f ans).cores = p.cores := by
  have completes : ∀ (q : Part) i r, (q.completeRecord i r f).cores = q.cores := by
    intro q i r
    unfold Part.completeRecord
    dsimp only
    split
    · rw [Part.submit_cores, Part.retireAll_cores]
    · exact q.retireAll_cores _ _
  have retries : ∀ (q : Part) i r, (q.tryRetry i r f).cores = q.cores := by
    intro q i r
    unfold Part.tryRetry
    dsimp only
    split
    · rw [Part.submit_cores, Part.retireAll_cores, Part.setRecord_cores]
    · exact q.setRecord_cores _ _
  have one : ∀ l (q : Part) c, (Part.answerClass ans l k f q c).cores = q.cores := by
    intro l q c
    unfold Part.answerClass
    split
    · rfl
    · dsimp only
      split
      · exact completes _ _ _
      · exact q.setRecord_cores _ _
      · exact retries _ _ _
      · rfl
  unfold Part.answer
  exact (Part.cores_of_roster rfl).trans (foldl_keeps Part.cores _ (one _) classes p)

/-! ### A context only where the entry is not FREE -/

/-- A FREE entry holds no context (R44, R134). -/
def Part.freeClear (p : Part) (k : ShortId) : Prop := (p.entry k).state = .free → (p.entry k).context = none

theorem Part.freeClear_of_cores {p q : Part} (h : q.cores = p.cores) {k : ShortId} (hp : p.freeClear k) : q.freeClear k := by
  have hk : (q.entry k).core = (p.entry k).core := congrFun h k
  have hs : (q.entry k).state = (p.entry k).state := by
    simpa [Entry.core] using congrArg Entry.state hk
  have hc : (q.entry k).context = (p.entry k).context := by
    simpa [Entry.core] using congrArg Entry.context hk
  intro hf
  rw [hc]
  exact hp (hs ▸ hf)

theorem Part.freeClear_setEntry {p : Part} {k : ShortId} {e : Entry} (h : e.state = .free → e.context = none) {j : ShortId}
    (hp : p.freeClear j) : (p.setEntry k e).freeClear j := by
  unfold Part.freeClear
  by_cases hj : j = k
  · subst hj
    simpa using h
  · rw [Part.entry_setEntry_other p e hj]
    exact hp

theorem Entry.write_fields (old new : Entry) :
    (old.write new).state = new.state ∧ (old.write new).context = new.context := by
  unfold Entry.write
  split <;> exact ⟨rfl, rfl⟩

theorem Part.freeClear_editEntry {p : Part} {k : ShortId} {f : Entry → Entry}
    (h : (f (p.entry k)).state = .free → (f (p.entry k)).context = none) {j : ShortId} (hp : p.freeClear j) :
    (p.editEntry k f).freeClear j := by
  obtain ⟨hs, hc⟩ := (p.entry k).write_fields (f (p.entry k))
  exact Part.freeClear_setEntry (by rwa [hs, hc]) hp

theorem Part.freeClear_of_roster {p q : Part} (h : q.roster = p.roster) {k : ShortId} (hp : p.freeClear k) :
    q.freeClear k := Part.freeClear_of_cores (Part.cores_of_roster h) hp

/-- Where a FREE entry of `p` holds no context, none of `q` does. -/
def Part.keepsClear (p q : Part) : Prop := ∀ k, p.freeClear k → q.freeClear k

theorem Part.keepsClear.trans {p q r : Part} (h : p.keepsClear q) (h' : q.keepsClear r) : p.keepsClear r :=
  fun k hk => h' k (h k hk)

theorem Part.keepsClear_of_cores {p q : Part} (h : q.cores = p.cores) : p.keepsClear q :=
  fun _ hk => Part.freeClear_of_cores h hk

theorem Part.keepsClear_of_roster {p q : Part} (h : q.roster = p.roster) : p.keepsClear q :=
  Part.keepsClear_of_cores (Part.cores_of_roster h)

theorem Part.keepsClear_editEntry (p : Part) (k : ShortId) {f : Entry → Entry}
    (h : (f (p.entry k)).state = .free → (f (p.entry k)).context = none) : p.keepsClear (p.editEntry k f) :=
  fun _ hj => Part.freeClear_editEntry h hj

/-- Of the roster, an aborted delivery takes the context at most (R150). -/
theorem Part.abortUplink_roster (p : Part) (k : ShortId) (f : Word) :
    (p.abortUplink k f).roster = p.roster ∨
      (p.abortUplink k f).roster = (p.editEntry k fun e => { e with context := none }).roster := by
  unfold Part.abortUplink
  split
  · exact .inl rfl
  · exact .inr rfl

theorem Part.abortUplink_keepsClear (p : Part) (k : ShortId) (f : Word) : p.keepsClear (p.abortUplink k f) := by
  obtain h | h := p.abortUplink_roster k f
  · exact Part.keepsClear_of_roster h
  · exact (p.keepsClear_editEntry k fun _ => rfl).trans (Part.keepsClear_of_roster h)

theorem Part.tryFree_keepsClear (p : Part) (k : ShortId) : p.keepsClear (p.tryFree k) := by
  unfold Part.tryFree
  split
  · exact fun _ h => Part.freeClear_setEntry (p := p.setFinished k none) (fun _ => rfl) (Part.freeClear_of_roster rfl h)
  · exact fun _ h => h

/-- An entry's message aborted and its records retired: what a drain does first (R42). -/
def Part.drainRetired (p : Part) (k : ShortId) (why : DrainReason) (now : Word) : Part :=
  (p.abortUplink k now).retireAll (drainStatus why) ((p.abortUplink k now).entry k).queueIds

/-- An entry DRAINING, before it is seen whether something still holds it (R42). -/
def Part.drainMarked (p : Part) (k : ShortId) (why : DrainReason) (now : Word) : Part :=
  let a := p.drainRetired k why now
  Part.setEntry { a with roster := { a.roster with ann := dropGrants a.roster.ann k } } k
    { a.entry k with state := .draining, drain := some why, credit := 0, dirty := true }

theorem Part.drain_eq (p : Part) (k : ShortId) (why : DrainReason) (now : Word) :
    p.drain k why now = (p.drainMarked k why now).tryFree k := rfl

theorem Part.drain_keepsClear (p : Part) (k : ShortId) (why : DrainReason) (now : Word) :
    p.keepsClear (p.drain k why now) := by
  have retired : p.keepsClear (p.drainRetired k why now) :=
    (p.abortUplink_keepsClear k now).trans (Part.keepsClear_of_cores (Part.retireAll_cores _ _ _))
  have marked : p.keepsClear (p.drainMarked k why now) := fun j hj =>
    Part.freeClear_setEntry (fun h : EntryState.draining = .free => absurd h (by decide))
      (Part.freeClear_of_cores (Part.cores_of_entries rfl) (retired j hj))
  rw [Part.drain_eq]
  exact marked.trans (Part.tryFree_keepsClear _ k)

/-- The owner is not FREE and every FREE entry is clear: what a fragment's judgment keeps (R139-R145). -/
def Part.ownerClear (p q : Part) (k : ShortId) : Prop :=
  (p.entry k).state ≠ .free → (q.entry k).state ≠ .free ∧ p.keepsClear q

theorem Part.ownerClear.trans {p q r : Part} {k : ShortId} (h : p.ownerClear q k) (h' : q.ownerClear r k) :
    p.ownerClear r k := fun hp =>
  ⟨(h' (h hp).1).1, (h hp).2.trans (h' (h hp).1).2⟩

theorem Part.ownerClear_of_roster {p q : Part} {k : ShortId} (h : q.roster = p.roster) : p.ownerClear q k := fun hp =>
  ⟨by simpa only [Part.entry, h] using hp, Part.keepsClear_of_roster h⟩

theorem Part.ownerClear_edit (p : Part) {k : ShortId} {f : Entry → Entry} (h : (f (p.entry k)).state = (p.entry k).state) :
    p.ownerClear (p.editEntry k f) k := fun hp =>
  ⟨by rw [Part.entry_editEntry_self, ((p.entry k).write_fields _).1, h]; exact hp,
    p.keepsClear_editEntry k fun hf => absurd (h ▸ hf) hp⟩

theorem Part.ownerClear.thenRoster {p q r : Part} {k : ShortId} (h : p.ownerClear q k) (hr : r.roster = q.roster) :
    p.ownerClear r k := h.trans (Part.ownerClear_of_roster hr)

theorem Part.ownerClear.thenEdit {p q : Part} {k : ShortId} (h : p.ownerClear q k) {f : Entry → Entry}
    (hf : ∀ e, (f e).state = e.state) : p.ownerClear (q.editEntry k f) k := h.trans (q.ownerClear_edit (hf _))

theorem Part.ownerClear.refl (p : Part) (k : ShortId) : p.ownerClear p k := Part.ownerClear_of_roster rfl

theorem Part.decideMessage_roster (p : Part) (k : ShortId) (x : UplinkContext) (f : UpFragment) (w : Word) :
    (p.decideMessage k x f w).roster = (p.editEntry k fun e => { e with context := none }).roster := by
  unfold Part.decideMessage
  rfl

theorem Part.takeFragment_ownerClear {p q : Part} {k : ShortId} {x : UplinkContext} {f : UpFragment} {w : Word}
    (h : p.takeFragment k x f w = some q) : p.ownerClear q k := by
  unfold Part.takeFragment at h
  dsimp only at h
  split at h
  · exact absurd h nofun
  · split at h
    · rw [← Option.some.inj h]
      refine Part.ownerClear.thenRoster ?_ (Part.decideMessage_roster _ _ _ _ _)
      refine Part.ownerClear.thenEdit ?_ fun _ => rfl
      exact Part.ownerClear_of_roster rfl
    · rw [← Option.some.inj h]
      refine Part.ownerClear.thenEdit ?_ fun _ => rfl
      exact Part.ownerClear_of_roster rfl

theorem Part.abortUplink_ownerClear (p : Part) (k : ShortId) (w : Word) : p.ownerClear (p.abortUplink k w) k := by
  obtain h | h := p.abortUplink_roster k w
  · exact Part.ownerClear_of_roster h
  · exact ((Part.ownerClear.refl p k).thenEdit (f := fun e => { e with context := none }) fun _ => rfl).thenRoster h

theorem Part.newMessage_ownerClear (p : Part) (k : ShortId) (f : UpFragment) (w now : Word) :
    p.ownerClear (p.newMessage k f w now).1 k := by
  have aborted := p.abortUplink_ownerClear k now
  unfold Part.newMessage
  dsimp only
  generalize p.abortUplink k now = a at aborted ⊢
  split
  · exact aborted
  · split
    · next h =>
      refine Part.ownerClear.trans ?_ (Part.takeFragment_ownerClear h)
      refine Part.ownerClear.thenEdit ?_ fun _ => rfl
      exact aborted.thenRoster rfl
    · refine Part.ownerClear.thenEdit ?_ fun _ => rfl
      exact aborted.thenRoster rfl

theorem Part.judgeFragment_ownerClear (p : Part) (k : ShortId) (f : UpFragment) (w now : Word) :
    p.ownerClear (p.judgeFragment k f w now).1 k := by
  unfold Part.judgeFragment
  split
  · exact .refl p k
  · exact .refl p k
  · exact p.newMessage_ownerClear k f w now
  · split
    · exact .refl p k
    · split
      · next h => exact Part.takeFragment_ownerClear h
      · exact .refl p k

theorem Part.takeUplink_ownerClear (p : Part) (r : UpResult) (f : Option UpFragment) :
    p.ownerClear (p.takeUplink r f) r.owner := by
  unfold Part.takeUplink Part.setAck
  split
  · exact (Part.ownerClear.refl p _).thenEdit fun _ => rfl
  · exact (p.judgeFragment_ownerClear _ _ _ _).thenEdit fun _ => rfl

theorem Part.takeAlarm_ownerClear (p : Part) (r : UpResult) (a : Bool) : p.ownerClear (p.takeAlarm r a) r.owner := by
  have edited := (Part.ownerClear.refl p r.owner).thenEdit (f := fun e => { e with alarm := a }) fun _ => rfl
  unfold Part.takeAlarm
  dsimp only
  split
  · exact edited.thenRoster (by simp)
  · exact edited

theorem Part.applySample_keepsClear (p : Part) (k : ShortId) (v : Bool) (q : Nat) : p.keepsClear (p.applySample k v q) := by
  unfold Part.applySample
  dsimp only
  split
  · next hon =>
    refine p.keepsClear_editEntry k fun hf => ?_
    have hf : (p.entry k).state = .free := hf
    simp [Entry.onAir, hf] at hon
  · exact fun _ h => h

theorem Part.keepsClear.thenSubmit {p q : Part} (h : p.keepsClear q) (b : Bool) (r : EventRecord) :
    p.keepsClear (q.submit b r) := h.trans (Part.keepsClear_of_roster (by simp))

theorem Part.validSlot_keepsClear (p : Part) (k : ShortId) (w now : Word) (l : Bool) :
    p.keepsClear (p.validSlot k w now l) := by
  unfold Part.validSlot
  dsimp only
  split
  · exact fun _ h => h
  · have edited : p.keepsClear (p.editEntry k fun e => if l && e.state = .granted then { e with lastHeard := w }
        else e.answered w) := by
      refine p.keepsClear_editEntry k fun hf => ?_
      split at hf
      · next hg =>
        simp only [Bool.and_eq_true, decide_eq_true_eq] at hg
        have hf : (p.entry k).state = .free := hf
        rw [hg.2] at hf
        exact absurd hf nofun
      · exact absurd hf nofun
    split
    · exact (edited.trans (Part.drain_keepsClear _ k .left now)).thenSubmit _ _
    · exact edited

theorem Part.countMiss_keepsClear (p : Part) (k : ShortId) (now : Word) (h : (p.entry k).state ≠ .free) :
    p.keepsClear (p.countMiss k now) := by
  have edited := p.keepsClear_editEntry k (f := fun e => { e with miss := min 31 ((p.entry k).miss + 1) })
    fun hf => absurd hf h
  unfold Part.countMiss
  dsimp only
  split
  · exact (edited.trans (Part.drain_keepsClear _ k .lost now)).thenSubmit _ _
  · split
    · exact edited.trans (Part.keepsClear_editEntry _ k nofun)
    · exact edited

theorem Part.missedSlot_keepsClear (p : Part) (k : ShortId) (now : Word) : p.keepsClear (p.missedSlot k now) := by
  unfold Part.missedSlot
  split
  · next hon =>
    refine p.countMiss_keepsClear k now fun hf => ?_
    simp [Entry.onAir, hf] at hon
  · exact fun _ h => h

theorem Part.setAck_keepsClear {p : Part} {k : ShortId} (h : (p.entry k).state ≠ .free) (b : Bool) :
    p.keepsClear (p.setAck k b) := p.keepsClear_editEntry k fun hf => absurd hf h

theorem Part.answer_state (p : Part) (k : ShortId) (f : Word) (ans : PoolAnswer) (j : ShortId) :
    ((p.answer k f ans).entry j).state = (p.entry j).state := by
  have h : ((p.answer k f ans).entry j).core.state = (p.entry j).core.state :=
    congrArg Entry.state (congrFun (p.answer_cores k f ans) j)
  exact h

theorem Part.applySample_state (p : Part) (k : ShortId) (v : Bool) (q : Nat) :
    ((p.applySample k v q).entry k).state = (p.entry k).state := by
  unfold Part.applySample
  dsimp only
  split
  · rw [Part.entry_editEntry_self, (Entry.write_fields _ _).1]
    rfl
  · rfl

/-- A result taken leaves a FREE entry without a context (R136, R137). -/
theorem Part.takeResult_keepsClear (p : Part) (r : UpResult) : p.keepsClear (p.takeResult r) := by
  have live : (p.entry r.owner).live = true → (p.entry r.owner).state ≠ .free := by
    intro hl hf
    simp [Entry.live, hf] at hl
  have answered : ∀ (q : Part) a, q.keepsClear (q.answer r.owner r.frame a) := fun q a =>
    Part.keepsClear_of_cores (q.answer_cores _ _ _)
  have sampled : ∀ v n a, p.keepsClear ((p.applySample r.owner v n).answer r.owner r.frame a) := fun v n a =>
    (p.applySample_keepsClear _ v n).trans (answered _ a)
  have stays : ∀ v n a, (p.entry r.owner).live = true →
      (((p.applySample r.owner v n).answer r.owner r.frame a).entry r.owner).state ≠ .free := by
    intro v n a hl
    rw [Part.answer_state, Part.applySample_state]
    exact live hl
  unfold Part.takeResult
  dsimp only
  split
  · split
    · next hl => exact (answered p _).trans (Part.setAck_keepsClear (by rw [Part.answer_state]; exact live hl) _)
    · exact answered p _
  · split
    · next n x _ =>
      refine Part.keepsClear.trans ?_ (Part.validSlot_keepsClear _ _ _ _ _)
      split
      · next hl =>
        refine (sampled true n (.valid x.acks)).trans ?_
        exact (((Part.takeAlarm_ownerClear _ r _).trans (Part.takeUplink_ownerClear _ r _)) (stays true _ _ hl)).2
      · exact sampled true _ _
    · refine Part.keepsClear.trans ?_ (Part.missedSlot_keepsClear _ _ _)
      split
      · next hl => exact (sampled false 0 _).trans (Part.setAck_keepsClear (stays false 0 _ hl) _)
      · exact sampled false 0 _

theorem Part.takeOldest_keepsClear (p : Part) : p.keepsClear p.takeOldest := by
  unfold Part.takeOldest
  split
  · exact fun _ h => h
  · exact fun k hk => Part.takeResult_keepsClear _ _ k hk

/-! ### The rings, the late figure and the turn in progress -/

/-- A turn with a fetch abandoned (R121). -/
def Turn.fetchGone (t : Turn) : Turn := { t with abandoned := t.abandoned || decide (t.kind = .fetch) }

/-- The rings of the engine, the late fragments counted, and the turn in progress as it is once a fetch is abandoned. -/
def Part.outgoing (p : Part) : DownRing × DownRing × Nat × Option Turn :=
  (p.adm.urgent, p.adm.general, p.tx.lateFragments, p.arb.turn.map Turn.fetchGone)

theorem Part.outgoing_of {p q : Part} (hu : q.adm.urgent = p.adm.urgent) (hg : q.adm.general = p.adm.general)
    (hl : q.tx.lateFragments = p.tx.lateFragments) (ht : q.arb.turn = p.arb.turn) : q.outgoing = p.outgoing := by
  simp only [Part.outgoing, hu, hg, hl, ht]

theorem Part.outgoing_of_eq {p q : Part} (hu : q.adm = p.adm) (hl : q.tx = p.tx) (ht : q.arb = p.arb) :
    q.outgoing = p.outgoing := Part.outgoing_of (by rw [hu]) (by rw [hu]) (by rw [hl]) (by rw [ht])

theorem Arbiter.fetchDropped_turn (a : Arbiter) : a.fetchDropped.turn.map Turn.fetchGone = a.turn.map Turn.fetchGone := by
  cases h : a.turn with
  | none => simp [Arbiter.fetchDropped, h]
  | some t => simp [Arbiter.fetchDropped, h, Turn.fetchGone]

theorem Part.outgoing_of_drop {p q : Part} (hu : q.adm = p.adm) (hl : q.tx.lateFragments = p.tx.lateFragments)
    (ht : q.arb = p.arb ∨ q.arb = p.arb.fetchDropped) : q.outgoing = p.outgoing := by
  obtain h | h := ht
  · exact Part.outgoing_of (by rw [hu]) (by rw [hu]) hl (by rw [h])
  · simp only [Part.outgoing, hu, hl, h, Arbiter.fetchDropped_turn]

theorem Part.dropFragments_outgoing (p : Part) (i : PoolId) : (p.dropFragments i).outgoing = p.outgoing := by
  rw [Part.dropFragments_eq, Part.dropOf_eq]
  refine Part.outgoing_of_drop rfl rfl ?_
  dsimp only
  split
  · exact .inr rfl
  · exact .inl rfl

theorem Part.retireOne_outgoing (st : Status) (p : Part) (i : PoolId) : (Part.retireOne st p i).outgoing = p.outgoing := by
  by_cases h : ∀ r, p.record i = some r → r.state = .retiring
  · rw [Part.retireOne_none st h]
  · simp only [not_forall] at h
    obtain ⟨r, hr, hs⟩ := h
    rw [Part.retireOne_eq st hr hs, Part.dropFragments_outgoing]
    rfl

theorem Part.retireAll_outgoing (p : Part) (st : Status) (ids : List PoolId) :
    (p.retireAll st ids).outgoing = p.outgoing := by
  have promotes : ∀ (q : Part) k, (q.promoteAll k).outgoing = q.outgoing := fun q k =>
    Part.outgoing_of_eq (by simp) (by simp) (by simp)
  unfold Part.retireAll
  dsimp only
  rw [foldl_keeps Part.outgoing Part.promoteAll promotes]
  exact foldl_keeps Part.outgoing _ (fun q i => Part.retireOne_outgoing st q i) ids p

theorem Part.submit_outgoing (p : Part) (b : Bool) (r : EventRecord) : (p.submit b r).outgoing = p.outgoing :=
  Part.outgoing_of_eq (by simp) (by simp) (by simp)

theorem Part.setRecord_outgoing (p : Part) (i : PoolId) (r : Option MsgRecord) : (p.setRecord i r).outgoing = p.outgoing :=
  rfl

theorem Part.answer_outgoing (p : Part) (k : ShortId) (f : Word) (ans : PoolAnswer) :
    (p.answer k f ans).outgoing = p.outgoing := by
  have completes : ∀ (q : Part) i r, (q.completeRecord i r f).outgoing = q.outgoing := by
    intro q i r
    unfold Part.completeRecord
    dsimp only
    split
    · rw [Part.submit_outgoing, Part.retireAll_outgoing]
    · rw [Part.retireAll_outgoing]
  have retries : ∀ (q : Part) i r, (q.tryRetry i r f).outgoing = q.outgoing := by
    intro q i r
    unfold Part.tryRetry
    dsimp only
    split
    · rw [Part.submit_outgoing, Part.retireAll_outgoing, Part.setRecord_outgoing]
    · rfl
  have one : ∀ l (q : Part) c, (Part.answerClass ans l k f q c).outgoing = q.outgoing := by
    intro l q c
    unfold Part.answerClass
    split
    · rfl
    · dsimp only
      split
      · exact completes _ _ _
      · rfl
      · exact retries _ _ _
      · rfl
  unfold Part.answer
  exact foldl_keeps Part.outgoing _ (one _) classes p

theorem Part.drain_outgoing (p : Part) (k : ShortId) (why : DrainReason) (now : Word) :
    (p.drain k why now).outgoing = p.outgoing := by
  have freed : ∀ q : Part, (q.tryFree k).outgoing = q.outgoing := fun q =>
    Part.outgoing_of_eq (by simp) (by simp) (by simp)
  have aborted : (p.abortUplink k now).outgoing = p.outgoing := Part.outgoing_of_eq (by simp) (by simp) (by simp)
  rw [Part.drain_eq, freed]
  exact (Part.retireAll_outgoing _ _ _).trans aborted

theorem Part.takeResult_outgoing (p : Part) (r : UpResult) : (p.takeResult r).outgoing = p.outgoing := by
  have acks : ∀ (q : Part) b c, (if c = true then q.setAck r.owner b else q).outgoing = q.outgoing := by
    intro q b c
    split <;> rfl
  have sample : ∀ v n a, ((p.applySample r.owner v n).answer r.owner r.frame a).outgoing = p.outgoing := fun v n a =>
    (Part.answer_outgoing _ _ _ _).trans (Part.outgoing_of_eq (by simp) (by simp) (by simp))
  have uplink : ∀ (q : Part) b x c,
      (if c = true then (q.takeAlarm r b).takeUplink r x else q).outgoing = q.outgoing := by
    intro q b x c
    split
    · exact Part.outgoing_of_eq (by simp) (by simp) (by simp)
    · rfl
  have misses : ∀ (q : Part) k now, (q.missedSlot k now).outgoing = q.outgoing := by
    intro q k now
    unfold Part.missedSlot Part.countMiss
    dsimp only
    (repeat' split) <;> simp [Part.submit_outgoing, Part.drain_outgoing, Part.editEntry] <;> rfl
  have valid : ∀ (q : Part) k w now l, (q.validSlot k w now l).outgoing = q.outgoing := by
    intro q k w now l
    unfold Part.validSlot
    dsimp only
    (repeat' split) <;> simp [Part.submit_outgoing, Part.drain_outgoing, Part.editEntry] <;> rfl
  unfold Part.takeResult
  dsimp only
  split
  · rw [acks, Part.answer_outgoing]
  · split
    · rw [valid, uplink, sample]
    · rw [misses, acks, sample]

theorem Part.takeOldest_outgoing (p : Part) : p.takeOldest.outgoing = p.outgoing := by
  unfold Part.takeOldest
  split
  · rfl
  · exact Part.takeResult_outgoing { p with due := _ } _

end Sys2Proof.Machine
end

