-- ==== Sys2Proof/Proofs/HaltDrains.lean ====
section
/-! SUPPORT. The drain of every entry at a HALT, with nothing left to send (R45, R106, R132, R154): what it leaves, the
entries, their records, and their uplink messages. -/

namespace Sys2Proof.Machine

/-! ### What the drains leave -/

/-- Nothing is left to send (R132). -/
def Transmit.idle (t : Transmit) : Prop := t.queue = [] ∧ t.staging = []

/-- `q` differs from `p` at most in the roster, the records and what is handed of them, the write-back list and the
Uplink Assembler. -/
structure Part.sameBeside (p q : Part) : Prop where
  anchor : q.anchor = p.anchor
  bus : q.bus = p.bus
  arb : q.arb = p.arb
  timer : q.timer = p.timer
  port : q.port = p.port
  image : q.image = p.image
  planner : q.planner = p.planner
  urgent : q.adm.urgent = p.adm.urgent
  general : q.adm.general = p.adm.general
  inHand : q.adm.inHand = p.adm.inHand
  answers : q.pool.answers = p.pool.answers
  tx : q.tx = p.tx

theorem Part.sameBeside.refl (p : Part) : p.sameBeside p :=
  ⟨rfl, rfl, rfl, rfl, rfl, rfl, rfl, rfl, rfl, rfl, rfl, rfl⟩

theorem Part.sameBeside.trans {p q r : Part} (h : p.sameBeside q) (h' : q.sameBeside r) : p.sameBeside r where
  anchor := h'.anchor.trans h.anchor
  bus := h'.bus.trans h.bus
  arb := h'.arb.trans h.arb
  timer := h'.timer.trans h.timer
  port := h'.port.trans h.port
  image := h'.image.trans h.image
  planner := h'.planner.trans h.planner
  urgent := h'.urgent.trans h.urgent
  general := h'.general.trans h.general
  inHand := h'.inHand.trans h.inHand
  answers := h'.answers.trans h.answers
  tx := h'.tx.trans h.tx

theorem Transmit.idle_eq {t : Transmit} (h : t.idle) : { t with queue := [], staging := [] } = t := by
  obtain ⟨queue, staging, late, n⟩ := t
  obtain ⟨rfl, rfl⟩ := h
  rfl

/-- With nothing left to send there is no fragment to drop. -/
theorem Part.dropFragments_idle {p : Part} (h : p.tx.idle) (i : PoolId) : p.dropFragments i = p := by
  have idle := Transmit.idle_eq h
  obtain ⟨hq, hs⟩ := h
  rw [Part.dropFragments_eq, Part.dropOf_eq]
  simp only [hq, hs, List.map_nil, List.filter_nil, FragEntry.fetchOf, List.any_nil, Bool.false_eq_true, if_false, idle]

/-- A fold of steps that each leave what is beside, while nothing is left to send. -/
theorem foldl_sameBeside {β : Type} {f : Part → β → Part} (h : ∀ (q : Part) x, q.tx.idle → q.sameBeside (f q x)) (l : List β)
    {p : Part} (hp : p.tx.idle) : p.sameBeside (l.foldl f p) := by
  induction l generalizing p with
  | nil => exact .refl p
  | cons x l ih =>
    have hx := h p x hp
    exact hx.trans (ih (by rw [hx.tx]; exact hp))

theorem Part.retireOne_sameBeside (st : Status) (p : Part) (i : PoolId) (ht : p.tx.idle) :
    p.sameBeside (Part.retireOne st p i) := by
  by_cases h : ∀ r, p.record i = some r → r.state = .retiring
  · rw [Part.retireOne_none st h]
    exact .refl p
  · simp only [not_forall] at h
    obtain ⟨r, hr, hs⟩ := h
    rw [Part.retireOne_eq st hr hs]
    generalize hx : Part.oweWriteBack _ _ = x
    have same : p.sameBeside x := by
      rw [← hx]
      exact ⟨rfl, rfl, rfl, rfl, rfl, rfl, rfl, rfl, rfl, rfl, rfl, rfl⟩
    rw [Part.dropFragments_idle (by rw [same.tx]; exact ht)]
    exact same

theorem Part.editRecord_sameBeside (p : Part) (i : PoolId) (f : MsgRecord → MsgRecord) : p.sameBeside (p.editRecord i f) :=
  ⟨rfl, rfl, rfl, rfl, rfl, rfl, rfl, rfl, rfl, rfl, rfl, rfl⟩

theorem Part.promoteAll_sameBeside (p : Part) (k : ShortId) : p.sameBeside (p.promoteAll k) := by
  have one : ∀ (q : Part) c, q.sameBeside (q.promote k c) := by
    intro q c
    unfold Part.promote
    split
    · exact .refl q
    · exact q.editRecord_sameBeside _ _
  exact ((one p .stop).trans (one _ .control)).trans (one _ .bulk)

theorem Part.retireAll_sameBeside (p : Part) (st : Status) (ids : List PoolId) (ht : p.tx.idle) :
    p.sameBeside (p.retireAll st ids) := by
  have retired := foldl_sameBeside (Part.retireOne_sameBeside st) ids ht
  exact retired.trans (foldl_sameBeside (fun q k _ => q.promoteAll_sameBeside k) _ (by rw [retired.tx]; exact ht))

theorem Part.drain_sameBeside (p : Part) (k : ShortId) (why : DrainReason) (now : Word) (ht : p.tx.idle) :
    p.sameBeside (p.drain k why now) := by
  have aborted : p.sameBeside (p.abortUplink k now) := by
    refine ⟨?_, ?_, ?_, ?_, ?_, ?_, ?_, ?_, ?_, ?_, ?_, ?_⟩ <;> simp
  have retired : p.sameBeside (p.drainRetired k why now) :=
    aborted.trans (Part.retireAll_sameBeside _ _ _ (by rw [aborted.tx]; exact ht))
  have marked : (p.drainRetired k why now).sameBeside (p.drainMarked k why now) := by
    unfold Part.drainMarked
    generalize p.drainRetired k why now = a
    exact ⟨rfl, rfl, rfl, rfl, rfl, rfl, rfl, rfl, rfl, rfl, rfl, rfl⟩
  have freed : ∀ q : Part, q.sameBeside (q.tryFree k) := by
    intro q
    unfold Part.tryFree
    split
    · exact ⟨rfl, rfl, rfl, rfl, rfl, rfl, rfl, rfl, rfl, rfl, rfl, rfl⟩
    · exact .refl q
  rw [Part.drain_eq]
  exact (retired.trans marked).trans (freed _)

theorem Part.haltEntry_sameBeside (now : Word) (p : Part) (k : ShortId) (ht : p.tx.idle) :
    p.sameBeside (Part.haltEntry now p k) := by
  unfold Part.haltEntry
  split
  · exact .refl p
  · exact p.drain_sameBeside k .halted now ht

theorem Part.haltRoster_sameBeside (p : Part) (now : Word) (ht : p.tx.idle) : p.sameBeside (p.haltRoster now) := by
  have start : p.sameBeside { p with roster := { p.roster with ann := [] } } :=
    ⟨rfl, rfl, rfl, rfl, rfl, rfl, rfl, rfl, rfl, rfl, rfl, rfl⟩
  exact start.trans (foldl_sameBeside (Part.haltEntry_sameBeside now) shortIds ht)

theorem Part.joinQueue_sameBeside (p : Part) (i : PoolId) (ht : p.tx.idle) : p.sameBeside (p.joinQueue i) := by
  unfold Part.joinQueue
  split
  · exact .refl p
  · dsimp only
    split
    · exact p.retireAll_sameBeside _ _ ht
    · exact ⟨rfl, rfl, rfl, rfl, rfl, rfl, rfl, rfl, rfl, rfl, rfl, rfl⟩

theorem Part.takeHandoffs_sameBeside (p : Part) (n : Nat) (ht : p.tx.idle) : p.sameBeside (p.takeHandoffs n) := by
  obtain h | ⟨-, h⟩ | h := p.takeHandoffs_cases n
  · rw [h]
    exact .refl p
  · rw [h]
    exact ⟨rfl, rfl, rfl, rfl, rfl, rfl, rfl, rfl, rfl, rfl, rfl, rfl⟩
  · rw [h]
    have : p.sameBeside { p with pool := { p.pool with handed := [], waited := false } } :=
      ⟨rfl, rfl, rfl, rfl, rfl, rfl, rfl, rfl, rfl, rfl, rfl, rfl⟩
    exact this.trans (foldl_sameBeside Part.joinQueue_sameBeside _ ht)

/-! ### The entries -/

/-- Steps that each work on one entry, over a list of entries: what each does to its own. -/
theorem foldl_entries {γ : Type} {f : Part → ShortId → Part} (view : Part → ShortId → γ) (R : ShortId → γ → γ → Prop)
    (own : ∀ p k, R k (view p k) (view (f p k) k)) (other : ∀ p k j, j ≠ k → view (f p k) j = view p j) (l : List ShortId)
    (hl : l.Nodup) (p : Part) (k : ShortId) :
    (k ∈ l → R k (view p k) (view (l.foldl f p) k)) ∧ (k ∉ l → view (l.foldl f p) k = view p k) := by
  induction l generalizing p with
  | nil => exact ⟨nofun, fun _ => rfl⟩
  | cons x l ih =>
    obtain ⟨hx, hl⟩ := List.nodup_cons.mp hl
    obtain ⟨isIn, notIn⟩ := ih hl (f p x)
    rw [List.foldl_cons]
    by_cases hk : k = x
    · subst hk
      refine ⟨fun _ => ?_, fun h => absurd List.mem_cons_self h⟩
      rw [notIn hx]
      exact own p k
    · rw [other p x k hk] at isIn notIn
      exact ⟨fun h => isIn ((List.mem_cons.mp h).resolve_left hk), fun h => notIn fun hc => h (List.mem_cons_of_mem x hc)⟩

/-- What a drain makes of its entry (R42, R44). -/
structure Entry.drainedTo (why : DrainReason) (e : Entry) : Prop where
  context : e.context = none
  state : e.state = .free ∨ (e.state = .draining ∧ e.drain = some why)

/-- An aborted delivery leaves of the entries all but the context of its own (R150). -/
theorem Part.abortUplink_cores (p : Part) (k : ShortId) (f : Word) :
    (p.abortUplink k f).cores k = { p.cores k with context := none } ∧
      ∀ j, j ≠ k → (p.abortUplink k f).cores j = p.cores j := by
  rw [Part.abortUplink_eq]
  refine ⟨?_, fun j hj => ?_⟩
  · obtain ⟨-, b, hb⟩ := p.uplinkAborted_entry k f
    simp only [Part.cores, hb]
    rfl
  · unfold Part.uplinkAborted
    split
    · rfl
    · exact congrArg Entry.core (Part.entry_setEntry_other p _ hj)

theorem Part.drainMarked_cores (p : Part) (k : ShortId) (why : DrainReason) (now : Word) :
    ((p.drainMarked k why now).cores k).drainedTo why ∧ ((p.drainMarked k why now).cores k).state = .draining ∧
      ∀ j, j ≠ k → (p.drainMarked k why now).cores j = p.cores j := by
  obtain ⟨own, other⟩ := p.abortUplink_cores k now
  have retired : (p.drainRetired k why now).cores = (p.abortUplink k now).cores := Part.retireAll_cores _ _ _
  rw [← retired] at own other
  unfold Part.drainMarked
  generalize p.drainRetired k why now = a at own other
  have context : (a.entry k).context = none := (congrArg Entry.context own : (a.cores k).context = none)
  have self : ∀ (q : Part) e, (q.setEntry k e).cores k = e.core := fun q e =>
    congrArg Entry.core (q.entry_setEntry_self k e)
  refine ⟨?_, ?_, fun j hj => ?_⟩
  · rw [self]
    exact ⟨context, .inr ⟨rfl, rfl⟩⟩
  · rw [self]
    rfl
  · refine Eq.trans ?_ (other j hj)
    exact congrArg Entry.core (Part.entry_setEntry_other _ _ hj)

theorem Part.tryFree_cores (p : Part) (k : ShortId) :
    ((p.tryFree k).cores k = p.cores k ∨
        ((p.tryFree k).cores k).state = .free ∧ ((p.tryFree k).cores k).context = none) ∧
      ∀ j, j ≠ k → (p.tryFree k).cores j = p.cores j := by
  unfold Part.tryFree
  split
  · refine ⟨.inr ?_, fun j hj => congrArg Entry.core (Part.entry_setEntry_other (p.setFinished k none) _ hj)⟩
    have : ((p.setFinished k none).setEntry k { Entry.blank p.setup.defaultWeight with dirty := true }).cores k =
      Entry.core { Entry.blank p.setup.defaultWeight with dirty := true } :=
      congrArg Entry.core (Part.entry_setEntry_self _ k _)
    rw [this]
    exact ⟨rfl, rfl⟩
  · exact ⟨.inl rfl, fun _ _ => rfl⟩

theorem Part.drain_cores (p : Part) (k : ShortId) (why : DrainReason) (now : Word) :
    ((p.drain k why now).cores k).drainedTo why ∧ ∀ j, j ≠ k → (p.drain k why now).cores j = p.cores j := by
  obtain ⟨marked, -, other⟩ := p.drainMarked_cores k why now
  obtain ⟨own, frees⟩ := (p.drainMarked k why now).tryFree_cores k
  rw [Part.drain_eq]
  refine ⟨?_, fun j hj => (frees j hj).trans (other j hj)⟩
  obtain h | ⟨hs, hc⟩ := own
  · rw [h]
    exact marked
  · exact ⟨hc, .inl hs⟩

/-- A FREE entry stays as it is at a HALT, and any other drains HALTED (R45). -/
theorem Part.haltEntry_cores (now : Word) (p : Part) (k : ShortId) :
    ((p.cores k).state = .free ∧ Part.haltEntry now p k = p ∨
        (p.cores k).state ≠ .free ∧ ((Part.haltEntry now p k).cores k).drainedTo .halted) ∧
      ∀ j, j ≠ k → (Part.haltEntry now p k).cores j = p.cores j := by
  unfold Part.haltEntry
  split
  · next h => exact ⟨.inl ⟨h, rfl⟩, fun _ _ => rfl⟩
  · next h => exact ⟨.inr ⟨h, (p.drain_cores k .halted now).1⟩, (p.drain_cores k .halted now).2⟩

/-- After the Roster Table's HALT work an entry that was FREE stands, and any other has drained HALTED (R45). -/
theorem Part.haltRoster_cores (p : Part) (now : Word) (k : ShortId) :
    ((p.cores k).state = .free → (p.haltRoster now).cores k = p.cores k) ∧
      ((p.cores k).state ≠ .free → ((p.haltRoster now).cores k).drainedTo .halted) := by
  have each := (foldl_entries (f := Part.haltEntry now) Part.cores
    (fun _ e e' => (e.state = .free → e' = e) ∧ (e.state ≠ .free → e'.drainedTo .halted))
    (fun p k => by
      obtain ⟨⟨hf, he⟩ | ⟨hf, hd⟩, -⟩ := Part.haltEntry_cores now p k
      · exact ⟨fun _ => by rw [he], fun hn => absurd hf hn⟩
      · exact ⟨fun hc => absurd hc hf, fun _ => hd⟩)
    (fun p k j hj => (Part.haltEntry_cores now p k).2 j hj) shortIds (List.nodup_finRange 48)
    { p with roster := { p.roster with ann := [] } } k).1 (List.mem_finRange k)
  exact each

/-! ### The records -/

/-- A record stands in its class queue, but for its state and what is sent of it as `r`. -/
def Part.waitsIn (p : Part) (i : PoolId) (r : MsgRecord) : Prop :=
  i ∈ (p.entry r.sid).queues.get r.cls ∧
    ∃ x n, x ≠ RecordState.retiring ∧ p.record i = some { r with state := x, sentTo := n }

/-- A record has retired HALTED, but for what is sent of it as `r`. -/
def Part.retiredAs (p : Part) (i : PoolId) (r : MsgRecord) : Prop :=
  ∃ n, p.record i = some { r with state := .retiring, outcome := some .halted, sentTo := n }

/-- Of a record and its class queue, `q` keeps what `p` has. -/
def Part.keepsRecord (p q : Part) (i : PoolId) (r : MsgRecord) : Prop :=
  (p.retiredAs i r → q.retiredAs i r) ∧ (p.waitsIn i r → q.waitsIn i r ∨ q.retiredAs i r)

theorem Part.keepsRecord.trans {p q s : Part} {i : PoolId} {r : MsgRecord} (h : p.keepsRecord q i r)
    (h' : q.keepsRecord s i r) : p.keepsRecord s i r :=
  ⟨fun hp => h'.1 (h.1 hp), fun hp => (h.2 hp).elim h'.2 fun hq => .inr (h'.1 hq)⟩

theorem Part.keepsRecord_of {p q : Part} {i : PoolId} {r : MsgRecord} (hr : q.record i = p.record i)
    (hq : i ∈ (p.entry r.sid).queues.get r.cls → i ∈ (q.entry r.sid).queues.get r.cls) : p.keepsRecord q i r := by
  simp only [Part.keepsRecord, Part.retiredAs, Part.waitsIn, hr]
  exact ⟨id, fun ⟨h, hx⟩ => .inl ⟨hq h, hx⟩⟩

theorem Part.keepsRecord.refl (p : Part) (i : PoolId) (r : MsgRecord) : p.keepsRecord p i r :=
  Part.keepsRecord_of rfl id

theorem foldl_keepsRecord {β : Type} {f : Part → β → Part} {i : PoolId} {r : MsgRecord}
    (h : ∀ (q : Part) x, q.keepsRecord (f q x) i r) (l : List β) (p : Part) : p.keepsRecord (l.foldl f p) i r := by
  induction l generalizing p with
  | nil => exact .refl p i r
  | cons x l ih => exact (h p x).trans (ih (f p x))

@[simp] theorem Entry.write_queues (old new : Entry) : (old.write new).queues = new.queues := by
  unfold Entry.write
  split <;> rfl

theorem Part.retireOne_record {p : Part} {i : PoolId} {r : MsgRecord} (st : Status) (hr : p.record i = some r)
    (hs : r.state ≠ .retiring) :
    (Part.retireOne st p i).record i = some { r with state := .retiring, outcome := some st } ∧
      (∀ j, j ≠ i → (Part.retireOne st p i).record j = p.record j) ∧
      ∀ k c j, j ≠ i → j ∈ (p.entry k).queues.get c → j ∈ ((Part.retireOne st p i).entry k).queues.get c := by
  have dropped : ∀ (q : Part) j k, (q.dropFragments i).record j = q.record j ∧ (q.dropFragments i).entry k = q.entry k :=
    fun q j k => ⟨by simp [Part.record], by simp [Part.entry]⟩
  rw [Part.retireOne_eq st hr hs]
  refine ⟨?_, fun j hj => ?_, fun k c j hj hm => ?_⟩
  · rw [(dropped _ _ r.sid).1]
    exact Part.record_setRecord_self p i _
  · rw [(dropped _ _ r.sid).1]
    exact Part.record_setRecord_other p _ hj
  · rw [(dropped _ i _).2]
    have owed : ∀ (q : Part) w, (q.oweWriteBack w).entry k = q.entry k := fun _ _ => rfl
    rw [owed]
    by_cases hk : k = r.sid
    · subst hk
      rw [Part.entry_editEntry_self, Entry.write_queues]
      have hm : j ∈ ((p.setRecord i (some { r with state := .retiring, outcome := some st })).entry r.sid).queues.get c := hm
      by_cases hc : c = r.cls
      · subst hc
        rw [PerClass.get_put_self]
        exact (List.mem_erase_of_ne hj).mpr hm
      · rw [PerClass.get_put_other _ _ hc]
        exact hm
    · rw [Part.entry_editEntry_other _ _ hk]
      exact hm

/-- A HALTED retirement of any record keeps a waiting one, or retires it too (R99). -/
theorem Part.retireOne_keepsRecord (p : Part) (j i : PoolId) (r : MsgRecord) :
    p.keepsRecord (Part.retireOne .halted p j) i r := by
  by_cases h : ∀ r, p.record j = some r → r.state = .retiring
  · rw [Part.retireOne_none .halted h]
    exact .refl p i r
  · simp only [not_forall] at h
    obtain ⟨x, hx, hs⟩ := h
    obtain ⟨own, other, queues⟩ := Part.retireOne_record .halted hx hs
    by_cases hj : i = j
    · subst hj
      refine ⟨fun ⟨n, hn⟩ => ?_, fun ⟨_, st, n, hst, hn⟩ => .inr ⟨n, ?_⟩⟩
      · rw [hx] at hn
        rw [Option.some.inj hn] at hs
        exact absurd rfl hs
      · rw [hx] at hn
        rw [own, Option.some.inj hn]
    · exact Part.keepsRecord_of (other i hj) (queues _ _ i hj)

/-- A record that waits and is retired HALTED has retired HALTED. -/
theorem Part.retireOne_retires {p : Part} {i : PoolId} {r : MsgRecord} (h : p.waitsIn i r) :
    (Part.retireOne .halted p i).retiredAs i r := by
  obtain ⟨-, st, n, hst, hn⟩ := h
  exact ⟨n, (Part.retireOne_record .halted hn hst).1⟩

theorem Part.promoteAll_keepsRecord (p : Part) (k : ShortId) (i : PoolId) (r : MsgRecord) :
    p.keepsRecord (p.promoteAll k) i r := by
  have one : ∀ (q : Part) c, q.keepsRecord (q.promote k c) i r := by
    intro q c
    unfold Part.promote
    split
    · exact .refl q i r
    · next j _ =>
      by_cases hj : i = j
      · subst hj
        have entry : ∀ f k, (q.editRecord i f).entry k = q.entry k := fun _ _ => rfl
        refine ⟨fun ⟨n, hn⟩ => ⟨n, ?_⟩, fun ⟨hm, st, n, hst, hn⟩ => .inl ⟨hm, ?_⟩⟩
        · rw [Part.record_editRecord_self, hn]
          rfl
        · rw [Part.record_editRecord_self, hn]
          by_cases hq : st = .queued
          · exact ⟨.current, n, nofun, by simp [hq]⟩
          · exact ⟨st, n, hst, by simp [hq]⟩
      · exact Part.keepsRecord_of (Part.record_editRecord_other _ _ hj) id
  exact ((one p .stop).trans (one _ .control)).trans (one _ .bulk)

theorem Part.retireAll_keepsRecord (p : Part) (ids : List PoolId) (i : PoolId) (r : MsgRecord) :
    p.keepsRecord (p.retireAll .halted ids) i r :=
  (foldl_keepsRecord (fun q j => q.retireOne_keepsRecord j i r) ids p).trans
    (foldl_keepsRecord (fun q k => q.promoteAll_keepsRecord k i r) _ _)

/-- A record that waits and is on the list retires HALTED. -/
theorem Part.retireAll_retires {p : Part} {ids : List PoolId} {i : PoolId} {r : MsgRecord} (h : p.waitsIn i r)
    (hi : i ∈ ids) : (p.retireAll .halted ids).retiredAs i r := by
  have retired : (ids.foldl (Part.retireOne .halted) p).retiredAs i r := by
    obtain ⟨l, l', rfl⟩ := List.append_of_mem hi
    rw [List.foldl_append, List.foldl_cons]
    refine (foldl_keepsRecord (fun q j => q.retireOne_keepsRecord j i r) l' _).1 ?_
    obtain waits | gone := (foldl_keepsRecord (fun q j => q.retireOne_keepsRecord j i r) l p).2 h
    · exact Part.retireOne_retires waits
    · exact (Part.retireOne_keepsRecord _ i i r).1 gone
  exact (foldl_keepsRecord (fun q k => q.promoteAll_keepsRecord k i r) _ _).1 retired

theorem Entry.mem_queueIds {e : Entry} {i : PoolId} {c : MsgClass} (h : i ∈ e.queues.get c) : i ∈ e.queueIds := by
  cases c <;> simp_all [Entry.queueIds, PerClass.get]

/-- An aborted delivery leaves the records and the class queues (R150). -/
theorem Part.abortUplink_keepsRecord (p : Part) (k : ShortId) (f : Word) (i : PoolId) (r : MsgRecord) :
    p.keepsRecord (p.abortUplink k f) i r ∧ (p.waitsIn i r → (p.abortUplink k f).waitsIn i r) := by
  have record : (p.abortUplink k f).record i = p.record i := by simp [Part.record]
  have queues : ∀ j, ((p.abortUplink k f).entry j).queues = (p.entry j).queues := by
    intro j
    rw [Part.abortUplink_eq]
    by_cases hj : j = k
    · subst hj
      obtain ⟨-, b, hb⟩ := p.uplinkAborted_entry j f
      rw [hb]
    · unfold Part.uplinkAborted
      split
      · rfl
      · exact congrArg Entry.queues (Part.entry_setEntry_other p _ hj)
  refine ⟨Part.keepsRecord_of record (by rw [queues]; exact id), ?_⟩
  simp only [Part.waitsIn, record, queues]
  exact id

theorem Part.record_of_pool {p q : Part} (h : q.pool = p.pool) (i : PoolId) : q.record i = p.record i := by
  simp only [Part.record, h]

theorem Part.cores_state (p : Part) (k : ShortId) : (p.cores k).state = (p.entry k).state := rfl

theorem Part.drainMarked_pool (p : Part) (k : ShortId) (why : DrainReason) (now : Word) :
    (p.drainMarked k why now).pool = (p.drainRetired k why now).pool := by
  unfold Part.drainMarked
  generalize p.drainRetired k why now = a
  rfl

theorem Part.drainMarked_entry (p : Part) {j k : ShortId} (why : DrainReason) (now : Word) (hj : j ≠ k) :
    (p.drainMarked k why now).entry j = (p.drainRetired k why now).entry j := by
  unfold Part.drainMarked
  generalize p.drainRetired k why now = a
  exact Part.entry_setEntry_other _ _ hj

/-- The drain of another car keeps a waiting record or retires it, and that of its own retires it (R42, R99). -/
theorem Part.drain_keepsRecord (p : Part) (k : ShortId) (now : Word) (i : PoolId) (r : MsgRecord) :
    (p.retiredAs i r → (p.drain k .halted now).retiredAs i r) ∧
      (p.waitsIn i r → (k ≠ r.sid → (p.drain k .halted now).waitsIn i r ∨ (p.drain k .halted now).retiredAs i r) ∧
        (k = r.sid → (p.drain k .halted now).retiredAs i r)) := by
  obtain ⟨aborted, waits⟩ := p.abortUplink_keepsRecord k now i r
  have retired : p.keepsRecord (p.drainRetired k .halted now) i r := aborted.trans (Part.retireAll_keepsRecord _ _ i r)
  have own : p.waitsIn i r → k = r.sid → (p.drainRetired k .halted now).retiredAs i r := by
    rintro hp rfl
    exact Part.retireAll_retires (waits hp) (Entry.mem_queueIds (waits hp).1)
  have record : (p.drain k .halted now).record i = (p.drainRetired k .halted now).record i := by
    rw [Part.drain_eq]
    exact Part.record_of_pool (by simp only [Part.tryFree_frame, Part.drainMarked_pool]) i
  have entry : ∀ j, j ≠ k → (p.drain k .halted now).entry j = (p.drainRetired k .halted now).entry j := by
    intro j hj
    have freed : ∀ q : Part, (q.tryFree k).entry j = q.entry j := by
      intro q
      unfold Part.tryFree
      split
      · exact Part.entry_setEntry_other (q.setFinished k none) _ hj
      · rfl
    rw [Part.drain_eq, freed, Part.drainMarked_entry _ _ _ hj]
  have goes : (p.drainRetired k .halted now).retiredAs i r → (p.drain k .halted now).retiredAs i r := by
    simp only [Part.retiredAs, record]
    exact id
  refine ⟨fun h => goes (retired.1 h), fun h => ⟨fun hk => ?_, fun hk => goes (own h hk)⟩⟩
  refine (retired.2 h).imp ?_ goes
  simp only [Part.waitsIn, record, entry r.sid (Ne.symm hk)]
  exact id

/-- After the drains of a HALT a record that waited has retired HALTED (R45, R99). -/
theorem Part.haltRoster_retires {p : Part} (now : Word) {i : PoolId} {r : MsgRecord} (h : p.waitsIn i r)
    (hs : (p.entry r.sid).state ≠ .free) : (p.haltRoster now).retiredAs i r := by
  have fold : ∀ (l : List ShortId) (q : Part),
      (q.retiredAs i r ∨ (q.waitsIn i r ∧ (q.entry r.sid).state ≠ .free ∧ r.sid ∈ l)) →
        (l.foldl (Part.haltEntry now) q).retiredAs i r := by
    intro l
    induction l with
    | nil => rintro q (h | ⟨-, -, h⟩) <;> [exact h; exact absurd h nofun]
    | cons k l ih =>
      intro q hq
      rw [List.foldl_cons]
      refine ih _ ?_
      obtain ⟨gone, waits⟩ := q.drain_keepsRecord k now i r
      rw [show Part.haltEntry now q k = if (q.entry k).state = .free then q else q.drain k .halted now from rfl]
      obtain hq | ⟨hw, hf, hm⟩ := hq
      · left
        split
        · exact hq
        · exact gone hq
      · obtain ⟨other, own⟩ := waits hw
        by_cases hk : k = r.sid
        · subst hk
          left
          rw [if_neg hf]
          exact own rfl
        · have hm := (List.mem_cons.mp hm).resolve_left (Ne.symm hk)
          split
          · exact .inr ⟨hw, hf, hm⟩
          · have state : ((q.drain k .halted now).entry r.sid).state = (q.entry r.sid).state := by
              rw [← Part.cores_state, ← Part.cores_state, (q.drain_cores k .halted now).2 r.sid (Ne.symm hk)]
            obtain h | h := other hk
            · exact .inr ⟨h, by rw [state]; exact hf, hm⟩
            · exact .inl h
  exact fold shortIds _ (.inr ⟨h, hs, List.mem_finRange _⟩)

/-! ### The messages in progress -/

/-- The ring index of an entry's message in progress, as a HALT finds it (R150, R154). -/
def Entry.openIndex (e : Entry) : Option Word :=
  if e.state = .free then none else e.context.map UplinkContext.index

theorem Part.cores_openIndex (p : Part) (k : ShortId) : (p.cores k).openIndex = (p.entry k).openIndex := rfl

/-- A ring index joins an entry-write list, when a claim holds it and no staging place holds bytes bound for it (R147). -/
def Uplink.joins (u : Uplink) (l : List Word) (i : Word) : List Word :=
  if u.claims.any (fun c => c.index = i) && !u.staging.any (fun g => g.index = i) && !l.contains i then l ++ [i] else l

/-- The claim of a ring index is ABORTED. -/
def Uplink.abortedAt (u : Uplink) (i : Word) : Prop :=
  ∃ c ∈ u.claims, c.index = i ∧ c.state = .aborted ∧ c.status = some .aborted

/-- What a HALT's drains keep of the Uplink Assembler: the staging places and the indices of the claims; and no
ABORTED claim is anything else after. -/
structure Uplink.halts (u v : Uplink) : Prop where
  staging : v.staging = u.staging
  indices : v.claims.map Claim.index = u.claims.map Claim.index
  aborted : ∀ i, u.abortedAt i → v.abortedAt i

theorem Uplink.halts.trans {u v w : Uplink} (h : u.halts v) (h' : v.halts w) : u.halts w :=
  ⟨h'.staging.trans h.staging, h'.indices.trans h.indices, fun i hi => h'.aborted i (h.aborted i hi)⟩

theorem Uplink.halts.any {u v : Uplink} (h : u.halts v) (i : Word) :
    v.claims.any (fun c => c.index = i) = u.claims.any fun c => c.index = i := by
  have onIndex : ∀ l : List Claim, l.any (fun c => c.index = i) = (l.map Claim.index).any fun n => n = i := fun l => by
    rw [List.any_map]
    rfl
  rw [onIndex, onIndex, h.indices]

theorem Uplink.halts.joins {u v : Uplink} (h : u.halts v) : v.joins = u.joins := by
  funext l i
  simp only [Uplink.joins, h.any i, h.staging]

/-- The message of one entry aborted at a HALT (R150). -/
theorem Uplink.abortOwed_halts (u : Uplink) (x : UplinkContext) (size : Nat) (f : Word) :
    let v := (u.editClaim x.index (Claim.abort x size f)).oweEntry x.index
    u.halts v ∧ v.entryWrites = u.joins u.entryWrites x.index ∧
      ((∃ c ∈ u.claims, c.index = x.index) → v.abortedAt x.index) := by
  intro v
  have hv : v = _ := u.abortOwed x size f
  have edited : ∀ c ∈ u.claims, (if c.index = x.index then c.abort x size f else c) ∈ v.claims := fun c hc => by
    rw [hv]
    exact List.mem_map_of_mem hc
  refine ⟨⟨by rw [hv], ?_, fun i ⟨c, hc, hi, hs, hst⟩ => ?_⟩, by rw [hv]; rfl, fun ⟨c, hc, hi⟩ => ?_⟩
  · rw [hv, List.map_map]
    refine List.map_congr_left fun c _ => ?_
    dsimp only [Function.comp_apply]
    split <;> rfl
  · refine ⟨_, edited c hc, ?_⟩
    split
    · exact ⟨hi, rfl, rfl⟩
    · exact ⟨hi, hs, hst⟩
  · refine ⟨_, edited c hc, ?_⟩
    rw [if_pos hi]
    exact ⟨hi, rfl, rfl⟩

theorem Uplink.halts.refl (u : Uplink) : u.halts u := ⟨rfl, rfl, fun _ h => h⟩

/-- A drain changes of the Uplink Assembler the aborted message and the finished mark (R42, R44). -/
theorem Part.drain_uplink (p : Part) (k : ShortId) (why : DrainReason) (now : Word) :
    (p.drain k why now).uplink.claims = (p.abortUplink k now).uplink.claims ∧
      (p.drain k why now).uplink.staging = (p.abortUplink k now).uplink.staging ∧
      (p.drain k why now).uplink.entryWrites = (p.abortUplink k now).uplink.entryWrites := by
  have retired : (p.drainRetired k why now).uplink = (p.abortUplink k now).uplink := by
    unfold Part.drainRetired
    simp
  have marked : (p.drainMarked k why now).uplink = (p.drainRetired k why now).uplink := by
    unfold Part.drainMarked
    generalize p.drainRetired k why now = a
    rfl
  have freed : ∀ q : Part, (q.tryFree k).uplink.claims = q.uplink.claims ∧
      (q.tryFree k).uplink.staging = q.uplink.staging ∧ (q.tryFree k).uplink.entryWrites = q.uplink.entryWrites := by
    intro q
    unfold Part.tryFree
    split <;> exact ⟨rfl, rfl, rfl⟩
  rw [Part.drain_eq, ← retired, ← marked]
  exact freed _

/-- An aborted delivery, of the Uplink Assembler (R150). -/
theorem Part.abortUplink_uplink {p : Part} {k : ShortId} (f : Word) :
    ((p.entry k).context = none → (p.abortUplink k f).uplink = p.uplink) ∧
      ∀ x, (p.entry k).context = some x →
        (p.abortUplink k f).uplink = (p.uplink.editClaim x.index (Claim.abort x p.setup.bufferSize f)).oweEntry x.index := by
  unfold Part.abortUplink
  refine ⟨fun h => ?_, fun x h => ?_⟩
  · rw [h]
  · rw [h]
    rfl

/-- The HALT work on one entry, of the Uplink Assembler (R150, R154). -/
theorem Part.haltEntry_uplink (now : Word) (p : Part) (k : ShortId) :
    let v := (Part.haltEntry now p k).uplink
    p.uplink.halts v ∧
      v.entryWrites = (p.entry k).openIndex.toList.foldl p.uplink.joins p.uplink.entryWrites ∧
      ∀ i, (p.entry k).openIndex = some i → (∃ c ∈ p.uplink.claims, c.index = i) → v.abortedAt i := by
  unfold Part.haltEntry Entry.openIndex
  dsimp only
  split
  · exact ⟨.refl _, rfl, nofun⟩
  · obtain ⟨claims, staging, writes⟩ := p.drain_uplink k .halted now
    have same : ∀ u : Uplink, (p.abortUplink k now).uplink = u →
        u.halts (p.drain k .halted now).uplink ∧ (p.drain k .halted now).uplink.entryWrites = u.entryWrites ∧
          ∀ i, u.abortedAt i → (p.drain k .halted now).uplink.abortedAt i := by
      rintro u rfl
      have aborted : ∀ i, (p.abortUplink k now).uplink.abortedAt i → (p.drain k .halted now).uplink.abortedAt i := by
        simp only [Uplink.abortedAt, claims]
        exact fun _ h => h
      exact ⟨⟨staging, by rw [claims], aborted⟩, writes, aborted⟩
    cases hx : (p.entry k).context with
    | none =>
      obtain ⟨halts, writes, -⟩ := same p.uplink ((Part.abortUplink_uplink now).1 hx)
      exact ⟨halts, writes, nofun⟩
    | some x =>
      obtain ⟨first, owes, aborts⟩ := p.uplink.abortOwed_halts x p.setup.bufferSize now
      obtain ⟨halts, writes, stays⟩ := same _ ((Part.abortUplink_uplink now).2 x hx)
      refine ⟨first.trans halts, writes.trans owes, fun i hi hc => ?_⟩
      obtain rfl := Option.some.inj hi
      exact stays _ (aborts hc)

/-- The drains of a HALT abort every message in progress, their entry writes joining the list in ascending short id
(R150, R154, log 46). -/
theorem Part.haltRoster_uplink (p : Part) (now : Word) :
    let v := (p.haltRoster now).uplink
    v.entryWrites = (shortIds.filterMap fun k => (p.entry k).openIndex).foldl p.uplink.joins p.uplink.entryWrites ∧
      ∀ k i, (p.entry k).openIndex = some i → (∃ c ∈ p.uplink.claims, c.index = i) → v.abortedAt i := by
  have fold : ∀ (l : List ShortId) (q : Part), l.Nodup →
      q.uplink.halts (l.foldl (Part.haltEntry now) q).uplink ∧
        (l.foldl (Part.haltEntry now) q).uplink.entryWrites =
          (l.filterMap fun k => (q.entry k).openIndex).foldl q.uplink.joins q.uplink.entryWrites ∧
        ∀ k ∈ l, ∀ i, (q.entry k).openIndex = some i → (∃ c ∈ q.uplink.claims, c.index = i) →
          (l.foldl (Part.haltEntry now) q).uplink.abortedAt i := by
    intro l
    induction l with
    | nil => exact fun q _ => ⟨.refl _, rfl, nofun⟩
    | cons k l ih =>
      intro q hl
      obtain ⟨hk, hl⟩ := List.nodup_cons.mp hl
      obtain ⟨first, writes, aborts⟩ := Part.haltEntry_uplink now q k
      obtain ⟨halts, rest, after⟩ := ih (Part.haltEntry now q k) hl
      have stillOpen : ∀ j ∈ l, ((Part.haltEntry now q k).entry j).openIndex = (q.entry j).openIndex := by
        intro j hj
        have hjk : j ≠ k := fun e => hk (e ▸ hj)
        rw [← Part.cores_openIndex, ← Part.cores_openIndex, (Part.haltEntry_cores now q k).2 j hjk]
      rw [List.foldl_cons]
      refine ⟨first.trans halts, ?_, fun j hj i hi hc => ?_⟩
      · rw [rest, writes, first.joins, List.filterMap_congr stillOpen]
        cases ho : (q.entry k).openIndex with
        | none => simp only [List.filterMap_cons, ho]; rfl
        | some i => simp only [List.filterMap_cons, ho]; rfl
      · obtain rfl | hj := List.mem_cons.mp hj
        · exact halts.aborted i (aborts i hi hc)
        · refine after j hj i (by rw [stillOpen j hj]; exact hi) ?_
          have mem : ∀ u : Uplink, (∃ c ∈ u.claims, c.index = i) ↔ u.claims.any (fun c => c.index = i) = true := by
            intro u
            simp
          rw [mem, first.any i, ← mem]
          exact hc
  have start : ∀ q : Part, (∀ k, q.entry k = p.entry k) → q.uplink = p.uplink →
      (shortIds.foldl (Part.haltEntry now) q).uplink.entryWrites =
          (shortIds.filterMap fun k => (p.entry k).openIndex).foldl p.uplink.joins p.uplink.entryWrites ∧
        ∀ k i, (p.entry k).openIndex = some i → (∃ c ∈ p.uplink.claims, c.index = i) →
          (shortIds.foldl (Part.haltEntry now) q).uplink.abortedAt i := by
    intro q he hu
    obtain ⟨-, writes, aborts⟩ := fold shortIds q (List.nodup_finRange 48)
    simp only [he, hu] at writes aborts
    refine ⟨writes, fun k i => ?_⟩
    exact aborts k (List.mem_finRange k) i
  have halted := start { p with roster := { p.roster with ann := [] } } (fun _ => rfl) rfl
  unfold Part.haltRoster
  dsimp only at halted ⊢
  exact halted

/-! ### The announcements -/

/-- The announcement queue is empty after a HALT (R45). -/
theorem Part.haltRoster_ann (p : Part) (now : Word) : (p.haltRoster now).roster.ann = [] := by
  have drained : ∀ (q : Part) k, q.roster.ann = [] → (q.drain k .halted now).roster.ann = [] := by
    intro q k hq
    have aborted : (q.abortUplink k now).roster.ann = q.roster.ann := by
      rw [Part.abortUplink_eq, Part.uplinkAborted_ann]
    have retired : (q.drainRetired k .halted now).roster.ann = (q.abortUplink k now).roster.ann :=
      (Part.faces_iff.mp (Part.retireAll_faces _ _ _)).2
    have marked : (q.drainMarked k .halted now).roster.ann = dropGrants (q.drainRetired k .halted now).roster.ann k := by
      unfold Part.drainMarked
      generalize q.drainRetired k .halted now = a
      rfl
    have freed : ∀ q : Part, (q.tryFree k).roster.ann = q.roster.ann := by
      intro q
      unfold Part.tryFree
      split <;> rfl
    rw [Part.drain_eq, freed, marked, retired, aborted, hq]
    rfl
  unfold Part.haltRoster
  exact foldl_induct (I := fun q : Part => q.roster.ann = []) (fun q k hq => by
    unfold Part.haltEntry
    split
    · exact hq
    · exact drained q k hq) shortIds rfl

end Sys2Proof.Machine
end

