-- ==== Sys2Proof/Proofs/HaltFollows.lean ====
section
/-! SUPPORT. What follows a command in HALTING: the reports, the requests posted and the turn granted (R106, R159, R174). -/

namespace Sys2Proof.Machine

/-! ### What follows in HALTING -/

/-- With nothing left to send and an image record in hand, what follows are the reports and the requests (R159, R174). -/
theorem Part.follow_halting {p : Part} (hw : p.image.writing ≠ none) (ht : p.tx.idle) : p.follow = p.teardown.post := by
  have fetch : p.tx.startFetch = p.tx := by
    unfold Transmit.startFetch Transmit.position
    rw [ht.1]
    rfl
  have pass : p.haltingPass = p := if_neg fun h => hw h.2.1
  unfold Part.follow
  rw [fetch]
  show (Part.teardown p.haltingPass).post = _
  rw [pass]

/-- With no item in hand the engine asks for no read of one (R102). -/
theorem Part.admissionNext_noRead {p : Part} (h : p.adm.inHand = none) :
    p.admissionNext ≠ some .descRead ∧ p.admissionNext ≠ some .gatherRead := by
  simp only [Part.admissionNext, h]
  split
  · next l _ => cases l.passed <;> simp
  · (repeat' split) <;> simp

/-- The requests posted in HALTING (R159): the rest of the part stands, no request is withdrawn, and no fetch and no
read of an item is among them. -/
structure Part.posts (p q : Part) : Prop where
  rest : q = { p with arb := q.arb }
  turn : q.arb.turn = p.arb.turn
  transmit : q.arb.transmit = none
  admission : q.arb.admission ≠ some .descRead ∧ q.arb.admission ≠ some .gatherRead
  kept : ∀ r, (p.arb.pend r).isSome → (q.arb.pend r).isSome

theorem Part.posts.refl {p : Part} (ht : p.arb.transmit = none)
    (ha : p.arb.admission ≠ some .descRead ∧ p.arb.admission ≠ some .gatherRead) : p.posts p :=
  ⟨rfl, rfl, ht, ha, fun _ h => h⟩

theorem Part.posts.trans {p q s : Part} (h : p.posts q) (h' : q.posts s) : p.posts s where
  rest := by rw [h'.rest, h.rest]
  turn := h'.turn.trans h.turn
  transmit := h'.transmit
  admission := h'.admission
  kept := fun r hr => h'.kept r (h.kept r hr)

/-- One requester posts, with no item in hand and nothing to fetch. -/
theorem Part.postOne_posts {p : Part} (hi : p.adm.inHand = none) (hf : p.tx.queue = []) (ht : p.arb.transmit = none)
    (ha : p.arb.admission ≠ some .descRead ∧ p.arb.admission ≠ some .gatherRead) (r : Requester) :
    p.posts (p.postOne r) := by
  have same := Part.posts.refl ht ha
  unfold Part.postOne
  split
  · exact same
  · split
    · exact same
    · next k hk =>
      have noRead : k ≠ .descRead := by
        rintro rfl
        cases r with
        | admission => exact (Part.admissionNext_noRead hi).1 hk
        | uplink =>
          simp only [Part.wants, Uplink.next] at hk
          (repeat' split at hk) <;> exact absurd hk (by simp)
        | transmit => simp [Part.wants] at hk
        | anchor =>
          simp only [Part.wants, AnchorUnit.next] at hk
          (repeat' split at hk) <;> exact absurd hk (by simp)
        | image => simp [Part.wants] at hk
        | event =>
          simp only [Part.wants] at hk
          split at hk <;> exact absurd hk (by simp)
      dsimp only
      rw [if_neg noRead]
      refine ⟨rfl, by simp, ?_, ?_, fun x hx => ?_⟩
      · cases r with
        | transmit => simp [Part.wants, Transmit.fetching, hf] at hk
        | _ => exact ht
      · cases r with
        | admission =>
          have next := Part.admissionNext_noRead hi
          rw [show p.admissionNext = some k from hk] at next
          exact next
        | _ => exact ha
      · by_cases hxr : x = r
        · subst hxr
          simp
        · rw [Arbiter.pend_setPend_other _ _ hxr]
          exact hx

/-- All requesters post in HALTING; with a status owed and no turn in progress the Anchor Unit has a request then. -/
theorem Part.post_posts {p : Part} (hi : p.adm.inHand = none) (hf : p.tx.queue = []) (ht : p.arb.transmit = none)
    (ha : p.arb.admission ≠ some .descRead ∧ p.arb.admission ≠ some .gatherRead) :
    p.posts p.post ∧ (p.anchor.statusOwed = true → p.arb.turn = none → (p.post.arb.pend .anchor).isSome = true) := by
  have step : ∀ (q : Part) r, p.posts q → p.posts (q.postOne r) := by
    intro q r h
    refine h.trans (Part.postOne_posts ?_ ?_ h.transmit h.admission r)
    · rw [h.rest]
      exact hi
    · rw [h.rest]
      exact hf
  have before : p.posts ((p.postOne .uplink).postOne .transmit) := step _ _ (step _ _ (.refl ht ha))
  set q := (p.postOne .uplink).postOne .transmit with hq
  have asked : p.posts (q.postOne .anchor) := step _ _ before
  have after : (q.postOne .anchor).posts p.post := by
    have on : ∀ (u : Part) r, (q.postOne .anchor).posts u → (q.postOne .anchor).posts (u.postOne r) := by
      intro u r h
      refine h.trans (Part.postOne_posts ?_ ?_ h.transmit h.admission r)
      · rw [h.rest, asked.rest]
        exact hi
      · rw [h.rest, asked.rest]
        exact hf
    exact on _ _ (on _ _ (on _ .admission (.refl asked.transmit asked.admission)))
  refine ⟨asked.trans after, fun ho hn => after.kept .anchor ?_⟩
  unfold Part.postOne
  split
  · next hb =>
    simp only [Arbiter.busy, before.turn, hn, Option.any_none, Bool.or_false] at hb
    exact hb
  · have wants : q.wants .anchor = some .anchorStatus := by
      have : q.anchor.statusOwed = true := by
        rw [before.rest]
        exact ho
      simp [Part.wants, AnchorUnit.next, this]
    rw [wants]
    simp

/-- A ring apart from the write of its done word. -/
def DownRing.indices (x : DownRing) : DownRing := { x with doneOwed := false }

/-- What a part in HALTING becomes by what follows a command (R159, R174): the Admission report comes when the engine
has no work left. -/
structure Part.halts (w t : Part) : Prop where
  node : t.anchor.node = w.anchor.node
  haltReq : t.anchor.haltReq = w.anchor.haltReq
  setup : t.anchor.setup = w.anchor.setup
  status : t.anchor.status = w.anchor.status
  bus : t.bus = w.bus
  timer : t.timer = w.timer
  port : t.port = w.port
  roster : t.roster = w.roster
  image : t.image = w.image
  planner : t.planner = w.planner
  pool : t.pool = w.pool
  tx : t.tx = w.tx
  claims : t.uplink.claims = w.uplink.claims
  entryWrites : t.uplink.entryWrites = w.uplink.entryWrites
  inHand : t.adm.inHand = none
  rings : ∀ r, (t.ring r).indices = (w.ring r).indices
  turn : ∀ tn, w.arb.turn = some tn → t.arb.turn = some tn
  transmit : t.arb.transmit = none
  admission : t.arb.admission ≠ some .descRead ∧ t.arb.admission ≠ some .gatherRead
  report : (∀ i, t.record i = none) → t.adm.writeBacks = [] →
    (∀ r, (t.ring r).doneOwed = false ∧ (t.ring r).done = (t.ring r).admitted) → t.arb.admission = none →
    (∀ tn, t.arb.turn = some tn → tn.kind.requester ≠ .admission ∨ tn.abandoned = true) →
    t.anchor.marks.admission = true

/-- The part in HALTING before what follows (R45, R106, R132, R174). -/
structure Part.halting (w : Part) : Prop where
  node : w.anchor.node = .halting
  status : w.anchor.status = { code := .halting, reason := .none }
  statusOwed : w.anchor.statusOwed = true
  image : w.anchor.marks.image = false
  writing : w.image.writing ≠ none
  idle : w.tx.idle
  inHand : w.adm.inHand = none
  transmit : w.arb.transmit = none
  admission : w.arb.admission ≠ some .descRead ∧ w.arb.admission ≠ some .gatherRead

/-- The reports due are marked, and with the image still to come they are not all (R174). -/
theorem Part.halting.teardown_eq {w : Part} (h : w.halting) :
    w.teardown = { w with anchor := { w.anchor with marks := w.reports } } := by
  have notAll : w.reports.all = false := by
    simp [TeardownMarks.all, Part.reports, h.image]
  unfold Part.teardown
  rw [if_pos ⟨h.node, by rw [h.status]; exact nofun⟩]
  dsimp only
  rw [notAll]
  rfl

/-- The engine reports when it has no work left (R106, R174). -/
theorem Part.reports_admission {w : Part} (hr : ∀ i, w.record i = none) (hb : w.adm.writeBacks = [])
    (hd : ∀ r, (w.ring r).doneOwed = false ∧ (w.ring r).done = (w.ring r).admitted)
    (hw : w.arb.working .admission = false) : w.reports.admission = true := by
  obtain ⟨uo, ud⟩ := hd .urgent
  obtain ⟨go, gd⟩ := hd .general
  have free : w.freeRecords = 96 := by
    unfold Part.freeRecords
    rw [List.countP_eq_length.mpr fun i _ => by rw [hr i]; rfl]
    exact List.length_finRange
  have down : w.admissionDown = true := by
    simp only [Part.ring] at uo ud go gd
    simp [Part.admissionDown, hb, free, uo, ud, go, gd]
  simp [Part.reports, down, hw]

theorem Part.carryOut_fields (p : Part) (k : TurnKind) :
    (p.carryOut k).anchor.node = p.anchor.node ∧ (p.carryOut k).anchor.haltReq = p.anchor.haltReq ∧
      (p.carryOut k).anchor.setup = p.anchor.setup ∧ (p.carryOut k).anchor.status = p.anchor.status ∧
      (p.carryOut k).anchor.marks = p.anchor.marks ∧ (p.carryOut k).uplink.claims = p.uplink.claims ∧
      (p.carryOut k).uplink.entryWrites = p.uplink.entryWrites ∧ (p.carryOut k).adm.inHand = p.adm.inHand ∧
      (p.carryOut k).adm.writeBacks = p.adm.writeBacks ∧
      (∀ r, ((p.carryOut k).ring r).indices = (p.ring r).indices) ∧
      (k.requester ≠ .admission → ∀ r, (p.carryOut k).ring r = p.ring r) := by
  cases k with
  | doneWord x =>
    refine ⟨?_, ?_, ?_, ?_, ?_, ?_, ?_, ?_, ?_, fun r => ?_, fun h => absurd rfl h⟩
    case refine_10 =>
      by_cases hr : r = x
      · subst hr
        simp [Part.carryOut, DownRing.indices]
      · rw [Part.carryOut, Part.ring_setRing_other p _ hr]
    all_goals cases x <;> rfl
  | _ => exact ⟨rfl, rfl, rfl, rfl, rfl, rfl, rfl, rfl, rfl, fun r => by cases r <;> rfl, fun _ r => by cases r <;> rfl⟩

/-- A bus granted in HALTING, with a status owed, goes to no read of the engine and not to the engine at all (R159). -/
theorem Part.halting.follow_halts {w : Part} (h : w.halting) (idleHost : Prop) [Decidable idleHost] :
    w.halts (if idleHost ∧ w.follow.arb.turn = none then w.follow.grant else w.follow) := by
  have torn := h.teardown_eq
  obtain ⟨node, status, owed, -, writing, idle, inHand, transmit, admission⟩ := h
  rw [Part.follow_halting writing idle]
  set u := w.teardown with hu
  have uArb : u.arb = w.arb := by rw [torn]
  obtain ⟨posts, anchorAsks⟩ := Part.post_posts (p := u) (by rw [torn]; exact inHand) (by rw [torn]; exact idle.1)
    (by rw [uArb]; exact transmit) (by rw [uArb]; exact admission)
  set v := u.post with hv
  have rest : v = { w with anchor := { w.anchor with marks := w.reports }, arb := v.arb } := by
    rw [posts.rest, torn]
  have turn : v.arb.turn = w.arb.turn := by rw [posts.turn, uArb]
  have report : ∀ t : Part, t.anchor.marks = v.anchor.marks → t.pool = v.pool → t.adm.writeBacks = v.adm.writeBacks →
      (∀ tn, v.arb.turn = some tn → t.arb.turn = some tn) →
      ((∀ tn, t.arb.turn = some tn → tn.kind.requester ≠ .admission ∨ tn.abandoned = true) →
        (∀ r, t.ring r = v.ring r) ∧ t.arb.admission = v.arb.admission) →
      (∀ i, t.record i = none) → t.adm.writeBacks = [] →
      (∀ r, (t.ring r).doneOwed = false ∧ (t.ring r).done = (t.ring r).admitted) → t.arb.admission = none →
      (∀ tn, t.arb.turn = some tn → tn.kind.requester ≠ .admission ∨ tn.abandoned = true) →
      t.anchor.marks.admission = true := by
    intro t tm tp tb tt tk hr hb hd ha hn
    obtain ⟨rings, adm⟩ := tk hn
    rw [tm, show v.anchor.marks = w.reports by rw [rest]]
    refine Part.reports_admission (fun i => ?_) ?_ (fun r => ?_) ?_
    · rw [← hr i]
      exact (Part.record_of_pool (tp.trans (by rw [rest])) i).symm
    · rw [← hb, tb, rest]
    · have : w.ring r = t.ring r := by
        rw [rings r, rest]
        cases r <;> rfl
      rw [this]
      exact hd r
    · have pend : (w.arb.pend .admission).isSome = false := by
        by_contra hc
        have := posts.kept .admission (by rw [uArb]; exact Bool.of_not_eq_false hc)
        rw [show v.arb.pend .admission = none from adm.symm.trans ha] at this
        exact absurd this nofun
      have turns : (w.arb.turn.any fun t => t.kind.requester = .admission && !t.abandoned) = false := by
        cases hx : w.arb.turn with
        | none => rfl
        | some tn =>
          obtain h | h := hn tn (tt tn (turn.trans hx)) <;> simp [h]
      simp only [Arbiter.working, pend, turns, Bool.or_false]
  have stays : w.halts v := by
    refine ⟨?_, ?_, ?_, ?_, ?_, ?_, ?_, ?_, ?_, ?_, ?_, ?_, ?_, ?_, ?_, fun r => ?_, fun tn ht => turn.trans ht,
      posts.transmit, posts.admission, report v rfl rfl rfl (fun _ h => h) fun _ => ⟨fun _ => rfl, rfl⟩⟩
    case refine_15 => rw [rest]; exact inHand
    case refine_16 => rw [rest]; cases r <;> rfl
    all_goals rw [rest]
  split
  · next hg =>
    obtain ⟨-, free⟩ := hg
    obtain ⟨-, hgr⟩ | ⟨q, k, hc, hk, hgr⟩ := v.grant_cases
    · rw [hgr]
      exact stays
    · have notAdm : q ≠ .admission := by
        rintro rfl
        have asks := anchorAsks (by rw [torn]; exact owed) (by rw [uArb, ← turn]; exact free)
        have asks : v.arb.anchor.isSome = true := asks
        unfold Arbiter.choose at hc
        rw [if_pos asks] at hc
        (repeat' split at hc) <;> exact absurd (Option.some.inj hc) nofun
      obtain ⟨cn, ch, cs, ct, cm, cc, ce, ci, cb, cr, ck⟩ := v.carryOut_fields k
      have pend : ∀ r, r ≠ q → (v.arb.setPend q none).pend r = v.arb.pend r := fun r hr =>
        Arbiter.pend_setPend_other _ _ hr
      have adm : (v.arb.setPend q none).admission = v.arb.admission := pend .admission (Ne.symm notAdm)
      have tran : (v.arb.setPend q none).transmit = none := by
        by_cases hq : q = .transmit
        · subst hq
          rfl
        · exact (pend .transmit (Ne.symm hq)).trans posts.transmit
      rw [hgr]
      refine ⟨cn.trans stays.node, ch.trans stays.haltReq, cs.trans stays.setup, ct.trans stays.status, ?_, ?_, ?_, ?_, ?_,
        ?_, ?_, ?_, cc.trans stays.claims, ce.trans stays.entryWrites, ci.trans stays.inHand,
        fun r => (cr r).trans (stays.rings r), fun tn ht => ?_, tran, ?_, report _ cm ?_ cb (fun tn ht => ?_) fun hn => ?_⟩
      case refine_9 =>
        rw [turn, ht] at free
        exact absurd free nofun
      case refine_10 =>
        show (v.arb.setPend q none).admission ≠ _ ∧ _
        rw [adm]
        exact posts.admission
      case refine_12 =>
        rw [ht] at free
        exact absurd free nofun
      case refine_13 =>
        refine ⟨ck ?_, adm⟩
        obtain h | h := hn _ rfl
        · exact h
        · exact absurd h nofun
      case refine_11 => simp
      all_goals
        rw [rest]
        simp
  · exact stays

end Sys2Proof.Machine
end

