-- ==== Sys2Proof/Proofs/HaltTaken.lean ====
section
/-! PROOF. HALT_TAKEN, from the settlement of slot 39 to the part the halt leaves (R24, R45, R154): obligation O20. -/

namespace Sys2Proof.Machine

/-! ### What is handed over joins the drained entries -/

/-- A record that has retired stays as it is, whatever retires. -/
theorem Part.retireAll_retiredAs {p : Part} (st : Status) (ids : List PoolId) {i : PoolId} {r : MsgRecord}
    (h : p.retiredAs i r) : (p.retireAll st ids).retiredAs i r := by
  have one : ∀ (q : Part) j, q.retiredAs i r → (Part.retireOne st q j).retiredAs i r := by
    rintro q j ⟨n, hn⟩
    by_cases hq : ∀ x, q.record j = some x → x.state = .retiring
    · rw [Part.retireOne_none st hq]
      exact ⟨n, hn⟩
    · simp only [not_forall] at hq
      obtain ⟨x, hx, hs⟩ := hq
      have hj : i ≠ j := by
        rintro rfl
        rw [hn] at hx
        rw [← Option.some.inj hx] at hs
        exact hs rfl
      exact ⟨n, ((Part.retireOne_record st hx hs).2.1 i hj).trans hn⟩
  exact foldl_induct (I := fun q : Part => q.retiredAs i r) (fun q k hq => (q.promoteAll_keepsRecord k i r).1 hq) _
    (foldl_induct (I := fun q : Part => q.retiredAs i r) one ids h)

theorem Part.joinQueue_retiredAs {p : Part} {i j : PoolId} {r : MsgRecord} (hj : i ≠ j) (h : p.retiredAs i r) :
    (p.joinQueue j).retiredAs i r := by
  unfold Part.joinQueue
  split
  · exact h
  · dsimp only
    split
    · exact Part.retireAll_retiredAs _ _ h
    · obtain ⟨n, hn⟩ := h
      exact ⟨n, (Part.record_editRecord_other _ _ hj).trans hn⟩

theorem Part.takeHandoffs_retiredAs {p : Part} {i : PoolId} {r : MsgRecord} (n : Nat) (hi : i ∉ p.pool.handed)
    (h : p.retiredAs i r) : (p.takeHandoffs n).retiredAs i r := by
  have fold : ∀ (l : List PoolId) (q : Part), i ∉ l → q.retiredAs i r → (l.foldl Part.joinQueue q).retiredAs i r := by
    intro l
    induction l with
    | nil => exact fun _ _ hq => hq
    | cons j l ih =>
      intro q hl hq
      exact ih _ (fun hm => hl (List.mem_cons_of_mem j hm))
        (Part.joinQueue_retiredAs (fun e => hl (e ▸ List.mem_cons_self)) hq)
  obtain hc | ⟨-, hc⟩ | hc := p.takeHandoffs_cases n
  · rw [hc]
    exact h
  · rw [hc]
    exact h
  · rw [hc]
    exact fold _ _ hi h

theorem Part.takeHandoffs_ann (p : Part) (n : Nat) : (p.takeHandoffs n).roster.ann = p.roster.ann :=
  (Part.faces_iff.mp (p.takeHandoffs_faces n)).2

/-! ### Slot 39 and its result -/

/-- What the end of slot 39 leaves as it was. -/
structure Part.endsFrame (p q : Part) : Prop where
  anchor : q.anchor = p.anchor
  bus : q.bus = p.bus
  image : q.image = p.image
  planner : q.planner = p.planner
  frame : q.timer.frame = p.timer.frame
  outgoing : q.outgoing = p.outgoing
  clear : p.keepsClear q

theorem Part.endsFrame.trans {p q r : Part} (h : p.endsFrame q) (h' : q.endsFrame r) : p.endsFrame r where
  anchor := h'.anchor.trans h.anchor
  bus := h'.bus.trans h.bus
  image := h'.image.trans h.image
  planner := h'.planner.trans h.planner
  frame := h'.frame.trans h.frame
  outgoing := h'.outgoing.trans h.outgoing
  clear := h.clear.trans h'.clear

theorem Part.endsFrame.refl (p : Part) : p.endsFrame p := ⟨rfl, rfl, rfl, rfl, rfl, rfl, fun _ h => h⟩

theorem Part.takeOldest_endsFrame (p : Part) : p.endsFrame p.takeOldest :=
  ⟨by simp, by simp, by simp, by simp, by simp, p.takeOldest_outgoing, p.takeOldest_keepsClear⟩

/-- What the end of slot 39 leaves of the messages while its result is not taken: the roster, the uplink, and the records
but for what is sent of them. -/
structure Part.sameMessages (p q : Part) : Prop where
  roster : q.roster = p.roster
  uplink : q.uplink = p.uplink
  handed : q.pool.handed = p.pool.handed
  records : ∀ i r, p.record i = some r → ∃ n, q.record i = some { r with sentTo := n }

theorem Part.sameMessages_of {p q : Part} (hr : q.roster = p.roster) (hu : q.uplink = p.uplink) (hp : q.pool = p.pool) :
    p.sameMessages q := ⟨hr, hu, by rw [hp], fun i r h => ⟨r.sentTo, (Part.record_of_pool hp i).trans h⟩⟩

/-- A DOWN slot settled moves what is sent of a record at most, and leaves the rings, the late figure and the turn in
progress but for a fetch abandoned (R122). -/
theorem Part.settleDown_messages (p : Part) (n : Nat) (sent : Bool) :
    p.sameMessages (p.settleDown n sent) ∧ (p.settleDown n sent).outgoing = p.outgoing := by
  have edited : ∀ (q : Part) i f, (∀ r : MsgRecord, ∃ m, f r = { r with sentTo := m }) → p.sameMessages q →
      p.sameMessages (q.editRecord i f) := by
    rintro q i f hf ⟨roster, uplink, handed, records⟩
    refine ⟨roster, uplink, handed, fun j r hr => ?_⟩
    obtain ⟨m, hm⟩ := records j r hr
    by_cases hj : j = i
    · subst hj
      obtain ⟨m', hm'⟩ := hf { r with sentTo := m }
      exact ⟨m', by rw [Part.record_editRecord_self, hm, Option.map_some, hm']⟩
    · exact ⟨m, by rw [Part.record_editRecord_other _ _ hj, hm]⟩
  unfold Part.settleDown
  cases p.tx.entryAt n with
  | none => exact ⟨Part.sameMessages_of rfl rfl rfl, rfl⟩
  | some e =>
    dsimp only
    generalize hq : ({ p with
        tx := (p.tx.editSlot n fun x => { x with cond := .done }).unstage [n]
        arb := if e.cond = .fetching then p.arb.dropFetch else p.arb } : Part) = q
    have same : p.sameMessages q ∧ q.outgoing = p.outgoing := by
      rw [← hq]
      refine ⟨Part.sameMessages_of rfl rfl rfl, Part.outgoing_of_drop rfl rfl ?_⟩
      dsimp only
      split
      · exact .inr (Arbiter.dropFetch_eq _)
      · exact .inl rfl
    split
    · exact ⟨edited q _ _ (fun r => ⟨_, rfl⟩) same.1, same.2⟩
    · exact same

/-- Slot 39 settled: its result, when it is an UP slot, is left to be taken (R6, R7, R122). -/
theorem Part.settleSlot_endsFrame {p : Part} (hs : p.timer.slot = 39) :
    let q := p.settleSlot.1
    p.endsFrame q ∧ p.sameMessages q ∧
      ((p.planner.plan.use 39).isUp = false → q.due.results = p.due.results) := by
  intro q
  have frame : q.timer.frame = p.timer.frame := p.settleSlot_clock.frame
  have of : p.sameMessages q → q.anchor = p.anchor → q.bus = p.bus → q.image = p.image → q.planner = p.planner →
      q.outgoing = p.outgoing → p.endsFrame q ∧ p.sameMessages q := fun hm ha hb hi hp ho =>
    ⟨⟨ha, hb, hi, hp, frame, ho, Part.keepsClear_of_roster hm.roster⟩, hm⟩
  suffices h : p.sameMessages q ∧ q.anchor = p.anchor ∧ q.bus = p.bus ∧ q.image = p.image ∧ q.planner = p.planner ∧
      q.outgoing = p.outgoing ∧ ((p.planner.plan.use 39).isUp = false → q.due.results = p.due.results) by
    obtain ⟨hm, ha, hb, hi, hp, ho, hr⟩ := h
    obtain ⟨ends, same⟩ := of hm ha hb hi hp ho
    exact ⟨ends, same, hr⟩
  have cleared : p.sameMessages (p.slotCleared p.port.settled) := Part.sameMessages_of rfl rfl rfl
  obtain ⟨-, -, -, -, idle, down, up⟩ := p.settleSlot_cases
  rw [hs] at idle down up
  cases hc : p.planner.plan.use 39 with
  | idle =>
    simp only [q, idle (by omega) hc]
    exact ⟨cleared, rfl, rfl, rfl, rfl, rfl, fun _ => rfl⟩
  | down g =>
    obtain ⟨same, out⟩ := (p.slotCleared p.port.settled).settleDown_messages 39 (decide (p.port.settled = .answered))
    simp only [q, down g (by omega) hc]
    refine ⟨⟨same.roster, same.uplink, same.handed, same.records⟩, ?_, ?_, ?_, ?_, out, fun _ => ?_⟩ <;> simp <;> rfl
  | up k =>
    simp only [q, up k (by omega) hc]
    exact ⟨Part.sameMessages_of rfl rfl rfl, rfl, rfl, rfl, rfl, rfl, nofun⟩

/-! ### The halt -/

/-- The part once slot 39 has ended, its result taken when it is to be taken first (R154, log 27). -/
def Part.frameEnded (p : Part) (first : Bool) : Part :=
  let q := if p.timer.underWay then p.settleSlot.1 else p
  if first then q.takeOldest else q

theorem Part.frameEnded_spec {p : Part} {first : Bool} (hs : p.timer.underWay = true → p.timer.slot = 39) (hd : p.nothingDue) :
    p.endsFrame (p.frameEnded first) ∧
      (first = false ∨ (p.planner.plan.use 39).isUp = false → p.sameMessages (p.frameEnded first)) := by
  obtain ⟨-, -, -, -, -, -, hres⟩ := hd
  have before : let q := if p.timer.underWay then p.settleSlot.1 else p
      p.endsFrame q ∧ p.sameMessages q ∧ ((p.planner.plan.use 39).isUp = false → q.due.results = []) := by
    cases hu : p.timer.underWay with
    | false =>
      refine ⟨.refl p, Part.sameMessages_of rfl rfl rfl, fun _ => ?_⟩
      rw [hu] at hres
      simpa using hres
    | true =>
      have slot := hs hu
      obtain ⟨ends, same, results⟩ := Part.settleSlot_endsFrame slot
      refine ⟨ends, same, fun h => (results h).trans ?_⟩
      simpa [slot] using hres
  obtain ⟨ends, same, results⟩ := before
  unfold Part.frameEnded
  dsimp only
  cases first with
  | false => exact ⟨ends, fun _ => same⟩
  | true =>
    refine ⟨ends.trans (Part.takeOldest_endsFrame _), fun h => ?_⟩
    have none := results (h.resolve_left nofun)
    rw [if_pos rfl, Part.takeOldest, none]
    exact same

/-- The part in HALTING before the Roster Table's work (R106, R132, R174). -/
def Part.haltBegun (q : Part) : Part :=
  let p := q.haltTimer
  let p := { p with
    anchor := { p.anchor with
      haltReq := false
      marks := { admission := false, uplink := false, image := false, event := false } } }
  ((p.setNode .halting).setStatus .halting .none).haltAdmission.haltTransmit

theorem Part.haltBegun_timer (q : Part) : q.haltBegun.timer = q.haltTimer.timer := by
  simp [Part.haltBegun]

/-- The part in HALTING after the Roster Table's work, with the plan and the answer lists empty (R45, R85, R106). -/
def Part.haltDrained (q : Part) : Part :=
  let y := q.haltBegun.haltRoster q.haltTimer.timer.frame
  { y with planner := { y.planner with plan := Plan.blank y.timer.frame }, pool := { y.pool with answers := [] } }

/-- A halt taken: slot 39, the blocks' own work, and an image pass begun or owed (R52, R174). -/
theorem Part.takeHalt_eq (p : Part) (first : Bool) : p.takeHalt first = (p.frameEnded first).haltDrained.passDue := by
  simp only [Part.takeHalt, Part.haltDrained, Part.frameEnded, Part.haltBegun, Part.setStatus_frame, Part.setNode_frame]

/-- The part in HALTING as its blocks leave it, before the Roster Table's work (R106, R132, R174). -/
structure Part.begunFrom (q x : Part) : Prop where
  node : x.anchor.node = .halting
  haltReq : x.anchor.haltReq = false
  setup : x.anchor.setup = q.anchor.setup
  status : x.anchor.status = { code := .halting, reason := .none }
  statusOwed : x.anchor.statusOwed = true
  image : x.anchor.marks.image = false
  bus : x.bus = q.bus
  timer : x.timer = q.haltTimer.timer
  port : x.port = { order := none, answer := none }
  roster : x.roster = q.roster
  writer : x.image = q.image
  planner : x.planner = q.planner
  pool : x.pool = q.pool
  uplink : x.uplink = q.uplink
  urgent : x.adm.urgent = q.adm.urgent.halted
  general : x.adm.general = q.adm.general.halted
  inHand : x.adm.inHand = none
  tx : x.tx = { queue := [], staging := [], late := [], lateFragments := q.tx.lateFragments }
  turn : x.arb.turn = (q.arb.turn.map Turn.dropReads).map Turn.fetchGone
  transmit : x.arb.transmit = none
  admission : x.arb.admission ≠ some .descRead ∧ x.arb.admission ≠ some .gatherRead

/-- A request of the engine withdrawn is no longer pending, and no other request changes (R106, log 23). -/
theorem Part.withdrawAdmission_spec (p : Part) (k : TurnKind) :
    (p.withdrawAdmission k).arb.admission ≠ some k ∧ (p.withdrawAdmission k).arb.turn = p.arb.turn ∧
      (∀ j, p.arb.admission ≠ some j → (p.withdrawAdmission k).arb.admission ≠ some j) := by
  unfold Part.withdrawAdmission
  split
  · exact ⟨nofun, rfl, fun _ _ => nofun⟩
  · next h => exact ⟨h, rfl, fun _ h => h⟩

theorem Part.haltBegun_spec (q : Part) : q.begunFrom q.haltBegun := by
  have admission : ∀ p : Part, p.haltAdmission.haltTransmit.arb.admission ≠ some .descRead ∧
      p.haltAdmission.haltTransmit.arb.admission ≠ some .gatherRead := by
    intro p
    obtain ⟨desc, -, -⟩ := p.withdrawAdmission_spec .descRead
    obtain ⟨gather, -, keeps⟩ := (p.withdrawAdmission .descRead).withdrawAdmission_spec .gatherRead
    exact ⟨keeps _ desc, gather⟩
  have turn : ∀ p : Part, p.haltAdmission.haltTransmit.arb.turn = (p.arb.turn.map Turn.dropReads).map Turn.fetchGone := by
    intro p
    have withdrawn : ((p.withdrawAdmission .descRead).withdrawAdmission .gatherRead).arb.turn = p.arb.turn :=
      (Part.withdrawAdmission_spec _ _).2.1.trans (Part.withdrawAdmission_spec _ _).2.1
    rw [← withdrawn]
    unfold Part.haltTransmit
    rw [Arbiter.dropFetch_eq]
    rfl
  have adm : ∀ p : Part, p.haltAdmission.haltTransmit.adm =
      { p.adm with urgent := p.adm.urgent.halted, general := p.adm.general.halted, inHand := none } := by
    intro p
    unfold Part.haltAdmission
    simp
  have tx : ∀ p : Part, p.haltAdmission.haltTransmit.tx = { p.tx with queue := [], staging := [], late := [] } := by
    intro p
    unfold Part.haltTransmit
    simp
  have anchor : q.haltBegun.anchor = { q.anchor with
      node := .halting, haltReq := false, status := { code := .halting, reason := .none }, statusOwed := true
      marks := { admission := false, uplink := false, image := false, event := false } } := by
    simp [Part.haltBegun, Part.setStatus, Part.setNode, Part.judgeAttn]
  refine ⟨?_, ?_, ?_, ?_, ?_, ?_, ?_, q.haltBegun_timer, ?_, ?_, ?_, ?_, ?_, ?_, ?_, ?_, ?_, ?_, turn _, rfl,
    admission _⟩
  case refine_14 => exact congrArg Admission.urgent (adm _)
  case refine_15 => exact congrArg Admission.general (adm _)
  case refine_16 => exact congrArg Admission.inHand (adm _)
  case refine_17 => exact tx _
  case refine_1 | refine_2 | refine_3 | refine_4 | refine_5 | refine_6 => rw [anchor]
  all_goals simp [Part.haltBegun, Part.haltTimer]

/-! ### The image pass and the hand-offs after it -/

theorem Part.passDue_cores (p : Part) : p.passDue.cores = p.cores := by
  have entry : ∀ (q : Part) k, (q.beginEntryRecord k).cores = q.cores := fun q k =>
    (Part.cores_of_roster (p := q.setEntry k { q.entry k with dirty := false }) rfl).trans (Part.setEntry_cores rfl)
  unfold Part.passDue Part.beginPass Part.imageFrom
  split
  · split
    · exact (entry _ _).trans (Part.cores_of_roster rfl)
    · exact Part.cores_of_roster rfl
  · exact Part.cores_of_roster rfl

/-- A pass due is begun, or owed while a record is in hand (R49, R52). -/
theorem Part.passDue_image (p : Part) : p.passDue.image.writing ≠ none ∧
    ∀ x, p.image.writing = some x → p.passDue.image.writing = some x ∧ p.passDue.image.owed = true := by
  unfold Part.passDue
  cases h : p.image.writing with
  | none =>
    refine ⟨?_, nofun⟩
    unfold Part.beginPass Part.imageFrom
    dsimp only
    split <;> exact nofun
  | some x => exact ⟨by simp [h], fun y hy => ⟨h.trans hy, rfl⟩⟩

/-- The image pass and the hand-offs that follow it leave what the drains leave, but for the image (R49, R95). -/
theorem Part.passDue_handoffs_sameBeside {p : Part} (n : Nat) (ht : p.tx.idle) :
    p.sameBeside { p.passDue.takeHandoffs n with image := p.image } := by
  have pass : p.sameBeside { p.passDue with image := p.image } := by
    refine ⟨?_, ?_, ?_, ?_, ?_, ?_, ?_, ?_, ?_, ?_, ?_, ?_⟩ <;> simp
  obtain ⟨anchor, bus, arb, timer, port, -, planner, urgent, general, inHand, answers, tx⟩ :=
    p.passDue.takeHandoffs_sameBeside n (by rw [pass.tx]; exact ht)
  exact pass.trans ⟨anchor, bus, arb, timer, port, rfl, planner, urgent, general, inHand, answers, tx⟩

/-- Retirements and drains hand nothing over (R95, R99). -/
theorem Part.haltRoster_handed (p : Part) (now : Word) : (p.haltRoster now).pool.handed = p.pool.handed := by
  have one : ∀ (q : Part) i, (Part.retireOne .halted q i).pool.handed = q.pool.handed := by
    intro q i
    by_cases h : ∀ r, q.record i = some r → r.state = .retiring
    · rw [Part.retireOne_none .halted h]
    · simp only [not_forall] at h
      obtain ⟨r, hr, hs⟩ := h
      rw [Part.retireOne_eq .halted hr hs]
      simp [Part.setRecord]
  have promotes : ∀ (q : Part) k, (q.promoteAll k).pool.handed = q.pool.handed := by
    intro q k
    refine foldl_keeps (fun q : Part => q.pool.handed) _ (fun q c => ?_) classes q
    unfold Part.promote
    split <;> rfl
  have drains : ∀ (q : Part) k, (q.drain k .halted now).pool.handed = q.pool.handed := by
    intro q k
    have retired : (q.drainRetired k .halted now).pool.handed = (q.abortUplink k now).pool.handed := by
      unfold Part.drainRetired Part.retireAll
      dsimp only
      rw [foldl_keeps (fun q : Part => q.pool.handed) Part.promoteAll promotes]
      exact foldl_keeps (fun q : Part => q.pool.handed) _ one _ _
    rw [Part.drain_eq, (Part.tryFree_frame _ _).2.2.2.2.2.2.2.2.2.1, Part.drainMarked_pool, retired]
    simp
  have entries : ∀ (q : Part) k, (Part.haltEntry now q k).pool.handed = q.pool.handed := by
    intro q k
    unfold Part.haltEntry
    split
    · rfl
    · exact drains q k
  unfold Part.haltRoster
  rw [foldl_keeps (fun q : Part => q.pool.handed) (Part.haltEntry now) entries]

/-- A turn of the halted part: a fetch and the engine's reads are abandoned (R106, R160). -/
theorem Turn.halted_eq {t u : Turn} (h : u.fetchGone = t.fetchGone) :
    u.dropReads.fetchGone = { t with
      abandoned := t.abandoned || decide (t.kind = .fetch ∨ t.kind = .descRead ∨ t.kind = .gatherRead) } := by
  obtain ⟨k, a, w, b⟩ := t
  obtain ⟨k', a', w', b'⟩ := u
  simp only [Turn.fetchGone, Turn.mk.injEq] at h
  obtain ⟨rfl, rfl, rfl, hb⟩ := h
  by_cases hk : k' = .descRead ∨ k' = .gatherRead
  · simp [Turn.fetchGone, Turn.dropReads, hk]
  · simp [Turn.fetchGone, Turn.dropReads, hk, hb]

/-- The part a HALT leaves, before what follows it, from the part at the end of its frame. -/
structure Part.haltedFrom (q w : Part) : Prop where
  halting : w.halting
  haltReq : w.anchor.haltReq = false
  setup : w.anchor.setup = q.anchor.setup
  bus : w.bus = q.bus
  timer : w.timer = q.haltTimer.timer
  port : w.port = { order := none, answer := none }
  ann : w.roster.ann = []
  freeStays : ∀ k, (q.cores k).state = .free → w.cores k = q.cores k
  drained : ∀ k, (q.cores k).state ≠ .free → (w.cores k).drainedTo .halted
  planner : w.planner = { q.planner with plan := Plan.blank q.timer.frame }
  answers : w.pool.answers = []
  tx : w.tx = { queue := [], staging := [], late := [], lateFragments := q.tx.lateFragments }
  turn : w.arb.turn = (q.arb.turn.map Turn.dropReads).map Turn.fetchGone
  rings : ∀ r, w.ring r = (q.ring r).halted
  writing : ∀ x, q.image.writing = some x → w.image.writing = some x ∧ w.image.owed = true
  retired : ∀ i r, q.waitsIn i r → (q.entry r.sid).state ≠ .free → i ∉ q.pool.handed → w.retiredAs i r
  entryWrites : w.uplink.entryWrites =
    (shortIds.filterMap fun k => (q.entry k).openIndex).foldl q.uplink.joins q.uplink.entryWrites
  aborted : ∀ k i, (q.entry k).openIndex = some i → (∃ c ∈ q.uplink.claims, c.index = i) → w.uplink.abortedAt i

/-- The drains of a HALT, with the plan and the answer lists empty. -/
theorem Part.haltDrained_eq (q : Part) :
    q.haltDrained =
      (let y := q.haltBegun.haltRoster q.timer.frame
       { y with
        planner := { y.planner with plan := Plan.blank y.timer.frame }, pool := { y.pool with answers := [] } }) := by
  unfold Part.haltDrained
  rw [show q.haltTimer.timer.frame = q.timer.frame from rfl]

theorem Part.haltDrained_from (q : Part) (n : Nat) : q.haltedFrom (q.haltDrained.passDue.takeHandoffs n) := by
  have begun := q.haltBegun_spec
  have idle : q.haltBegun.tx.idle := by
    rw [begun.tx]
    exact ⟨rfl, rfl⟩
  have entry : ∀ k, q.haltBegun.entry k = q.entry k := fun k => by simp only [Part.entry, begun.roster]
  have beside := q.haltBegun.haltRoster_sameBeside q.timer.frame idle
  have cores := q.haltBegun.haltRoster_cores q.timer.frame
  rw [Part.cores_of_roster begun.roster] at cores
  obtain ⟨writes, aborts⟩ := q.haltBegun.haltRoster_uplink q.timer.frame
  simp only [entry, begun.uplink] at writes aborts
  have ann := q.haltBegun.haltRoster_ann q.timer.frame
  have handed := q.haltBegun.haltRoster_handed q.timer.frame
  have retires : ∀ i r, q.haltBegun.waitsIn i r → (q.haltBegun.entry r.sid).state ≠ .free →
      (q.haltBegun.haltRoster q.timer.frame).retiredAs i r := fun i r => Part.haltRoster_retires q.timer.frame
  have drainedEq := q.haltDrained_eq
  generalize q.haltBegun.haltRoster q.timer.frame = y at beside cores writes aborts ann handed retires drainedEq
  dsimp only at drainedEq
  rw [drainedEq]
  set z : Part := { y with
    planner := { y.planner with plan := Plan.blank y.timer.frame }, pool := { y.pool with answers := [] } } with hz
  have zIdle : z.tx.idle := by
    show y.tx.idle
    rw [beside.tx]
    exact idle
  have side := Part.passDue_handoffs_sameBeside n zIdle
  set w := z.passDue.takeHandoffs n with hw
  have anchor : w.anchor = q.haltBegun.anchor := side.anchor.trans beside.anchor
  have arb : w.arb = q.haltBegun.arb := side.arb.trans beside.arb
  have tx : w.tx = _ := side.tx.trans (beside.tx.trans begun.tx)
  have urgent : w.adm.urgent = q.adm.urgent.halted := side.urgent.trans (beside.urgent.trans begun.urgent)
  have general : w.adm.general = q.adm.general.halted := side.general.trans (beside.general.trans begun.general)
  have planner : w.planner = { q.planner with plan := Plan.blank q.timer.frame } := by
    rw [side.planner]
    show { y.planner with plan := Plan.blank y.timer.frame } = _
    rw [beside.planner, beside.timer, begun.planner, begun.timer]
    rfl
  have image : w.image = z.passDue.image := by simp [hw]
  have zImage : z.image = q.image := beside.image.trans begun.writer
  obtain ⟨writing, goesOn⟩ := z.passDue_image
  rw [← image] at writing goesOn
  rw [zImage] at goesOn
  have uplink : w.uplink = y.uplink := by simp [hw, hz]
  have wCores : w.cores = y.cores :=
    (Part.takeHandoffs_cores _ n).trans ((Part.passDue_cores z).trans (Part.cores_of_roster rfl))
  have wAnn : w.roster.ann = [] := (Part.takeHandoffs_ann _ n).trans ((Part.faces_iff.mp z.passDue_faces).2.trans ann)
  have passPool : z.passDue.pool = z.pool := by simp
  refine
    { halting := ?_
      haltReq := by rw [anchor, begun.haltReq]
      setup := by rw [anchor, begun.setup]
      bus := side.bus.trans (beside.bus.trans begun.bus)
      timer := side.timer.trans (beside.timer.trans begun.timer)
      port := side.port.trans (beside.port.trans begun.port)
      ann := wAnn
      freeStays := fun k hk => by rw [wCores]; exact (cores k).1 hk
      drained := fun k hk => by rw [wCores]; exact (cores k).2 hk
      planner := planner
      answers := side.answers
      tx := tx
      turn := by rw [arb, begun.turn]
      rings := fun r => by cases r <;> [exact urgent; exact general]
      writing := goesOn
      retired := fun i r hwait hs hh => ?_
      entryWrites := by rw [uplink, writes]
      aborted := fun k i hk hc => by rw [uplink]; exact aborts k i hk hc }
  · exact
      { node := by rw [anchor, begun.node]
        status := by rw [anchor, begun.status]
        statusOwed := by rw [anchor, begun.statusOwed]
        image := by rw [anchor, begun.image]
        writing := writing
        idle := by rw [tx]; exact ⟨rfl, rfl⟩
        inHand := side.inHand.trans (beside.inHand.trans begun.inHand)
        transmit := by rw [arb, begun.transmit]
        admission := by rw [arb]; exact begun.admission }
  · have begunWaits : q.haltBegun.waitsIn i r := by
      simp only [Part.waitsIn, entry, Part.record_of_pool begun.pool]
      exact hwait
    have zRetired : z.retiredAs i r := retires i r begunWaits (by rw [entry]; exact hs)
    refine Part.takeHandoffs_retiredAs n ?_ ?_
    · rw [passPool]
      show i ∉ y.pool.handed
      rw [handed, begun.pool]
      exact hh
    · simp only [Part.retiredAs, Part.record_of_pool passPool]
      exact zRetired

/-! ### O20 -/

/-- The rings, the late figure and the turn in progress at the end of the frame. -/
theorem Part.outgoing_iff {p q : Part} (h : q.outgoing = p.outgoing) :
    (∀ r, q.ring r = p.ring r) ∧ q.tx.lateFragments = p.tx.lateFragments ∧
      q.arb.turn.map Turn.fetchGone = p.arb.turn.map Turn.fetchGone := by
  simp only [Part.outgoing, Prod.mk.injEq] at h
  obtain ⟨urgent, general, late, turn⟩ := h
  exact ⟨fun r => by cases r <;> [exact urgent; exact general], late, turn⟩

/-- The messages at the end of a frame whose last result is not taken are those the halt finds, but for what is sent of
them; a QUEUED or CURRENT one waits in its class queue. -/
theorem State.waitsIn_of {s : State} (hq : s.queuesOk) {q : Part} (same : s.part.sameMessages q) {i : PoolId} {r : MsgRecord}
    (hr : s.part.record i = some r) (hs : r.state = .queued ∨ r.state = .current) :
    q.waitsIn i r ∧ (q.entry r.sid).state ≠ .free ∧ i ∉ q.pool.handed := by
  obtain ⟨-, mem, -, held, -, handed, -⟩ := hq
  have entry : ∀ k, q.entry k = s.part.entry k := fun k => by simp only [Part.entry, same.roster]
  obtain ⟨n, hn⟩ := same.records i r hr
  refine ⟨⟨?_, r.state, n, ?_, hn⟩, ?_, ?_⟩
  · rw [entry]
    exact (mem r.sid r.cls i).mpr ⟨r, hr, rfl, rfl, hs⟩
  · obtain h | h := hs <;> rw [h] <;> exact nofun
  · rw [entry]
    exact held i r hr
  · rw [same.handed]
    intro hi
    obtain ⟨x, hx, hstate⟩ := (handed i).mp hi
    rw [hr] at hx
    rw [← Option.some.inj hx] at hstate
    obtain h | h := hs <;> rw [h] at hstate <;> exact absurd hstate nofun

/-- A halt request taken at a frame boundary (R24). -/
theorem State.haltTaken_exec {s : State} (first : Bool) (hn : s.part.anchor.node = .running)
    (hh : s.part.anchor.haltReq = true) (hu : s.part.timer.underWay = true → s.part.timer.slot = 39)
    (hd : s.part.nothingDue) : exec (.haltTaken first) s = .next (s.act fun p => p.takeHalt first) := by
  have hend : s.part.atFrameEnd = true := by
    cases hw : s.part.timer.underWay with
    | false => simp [Part.atFrameEnd, hw]
    | true => simp [Part.atFrameEnd, hu hw]
  simp only [exec, execHaltTaken, hn, hh, hend, State.act, Part.flushDue_nothingDue hd]
  rfl

/-- Settles O20: the end of slot 39, the blocks' HALT work and the drains, and what follows in HALTING. -/
theorem haltTakenAtBoundary : Obligations.HaltTakenAtBoundary := by
  intro s first hn hh hu hd
  obtain ⟨mem, outside, -, goes⟩ := s.act_runs fun p => p.takeHalt first
  refine ⟨_, State.haltTaken_exec first hn hh hu hd, mem, outside, ?_⟩
  obtain ⟨ends, messages⟩ := Part.frameEnded_spec (first := first) hu hd
  rw [Part.takeHalt_eq] at goes
  set p := s.part with hp
  set e := p.frameEnded first with he
  have halted := e.haltDrained_from s.free
  set w := e.haltDrained.passDue.takeHandoffs s.free with hw
  have follows := halted.halting.follow_halts ((s.act fun p => p.takeHalt first).host = none)
  rw [← goes] at follows
  intro q
  have follows : w.halts q := follows
  obtain ⟨rings, late, turn⟩ := Part.outgoing_iff ends.outgoing
  have cores : q.cores = w.cores := Part.cores_of_roster follows.roster
  have timer : q.timer = e.haltTimer.timer := follows.timer.trans halted.timer
  have port : q.port = _ := follows.port.trans halted.port
  have tx : q.tx = _ := follows.tx.trans halted.tx
  have ring : ∀ r, (q.ring r).indices = (p.ring r).halted.indices := fun r => by
    rw [follows.rings r, halted.rings r, rings r]
  have image : q.image = w.image := follows.image
  refine ⟨follows.node.trans halted.halting.node, follows.haltReq.trans halted.haltReq,
    follows.setup.trans (halted.setup.trans (by rw [ends.anchor])), follows.status.trans halted.halting.status,
    by rw [timer]; rfl, by rw [timer]; rfl, by rw [timer]; rfl, by rw [timer]; rfl, by rw [timer]; rfl,
    by rw [timer]; exact ends.frame, by rw [port], by rw [port], by rw [follows.roster]; exact halted.ann,
    fun k => ?_, fun k hk => ?_, ?_, by rw [follows.pool]; exact halted.answers, by rw [tx], by rw [tx], by rw [tx],
    by rw [tx]; exact late, fun tn ht => ?_, follows.transmit, follows.admission.1, follows.admission.2, follows.report,
    fun r => ?_, follows.inHand, follows.bus.trans (halted.bus.trans ends.bus), ?_, fun x hx => ?_, fun hres => ?_⟩
  · -- the entries
    show (q.cores k).state = .free ∨ (q.cores k).state = .draining ∧ (q.cores k).drain = some .halted
    rw [cores]
    by_cases hf : (e.cores k).state = .free
    · rw [halted.freeStays k hf]
      exact .inl hf
    · exact (halted.drained k hf).state
  · -- their contexts
    show (q.cores k).context = none
    rw [cores]
    by_cases hf : (e.cores k).state = .free
    · rw [halted.freeStays k hf]
      exact ends.clear k hk hf
    · exact (halted.drained k hf).context
  · -- the plan
    rw [follows.planner, halted.planner, ends.planner, ends.frame]
  · -- the turn in progress
    rw [ht] at turn
    obtain ⟨u, hu, hturn⟩ := Option.map_eq_some_iff.mp turn
    refine follows.turn _ ?_
    rw [halted.turn, hu, ← Turn.halted_eq hturn]
    rfl
  · -- the rings
    have field : ∀ {α : Type} (f : DownRing → α), f (q.ring r).indices = f (p.ring r).halted.indices := fun f => by
      rw [ring r]
    exact ⟨field DownRing.item, field DownRing.kept, field DownRing.words, field DownRing.read, field DownRing.admitted,
      field DownRing.tail, field DownRing.done⟩
  · -- the image
    rw [image]
    exact halted.halting.writing
  · rw [image]
    exact halted.writing x (by rw [ends.image]; exact hx)
  · -- the messages, when no result is taken first
    have same := messages hres
    have openIndex : ∀ k, (e.entry k).openIndex = (p.entry k).openIndex := fun k => by
      simp only [Part.entry, same.roster]
    refine ⟨fun i r hq hr hs => ?_, ?_, fun c k x hc hk hx hi => ?_⟩
    · obtain ⟨waits, live, handed⟩ := State.waitsIn_of hq same hr hs
      obtain ⟨m, hm⟩ := halted.retired i r waits live handed
      exact ⟨m, (Part.record_of_pool follows.pool i).trans hm⟩
    · rw [follows.entryWrites, halted.entryWrites, same.uplink]
      simp only [openIndex]
      rfl
    · have named : (e.entry k).openIndex = some c.index := by
        rw [openIndex, Entry.openIndex, if_neg hk, hx, ← hi]
        rfl
      rw [follows.claims]
      exact halted.aborted k c.index named ⟨c, by rw [same.uplink]; exact hc, rfl⟩

end Sys2Proof.Machine
end

