-- ==== Sys2Proof/Proofs/LinkQuality.lean ====
section
/-! PROOF. The samples of a car's link and its rate class (R54, R56, R57, R58, R65): obligation O21. -/

namespace Sys2Proof.Machine

/-! ### The order of the classes (R58) -/

theorem rateCode_rateUp {c : RateClass} (h : c ≠ .D) : rateCode (rateUp c) = rateCode c + 1 := by
  cases c with
  | D => exact absurd rfl h
  | _ => rfl

theorem rateCode_rateDown {c : RateClass} (h : c ≠ .A) : rateCode (rateDown c) + 1 = rateCode c := by
  cases c with
  | A => exact absurd rfl h
  | _ => rfl

/-- The ceiling is the lower of the cap and the capability: a class is within it when it is within both. -/
theorem Entry.rateLe_ceiling (e : Entry) (c : RateClass) :
    rateLe c e.ceiling = true ↔ rateCode c ≤ rateCode e.cap ∧ rateCode c ≤ rateCode e.capability := by
  simp only [Entry.ceiling, rateMin, rateLe, decide_eq_true_eq]
  split <;> omega

/-! ### One step of the class (R57) -/

/-- The condition of a step up: a class above, its threshold reached and neither cap nor capability in the way. -/
def Entry.climbsAt (e : Entry) (n : Nat) : Prop :=
  e.cls ≠ .D ∧ stepUpAt (rateUp e.cls) ≤ n ∧ rateCode e.cls < rateCode e.cap ∧ rateCode e.cls < rateCode e.capability

theorem Entry.climbsAt_iff (e : Entry) (n : Nat) :
    e.climbsAt n ↔ e.cls ≠ .D ∧ stepUpAt (rateUp e.cls) ≤ n ∧ rateLe (rateUp e.cls) e.ceiling = true := by
  refine and_congr_right fun hd => and_congr_right fun _ => ?_
  rw [e.rateLe_ceiling, rateCode_rateUp hd, Nat.succ_le_iff, Nat.succ_le_iff]

theorem Entry.stepClass_of_climbs {e : Entry} {n : Nat} (h : e.climbsAt n) :
    stepClass e.cls e.ceiling n = rateUp e.cls := if_pos ((e.climbsAt_iff n).mp h)

theorem Entry.stepClass_of_not_climbs {e : Entry} {n : Nat} (h : ¬ e.climbsAt n) :
    stepClass e.cls e.ceiling n = if e.cls ≠ .A ∧ n < stepDownAt e.cls then rateDown e.cls else e.cls :=
  if_neg (mt (e.climbsAt_iff n).mpr h)

/-- The class of an entry whose S becomes `n`: one up, one down or as it is. -/
theorem Entry.stepClass_cases (e : Entry) (n : Nat) :
    (e.climbsAt n → rateCode (stepClass e.cls e.ceiling n) = rateCode e.cls + 1) ∧
      (¬ e.climbsAt n → n < stepDownAt e.cls → rateCode (stepClass e.cls e.ceiling n) + 1 = rateCode e.cls) ∧
      (¬ e.climbsAt n → stepDownAt e.cls ≤ n → stepClass e.cls e.ceiling n = e.cls) := by
  refine ⟨fun h => ?_, fun h low => ?_, fun h high => ?_⟩
  · rw [Entry.stepClass_of_climbs h, rateCode_rateUp h.1]
  · have notA : e.cls ≠ .A := fun ha => by
      rw [ha] at low
      exact Nat.not_lt_zero n low
    rw [Entry.stepClass_of_not_climbs h, if_pos ⟨notA, low⟩, rateCode_rateDown notA]
  · rw [Entry.stepClass_of_not_climbs h, if_neg fun hl => Nat.not_lt.mpr high hl.2]

/-! ### One step of S (R56) -/

/-- What remains of a distance to 4Q after one sample. -/
def gapLeft (g : Nat) : Nat := g - g / 4

/-- The quarter of R56 of a distance down to 4Q, rounded toward zero. -/
theorem quarter_above (q g : Nat) : Int.tdiv (4 * (q : Int) - (4 * q + g : Nat)) 4 = -((g / 4 : Nat) : Int) := by
  rw [show 4 * (q : Int) - (4 * q + g : Nat) = -(g : Int) by omega, Int.neg_tdiv]
  rfl

/-- The quarter of R56 of a distance up to 4Q, rounded toward zero. -/
theorem quarter_below {q g : Nat} (hg : g ≤ 4 * q) :
    Int.tdiv (4 * (q : Int) - (4 * q - g : Nat)) 4 = ((g / 4 : Nat) : Int) := by
  rw [show 4 * (q : Int) - (4 * q - g : Nat) = (g : Int) by omega]
  rfl

/-- From above, S keeps what remains of its distance to 4Q. -/
theorem smooth_above {q g : Nat} (h : 4 * q + g ≤ 252) : smooth (4 * q + g) q = 4 * q + gapLeft g := by
  simp only [smooth, clamp, gapLeft, quarter_above]
  omega

/-- From below, S lacks what remains of its distance to 4Q. -/
theorem smooth_below {q g : Nat} (hq : q ≤ 63) (hg : g ≤ 4 * q) : smooth (4 * q - g) q = 4 * q - gapLeft g := by
  simp only [smooth, clamp, gapLeft, quarter_below hg]
  omega

theorem smooth_le (s q : Nat) : smooth s q ≤ 252 := by
  simp only [smooth, clamp]
  omega

/-- With Q and S in range the clamp of R56 changes no result. -/
theorem smooth_cast {s q : Nat} (hs : s ≤ 252) (hq : q ≤ 63) :
    (smooth s q : Int) = s + Int.tdiv (4 * q - s) 4 := by
  rcases Nat.le_total (4 * q) s with above | below
  · obtain ⟨g, rfl⟩ := Nat.exists_eq_add_of_le above
    rw [smooth_above hs, quarter_above, gapLeft]
    omega
  · obtain ⟨g, hg, rfl⟩ : ∃ g, g ≤ 4 * q ∧ s = 4 * q - g := ⟨4 * q - s, by omega, by omega⟩
    rw [smooth_below hq hg, quarter_below hg, gapLeft]
    omega

/-! ### A steady Q -/

theorem gapLeft_iterate_le {m g : Nat} (h : g ≤ m + 3) : gapLeft^[m] g ≤ 3 := by
  induction m generalizing g with
  | zero => exact h
  | succ m ih =>
    rw [Function.iterate_succ_apply]
    exact ih (by unfold gapLeft; omega)

theorem smooth_iterate_above {q g : Nat} (m : Nat) (h : 4 * q + g ≤ 252) :
    (fun x => smooth x q)^[m] (4 * q + g) = 4 * q + gapLeft^[m] g := by
  induction m generalizing g with
  | zero => rfl
  | succ m ih =>
    rw [Function.iterate_succ_apply, Function.iterate_succ_apply, smooth_above h]
    exact ih (by unfold gapLeft; omega)

theorem smooth_iterate_below {q g : Nat} (m : Nat) (hq : q ≤ 63) (hg : g ≤ 4 * q) :
    (fun x => smooth x q)^[m] (4 * q - g) = 4 * q - gapLeft^[m] g := by
  induction m generalizing g with
  | zero => rfl
  | succ m ih =>
    rw [Function.iterate_succ_apply, Function.iterate_succ_apply, smooth_below hq hg]
    exact ih (by unfold gapLeft; omega)

/-- Under a steady Q below it S settles at most 3 above 4Q, after as many samples as their distance at the latest. -/
theorem smooth_settles_above {s q m : Nat} (hs : s ≤ 252) (h : 4 * q ≤ s) (hm : 252 ≤ m) :
    4 * q ≤ (fun x => smooth x q)^[m] s ∧ (fun x => smooth x q)^[m] s ≤ 4 * q + 3 := by
  obtain ⟨g, rfl⟩ := Nat.exists_eq_add_of_le h
  have settled : gapLeft^[m] g ≤ 3 := gapLeft_iterate_le (by omega)
  rw [smooth_iterate_above m hs]
  omega

/-- Under a steady Q above it S settles at most 3 below 4Q. -/
theorem smooth_settles_below {s q m : Nat} (hq : q ≤ 63) (h : s ≤ 4 * q) (hm : 252 ≤ m) :
    (fun x => smooth x q)^[m] s ≤ 4 * q ∧ 4 * q ≤ (fun x => smooth x q)^[m] s + 3 := by
  obtain ⟨g, hg, rfl⟩ : ∃ g, g ≤ 4 * q ∧ s = 4 * q - g := ⟨4 * q - s, by omega, by omega⟩
  have settled : gapLeft^[m] g ≤ 3 := gapLeft_iterate_le (by omega)
  rw [smooth_iterate_below m hq hg]
  omega

/-! ### The entries that take a sample (R54) -/

/-- A sample shows when it changes S or the class. -/
theorem Entry.sample_shown_iff (e : Entry) (q : Nat) :
    e.shown = (e.sample q).shown ↔ (e.sample q).quality = e.quality ∧ (e.sample q).cls = e.cls := by
  constructor
  · intro h
    exact ⟨(congrArg Shown.quality h).symm, (congrArg Shown.cls h).symm⟩
  · rintro ⟨hn, hc⟩
    simp only [Entry.shown, hn, hc]
    rfl

/-- The dirty mark that a sample leaves: set when S or the class changes, else as it was (R56, R65). -/
def Entry.sampleDirty (e : Entry) (q : Nat) : Bool :=
  e.dirty || decide ((e.sample q).quality ≠ e.quality) || decide ((e.sample q).cls ≠ e.cls)

/-- A sample written to its entry changes S, the class and the dirty mark, and nothing else. -/
theorem Entry.write_sample (e : Entry) (q : Nat) :
    e.write (e.sample q) =
      { e with quality := (e.sample q).quality, cls := (e.sample q).cls, dirty := e.sampleDirty q } := by
  unfold Entry.write
  split
  · next same =>
    obtain ⟨hn, hc⟩ := (e.sample_shown_iff q).mp same
    rw [show e.sampleDirty q = e.dirty by simp [Entry.sampleDirty, hn, hc]]
    rfl
  · next differs =>
    rw [Entry.sample_shown_iff, not_and_or] at differs
    rw [show e.sampleDirty q = true by rcases differs with hn | hc <;> simp [Entry.sampleDirty, *]]
    rfl

/-- Who takes a sample (R54): an ACTIVE or FADING entry, and a GRANTED one with a valid response. -/
theorem Part.applySample_eq (p : Part) (k : ShortId) (valid : Bool) (q : Nat) :
    p.applySample k valid q =
      if (p.entry k).state = .active ∨ (p.entry k).state = .fading ∨ ((p.entry k).state = .granted ∧ valid = true)
      then p.setEntry k ((p.entry k).write ((p.entry k).sample q)) else p := by
  simp only [Part.applySample, Part.editEntry, Entry.onAir, Bool.or_eq_true, decide_eq_true_eq, or_assoc]

/-- Settles O21: the sample by the entry that takes it, the class by its step, and a steady Q by the distance that
each sample leaves. -/
theorem qualityFollowsSamples : Obligations.QualityFollowsSamples := by
  refine ⟨fun p k valid q hq hs => ?_, fun s q hs hq =>
    ⟨252, fun m hm => ⟨fun h => smooth_settles_above hs h hm, fun h => smooth_settles_below hq h hm⟩⟩⟩
  intro e takes enter leave
  have entered : ∀ {c : RateClass}, c ≠ .D → enter c = stepUpAt (rateUp c) := by
    intro c hc
    cases c with
    | D => exact absurd rfl hc
    | _ => rfl
  have left : leave = stepDownAt := funext fun c => by cases c <;> rfl
  refine ⟨fun h => (p.applySample_eq k valid q).trans (if_neg h), fun h =>
    ⟨(e.sample q).quality, (e.sample q).cls, ?_, smooth_cast hs hq, smooth_le _ _, ?_⟩⟩
  · rw [p.applySample_eq, if_pos h, Entry.write_sample]
    rfl
  · intro climbs
    have climbs_iff : climbs ↔ e.climbsAt (e.sample q).quality :=
      and_congr_right fun hd => by rw [entered hd]
    rw [climbs_iff, left]
    exact e.stepClass_cases _

end Sys2Proof.Machine
end

