-- ==== Sys2Proof/Proofs/GrantHistory.lean ====
section
/-! SUPPORT. The history of a plan's down grants: what the grants made so far give each car, and what its credit then is
(R75, R79, R80). -/

namespace Sys2Proof.Machine

/-! ### Lists made one element at a time -/

/-- Each element of a list stands to the elements before it as `P` says. -/
def Chained {α : Type} (P : List α → α → Prop) (l : List α) : Prop := ∀ (n : Nat) x, l[n]? = some x → P (l.take n) x

theorem Chained.nil {α : Type} (P : List α → α → Prop) : Chained P [] := fun _ _ h => nomatch h

theorem Chained.append_one {α : Type} {P : List α → α → Prop} {l : List α} {x : α} (h : Chained P l) (hx : P l x) :
    Chained P (l ++ [x]) := by
  intro n y hy
  rcases Nat.lt_trichotomy n l.length with hn | rfl | hn
  · rw [List.getElem?_append_left hn] at hy
    rw [List.take_append_of_le_length hn.le]
    exact h n y hy
  · obtain rfl : x = y := by simpa using hy
    simpa using hx
  · rw [List.getElem?_eq_none (by simp; omega)] at hy
    cases hy

theorem Chained.of_append_one {α : Type} {P : List α → α → Prop} {l : List α} {x : α} (h : Chained P (l ++ [x])) :
    Chained P l ∧ P l x := by
  constructor
  · intro n y hy
    have hn := (List.getElem?_eq_some_iff.mp hy).1
    have := h n y (by rw [List.getElem?_append_left hn, hy])
    rwa [List.take_append_of_le_length hn.le] at this
  · simpa using h l.length x (by simp)

/-- An element that stands before another one is among those that the other one's standing is about. -/
theorem Chained.before {α : Type} {P : List α → α → Prop} {l : List α} (h : Chained P l) {m n : Nat} {x y : α}
    (hmn : m < n) (hx : l[m]? = some x) (hy : l[n]? = some y) : P (l.take n) y ∧ x ∈ l.take n :=
  ⟨h n y hy, List.mem_of_getElem? (i := m) (by rw [List.getElem?_take_of_lt hmn, hx])⟩

theorem Chained.exists_of_mem {α : Type} {P : List α → α → Prop} {l : List α} (h : Chained P l) {x : α} (hx : x ∈ l) :
    ∃ n, P (l.take n) x := by
  obtain ⟨n, hn⟩ := List.mem_iff_getElem?.mp hx
  exact ⟨n, h n x hn⟩

/-- A fold keeps a property of the elements folded so far. -/
theorem foldl_visits {α β : Type} {f : α → β → α} {I : List β → α → Prop} (l : List β)
    (step : ∀ vs x rest a, l = vs ++ x :: rest → I vs a → I (vs ++ [x]) (f a x)) {a : α} (h : I [] a) :
    I l (l.foldl f a) := by
  have go : ∀ rest vs b, l = vs ++ rest → I vs b → I l (rest.foldl f b) := by
    intro rest
    induction rest with
    | nil => rintro vs b rfl hb; simpa using hb
    | cons x rest ih => exact fun vs b hl hb => ih (vs ++ [x]) _ (by simpa using hl) (step vs x rest b hl hb)
  exact go l [] a rfl h

theorem getElem_set_sid {α : Type} (v : Vector α 48) (k j : ShortId) (x : α) :
    (v.set k x)[j] = if j = k then x else v[j] := by
  simp only [Fin.getElem_fin, Vector.getElem_set, Fin.ext_iff, eq_comm]

/-! ### What the grants so far give a car -/

/-- The down grants of a car. -/
def grantsTo (k : ShortId) (l : List DownGrant) : Nat := l.countP (fun g => g.sid = k)

/-- The bytes granted to a car's message of a class (R80). -/
def grantedTo (k : ShortId) (c : MsgClass) (l : List DownGrant) : Nat :=
  ((l.filter (fun g => g.sid = k && g.cls = c)).map DownGrant.len).sum

/-- The grants that a car's credit pays for: those of CONTROL and BULK (R76, R79). -/
def chargesTo (k : ShortId) (l : List DownGrant) : Nat := l.countP (fun g => g.sid = k && g.cls ≠ .stop)

theorem grantsTo_append_one (k : ShortId) (l : List DownGrant) (g : DownGrant) :
    grantsTo k (l ++ [g]) = grantsTo k l + if g.sid = k then 1 else 0 := by
  simp [grantsTo, List.countP_singleton]

theorem grantedTo_append_one (k : ShortId) (c : MsgClass) (l : List DownGrant) (g : DownGrant) :
    grantedTo k c (l ++ [g]) = grantedTo k c l + if g.sid = k ∧ g.cls = c then g.len else 0 := by
  by_cases h : g.sid = k ∧ g.cls = c <;> simp [grantedTo, h]

theorem chargesTo_append_one (k : ShortId) (l : List DownGrant) (g : DownGrant) :
    chargesTo k (l ++ [g]) = chargesTo k l + if g.sid = k ∧ g.cls ≠ .stop then 1 else 0 := by
  simp [chargesTo, List.countP_singleton]

/-! ### Credit (R75, R79) -/

/-- A write that sets the credit marks the entry dirty when the credit changes (R47). -/
theorem Entry.write_credit (e : Entry) (c : Int) :
    e.write { e with credit := c } = { e with credit := c, dirty := e.dirty || decide (c ≠ e.credit) } := by
  have shown : e.shown = Entry.shown { e with credit := c } ↔ e.credit = c := by simp [Entry.shown]
  unfold Entry.write
  by_cases h : e.credit = c
  · rw [if_pos (shown.mpr h)]
    simp [h]
  · rw [if_neg (fun hs => h (shown.mp hs))]
    simp [Ne.symm h]

/-- The credit of a car after the update of a build (R75). -/
def Part.earnedCredit (p : Part) (k : ShortId) : Int :=
  if earns p.pool.records (p.entry k) then min 64 ((p.entry k).credit + (p.entry k).weight) else 0

/-- The credit of a car after the update and the grants of a list (R75, R79). -/
def Part.creditLeft (p : Part) (k : ShortId) (l : List DownGrant) : Int :=
  if chargesTo k l = 0 then p.earnedCredit k else max (-64) (p.earnedCredit k - 16 * chargesTo k l)

/-- The dirty mark of a car's entry after the update and the grants of a list (R47, R75, R79). -/
def Part.creditDirty (p : Part) (k : ShortId) (l : List DownGrant) : Bool :=
  (p.entry k).dirty || decide (p.earnedCredit k ≠ (p.entry k).credit) ||
    decide (0 < chargesTo k l ∧ p.earnedCredit k ≠ -64)

/-- The roster entry of a car after the update and the grants of a list (R47, R75, R79). -/
def Part.chargedEntry (p : Part) (k : ShortId) (l : List DownGrant) : Entry :=
  { p.entry k with credit := p.creditLeft k l, dirty := p.creditDirty k l }

theorem Part.chargedEntry_credit (p : Part) (k : ShortId) (l : List DownGrant) :
    (p.chargedEntry k l).credit = p.creditLeft k l := rfl

theorem Part.chargedEntry_dirty (p : Part) (k : ShortId) (l : List DownGrant) :
    (p.chargedEntry k l).dirty = p.creditDirty k l := rfl

theorem Part.chargedEntry_nil (p : Part) (k : ShortId) : p.chargedEntry k [] = (p.entry k).earned p.pool.records := by
  have dirty : p.creditDirty k [] = ((p.entry k).dirty || decide (p.earnedCredit k ≠ (p.entry k).credit)) := by
    simp [Part.creditDirty, chargesTo]
  unfold Part.chargedEntry
  rw [Entry.earned, Entry.write_credit, dirty]
  rfl

theorem Part.chargedEntry_of_charges {p : Part} {k : ShortId} {l m : List DownGrant} (h : chargesTo k m = chargesTo k l) :
    p.chargedEntry k m = p.chargedEntry k l := by
  simp only [Part.chargedEntry, Part.creditLeft, Part.creditDirty, h]

/-- Sixteen less with each charge, and never below −64 (R79). -/
theorem Part.creditLeft_succ {p : Part} {k : ShortId} {l m : List DownGrant} (h : chargesTo k m = chargesTo k l + 1) :
    p.creditLeft k m = max (-64) (p.creditLeft k l - 16) := by
  unfold Part.creditLeft
  rw [h, if_neg (by omega)]
  split <;> omega

/-- A charge on top of the charges of a list (R79). -/
theorem Part.chargedEntry_succ {p : Part} {k : ShortId} {l m : List DownGrant} (h : chargesTo k m = chargesTo k l + 1) :
    p.chargedEntry k m = (p.chargedEntry k l).charged := by
  have changes : 0 < chargesTo k m ∧ p.earnedCredit k ≠ -64 ↔
      (0 < chargesTo k l ∧ p.earnedCredit k ≠ -64) ∨ max (-64) (p.creditLeft k l - 16) ≠ p.creditLeft k l := by
    unfold Part.creditLeft
    split <;> omega
  have dirty : p.creditDirty k m = (p.creditDirty k l ||
      decide (max (-64) (p.creditLeft k l - 16) ≠ p.creditLeft k l)) := by
    rw [Bool.eq_iff_iff]
    simp only [Part.creditDirty, Bool.or_eq_true, decide_eq_true_eq, changes, or_assoc]
  rw [Entry.charged, Entry.write_credit]
  unfold Part.chargedEntry
  rw [p.creditLeft_succ h, dirty]

/-- The credit stays within ±64 (R75, R79). -/
theorem Part.creditLeft_range {p : Part} {k : ShortId} (l : List DownGrant) (hlow : -64 ≤ (p.entry k).credit) :
    -64 ≤ p.creditLeft k l ∧ p.creditLeft k l ≤ 64 := by
  unfold Part.creditLeft Part.earnedCredit
  (repeat' split) <;> omega

end Sys2Proof.Machine
end

