-- ==== Sys2Proof/Proofs/PlanTallies.lean ====
section
/-! SUPPORT. What a plan build holds after each grant: the tallies and figures of the grants so far, and the room left
(R66, R71, R72, R80). -/

namespace Sys2Proof.Machine

/-! ### The start of a build (R61, R66, R75) -/

theorem mem_shortIds (k : ShortId) : k ∈ shortIds := List.mem_finRange k

theorem shortIds_nodup : shortIds.Nodup := List.nodup_finRange 48

/-- A fold that sets the element of every short id by what stands there. -/
theorem foldl_set_sid {α : Type} (f : ShortId → α → α) (v : Vector α 48) (k : ShortId) :
    (shortIds.foldl (fun v (k : ShortId) => v.set k (f k v[k])) v)[k] = f k v[k] := by
  have visited := foldl_visits (f := fun (v : Vector α 48) (k : ShortId) => v.set k (f k v[k]))
    (I := fun vs (w : Vector α 48) => ∀ j : ShortId, w[j] = if j ∈ vs then f j v[j] else v[j]) shortIds (a := v)
    (fun vs x rest w hl hw j => ?_) (fun j => by simp)
  · simpa [mem_shortIds] using visited k
  · have hx : x ∉ vs := by
      have := hl ▸ shortIds_nodup
      simp only [List.nodup_append, List.mem_cons] at this
      exact fun h => this.2.2 x h x (.inl rfl) rfl
    rw [getElem_set_sid]
    by_cases hj : j = x
    · subst hj
      simp [hw, hx]
    · simp [hw, hj]

/-- The credit update, entry by entry (R75). -/
theorem creditUpdate_getElem (records : Vector (Option MsgRecord) 96) (es : Vector Entry 48) (k : ShortId) :
    (creditUpdate records es)[k] = es[k].earned records := by
  unfold creditUpdate
  have each := foldl_set_sid (fun _ e => Entry.earned records e) es k
  exact each

theorem startFigures_getElem (es : Vector Entry 48) (k : ShortId) :
    (startFigures es)[k] = { Figures.none with rate := es[k].cls } := by
  unfold startFigures
  have each := foldl_set_sid (fun k _ => { Figures.none with rate := es[k].cls }) (Vector.replicate 48 Figures.none) k
  exact each

/-! ### CURRENT messages (R68) -/

/-- A build finds the CURRENT message of a car from its entry (R68). -/
theorem currentOf_eq {p : Part} {k : ShortId} {e : Entry} (h : e.queues = (p.entry k).queues) (c : MsgClass) :
    currentOf p.pool.records e c = p.current k c := by
  unfold currentOf Part.current
  rw [h]
  rfl

theorem remainder_eq {p : Part} {k : ShortId} {e : Entry} {c : MsgClass} {i : PoolId} {r : MsgRecord}
    (h : e.queues = (p.entry k).queues) (hc : p.current k c = some (i, r)) :
    remainder p.pool.records e c = r.len - r.sentTo := by
  unfold remainder
  rw [currentOf_eq h, hc]

/-- A car has more than `n` bytes of a message left to send (R68). -/
theorem lt_remainder_iff {p : Part} {k : ShortId} {e : Entry} (h : e.queues = (p.entry k).queues) (c : MsgClass) (n : Nat) :
    n < remainder p.pool.records e c ↔ ∃ i r, p.current k c = some (i, r) ∧ n < r.len - r.sentTo := by
  unfold remainder
  rw [currentOf_eq h]
  cases p.current k c with
  | none => simp
  | some x => simp [Prod.ext_iff]

/-- Whether a car earns in the credit update (R75). -/
theorem earns_iff (p : Part) (k : ShortId) : earns p.pool.records (p.entry k) = true ↔
    ((p.entry k).onAir = true ∧ ∃ i r, p.current k .control = some (i, r) ∧ r.sentTo < r.len) ∨
      ((p.entry k).state = .active ∧ ∃ i r, p.current k .bulk = some (i, r) ∧ r.sentTo < r.len) := by
  simp [earns, lt_remainder_iff (p := p) (k := k) rfl]

/-! ### The tallies and figures of the grants so far -/

/-- A grant of a car's CURRENT message where sent_to and the grants before it end, cut at the car's class (R79, R80). -/
def Part.continuesAt (p : Part) (l : List DownGrant) (g : DownGrant) : Prop :=
  ∃ r, p.current g.sid g.cls = some (g.record, r) ∧ g.rate = (p.entry g.sid).cls ∧
    g.offset = r.sentTo + grantedTo g.sid g.cls l ∧
    g.len = min (g.rate.payload - 8 - r.hdr) (r.len - g.offset)

/-- A build's tallies and figures are those of its down grants and its up grant order. -/
structure Build.Tallied (p : Part) (b : Build) : Prop where
  downs : b.downs = b.downList.length
  ups : b.ups = b.upList.length
  rate : ∀ k : ShortId, b.figures[k].rate = (p.entry k).cls
  grants : ∀ k : ShortId, b.figures[k].grants = grantsTo k b.downList
  granted : ∀ (k : ShortId) c, b.figures[k].granted.get c = grantedTo k c b.downList
  hasUp : ∀ k : ShortId, b.figures[k].hasUp = decide (k ∈ b.upList)
  upOnce : b.upList.Nodup
  answered : ∀ g ∈ b.downList, g.sid ∈ b.upList
  continues : Chained p.continuesAt b.downList

/-- The credits and the allowance are no tallies. -/
theorem Build.Tallied.of_eq {p : Part} {b c : Build} (h : b.Tallied p) (hd : c.downs = b.downs) (hu : c.ups = b.ups)
    (hdl : c.downList = b.downList) (hul : c.upList = b.upList) (hf : c.figures = b.figures) : c.Tallied p where
  downs := by rw [hd, hdl, h.downs]
  ups := by rw [hu, hul, h.ups]
  rate := by rw [hf]; exact h.rate
  grants := by rw [hf, hdl]; exact h.grants
  granted := by rw [hf, hdl]; exact h.granted
  hasUp := by rw [hf, hul]; exact h.hasUp
  upOnce := by rw [hul]; exact h.upOnce
  answered := by rw [hdl, hul]; exact h.answered
  continues := by rw [hdl]; exact h.continues

/-- The next grant of a car's CURRENT message (R80). -/
def Build.nextGrant (b : Build) (k : ShortId) (c : MsgClass) (i : PoolId) (r : MsgRecord) : DownGrant :=
  let start := r.sentTo + b.figures[k].granted.get c
  { sid := k, cls := c, record := i, rate := b.figures[k].rate, offset := start
    len := min (fragmentData b.figures[k].rate r.hdr) (r.len - start) }

/-- What a down grant adds: the grant, and an answer slot for a car without an up slot (R72, R79). -/
theorem Build.grantDown_lists {b : Build} {records : Vector (Option MsgRecord) 96} {k : ShortId} {c : MsgClass} {i : PoolId}
    {r : MsgRecord} (h : currentOf records b.entries[k] c = some (i, r)) :
    (b.grantDown records k c).downList = b.downList ++ [b.nextGrant k c i r] ∧
      (b.grantDown records k c).upList = (if b.figures[k].hasUp then b.upList else b.upList ++ [k]) := by
  simp only [Build.grantDown, h]
  exact ⟨rfl, trivial⟩

theorem Build.mem_upList_grantDown {p : Part} {b : Build} (hb : b.Tallied p) {records : Vector (Option MsgRecord) 96}
    {k : ShortId} {c : MsgClass} {i : PoolId} {r : MsgRecord} (h : currentOf records b.entries[k] c = some (i, r))
    (j : ShortId) : j ∈ (b.grantDown records k c).upList ↔ j ∈ b.upList ∨ j = k := by
  rw [(Build.grantDown_lists h).2, hb.hasUp]
  by_cases hk : k ∈ b.upList
  · simp only [hk, decide_true, if_true]
    exact ⟨.inl, fun hj => hj.elim id (fun e => e ▸ hk)⟩
  · simp [hk]

/-- A down grant keeps the tallies and figures those of the grants (R72, R79, R80). -/
theorem Build.Tallied.grantDown {p : Part} {b : Build} (hb : b.Tallied p) {k : ShortId} {c : MsgClass} {i : PoolId}
    {r : MsgRecord} (hc : p.current k c = some (i, r)) (hq : b.entries[k].queues = (p.entry k).queues) :
    (b.grantDown p.pool.records k c).Tallied p := by
  have h : currentOf p.pool.records b.entries[k] c = some (i, r) := (currentOf_eq hq c).trans hc
  obtain ⟨hdl, hul⟩ := Build.grantDown_lists h
  have mem := Build.mem_upList_grantDown hb h
  have figures : ∀ j : ShortId, (b.grantDown p.pool.records k c).figures[j] =
      if j = k then { b.figures[k] with
        grants := b.figures[k].grants + 1, hasUp := true
        granted := b.figures[k].granted.put c (b.figures[k].granted.get c + (b.nextGrant k c i r).len) }
      else b.figures[j] := by
    intro j
    simp only [Build.grantDown, h, getElem_set_sid]
    rfl
  have downs : (b.grantDown p.pool.records k c).downs = b.downs + 1 := by simp only [Build.grantDown, h]
  have ups : (b.grantDown p.pool.records k c).ups = b.upsAfterDown k := by simp only [Build.grantDown, h]
  constructor
  case downs => rw [downs, hdl, hb.downs, List.length_append, List.length_singleton]
  case ups =>
    rw [ups, hul, Build.upsAfterDown, hb.ups]
    split <;> simp
  case rate =>
    intro j
    rw [figures]
    split
    · next e => rw [e]; exact hb.rate k
    · exact hb.rate j
  case grants =>
    intro j
    rw [figures, hdl, grantsTo_append_one, ← hb.grants]
    by_cases e : j = k
    · simp [e, Build.nextGrant]
    · simp [e, Build.nextGrant, Ne.symm e]
  case granted =>
    intro j d
    rw [figures, hdl, grantedTo_append_one, ← hb.granted]
    by_cases e : j = k
    · by_cases hd : d = c
      · subst e hd
        simp [Build.nextGrant]
      · simp [e, PerClass.get_put_other _ _ hd, show (b.nextGrant k c i r).cls ≠ d from Ne.symm hd]
    · simp [e, show (b.nextGrant k c i r).sid ≠ j from Ne.symm e]
  case hasUp =>
    intro j
    rw [figures]
    split
    · next e => simp [mem, e]
    · next e =>
      rw [hb.hasUp]
      simp [mem, e]
  case upOnce =>
    rw [hul, hb.hasUp]
    by_cases hk : k ∈ b.upList
    · simpa [hk] using hb.upOnce
    · simpa [hk] using List.nodup_append.mpr ⟨hb.upOnce, by simp, by simpa using fun x hx (e : x = k) => hk (e ▸ hx)⟩
  case answered =>
    intro g hg
    rw [hdl] at hg
    rw [mem]
    rcases List.mem_append.mp hg with hg | hg
    · exact .inl (hb.answered g hg)
    · exact .inr (by rw [List.mem_singleton.mp hg]; rfl)
  case continues =>
    rw [hdl]
    refine hb.continues.append_one ⟨r, hc, hb.rate k, ?_, rfl⟩
    rw [← hb.granted]
    rfl

/-- A poll grant keeps the tallies and figures those of the grants (R77). -/
theorem Build.Tallied.grantPoll {p : Part} {b : Build} (hb : b.Tallied p) {k : ShortId} (hk : k ∉ b.upList) :
    (b.grantPoll k).Tallied p := by
  have figures : ∀ j : ShortId, (b.grantPoll k).figures[j] =
      if j = k then { b.figures[k] with hasUp := true } else b.figures[j] := fun j => getElem_set_sid _ _ _ _
  have figure : ∀ (j : ShortId), (b.grantPoll k).figures[j].rate = b.figures[j].rate ∧
      (b.grantPoll k).figures[j].grants = b.figures[j].grants ∧
      (b.grantPoll k).figures[j].granted = b.figures[j].granted := by
    intro j
    rw [figures]
    split
    · next e => rw [e]; exact ⟨rfl, rfl, rfl⟩
    · exact ⟨rfl, rfl, rfl⟩
  constructor
  case downs => exact hb.downs
  case ups => simp [Build.grantPoll, hb.ups]
  case rate => exact fun j => (figure j).1.trans (hb.rate j)
  case grants => exact fun j => (figure j).2.1.trans (hb.grants j)
  case granted => exact fun j c => (congrArg (fun x => PerClass.get x c) (figure j).2.2).trans (hb.granted j c)
  case hasUp =>
    intro j
    rw [figures]
    split
    · next e => simp [e, Build.grantPoll]
    · next e =>
      rw [hb.hasUp]
      simp [e, Build.grantPoll]
  case upOnce => exact List.nodup_append.mpr ⟨hb.upOnce, by simp, by simpa using fun x hx (e : x = k) => hk (e ▸ hx)⟩
  case answered => exact fun g hg => List.mem_append_left _ (hb.answered g hg)
  case continues => exact hb.continues

/-! ### Room (R71) -/

/-- A down grant to a car would not fit: its slot, its answer slot if it has none yet, and the gap (R71). -/
def Build.noRoom (b : Build) (k : ShortId) : Prop :=
  36 < b.downList.length + 1 + (if k ∈ b.upList then b.upList.length else b.upList.length + 1) + 1

/-- A poll grant would not fit (R71). -/
def Build.noPoll (b : Build) : Prop :=
  36 < b.downList.length + (b.upList.length + 1) + if b.downList = [] then 0 else 1

theorem Build.Tallied.downFits_iff {p : Part} {b : Build} (hb : b.Tallied p) (k : ShortId) :
    b.downFits k = true ↔ ¬ b.noRoom k := by
  have pos : k ∈ b.upList → 0 < b.upList.length := List.length_pos_of_mem
  simp only [Build.downFits, tallyFits, Build.upsAfterDown, hb.hasUp, hb.downs, hb.ups, gapOf, decide_eq_true_eq,
    Build.noRoom, Config.scheduled]
  split <;> split <;> simp_all

theorem Build.Tallied.pollFits_iff {p : Part} {b : Build} (hb : b.Tallied p) : b.pollFits = true ↔ ¬ b.noPoll := by
  simp only [Build.pollFits, tallyFits, hb.downs, hb.ups, gapOf, decide_eq_true_eq, Build.noPoll, Config.scheduled,
    ← List.length_eq_zero_iff]
  split <;> split <;> omega

/-- A build gone on: grants are added behind those made. -/
structure Build.Grows (b b' : Build) : Prop where
  downs : b.downList <+: b'.downList
  ups : b.upList <+: b'.upList

theorem Build.Grows.refl (b : Build) : b.Grows b := ⟨List.prefix_refl _, List.prefix_refl _⟩

theorem Build.Grows.trans {a b c : Build} (h : a.Grows b) (h' : b.Grows c) : a.Grows c :=
  ⟨h.downs.trans h'.downs, h.ups.trans h'.ups⟩

theorem Build.Grows.noRoom {b b' : Build} (h : b.Grows b') {k : ShortId} (hk : b.noRoom k) : b'.noRoom k := by
  obtain ⟨⟨l, hd⟩, ⟨u, hu⟩⟩ := h
  unfold Build.noRoom at *
  rw [← hd, ← hu]
  simp only [List.mem_append, List.length_append]
  by_cases old : k ∈ b.upList
  · simp only [old, true_or, if_true] at hk ⊢
    omega
  · simp only [old, false_or, if_false] at hk ⊢
    split
    · next new => have := List.length_pos_of_mem new; omega
    · omega

theorem Build.Grows.noPoll {b b' : Build} (h : b.Grows b') (hk : b.noPoll) : b'.noPoll := by
  have hd := h.downs.length_le
  have hu := h.ups.length_le
  simp only [Build.noPoll, ← List.length_eq_zero_iff] at *
  split at hk <;> split <;> omega

/-- A car to which a down grant fits would have had room for a poll (R71, R77). -/
theorem Build.noRoom_of_noPoll {b : Build} {k : ShortId} (hk : k ∉ b.upList) (h : b.noPoll) : b.noRoom k := by
  simp only [Build.noPoll, Build.noRoom, hk, if_false] at *
  split at h <;> omega

theorem Build.grantDown_grows {b : Build} (records : Vector (Option MsgRecord) 96) (k : ShortId) (c : MsgClass) :
    b.Grows (b.grantDown records k c) := by
  cases h : currentOf records b.entries[k] c with
  | none => simpa only [Build.grantDown, h] using .refl b
  | some x =>
    obtain ⟨hd, hu⟩ := Build.grantDown_lists h
    refine ⟨hd ▸ List.prefix_append _ _, hu ▸ ?_⟩
    split
    · exact List.prefix_refl _
    · exact List.prefix_append _ _

end Sys2Proof.Machine
end

