-- ==== Sys2Proof/Proofs/StopAndPollPasses.lean ====
section
/-! SUPPORT. The STOP pass and the poll pass of a plan build: whom they grant, in what order, and whom they leave out
(R76, R77). -/

namespace Sys2Proof.Machine

/-! ### What each grant stands on (R76–R79) -/

/-- A car takes a down slot for a STOP message that is still to be sent (R76). -/
def Part.stopOf (p : Part) (k : ShortId) (r : MsgRecord) : Prop :=
  (p.entry k).onAir = true ∧ (∃ i, p.current k .stop = some (i, r)) ∧ r.sentTo < r.len

/-- A car is to be heard in a frame: it is GRANTED, or in its phase (R77). -/
def Part.polledIn (p : Part) (f : Word) (k : ShortId) : Prop :=
  (p.entry k).state = .granted ∨
    ((p.entry k).onAir = true ∧ k.val % p.setup.pollPeriod = f.toNat % p.setup.pollPeriod)

/-- A car holds an up slot: one of the cars `ups` that the first two passes gave one, or one with a down slot (R72). -/
def heldUp (ups : List ShortId) (l : List DownGrant) (k : ShortId) : Bool :=
  decide (k ∈ ups) || l.any (fun g => g.sid = k)

/-- A car may be picked by the pass for a class after the grants of a list, but for the allowance (R78). -/
def Part.sharesAt (p : Part) (ups : List ShortId) (c : MsgClass) (l : List DownGrant) (k : ShortId) : Prop :=
  ((p.entry k).state = .active ∨ (c = .control ∧ (p.entry k).state = .fading)) ∧
    (∃ i r, p.current k c = some (i, r) ∧ grantedTo k c l < r.len - r.sentTo) ∧
    grantsTo k l < 8 ∧
    l.length + 1 + (shortIds.countP (heldUp ups l) + if heldUp ups l k then 0 else 1) + 1 ≤ 36

/-- How a grant stands to the grants before it: a STOP one follows only older STOP ones of other cars, a CONTROL one no
BULK one, and one of CONTROL or BULK goes to the highest credit of those that share, the lowest short id among equals
(R76, R78, R79). -/
structure Part.Grantable (p : Part) (ups : List ShortId) (l : List DownGrant) (g : DownGrant) : Prop where
  stop : g.cls = .stop → (∃ r, p.stopOf g.sid r) ∧ ∀ h ∈ l, h.cls = .stop ∧ h.sid ≠ g.sid ∧
    ∀ a b, p.record h.record = some a → p.record g.record = some b →
      ahead b.adm p.adm.nextAdm ≤ ahead a.adm p.adm.nextAdm
  control : g.cls = .control → ∀ h ∈ l, h.cls ≠ .bulk
  picked : g.cls ≠ .stop → p.sharesAt ups g.cls l g.sid ∧ ∀ k, p.sharesAt ups g.cls l k →
    p.creditLeft k l < p.creditLeft g.sid l ∨ (p.creditLeft k l = p.creditLeft g.sid l ∧ g.sid ≤ k)

/-! ### The STOP candidates (R76) -/

theorem Part.stopOf.unique {p : Part} {k : ShortId} {a b : MsgRecord} (ha : p.stopOf k a) (hb : p.stopOf k b) : a = b := by
  obtain ⟨-, ⟨i, hi⟩, -⟩ := ha
  obtain ⟨-, ⟨j, hj⟩, -⟩ := hb
  exact (Prod.mk.inj (Option.some.inj (hi.symm.trans hj))).2

theorem Part.record_of_current {p : Part} {k : ShortId} {c : MsgClass} {i : PoolId} {r : MsgRecord}
    (h : p.current k c = some (i, r)) : p.record i = some r := (Part.current_some.mp h).2.1

/-- The record that a STOP grant names is its car's STOP message (R76, R80). -/
theorem Part.stopOf_of_grant {p : Part} {ups : List ShortId} {l m : List DownGrant} {g : DownGrant} {r : MsgRecord}
    (h : p.continuesAt l g) (hg : p.Grantable ups m g) (hc : g.cls = .stop) (hr : p.record g.record = some r) :
    p.stopOf g.sid r := by
  obtain ⟨x, hx, -⟩ := h
  obtain ⟨⟨y, air, ⟨j, hj⟩, left⟩, -⟩ := hg.stop hc
  obtain rfl : x = r := Option.some.inj ((Part.record_of_current hx).symm.trans hr)
  rw [hc] at hx
  obtain rfl : y = x := (Prod.mk.inj (Option.some.inj (hj.symm.trans hx))).2
  exact ⟨air, ⟨j, hj⟩, left⟩

/-- A candidate of the STOP pass with its age. -/
def Part.stopAge (p : Part) (next : Word) (k : ShortId) : Option (ShortId × Nat) :=
  if (p.entry k).onAir then
    match p.current k .stop with
    | some (_, r) => if r.sentTo < r.len then some (k, admAge next r.adm) else none
    | none => none
  else none

theorem Part.stopAge_eq_some {p : Part} {next : Word} {k : ShortId} {x : ShortId × Nat} :
    p.stopAge next k = some x ↔ ∃ r, p.stopOf k r ∧ x = (k, ahead r.adm next) := by
  unfold Part.stopAge Part.stopOf
  cases ha : (p.entry k).onAir with
  | false => simp
  | true =>
    cases hc : p.current k .stop with
    | none => simp
    | some y =>
      obtain ⟨i, r⟩ := y
      by_cases hs : r.sentTo < r.len
      · simp [hs, admAge, eq_comm]
      · simp [hs]

/-- The candidates are sorted by their age (R76). -/
theorem insertCandidate_eq (x : ShortId × Nat) (l : List (ShortId × Nat)) :
    insertCandidate x l = l.orderedInsert (fun x y => y.2 < x.2) x := by
  induction l with
  | nil => rfl
  | cons y ys ih => simp only [insertCandidate, List.orderedInsert, ih]

theorem insertCandidate_sorted (x : ShortId × Nat) {l : List (ShortId × Nat)} (h : l.Pairwise (fun x y => y.2 ≤ x.2)) :
    (insertCandidate x l).Pairwise (fun x y => y.2 ≤ x.2) := by
  induction l with
  | nil => exact List.pairwise_singleton _ _
  | cons y ys ih =>
    obtain ⟨hy, hys⟩ := List.pairwise_cons.mp h
    unfold insertCandidate
    split
    · next hlt =>
      refine List.pairwise_cons.mpr ⟨fun z hz => ?_, h⟩
      rcases List.mem_cons.mp hz with rfl | hz
      · omega
      · have := hy z hz; omega
    · next hge =>
      refine List.pairwise_cons.mpr ⟨fun z hz => ?_, ih hys⟩
      rw [insertCandidate_eq, List.mem_orderedInsert] at hz
      rcases hz with rfl | hz
      · omega
      · exact hy z hz

/-- The candidates of the STOP pass (R76): every car with a STOP message to be sent, once, oldest admission first. -/
theorem Part.stopCandidates_spec {p : Part} {es : Vector Entry 48} (next : Word)
    (he : ∀ k : ShortId, es[k].queues = (p.entry k).queues ∧ es[k].onAir = (p.entry k).onAir) :
    (∀ k, k ∈ stopCandidates p.pool.records next es ↔ ∃ r, p.stopOf k r) ∧
      (stopCandidates p.pool.records next es).Nodup ∧
      (stopCandidates p.pool.records next es).Pairwise (fun j k =>
        ∀ a b, p.stopOf j a → p.stopOf k b → ahead b.adm next ≤ ahead a.adm next) := by
  have found : stopCandidates p.pool.records next es =
      ((shortIds.filterMap (p.stopAge next)).foldr insertCandidate []).map Prod.fst := by
    have ages : (fun k : ShortId => if es[k].onAir then
        match currentOf p.pool.records es[k] .stop with
        | some (_, r) => if r.sentTo < r.len then some (k, admAge next r.adm) else none
        | none => none
      else none) = p.stopAge next := by
      funext k
      rw [(he k).2, currentOf_eq (he k).1]
      rfl
    rw [← ages]
    rfl
  have perm : ((shortIds.filterMap (p.stopAge next)).foldr insertCandidate []).Perm
      (shortIds.filterMap (p.stopAge next)) := by
    rw [show insertCandidate = List.orderedInsert (fun x y => y.2 < x.2) from funext₂ insertCandidate_eq]
    exact List.perm_insertionSort _ _
  have age : ∀ x ∈ (shortIds.filterMap (p.stopAge next)).foldr insertCandidate [],
      ∃ r, p.stopOf x.1 r ∧ x.2 = ahead r.adm next := by
    intro x hx
    obtain ⟨k, -, hk⟩ := List.mem_filterMap.mp (perm.mem_iff.mp hx)
    obtain ⟨r, hr, rfl⟩ := Part.stopAge_eq_some.mp hk
    exact ⟨r, hr, rfl⟩
  have sorted : ∀ l : List (ShortId × Nat), (l.foldr insertCandidate []).Pairwise (fun x y => y.2 ≤ x.2) := by
    intro l
    induction l with
    | nil => exact .nil
    | cons x xs ih => exact insertCandidate_sorted x ih
  rw [found]
  refine ⟨fun k => ?_, ?_, ?_⟩
  · constructor
    · intro h
      obtain ⟨x, hx, rfl⟩ := List.mem_map.mp h
      obtain ⟨r, hr, -⟩ := age x hx
      exact ⟨r, hr⟩
    · rintro ⟨r, hr⟩
      exact List.mem_map.mpr ⟨(k, ahead r.adm next), perm.mem_iff.mpr (List.mem_filterMap.mpr
        ⟨k, mem_shortIds k, Part.stopAge_eq_some.mpr ⟨r, hr, rfl⟩⟩), rfl⟩
  · refine (perm.map Prod.fst).nodup_iff.mpr ?_
    rw [List.map_filterMap]
    refine shortIds_nodup.filterMap fun j k x hj hk => ?_
    obtain ⟨y, hy, hyx⟩ := Option.map_eq_some_iff.mp hj
    obtain ⟨z, hz, hzx⟩ := Option.map_eq_some_iff.mp hk
    obtain ⟨_, -, rfl⟩ := Part.stopAge_eq_some.mp hy
    obtain ⟨_, -, rfl⟩ := Part.stopAge_eq_some.mp hz
    exact hyx.trans hzx.symm
  · refine List.pairwise_map.mpr ((sorted _).imp_of_mem fun {x y} hx hy hxy a b ha hb => ?_)
    obtain ⟨r, hr, hxr⟩ := age x hx
    obtain ⟨t, ht, hyt⟩ := age y hy
    rw [ha.unique hr, hb.unique ht, ← hxr, ← hyt]
    exact hxy

/-! ### The STOP pass (R76) -/

/-- A build whose STOP pass has come past the candidates `vs`. -/
structure Build.StopsGranted (b : Build) (p : Part) (vs : List ShortId) : Prop where
  tallied : b.Tallied p
  entries : ∀ k : ShortId, b.entries[k] = p.chargedEntry k b.downList
  stops : ∀ g ∈ b.downList, g.cls = .stop
  ups : b.upList = b.downList.map DownGrant.sid
  visited : ∀ g ∈ b.downList, g.sid ∈ vs
  grants : ∀ ups, Chained (p.Grantable ups) b.downList
  missed : ∀ k ∈ vs, k ∈ b.downList.map DownGrant.sid ∨ b.noRoom k

/-- A candidate visited: granted when it fits, else left out for want of slots (R76). -/
theorem Build.StopsGranted.visit {p : Part} {vs : List ShortId} {b : Build} (hb : b.StopsGranted p vs) {k : ShortId}
    (hk : ∃ r, p.stopOf k r) (new : k ∉ vs)
    (older : ∀ j ∈ vs, ∀ a b, p.stopOf j a → p.stopOf k b → ahead b.adm p.adm.nextAdm ≤ ahead a.adm p.adm.nextAdm) :
    (if b.downFits k then b.grantDown p.pool.records k .stop else b).StopsGranted p (vs ++ [k]) := by
  split
  · obtain ⟨r, hr⟩ := hk
    obtain ⟨hair, ⟨i, hi⟩, hlen⟩ := hr
    have hq : b.entries[k].queues = (p.entry k).queues := by rw [hb.entries]; rfl
    have grows := Build.grantDown_grows (b := b) p.pool.records k .stop
    obtain ⟨hdl, hul⟩ := Build.grantDown_lists ((currentOf_eq hq .stop).trans hi)
    have noUp : k ∉ b.upList := by
      rw [hb.ups, List.mem_map]
      rintro ⟨g, hg, rfl⟩
      exact new (hb.visited g hg)
    constructor
    case tallied => exact hb.tallied.grantDown hi hq
    case entries =>
      intro j
      rw [Build.grantDown_entries, hb.entries, hdl]
      refine (Part.chargedEntry_of_charges ?_).symm
      rw [chargesTo_append_one, if_neg (fun h => h.2 rfl), Nat.add_zero]
    case stops =>
      rw [hdl]
      exact List.forall_mem_append.mpr ⟨hb.stops, by simp [Build.nextGrant]⟩
    case ups =>
      rw [hul, hdl, if_neg (by rw [hb.tallied.hasUp]; simpa using noUp), hb.ups, List.map_append]
      rfl
    case visited =>
      rw [hdl]
      exact List.forall_mem_append.mpr
        ⟨fun g hg => List.mem_append_left _ (hb.visited g hg), by simp [Build.nextGrant]⟩
    case grants =>
      intro ups
      rw [hdl]
      refine (hb.grants ups).append_one ⟨fun _ => ⟨⟨r, hair, ⟨i, hi⟩, hlen⟩, fun h hh => ?_⟩, nofun,
        fun hc => absurd rfl hc⟩
      refine ⟨hb.stops h hh, fun e => new ((show h.sid = k from e) ▸ hb.visited h hh), fun x y hx hy => ?_⟩
      obtain ⟨n, hn⟩ := hb.tallied.continues.exists_of_mem hh
      obtain ⟨m, hm⟩ := (hb.grants ups).exists_of_mem hh
      have hry : r = y := Option.some.inj ((Part.record_of_current hi).symm.trans hy)
      exact older _ (hb.visited h hh) x y
        (Part.stopOf_of_grant hn hm (hb.stops h hh) hx) (hry ▸ ⟨hair, ⟨i, hi⟩, hlen⟩)
    case missed =>
      refine List.forall_mem_append.mpr ⟨fun j hj => (hb.missed j hj).imp (fun h => ?_) grows.noRoom, ?_⟩
      · rw [hdl, List.map_append]
        exact List.mem_append_left _ h
      · rw [hdl]
        simp [Build.nextGrant]
  · next unfit =>
    refine { hb with
      visited := fun g hg => List.mem_append_left _ (hb.visited g hg)
      missed := List.forall_mem_append.mpr ⟨hb.missed, ?_⟩ }
    simpa [hb.tallied.downFits_iff] using Or.inr unfit

/-- The STOP pass grants the candidates in their order (R76). -/
theorem Build.stopPass_stopsGranted {p : Part} {b : Build} (hb : b.StopsGranted p []) :
    ∃ vs, (∀ k, k ∈ vs ↔ ∃ r, p.stopOf k r) ∧ (b.stopPass p.pool.records p.adm.nextAdm).StopsGranted p vs := by
  obtain ⟨mem, nodup, sorted⟩ := Part.stopCandidates_spec (p := p) (es := b.entries) p.adm.nextAdm
    (fun k => by rw [hb.entries]; exact ⟨rfl, rfl⟩)
  refine ⟨stopCandidates p.pool.records p.adm.nextAdm b.entries, mem, ?_⟩
  refine foldl_visits (I := fun vs (q : Build) => q.StopsGranted p vs) _ (fun vs k rest q hl hq => ?_) hb
  rw [hl] at nodup sorted mem
  refine hq.visit ((mem k).mp (by simp)) (fun hk => ?_) (fun j hj => ?_)
  · exact (List.nodup_append.mp nodup).2.2 k hk k (by simp) rfl
  · exact (List.pairwise_append.mp sorted).2.2 j hj k (by simp)

/-! ### The poll pass (R77) -/

theorem polled_iff {p : Part} {k : ShortId} {e : Entry} (h : e.state = (p.entry k).state) (f : Word) :
    polled p.setup.pollPeriod f k e = true ↔ p.polledIn f k := by
  simp [polled, Part.polledIn, Entry.onAir, h]

/-- A build whose poll pass, begun at `a`, has come past the cars `vs`. -/
structure Build.PollsGranted (b : Build) (p : Part) (f : Word) (a : Build) (vs : List ShortId) : Prop where
  tallied : b.Tallied p
  downs : b.downList = a.downList
  entries : b.entries = a.entries
  allowance : b.allowance = a.allowance
  ups : ∃ polls, b.upList = a.upList ++ polls ∧ polls.Pairwise (fun j k => j < k) ∧
    ∀ k ∈ polls, k ∈ vs ∧ p.polledIn f k
  missed : ∀ k ∈ vs, p.polledIn f k → k ∈ b.upList ∨ b.noPoll

theorem Build.grantPoll_grows (b : Build) (k : ShortId) : b.Grows (b.grantPoll k) :=
  ⟨List.prefix_refl _, List.prefix_append _ _⟩

/-- A car visited by the poll pass: polled when it is to be heard, holds no up slot and fits (R77). -/
theorem Build.PollsGranted.visit {p : Part} {f : Word} {a : Build} {vs : List ShortId} {b : Build}
    (hb : b.PollsGranted p f a vs) (hs : ∀ k : ShortId, a.entries[k].state = (p.entry k).state) {k : ShortId}
    (above : ∀ j ∈ vs, j < k) :
    (if !b.figures[k].hasUp && polled p.setup.pollPeriod f k b.entries[k] && b.pollFits then b.grantPoll k
      else b).PollsGranted p f a (vs ++ [k]) := by
  obtain ⟨polls, hups, hsorted, hpolled⟩ := hb.ups
  have cond : (!b.figures[k].hasUp && polled p.setup.pollPeriod f k b.entries[k] && b.pollFits) = true ↔
      k ∉ b.upList ∧ p.polledIn f k ∧ ¬ b.noPoll := by
    simp only [Bool.and_eq_true, Bool.not_eq_true', hb.tallied.hasUp, decide_eq_false_iff_not, hb.tallied.pollFits_iff,
      polled_iff (p := p) (e := b.entries[k]) (by rw [hb.entries]; exact hs k) f, and_assoc]
  split
  · next h =>
    obtain ⟨noUp, hk, -⟩ := cond.mp h
    refine ⟨hb.tallied.grantPoll noUp, hb.downs, hb.entries, hb.allowance, ⟨polls ++ [k], ?_, ?_, ?_⟩, ?_⟩
    · simp [Build.grantPoll, hups]
    · exact List.pairwise_append.mpr ⟨hsorted, List.pairwise_singleton _ _,
        by simpa using fun j hj => above j (hpolled j hj).1⟩
    · exact List.forall_mem_append.mpr
        ⟨fun j hj => ⟨List.mem_append_left _ (hpolled j hj).1, (hpolled j hj).2⟩, by simpa using hk⟩
    · refine List.forall_mem_append.mpr ⟨fun j hj hp => (hb.missed j hj hp).imp (List.mem_append_left _)
        (b.grantPoll_grows k).noPoll, fun j hj _ => .inl ?_⟩
      exact List.mem_append_right _ hj
  · next h =>
    refine { hb with
      ups := ⟨polls, hups, hsorted, fun j hj => ⟨List.mem_append_left _ (hpolled j hj).1, (hpolled j hj).2⟩⟩
      missed := List.forall_mem_append.mpr ⟨hb.missed, ?_⟩ }
    simp only [List.mem_singleton, forall_eq]
    intro hp
    rw [cond] at h
    tauto

/-- The poll pass visits every car in ascending short id (R77). -/
theorem Build.pollPass_pollsGranted {p : Part} {f : Word} {b : Build} (hb : b.Tallied p)
    (hs : ∀ k : ShortId, b.entries[k].state = (p.entry k).state) :
    (b.pollPass p.setup.pollPeriod f).PollsGranted p f b shortIds := by
  refine foldl_visits (I := fun vs (q : Build) => q.PollsGranted p f b vs) _ (fun vs k rest q hl hq => ?_)
    ⟨hb, rfl, rfl, rfl, ⟨[], by simp⟩, by simp⟩
  refine hq.visit hs fun j hj => ?_
  have sorted : shortIds.Pairwise (fun j k => j < k) := List.pairwise_lt_finRange 48
  rw [hl] at sorted
  exact (List.pairwise_append.mp sorted).2.2 j hj k (by simp)

end Sys2Proof.Machine
end

