-- ==== Sys2Proof/Proofs/SharePasses.lean ====
section
/-! SUPPORT. The CONTROL pass and the BULK pass of a plan build, and what its four passes together grant (R70, R72, R74,
R78, R79). -/

namespace Sys2Proof.Machine

/-! ### The pick (R79) -/

/-- Of the cars `vs` the best one so far: the eligible one of the highest credit, the first among equals (R79). -/
def Build.bestOf (b : Build) (records : Vector (Option MsgRecord) 96) (c : MsgClass) (vs : List ShortId) :
    Option ShortId → Prop
  | none => ∀ j ∈ vs, b.eligible records c j = false
  | some k => k ∈ vs ∧ b.eligible records c k = true ∧ ∀ j ∈ vs, b.eligible records c j = true →
      b.entries[j].credit < b.entries[k].credit ∨ (b.entries[j].credit = b.entries[k].credit ∧ k ≤ j)

theorem Build.pick_bestOf (b : Build) (records : Vector (Option MsgRecord) 96) (c : MsgClass) :
    b.bestOf records c shortIds (b.pick records c) := by
  refine foldl_visits (I := fun vs o => b.bestOf records c vs o) _ (fun vs k rest o hl ho => ?_) (fun j hj => by cases hj)
  have above : ∀ j ∈ vs, j < k := by
    have sorted : shortIds.Pairwise (fun j k => j < k) := List.pairwise_lt_finRange 48
    rw [hl] at sorted
    exact fun j hj => (List.pairwise_append.mp sorted).2.2 j hj k (by simp)
  split
  · next hk =>
    cases o with
    | none =>
      refine ⟨by simp, hk, List.forall_mem_append.mpr ⟨fun j hj he => ?_, by simp⟩⟩
      rw [ho j hj] at he
      cases he
    | some i =>
      obtain ⟨hi, hie, best⟩ := ho
      dsimp only
      split
      · next hlt =>
        refine ⟨by simp, hk, List.forall_mem_append.mpr ⟨fun j hj he => .inl ?_, by simp⟩⟩
        rcases best j hj he with h | ⟨h, -⟩ <;> omega
      · next hge =>
        refine ⟨List.mem_append_left _ hi, hie, List.forall_mem_append.mpr ⟨best, ?_⟩⟩
        simp only [List.mem_singleton, forall_eq]
        intro _
        rcases Int.lt_or_eq_of_le (Int.not_lt.mp hge) with h | h
        · exact .inl h
        · exact .inr ⟨h, (above i hi).le⟩
  · next hk =>
    have hk : b.eligible records c k = false := by simpa using hk
    cases o with
    | none => exact List.forall_mem_append.mpr ⟨ho, by simpa using hk⟩
    | some i =>
      obtain ⟨hi, hie, best⟩ := ho
      exact ⟨List.mem_append_left _ hi, hie, List.forall_mem_append.mpr ⟨best, by simp [hk]⟩⟩

/-- The pick is eligible, and no eligible car has a higher credit, or the same and a lower short id (R79). -/
theorem Build.pick_some {b : Build} {records : Vector (Option MsgRecord) 96} {c : MsgClass} {k : ShortId}
    (h : b.pick records c = some k) : b.eligible records c k = true ∧ ∀ j, b.eligible records c j = true →
      b.entries[j].credit < b.entries[k].credit ∨ (b.entries[j].credit = b.entries[k].credit ∧ k ≤ j) := by
  have best := b.pick_bestOf records c
  rw [h] at best
  exact ⟨best.2.1, fun j => best.2.2 j (mem_shortIds j)⟩

theorem Build.pick_none {b : Build} {records : Vector (Option MsgRecord) 96} {c : MsgClass}
    (h : b.pick records c = none) (k : ShortId) : b.eligible records c k = false := by
  have best := b.pick_bestOf records c
  rw [h] at best
  exact best k (mem_shortIds k)

/-! ### One grant of CONTROL or BULK (R79) -/

/-- A grant that the car's credit and the duty allowance pay for (R79). -/
def Build.shareOne (b : Build) (records : Vector (Option MsgRecord) 96) (k : ShortId) (c : MsgClass) : Build :=
  let g := b.grantDown records k c
  { g with entries := g.entries.set k g.entries[k].charged, allowance := g.allowance - 1 }

theorem Build.sharePass_some {b : Build} {records : Vector (Option MsgRecord) 96} {c : MsgClass} {k : ShortId}
    (h : b.pick records c = some k) (n : Nat) :
    Build.sharePass records c (n + 1) b = Build.sharePass records c n (b.shareOne records k c) := by
  rw [Build.sharePass]
  simp only [h]
  rfl

theorem Build.sharePass_none {b : Build} {records : Vector (Option MsgRecord) 96} {c : MsgClass}
    (h : b.pick records c = none) (n : Nat) : Build.sharePass records c (n + 1) b = b := by
  rw [Build.sharePass]
  simp only [h]

/-- The cars `rest` that got an answer slot of CONTROL or BULK, in the order of their first down slots (R72, R81). -/
structure Part.AnswersInOrder (p : Part) (f : Word) (l : List DownGrant) (rest : List ShortId) : Prop where
  down : ∀ k ∈ rest, k ∈ l.map DownGrant.sid
  unpolled : ∀ k ∈ rest, ¬ p.polledIn f k
  order : rest.Pairwise (fun j k => (l.map DownGrant.sid).idxOf j < (l.map DownGrant.sid).idxOf k)

theorem Part.AnswersInOrder.later {p : Part} {f : Word} {l : List DownGrant} {rest : List ShortId}
    (h : p.AnswersInOrder f l rest) (g : DownGrant) : p.AnswersInOrder f (l ++ [g]) rest where
  down k hk := by
    rw [List.map_append]
    exact List.mem_append_left _ (h.down k hk)
  unpolled := h.unpolled
  order := by
    rw [List.map_append]
    exact h.order.imp_of_mem fun hi hj lt => by
      rwa [List.idxOf_append_of_mem (h.down _ hi), List.idxOf_append_of_mem (h.down _ hj)]

theorem Part.AnswersInOrder.new {p : Part} {f : Word} {l : List DownGrant} {rest : List ShortId}
    (h : p.AnswersInOrder f l rest) {g : DownGrant} (first : g.sid ∉ l.map DownGrant.sid) (hg : ¬ p.polledIn f g.sid) :
    p.AnswersInOrder f (l ++ [g]) (rest ++ [g.sid]) where
  down := List.forall_mem_append.mpr ⟨(h.later g).down, by simp⟩
  unpolled := List.forall_mem_append.mpr ⟨h.unpolled, by simpa using hg⟩
  order := by
    refine List.pairwise_append.mpr ⟨(h.later g).order, List.pairwise_singleton _ _, fun j hj k hk => ?_⟩
    rw [List.mem_singleton.mp hk, List.map_append, List.idxOf_append_of_mem (h.down j hj),
      List.idxOf_append_of_notMem first]
    exact (List.idxOf_lt_length_of_mem (h.down j hj)).trans_le (Nat.le_add_right _ _)

/-- A build gone on from `a`, the first two passes done, by grants of CONTROL and BULK (R78, R79). -/
structure Build.Shared (b : Build) (p : Part) (f : Word) (a : Build) : Prop where
  tallied : b.Tallied p
  entries : ∀ k : ShortId, b.entries[k] = p.chargedEntry k b.downList
  grants : Chained (p.Grantable a.upList) b.downList
  stops : b.downList.filter (fun g => g.cls = .stop) = a.downList
  allowance : b.allowance + b.downList.length = a.allowance + a.downList.length
  grows : a.Grows b
  ups : ∃ rest, b.upList = a.upList ++ rest ∧ p.AnswersInOrder f b.downList rest

/-- The up slots of a build gone on by shares: those it had, and one for each car with a down slot (R72). -/
theorem Build.Shared.heldUp_eq {b a : Build} {p : Part} {f : Word} (hb : b.Shared p f a) (k : ShortId) :
    heldUp a.upList b.downList k = decide (k ∈ b.upList) := by
  obtain ⟨rest, hups, answers⟩ := hb.ups
  rw [Bool.eq_iff_iff]
  simp only [heldUp, Bool.or_eq_true, decide_eq_true_eq, List.any_eq_true]
  constructor
  · rintro (h | ⟨g, hg, rfl⟩)
    · exact hups ▸ List.mem_append_left _ h
    · exact hb.tallied.answered g hg
  · intro h
    rw [hups] at h
    refine (List.mem_append.mp h).imp_right fun hk => ?_
    obtain ⟨g, hg, e⟩ := List.mem_map.mp (answers.down k hk)
    exact ⟨g, hg, e⟩

theorem countP_mem_shortIds {l : List ShortId} (h : l.Nodup) : shortIds.countP (fun k => decide (k ∈ l)) = l.length := by
  rw [List.countP_eq_length_filter]
  refine List.Perm.length_eq ((List.perm_ext_iff_of_nodup (shortIds_nodup.filter _) h).mpr fun k => ?_)
  simp [mem_shortIds]

/-- Whether a car shares, said of the grants so far (R78). -/
theorem Build.Shared.eligible_iff {b a : Build} {p : Part} {f : Word} (hb : b.Shared p f a) (c : MsgClass) (k : ShortId) :
    b.eligible p.pool.records c k = true ↔ p.sharesAt a.upList c b.downList k ∧ 0 < b.allowance := by
  have he : b.entries[k].state = (p.entry k).state ∧ b.entries[k].queues = (p.entry k).queues := by
    rw [hb.entries]; exact ⟨rfl, rfl⟩
  have room : b.downFits k = true ↔
      b.downList.length + 1 + (shortIds.countP (heldUp a.upList b.downList) +
        if heldUp a.upList b.downList k then 0 else 1) + 1 ≤ 36 := by
    rw [hb.tallied.downFits_iff, Build.noRoom, show heldUp a.upList b.downList = fun k => decide (k ∈ b.upList) from
      funext hb.heldUp_eq, countP_mem_shortIds hb.tallied.upOnce]
    by_cases hk : k ∈ b.upList <;> simp [hk]
  simp only [Build.eligible, Bool.and_eq_true, Bool.or_eq_true, decide_eq_true_eq, he.1, hb.tallied.granted,
    hb.tallied.grants, lt_remainder_iff he.2, room, Part.sharesAt, Config.grantLimit, and_assoc]

/-- What a share adds to the lists of a build: what its down grant adds. -/
theorem Build.shareOne_lists {b : Build} {records : Vector (Option MsgRecord) 96} {k : ShortId} {c : MsgClass} {i : PoolId}
    {r : MsgRecord} (h : currentOf records b.entries[k] c = some (i, r)) :
    (b.shareOne records k c).downList = b.downList ++ [b.nextGrant k c i r] ∧
      (b.shareOne records k c).upList = (if b.figures[k].hasUp then b.upList else b.upList ++ [k]) :=
  Build.grantDown_lists h

theorem Build.shareOne_grows (b : Build) (records : Vector (Option MsgRecord) 96) (k : ShortId) (c : MsgClass) :
    b.Grows (b.shareOne records k c) :=
  ⟨(Build.grantDown_grows records k c).downs, (Build.grantDown_grows records k c).ups⟩

theorem Build.grantDown_allowance (b : Build) (records : Vector (Option MsgRecord) 96) (k : ShortId) (c : MsgClass) :
    (b.grantDown records k c).allowance = b.allowance := by
  unfold Build.grantDown
  split <;> rfl

/-- A car that is to be polled got its up slot before the shares, or no down grant to it would fit now (R77). -/
theorem Build.Shared.unpolled {b a : Build} {p : Part} {f : Word} (hb : b.Shared p f a)
    (polls : ∀ k, p.polledIn f k → k ∈ a.upList ∨ a.noPoll) {k : ShortId} (fits : ¬ b.noRoom k) (hk : k ∉ b.upList) :
    ¬ p.polledIn f k := by
  intro h
  rcases polls k h with h | h
  · exact hk (hb.grows.ups.subset h)
  · exact fits (Build.noRoom_of_noPoll hk (hb.grows.noPoll h))

/-- One more share keeps the build what its grants say (R79). -/
theorem Build.Shared.shareOne {b a : Build} {p : Part} {f : Word} (hb : b.Shared p f a) {c : MsgClass} {k : ShortId}
    (hc : c ≠ .stop) (control : c = .control → ∀ h ∈ b.downList, h.cls ≠ .bulk)
    (polls : ∀ k, p.polledIn f k → k ∈ a.upList ∨ a.noPoll) (hp : b.pick p.pool.records c = some k) :
    (b.shareOne p.pool.records k c).Shared p f a ∧
      ∃ g : DownGrant, g.cls = c ∧ (b.shareOne p.pool.records k c).downList = b.downList ++ [g] := by
  obtain ⟨eligible, best⟩ := Build.pick_some hp
  obtain ⟨shares, allowed⟩ := (hb.eligible_iff c k).mp eligible
  obtain ⟨-, ⟨i, r, hi, -⟩, -, -⟩ := id shares
  have hq : b.entries[k].queues = (p.entry k).queues := by rw [hb.entries]; rfl
  obtain ⟨hdl, hul⟩ := Build.shareOne_lists ((currentOf_eq hq c).trans hi)
  refine ⟨?_, _, rfl, hdl⟩
  constructor
  case tallied => exact (hb.tallied.grantDown hi hq).of_eq rfl rfl rfl rfl rfl
  case entries =>
    intro j
    have charges : chargesTo j (b.downList ++ [b.nextGrant k c i r]) = chargesTo j b.downList + if k = j then 1 else 0 := by
      rw [chargesTo_append_one]
      simp [Build.nextGrant, hc]
    rw [hdl]
    simp only [Build.shareOne, Build.grantDown_entries, getElem_set_sid]
    split
    · next e =>
      subst e
      rw [hb.entries]
      exact (Part.chargedEntry_succ (by rw [charges, if_pos rfl])).symm
    · next e =>
      rw [hb.entries]
      exact (Part.chargedEntry_of_charges (by rw [charges, if_neg (Ne.symm e), Nat.add_zero])).symm
  case grants =>
    rw [hdl]
    refine hb.grants.append_one ⟨fun h => absurd h hc, control, fun _ => ⟨shares, fun j hj => ?_⟩⟩
    have := best j ((hb.eligible_iff c j).mpr ⟨hj, allowed⟩)
    rwa [hb.entries, hb.entries] at this
  case stops =>
    rw [hdl, List.filter_append, hb.stops]
    simp [Build.nextGrant, hc]
  case allowance =>
    have before := hb.allowance
    have after : (b.shareOne p.pool.records k c).allowance = b.allowance - 1 :=
      congrArg (· - 1) (b.grantDown_allowance p.pool.records k c)
    rw [after, hdl, List.length_append, List.length_singleton]
    omega
  case grows => exact hb.grows.trans (b.shareOne_grows p.pool.records k c)
  case ups =>
    obtain ⟨rest, hups, answers⟩ := hb.ups
    rw [hdl, hul, hb.tallied.hasUp]
    by_cases hk : k ∈ b.upList
    · exact ⟨rest, by rw [if_pos (decide_eq_true hk), hups], answers.later _⟩
    · have noDown : k ∉ b.downList.map DownGrant.sid := by
        rw [List.mem_map]
        rintro ⟨g, hg, rfl⟩
        exact hk (hb.tallied.answered g hg)
      have fits := (hb.tallied.downFits_iff k).mp (Build.downFits_of_pick hp)
      exact ⟨rest ++ [k], by rw [if_neg (by simpa using hk), hups, List.append_assoc],
        answers.new (g := b.nextGrant k c i r) noDown (hb.unpolled polls fits hk)⟩

/-! ### The passes for CONTROL and BULK (R78) -/

/-- A pass shares until no car is eligible, for it ends before the 36 slots of the frame do (R71, R78). -/
theorem Build.Shared.pass {a : Build} {p : Part} {f : Word} {c : MsgClass} (hc : c ≠ .stop)
    (polls : ∀ k, p.polledIn f k → k ∈ a.upList ∨ a.noPoll) (fuel : Nat) {b : Build} (hb : b.Shared p f a)
    (control : c = .control → ∀ h ∈ b.downList, h.cls ≠ .bulk) (enough : 36 ≤ fuel + b.downList.length) :
    (Build.sharePass p.pool.records c fuel b).Shared p f a ∧ b.Grows (Build.sharePass p.pool.records c fuel b) ∧
      (∀ g ∈ (Build.sharePass p.pool.records c fuel b).downList, g ∈ b.downList ∨ g.cls = c) ∧
      ∀ k, (Build.sharePass p.pool.records c fuel b).eligible p.pool.records c k = false := by
  induction fuel generalizing b with
  | zero =>
    refine ⟨hb, .refl b, fun g hg => .inl hg, fun k => ?_⟩
    rw [Build.sharePass, Bool.eq_false_iff, Ne, hb.eligible_iff]
    rintro ⟨⟨-, -, -, room⟩, -⟩
    omega
  | succ n ih =>
    cases hp : b.pick p.pool.records c with
    | none =>
      rw [Build.sharePass_none hp]
      exact ⟨hb, .refl b, fun g hg => .inl hg, Build.pick_none hp⟩
    | some k =>
      rw [Build.sharePass_some hp]
      obtain ⟨shared, x, hx, hdl⟩ := hb.shareOne hc control polls hp
      obtain ⟨h, grows, cls, done⟩ := ih shared
        (fun h => hdl ▸ List.forall_mem_append.mpr ⟨control h, by simp [hx, h]⟩) (by simp [hdl]; omega)
      refine ⟨h, (b.shareOne_grows p.pool.records k c).trans grows, fun g hg => ?_, done⟩
      rcases cls g hg with hg | hg
      · rw [hdl, List.mem_append, List.mem_singleton] at hg
        exact hg.imp_right fun e => by rw [e, hx]
      · exact .inr hg

/-- What keeps a build from granting a car more of a CONTROL or BULK message: nothing is left of it, the car has 8 down
slots, or the duty limit or the slots are spent (R78). -/
def Build.exhausted (b : Build) (p : Part) (k : ShortId) (c : MsgClass) (r : MsgRecord) : Prop :=
  r.len - r.sentTo ≤ grantedTo k c b.downList ∨ 8 ≤ grantsTo k b.downList ∨
    p.setup.dutyLimit ≤ p.planner.h1 + p.planner.h2 + p.planner.h3 + b.downList.length ∨ b.noRoom k

theorem Build.Grows.exhausted {b b' : Build} (h : b.Grows b') {p : Part} {k : ShortId} {c : MsgClass} {r : MsgRecord}
    (hb : b.exhausted p k c r) : b'.exhausted p k c r := by
  have more : ∃ l, b'.downList = b.downList ++ l := h.downs.imp fun _ e => e.symm
  obtain ⟨l, hl⟩ := more
  refine hb.imp (fun h => ?_) (Or.imp (fun h => ?_) (Or.imp (fun h => ?_) h.noRoom))
  · simp only [grantedTo, hl, List.filter_append, List.map_append, List.sum_append] at h ⊢
    omega
  · simp only [grantsTo, hl, List.countP_append] at h ⊢
    omega
  · simp only [hl, List.length_append]
    omega

/-- A car that is not eligible when a pass ends is exhausted (R78). -/
theorem Build.Shared.exhausted {b a : Build} {p : Part} {f : Word} (hb : b.Shared p f a) {c : MsgClass} {k : ShortId}
    {i : PoolId} {r : MsgRecord} (done : b.eligible p.pool.records c k = false)
    (spent : p.setup.dutyLimit ≤ p.planner.h1 + p.planner.h2 + p.planner.h3 + a.downList.length + a.allowance)
    (hr : p.current k c = some (i, r)) (hs : (p.entry k).state = .active ∨ (c = .control ∧ (p.entry k).state = .fading)) :
    b.exhausted p k c r := by
  have allowance := hb.allowance
  have he : b.entries[k].state = (p.entry k).state ∧ b.entries[k].queues = (p.entry k).queues := by
    rw [hb.entries]; exact ⟨rfl, rfl⟩
  by_contra more
  simp only [Build.exhausted, not_or, Nat.not_le] at more
  obtain ⟨left, limit, duty, room⟩ := more
  refine absurd done (Bool.eq_false_iff.not.mpr (not_not.mpr ?_))
  simp only [Build.eligible, Bool.and_eq_true, Bool.or_eq_true, decide_eq_true_eq, he.1, remainder_eq he.2 hr,
    hb.tallied.granted, hb.tallied.grants, hb.tallied.downFits_iff]
  exact ⟨⟨⟨⟨hs, left⟩, limit⟩, room⟩, by omega⟩

/-! ### The whole build (R70) -/

/-- The cars with a STOP grant, in the order of the grants (R76). -/
def Build.stopCars (b : Build) : List ShortId := (b.downList.filter (fun g => g.cls = .stop)).map DownGrant.sid

/-- What a build in ON has granted at its end: `polls` are the cars of the poll pass and `rest` those that got an answer
slot of CONTROL or BULK. -/
structure Build.Planned (b : Build) (p : Part) (f : Word) (polls rest : List ShortId) : Prop where
  tallied : b.Tallied p
  entries : ∀ k : ShortId, b.entries[k] = p.chargedEntry k b.downList
  grants : Chained (p.Grantable (b.stopCars ++ polls)) b.downList
  ups : b.upList = b.stopCars ++ polls ++ rest
  sorted : polls.Pairwise (fun j k => j < k)
  polled : ∀ k ∈ polls, p.polledIn f k
  answers : p.AnswersInOrder f b.downList rest
  stops : ∀ k r, p.stopOf k r → (∃ g ∈ b.downList, g.sid = k ∧ g.cls = .stop) ∨ b.noRoom k
  heard : ∀ k, p.polledIn f k → k ∈ b.upList ∨ b.noPoll
  shares : ∀ k c i r, c ≠ .stop → p.current k c = some (i, r) →
    (p.entry k).state = .active ∨ (c = .control ∧ (p.entry k).state = .fading) → b.exhausted p k c r
  duty : ∀ g ∈ b.downList, g.cls ≠ .stop →
    p.planner.h1 + p.planner.h2 + p.planner.h3 + b.downList.length ≤ p.setup.dutyLimit

/-- The build before its first pass (R70, R75). -/
def Part.startBuild (p : Part) : Build :=
  let es := creditUpdate p.pool.records p.roster.entries
  { downs := 0, ups := 0, downList := [], upList := [], figures := startFigures es, entries := es, allowance := 0 }

theorem Part.startBuild_stopsGranted (p : Part) : p.startBuild.StopsGranted p [] := by
  have entries : ∀ k : ShortId, p.startBuild.entries[k] = p.chargedEntry k [] := fun k =>
    (creditUpdate_getElem _ _ k).trans (p.chargedEntry_nil k).symm
  have figures : ∀ k : ShortId, p.startBuild.figures[k] = { Figures.none with rate := (p.entry k).cls } := by
    intro k
    refine (startFigures_getElem _ k).trans ?_
    have := entries k
    rw [show (creditUpdate p.pool.records p.roster.entries)[k] = p.chargedEntry k [] from this]
    rfl
  refine ⟨⟨rfl, rfl, ?_, ?_, ?_, ?_, .nil, nofun, .nil _⟩, entries, nofun, rfl, nofun, fun _ => .nil _, nofun⟩
  · exact fun k => by rw [figures]
  · exact fun k => by rw [figures]; rfl
  · exact fun k c => by rw [figures]; exact PerClass.get_all 0 c
  · exact fun k => by rw [figures]; rfl

/-- The duty allowance set after the STOP pass (R74). -/
def Build.allow (b : Build) (p : Part) : Build :=
  { b with allowance := p.setup.dutyLimit - (p.planner.h1 + p.planner.h2 + p.planner.h3 + b.downs) }

/-- The four passes of a build (R70). -/
theorem buildPasses_eq (p : Part) (f : Word) : buildPasses p f =
    Build.sharePass p.pool.records .bulk Config.scheduled
      (Build.sharePass p.pool.records .control Config.scheduled
        (((p.startBuild.stopPass p.pool.records p.adm.nextAdm).allow p).pollPass p.setup.pollPeriod f)) := by
  unfold buildPasses
  rfl

/-- With the allowance set and the polls made, nothing is shared yet (R74, R77). -/
theorem Build.StopsGranted.shared {p : Part} {f : Word} {vs : List ShortId} {a b : Build} (ha : a.StopsGranted p vs)
    (hb : b.PollsGranted p f (a.allow p) shortIds) : b.Shared p f b where
  tallied := hb.tallied
  entries k := by rw [hb.entries, hb.downs]; exact ha.entries k
  grants := by rw [hb.downs]; exact ha.grants _
  stops := by rw [hb.downs]; exact List.filter_eq_self.mpr fun g hg => decide_eq_true (ha.stops g hg)
  allowance := rfl
  grows := .refl b
  ups := ⟨[], by simp, by simp, by simp, by simp⟩

/-- Only a build with an allowance shares, and the duty limit then holds with the shares made (R74, R78). -/
theorem Build.Shared.duty {b a : Build} {p : Part} {f : Word} (hb : b.Shared p f a) {h : Nat}
    (ha : a.allowance = p.setup.dutyLimit - (h + a.downList.length)) {g : DownGrant} (hg : g ∈ b.downList)
    (hc : g.cls ≠ .stop) : h + b.downList.length ≤ p.setup.dutyLimit := by
  have allowance := hb.allowance
  have shared : a.downList.length < b.downList.length := by
    rw [← hb.stops]
    exact List.length_filter_lt_length_iff_exists.mpr ⟨g, hg, by simpa using hc⟩
  omega

/-- A build in ON (R70, R74–R79): its STOP pass, its allowance, its poll pass, and the shares of CONTROL and BULK. -/
theorem buildPasses_planned (p : Part) (f : Word) : ∃ polls rest, (buildPasses p f).Planned p f polls rest := by
  obtain ⟨vs, candidates, stops⟩ := Build.stopPass_stopsGranted p.startBuild_stopsGranted
  rw [buildPasses_eq]
  generalize p.startBuild.stopPass p.pool.records p.adm.nextAdm = a at stops ⊢
  have allowed : (a.allow p).Tallied p := stops.tallied.of_eq rfl rfl rfl rfl rfl
  have states : ∀ k : ShortId, (a.allow p).entries[k].state = (p.entry k).state := fun k => by
    have := congrArg Entry.state (stops.entries k)
    exact this
  have polled := Build.pollPass_pollsGranted (f := f) allowed states
  generalize (a.allow p).pollPass p.setup.pollPeriod f = b at polled ⊢
  have heard : ∀ k, p.polledIn f k → k ∈ b.upList ∨ b.noPoll := fun k => polled.missed k (mem_shortIds k)
  have hstops : ∀ g ∈ b.downList, g.cls = .stop := by rw [polled.downs]; exact stops.stops
  obtain ⟨control, grew, ofControl, controlDone⟩ := (stops.shared polled).pass (c := .control) nofun heard Config.scheduled
    (fun _ h hh => by rw [hstops h hh]; nofun) (Nat.le_add_right _ _)
  obtain ⟨bulk, grew', -, bulkDone⟩ := control.pass (c := .bulk) nofun heard Config.scheduled nofun (Nat.le_add_right _ _)
  generalize Build.sharePass p.pool.records .control Config.scheduled b = d at *
  generalize Build.sharePass p.pool.records .bulk Config.scheduled d = e at *
  have allowance : b.allowance = p.setup.dutyLimit - (p.planner.h1 + p.planner.h2 + p.planner.h3 + b.downList.length) := by
    rw [polled.allowance, polled.downs, show (a.allow p).downList = a.downList from rfl, ← stops.tallied.downs]
    rfl
  obtain ⟨polls, hpolls, sorted, hpolled⟩ := polled.ups
  have grown : a.Grows e :=
    Build.Grows.trans ⟨⟨[], (List.append_nil _).trans polled.downs.symm⟩, ⟨polls, hpolls.symm⟩⟩ bulk.grows
  obtain ⟨rest, hrest, answers⟩ := bulk.ups
  have ups : b.upList = e.stopCars ++ polls := by
    rw [Build.stopCars, bulk.stops, hpolls, polled.downs]
    exact congrArg (· ++ polls) stops.ups
  refine ⟨polls, rest, ?_⟩
  constructor
  case tallied => exact bulk.tallied
  case entries => exact bulk.entries
  case grants => rw [← ups]; exact bulk.grants
  case ups => rw [← ups]; exact hrest
  case sorted => exact sorted
  case polled => exact fun k hk => (hpolled k hk).2
  case answers => exact answers
  case stops =>
    intro k r hk
    refine (stops.missed k ((candidates k).mpr ⟨r, hk⟩)).imp (fun h => ?_) grown.noRoom
    obtain ⟨g, hg, hgk⟩ := List.mem_map.mp h
    exact ⟨g, grown.downs.subset hg, hgk, stops.stops g hg⟩
  case heard => exact fun k hk => (heard k hk).imp (fun h => bulk.grows.ups.subset h) bulk.grows.noPoll
  case shares =>
    intro k c i r hc hr hs
    cases c with
    | stop => exact absurd rfl hc
    | control => exact grew'.exhausted (control.exhausted (controlDone k) (by omega) hr hs)
    | bulk => exact bulk.exhausted (bulkDone k) (by omega) hr hs
  case duty => exact fun g hg hc => bulk.duty allowance hg hc

/-! ### The slots of the plan (R81) -/

theorem Build.mem_layout_down {b : Build} {g : DownGrant} : SlotUse.down g ∈ b.layout ↔ g ∈ b.downList := by
  simp [Build.layout]

theorem Build.mem_layout_up {b : Build} {k : ShortId} : SlotUse.up k ∈ b.layout ↔ k ∈ b.upList := by
  simp [Build.layout]

/-- The down grants of a layout in slot order are those of the build in the order they were made. -/
theorem Build.layout_downs {b : Build} {F : SlotUse → Option DownGrant} (down : ∀ g, F (.down g) = some g)
    (up : ∀ k, F (.up k) = none) (idle : F .idle = none) : b.layout.filterMap F = b.downList := by
  simp [Build.layout, List.filterMap_append, List.filterMap_map, ← List.map_reverse, down, up, idle,
    List.filterMap_replicate_of_none]

/-- The up slots of a layout from slot 39 downward are the up grant order of the build. -/
theorem Build.layout_ups {b : Build} {F : SlotUse → Option ShortId} (down : ∀ g, F (.down g) = none)
    (up : ∀ k, F (.up k) = some k) (idle : F .idle = none) : b.layout.reverse.filterMap F = b.upList := by
  simp [Build.layout, List.filterMap_append, List.filterMap_map, ← List.map_reverse, down, up, idle,
    List.filterMap_replicate_of_none]

theorem Build.layout_getElem?_down {b : Build} {n : Nat} {g : DownGrant} (h : b.downList[n]? = some g) :
    b.layout[n]? = some (.down g) := by
  have hn := (List.getElem?_eq_some_iff.mp h).1
  rw [Build.layout, List.append_assoc, List.getElem?_append_left (by simpa using hn), List.getElem?_map, h]
  rfl

theorem Build.layout_getElem?_up {b : Build} {n : Nat} {k : ShortId} (h : b.upList[n]? = some k) :
    b.layout.reverse[n]? = some (.up k) := by
  have hn := (List.getElem?_eq_some_iff.mp h).1
  rw [Build.layout, List.reverse_append, List.reverse_reverse, List.getElem?_append_left (by simpa using hn),
    List.getElem?_map, h]
  rfl

theorem Build.layout_countP {b : Build} {P : SlotUse → Bool} (idle : P .idle = false) :
    b.layout.countP P = b.downList.countP (fun g => P (.down g)) + b.upList.countP (fun k => P (.up k)) := by
  simp [Build.layout, List.countP_map, List.countP_replicate, Function.comp_def, idle]

end Sys2Proof.Machine
end

