-- ==== Sys2Proof/Proofs/PlanHandOff.lean ====
section
/-! PROOF. The hand-off of a plan (R82, R110, R111, R120, R123): obligation O24. -/

namespace Sys2Proof.Machine

/-! ### One DOWN slot entry (R110) -/

/-- The seq that the next new message of a grant's car and class takes (R110). -/
def Part.freshSeq (p : Part) (g : DownGrant) : Seq := (p.entry g.sid).nextSeq.get g.cls

/-- The fragment entry of a DOWN slot entry for its record and the seq that this has (R110). -/
def FragEntry.ofGrant (slot : Nat) (g : DownGrant) (r : MsgRecord) (seq : Seq) : FragEntry :=
  let last := decide (g.offset + g.len = r.len)
  { slot := slot, sid := g.sid, record := g.record, cls := g.cls, rate := g.rate, seq := seq
    offset := g.offset, len := g.len, hdr := r.hdr, stamp := r.stamp, table := r.table, last := last
    sumPresent := last && r.sumStart.isSome, cond := .waiting, live := true, whole := false }

/-- The part with a fragment entry put behind the fetch queue. -/
def Part.withFragment (p : Part) (e : FragEntry) : Part := { p with tx := { p.tx with queue := p.tx.queue ++ [e] } }

/-- The part with a grant's record given its car's next seq of its class, which goes up by one (R110). -/
def Part.seqTaken (p : Part) (g : DownGrant) : Part :=
  (p.editRecord g.record (fun r => { r with seq := some (p.freshSeq g) })).setEntry g.sid
    { p.entry g.sid with nextSeq := (p.entry g.sid).nextSeq.put g.cls (p.freshSeq g + 1) }

theorem Part.queueFragment_none {p : Part} {g : DownGrant} (h : p.record g.record = none) (slot : Nat) :
    p.queueFragment slot g = p := by
  simp only [Part.queueFragment, h]

theorem Part.queueFragment_some {p : Part} {g : DownGrant} {r : MsgRecord} (h : p.record g.record = some r) (slot : Nat) :
    p.queueFragment slot g = (if r.seq.isSome then p else p.seqTaken g).withFragment
      (.ofGrant slot g r (r.seq.getD (p.freshSeq g))) := by
  simp only [Part.queueFragment, h]
  rfl

theorem Part.seqTaken_record_self {p : Part} {g : DownGrant} {r : MsgRecord} (h : p.record g.record = some r) :
    (p.seqTaken g).record g.record = some { r with seq := some (p.freshSeq g) } :=
  (p.record_editRecord_self g.record _).trans (by rw [h]; rfl)

theorem Part.seqTaken_record_other (p : Part) {g : DownGrant} {i : PoolId} (h : i ≠ g.record) :
    (p.seqTaken g).record i = p.record i := p.record_editRecord_other _ h

theorem Part.seqTaken_entry_other (p : Part) {g : DownGrant} {k : ShortId} (h : k ≠ g.sid) :
    (p.seqTaken g).entry k = p.entry k := Part.entry_setEntry_other _ _ h

theorem Part.seqTaken_entry_self (p : Part) (g : DownGrant) : (p.seqTaken g).entry g.sid =
    { p.entry g.sid with nextSeq := (p.entry g.sid).nextSeq.put g.cls (p.freshSeq g + 1) } :=
  Part.entry_setEntry_self _ _ _

theorem Part.seqTaken_nextSeq (p : Part) (g : DownGrant) (k : ShortId) (c : MsgClass) :
    ((p.seqTaken g).entry k).nextSeq.get c =
      (p.entry k).nextSeq.get c + if g.sid = k ∧ g.cls = c then 1 else 0 := by
  by_cases hk : k = g.sid
  · subst hk
    rw [p.seqTaken_entry_self]
    by_cases hc : c = g.cls
    · subst hc
      simp [Part.freshSeq]
    · simp [PerClass.get_put_other _ _ hc, Ne.symm hc]
  · rw [p.seqTaken_entry_other hk]
    simp [Ne.symm hk]

/-! ### The DOWN slot entries of a plan, one after the other (R82, R110) -/

/-- Grants of a plan: each of its car's CURRENT message of its class, so that record and car with class name each
other (R68, R80). -/
structure Part.GrantsCurrent (p : Part) (xs : List (Nat × DownGrant)) : Prop where
  recorded : ∀ x ∈ xs, ∃ r, p.record x.2.record = some r
  same : ∀ x ∈ xs, ∀ y ∈ xs, x.2.record = y.2.record ↔ x.2.sid = y.2.sid ∧ x.2.cls = y.2.cls

/-- Whether a DOWN slot entry is of a car and class whose record has no seq yet. -/
def Part.takesSeq (p : Part) (k : ShortId) (c : MsgClass) (g : DownGrant) : Bool :=
  decide (g.sid = k ∧ g.cls = c) && (p.record g.record).any (fun r => r.seq.isNone)

/-- The part `q` is `p` with the DOWN slot entries `ys` queued (R110). -/
structure Part.Queued (q p : Part) (ys : List (Nat × DownGrant)) : Prop where
  frame : q = { p with
    tx := { p.tx with queue := q.tx.queue }
    roster := { p.roster with entries := q.roster.entries }
    pool := { p.pool with records := q.pool.records } }
  queue : q.tx.queue = p.tx.queue ++ ys.filterMap (fun x =>
    (p.record x.2.record).map (fun r => .ofGrant x.1 x.2 r (r.seq.getD (p.freshSeq x.2))))
  granted : ∀ x ∈ ys, ∀ r, p.record x.2.record = some r →
    q.record x.2.record = some { r with seq := some (r.seq.getD (p.freshSeq x.2)) }
  others : ∀ i, (∀ x ∈ ys, x.2.record ≠ i) → q.record i = p.record i
  entries : ∀ k, { q.entry k with nextSeq := (p.entry k).nextSeq } = p.entry k
  nextSeq : ∀ k c, (q.entry k).nextSeq.get c =
    (p.entry k).nextSeq.get c + if ys.any (fun x => p.takesSeq k c x.2) then 1 else 0

theorem Part.Queued.nil (p : Part) : p.Queued p [] where
  frame := rfl
  queue := (List.append_nil _).symm
  granted := nofun
  others _ _ := rfl
  entries _ := rfl
  nextSeq k c := by simp

/-- One more entry queued, once its record has its seq. -/
theorem Part.Queued.withFragment {q v p : Part} {ys : List (Nat × DownGrant)} (h : q.Queued p ys) {x : Nat × DownGrant}
    {r : MsgRecord} (hr : p.record x.2.record = some r)
    (frame : v = { q with
      roster := { q.roster with entries := v.roster.entries }, pool := { q.pool with records := v.pool.records } })
    (fresh : ∀ y ∈ ys, y.2.record = x.2.record → p.freshSeq y.2 = p.freshSeq x.2)
    (self : v.record x.2.record = some { r with seq := some (r.seq.getD (p.freshSeq x.2)) })
    (other : ∀ i, i ≠ x.2.record → v.record i = q.record i)
    (entries : ∀ k, { v.entry k with nextSeq := (q.entry k).nextSeq } = q.entry k)
    (nextSeq : ∀ k c, (v.entry k).nextSeq.get c =
      (p.entry k).nextSeq.get c + if (ys ++ [x]).any (fun x => p.takesSeq k c x.2) then 1 else 0) :
    (v.withFragment (.ofGrant x.1 x.2 r (r.seq.getD (p.freshSeq x.2)))).Queued p (ys ++ [x]) where
  frame := by
    rw [h.frame] at frame
    rw [frame]
    rfl
  queue := by
    have hv : v.tx.queue = q.tx.queue := by rw [frame]
    rw [List.filterMap_append, ← List.append_assoc, ← h.queue, ← hv]
    simp [Part.withFragment, hr]
  granted := by
    intro y hy s hs
    show v.record y.2.record = _
    rcases List.mem_append.mp hy with hy | hy
    · by_cases e : y.2.record = x.2.record
      · rw [fresh y hy e]
        rw [e] at hs ⊢
        obtain rfl := Option.some.inj (hr.symm.trans hs)
        exact self
      · rw [other _ e]
        exact h.granted y hy s hs
    · obtain rfl := List.mem_singleton.mp hy
      obtain rfl := Option.some.inj (hr.symm.trans hs)
      exact self
  others := by
    intro i hi
    exact (other i (hi x (by simp)).symm).trans (h.others i fun y hy => hi y (List.mem_append_left _ hy))
  entries := by
    intro k
    have := congrArg (fun e : Entry => { e with nextSeq := (p.entry k).nextSeq }) (entries k)
    exact this.trans (h.entries k)
  nextSeq := nextSeq

theorem Part.takesSeq_iff {p : Part} {g : DownGrant} {r : MsgRecord} (hr : p.record g.record = some r) (k : ShortId)
    (c : MsgClass) : p.takesSeq k c g = true ↔ (g.sid = k ∧ g.cls = c) ∧ r.seq = none := by
  simp [Part.takesSeq, hr]

/-- A fragment of a record that an entry before it named: the record has its seq by then (R110). -/
theorem Part.Queued.visit_named {q p : Part} {ys : List (Nat × DownGrant)} (h : q.Queued p ys) {x y : Nat × DownGrant}
    {r : MsgRecord} (hr : p.record x.2.record = some r)
    (fresh : ∀ y ∈ ys, y.2.record = x.2.record → p.freshSeq y.2 = p.freshSeq x.2)
    (hy : y ∈ ys) (e : y.2.record = x.2.record) (same : y.2.sid = x.2.sid ∧ y.2.cls = x.2.cls) :
    (q.queueFragment x.1 x.2).Queued p (ys ++ [x]) := by
  have self : q.record x.2.record = some { r with seq := some (r.seq.getD (p.freshSeq x.2)) } := by
    rw [← fresh y hy e, ← e]
    exact h.granted y hy r (e ▸ hr)
  have before : ∀ k c, (ys ++ [x]).any (fun x => p.takesSeq k c x.2) = ys.any (fun x => p.takesSeq k c x.2) := by
    intro k c
    rw [List.any_append, List.any_cons, List.any_nil, Bool.or_false, Bool.or_eq_left_iff_imp, Part.takesSeq_iff hr]
    rintro ⟨⟨hk, hc⟩, hn⟩
    refine List.any_eq_true.mpr ⟨y, hy, (Part.takesSeq_iff (e ▸ hr) k c).mpr ⟨⟨?_, ?_⟩, hn⟩⟩
    · rw [same.1, hk]
    · rw [same.2, hc]
  rw [Part.queueFragment_some self]
  have queued := h.withFragment hr rfl fresh self (fun _ _ => rfl) (fun _ => rfl)
    (fun k c => by rw [before]; exact h.nextSeq k c)
  exact queued

/-- A fragment of a record that has a seq from before the plan (R110). -/
theorem Part.Queued.visit_seq {q p : Part} {ys : List (Nat × DownGrant)} (h : q.Queued p ys) {x : Nat × DownGrant}
    {r : MsgRecord} {s : Seq} (hr : p.record x.2.record = some r) (hs : r.seq = some s)
    (fresh : ∀ y ∈ ys, y.2.record = x.2.record → p.freshSeq y.2 = p.freshSeq x.2)
    (self : q.record x.2.record = some r) : (q.queueFragment x.1 x.2).Queued p (ys ++ [x]) := by
  have nothing : ∀ k c, p.takesSeq k c x.2 = false := fun k c => by
    rw [Bool.eq_false_iff, Ne, Part.takesSeq_iff hr, hs]
    simp
  have self' : q.record x.2.record = some { r with seq := some (r.seq.getD (p.freshSeq x.2)) } := by
    rw [self, hs, Option.getD_some, ← hs]
  have seq : ∀ z, r.seq.getD z = s := fun z => by rw [hs]; rfl
  have queued := h.withFragment hr rfl fresh self' (fun _ _ => rfl) (fun _ => rfl) fun k c => by
    rw [List.any_append, List.any_cons, nothing, List.any_nil, Bool.or_false, Bool.or_false]
    exact h.nextSeq k c
  rw [seq] at queued
  rwa [Part.queueFragment_some self, seq, if_pos (by rw [hs]; rfl)]

/-- A fragment of a record that gets its seq now: its car's next one of its class still stands (R110). -/
theorem Part.Queued.visit_fresh {q p : Part} {ys : List (Nat × DownGrant)} (h : q.Queued p ys) {x : Nat × DownGrant}
    {r : MsgRecord} (hr : p.record x.2.record = some r) (hs : r.seq = none)
    (fresh : ∀ y ∈ ys, y.2.record = x.2.record → p.freshSeq y.2 = p.freshSeq x.2)
    (self : q.record x.2.record = some r) (first : ∀ y ∈ ys, ¬ (y.2.sid = x.2.sid ∧ y.2.cls = x.2.cls)) :
    (q.queueFragment x.1 x.2).Queued p (ys ++ [x]) := by
  have before : ∀ k c, (x.2.sid = k ∧ x.2.cls = c) → ys.any (fun x => p.takesSeq k c x.2) = false := by
    rintro k c ⟨rfl, rfl⟩
    rw [List.any_eq_false]
    intro y hy
    simp [Part.takesSeq, first y hy]
  have next : q.freshSeq x.2 = p.freshSeq x.2 := by
    have := h.nextSeq x.2.sid x.2.cls
    rw [before _ _ ⟨rfl, rfl⟩, if_neg Bool.false_ne_true, add_zero] at this
    exact this
  have seq : ∀ z, r.seq.getD z = z := fun z => by rw [hs]; rfl
  rw [Part.queueFragment_some self, next, if_neg (by rw [hs]; exact Bool.false_ne_true)]
  refine h.withFragment hr rfl fresh ?_ (fun i hi => q.seqTaken_record_other hi) (fun k => ?_) (fun k c => ?_)
  · rw [Part.seqTaken_record_self self, next, seq]
  · by_cases hk : k = x.2.sid
    · subst hk
      rw [q.seqTaken_entry_self]
    · rw [q.seqTaken_entry_other hk]
  · rw [Part.seqTaken_nextSeq, h.nextSeq, List.any_append, List.any_cons, List.any_nil, Bool.or_false]
    by_cases hx : x.2.sid = k ∧ x.2.cls = c
    · rw [before k c hx, (Part.takesSeq_iff hr k c).mpr ⟨hx, hs⟩, if_pos hx]
      simp
    · have other : p.takesSeq k c x.2 = false := by
        rw [Bool.eq_false_iff, Ne, Part.takesSeq_iff hr]
        exact fun h => hx h.1
      rw [other, Bool.or_false, if_neg hx, add_zero]

/-- The DOWN slot entries of a plan, all queued (R82, R110). -/
theorem Part.queued_all {p : Part} {xs : List (Nat × DownGrant)} (h : p.GrantsCurrent xs) :
    (xs.foldl (fun q x => q.queueFragment x.1 x.2) p).Queued p xs := by
  refine foldl_visits (I := fun ys (q : Part) => q.Queued p ys) xs (fun ys x rest q hl hq => ?_) (.nil p)
  have hx : x ∈ xs := by simp [hl]
  have hys : ∀ y ∈ ys, y ∈ xs := fun y hy => by simp [hl, hy]
  obtain ⟨r, hr⟩ := h.recorded x hx
  have fresh : ∀ y ∈ ys, y.2.record = x.2.record → p.freshSeq y.2 = p.freshSeq x.2 := by
    intro y hy e
    obtain ⟨hk, hc⟩ := (h.same y (hys y hy) x hx).mp e
    rw [Part.freshSeq, hk, hc, Part.freshSeq]
  by_cases old : ∃ y ∈ ys, y.2.record = x.2.record
  · obtain ⟨y, hy, e⟩ := old
    exact hq.visit_named hr fresh hy e ((h.same y (hys y hy) x hx).mp e)
  · have self : q.record x.2.record = some r := (hq.others _ fun y hy e => old ⟨y, hy, e⟩).trans hr
    cases hs : r.seq with
    | some s => exact hq.visit_seq hr hs fresh self
    | none => exact hq.visit_fresh hr hs fresh self fun y hy e => old ⟨y, hy, (h.same y (hys y hy) x hx).mpr e⟩

/-! ### The answer lists (R111) -/

theorem answerList_isSome (queue : List FragEntry) (f : Word) (k : ShortId) :
    (answerList queue f k).map AnswerList.sid = if queue.any (fun e => e.sid = k) then some k else none := by
  have empty : (((queue.filter (fun e => e.sid = k)).map (fun e => (e.record, e.seq))).isEmpty = true) ↔
      queue.any (fun e => e.sid = k) = false := by
    simp [List.isEmpty_iff, List.filter_eq_nil_iff]
  unfold answerList
  by_cases h : queue.any (fun e => e.sid = k) = true
  · rw [if_neg (fun e => by simp [empty.mp e] at h), if_pos h]
    rfl
  · rw [if_pos (empty.mpr (by simpa using h)), if_neg h]
    rfl

/-- The answer lists of a fetch queue: one for each car with a fragment, of the records granted to it (R111). -/
theorem answerLists_spec (queue : List FragEntry) (f : Word) :
    (shortIds.filterMap (answerList queue f)).map AnswerList.sid =
        shortIds.filter (fun k => queue.any (fun e => e.sid = k)) ∧
      ∀ l ∈ shortIds.filterMap (answerList queue f), l.frame = f ∧ l.records.Nodup ∧
        ∀ i sq, (i, sq) ∈ l.records ↔ ∃ e, e ∈ queue ∧ e.sid = l.sid ∧ e.record = i ∧ e.seq = sq := by
  constructor
  · rw [List.map_filterMap, ← List.filterMap_eq_filter]
    refine List.filterMap_congr fun k _ => ?_
    rw [answerList_isSome]
    simp [Option.guard]
  · intro l hl
    obtain ⟨k, -, hk⟩ := List.mem_filterMap.mp hl
    unfold answerList at hk
    dsimp only at hk
    split at hk
    · cases hk
    · obtain rfl := Option.some.inj hk
      refine ⟨rfl, List.nodup_dedup _, fun i sq => ?_⟩
      simp [List.mem_dedup, and_assoc]

/-! ### The hand-off (R82) -/

/-- The DOWN slot entries are the down slots of the plan (R82). -/
theorem mem_planDowns {slots : List SlotUse} {g : DownGrant} :
    (∃ n, (n, g) ∈ planDowns slots) ↔ SlotUse.down g ∈ slots := by
  have slot : ∀ (i : Nat) n, i < slots.length → ((match slots.getD i .idle with
      | .down g => some (i + 4, g)
      | _ => none) = some (n, g) ↔ slots[i]? = some (.down g) ∧ n = i + 4) := by
    intro i n hi
    rw [List.getD_eq_getElem?_getD, List.getElem?_eq_getElem hi]
    cases slots[i] with
    | idle | up k => simp
    | down h => simp [and_comm, eq_comm]
  simp only [planDowns, List.mem_filterMap, List.mem_range]
  constructor
  · rintro ⟨n, i, hi, h⟩
    exact List.mem_of_getElem? ((slot i n hi).mp h).1
  · intro h
    obtain ⟨i, hi⟩ := List.mem_iff_getElem?.mp h
    have hlt := (List.getElem?_eq_some_iff.mp hi).1
    exact ⟨i + 4, i, hlt, (slot i _ hlt).mpr ⟨hi, rfl⟩⟩

/-- What is made of the DOWN slot entries is made of the down slots, in slot order (R82). -/
theorem planDowns_filterMap {β : Type} (slots : List SlotUse) {F : Nat × DownGrant → Option β}
    {G : Nat → SlotUse → Option β} (down : ∀ i g, G i (.down g) = F (i + 4, g)) (up : ∀ i k, G i (.up k) = none) (idle : ∀ i, G i .idle = none) :
    (planDowns slots).filterMap F = (List.range slots.length).filterMap (fun i => (slots[i]?).bind (G i)) := by
  rw [planDowns, List.filterMap_filterMap]
  refine List.filterMap_congr fun i hi => ?_
  have hi := List.mem_range.mp hi
  rw [List.getD_eq_getElem?_getD, List.getElem?_eq_getElem hi]
  cases slots[i] with
  | idle => simp [idle]
  | up k => simp [up]
  | down g => simp [down]

theorem planDowns_any (slots : List SlotUse) {P : DownGrant → Bool} {F : SlotUse → Bool} (down : ∀ g, F (.down g) = P g)
    (up : ∀ k, F (.up k) = false) (idle : F .idle = false) : slots.any F = (planDowns slots).any (fun x => P x.2) := by
  rw [Bool.eq_iff_iff, List.any_eq_true, List.any_eq_true]
  constructor
  · rintro ⟨u, hu, h⟩
    cases u with
    | idle => rw [idle] at h; cases h
    | up k => rw [up] at h; cases h
    | down g =>
      obtain ⟨n, hn⟩ := mem_planDowns.mpr hu
      exact ⟨(n, g), hn, (down g).symm.trans h⟩
  · rintro ⟨x, hx, h⟩
    exact ⟨.down x.2, mem_planDowns.mp ⟨x.1, hx⟩, (down x.2).trans h⟩

/-- The planner and the roster that a build hands off (R70, R73), the old frame's fetches gone (R123, log 23). -/
def Part.planMade (p : Part) (f : Word) : Part :=
  let q := if p.timer.substate = .on then
      { p with
        roster := { p.roster with entries := (buildPasses p f).entries }
        planner := p.planner.shift (p.timer.silence.silent f) ((buildPasses p f).plan f) }
    else { p with planner := p.planner.shift (p.timer.silence.silent f) (Plan.blank f) }
  { q with tx := { q.tx with queue := [], staging := [], late := [] }, arb := q.arb.dropFetch }

/-- A build makes its plan, queues the DOWN slot entries, and makes the answer lists (R70, R82, R111). -/
theorem Part.buildPlan_eq (p : Part) (f : Word) : p.buildPlan f =
    (let q := (planDowns (p.planMade f).planner.plan.slots).foldl (fun q x => q.queueFragment x.1 x.2) (p.planMade f)
     { q with pool := { q.pool with
       answers := q.pool.answers ++ shortIds.filterMap (answerList q.tx.queue q.planner.plan.frame) } }) := rfl

theorem Part.planMade_on {p : Part} (h : p.timer.substate = .on) (f : Word) : p.planMade f = { p with
    roster := { p.roster with entries := (buildPasses p f).entries }
    planner := p.planner.shift (p.timer.silence.silent f) ((buildPasses p f).plan f)
    tx := { p.tx with queue := [], staging := [], late := [] }
    arb := p.arb.fetchDropped } := by
  rw [← Arbiter.dropFetch_eq]
  simp only [Part.planMade, h, if_true]

theorem Part.planMade_off {p : Part} (h : p.timer.substate ≠ .on) (f : Word) : p.planMade f = { p with
    planner := p.planner.shift (p.timer.silence.silent f) (Plan.blank f)
    tx := { p.tx with queue := [], staging := [], late := [] }
    arb := p.arb.fetchDropped } := by
  rw [← Arbiter.dropFetch_eq]
  simp only [Part.planMade, h, if_false]

theorem Part.planMade_frame (p : Part) (f : Word) : p.planMade f = { p with
    planner := (p.planMade f).planner
    roster := { p.roster with entries := (p.planMade f).roster.entries }
    tx := { p.tx with queue := [], staging := [], late := [] }
    arb := p.arb.fetchDropped } := by
  by_cases on : p.timer.substate = .on
  · rw [Part.planMade_on on]
  · rw [Part.planMade_off on]

theorem Part.planMade_plan_frame (p : Part) (f : Word) : (p.planMade f).planner.plan.frame = f := by
  by_cases on : p.timer.substate = .on
  · rw [Part.planMade_on on]
    rfl
  · rw [Part.planMade_off on]
    rfl

theorem Part.planMade_entry_on {p : Part} (h : p.timer.substate = .on) (f : Word) (k : ShortId) :
    (p.planMade f).entry k = (buildPasses p f).entries[k] := by
  have entries : (p.planMade f).roster.entries = (buildPasses p f).entries := by rw [Part.planMade_on h]
  unfold Part.entry
  rw [entries]

theorem Part.planMade_entry_off {p : Part} (h : p.timer.substate ≠ .on) (f : Word) (k : ShortId) :
    (p.planMade f).entry k = p.entry k := by
  have roster : (p.planMade f).roster = p.roster := by rw [Part.planMade_off h]
  unfold Part.entry
  rw [roster]

/-- A build changes of an entry its credit and dirty mark alone (R75, R79). -/
theorem Part.planMade_entry_fields (p : Part) (f : Word) (k : ShortId) :
    { (p.planMade f).entry k with credit := (p.entry k).credit, dirty := (p.entry k).dirty } = p.entry k := by
  by_cases on : p.timer.substate = .on
  · obtain ⟨polls, rest, planned⟩ := buildPasses_planned p f
    rw [Part.planMade_entry_on on, planned.entries]
    unfold Part.chargedEntry
    generalize p.entry k = e
    rfl
  · rw [Part.planMade_entry_off on]

theorem Part.planMade_record (p : Part) (f : Word) (i : PoolId) : (p.planMade f).record i = p.record i :=
  Part.record_of_pool (by rw [p.planMade_frame]) i

theorem Part.planMade_nextSeq (p : Part) (f : Word) (k : ShortId) :
    ((p.planMade f).entry k).nextSeq = (p.entry k).nextSeq := by
  have := congrArg Entry.nextSeq (p.planMade_entry_fields f k)
  exact this

/-- Every DOWN slot entry is of a CURRENT message (R68, R80). -/
theorem Part.planMade_current {p : Part} {f : Word} {g : DownGrant}
    (h : SlotUse.down g ∈ (p.planMade f).planner.plan.slots) : ∃ r, p.current g.sid g.cls = some (g.record, r) := by
  by_cases on : p.timer.substate = .on
  · obtain ⟨polls, rest, planned⟩ := buildPasses_planned p f
    rw [Part.planMade_on on] at h
    obtain ⟨n, r, hr, -⟩ := planned.tallied.continues.exists_of_mem (Build.mem_layout_down.mp h)
    exact ⟨r, hr⟩
  · rw [Part.planMade_off on] at h
    exact nomatch (List.mem_replicate.mp h).2

/-- With class queues and records in agreement, the grants of a plan and their records name each other (R95). -/
theorem State.grantsCurrent {s : State} (hq : s.queuesOk) (f : Word) :
    (s.part.planMade f).GrantsCurrent (planDowns (s.part.planMade f).planner.plan.slots) := by
  have named : ∀ x ∈ planDowns (s.part.planMade f).planner.plan.slots, ∃ r, s.part.record x.2.record = some r ∧
      r.sid = x.2.sid ∧ r.cls = x.2.cls ∧ s.part.current x.2.sid x.2.cls = some (x.2.record, r) := by
    intro x hx
    obtain ⟨r, hr⟩ := Part.planMade_current (mem_planDowns.mp ⟨x.1, hx⟩)
    obtain ⟨hi, hk, hc, -⟩ := (State.current_iff hq).mp hr
    exact ⟨r, hi, hk, hc, hr⟩
  refine ⟨fun x hx => ?_, fun x hx y hy => ?_⟩
  · obtain ⟨r, hr, -⟩ := named x hx
    exact ⟨r, (s.part.planMade_record f _).trans hr⟩
  · obtain ⟨r, hr, hrk, hrc, hcur⟩ := named x hx
    obtain ⟨t, ht, htk, htc, hcur'⟩ := named y hy
    constructor
    · intro e
      rw [e, ht] at hr
      obtain rfl := Option.some.inj hr
      exact ⟨hrk.symm.trans htk, hrc.symm.trans htc⟩
    · rintro ⟨hk, hc⟩
      rw [hk, hc, hcur'] at hcur
      exact (Prod.mk.inj (Option.some.inj hcur)).1.symm

/-! ### O24 -/

/-- Settles O24, by the DOWN slot entries queued one after the other onto the plan just made. -/
theorem planHandedOff : Obligations.PlanHandedOff := by
  intro s f hq p q slots fresh fragment
  have current : (p.planMade f).GrantsCurrent _ := s.grantsCurrent hq f
  have queued := Part.queued_all current
  have hplan : q = _ := p.buildPlan_eq f
  have made := p.planMade_frame f
  have frame := p.planMade_plan_frame f
  have entry := p.planMade_entry_fields f
  have record := p.planMade_record f
  have mSeq := p.planMade_nextSeq f
  generalize (planDowns (p.planMade f).planner.plan.slots).foldl (fun q x => q.queueFragment x.1 x.2) (p.planMade f) = v
    at hplan queued
  generalize p.planMade f = m at *
  obtain ⟨hv, queue, granted, others, entries, nextSeq⟩ := queued
  have freshEq : ∀ g, m.freshSeq g = fresh g := fun g => by rw [Part.freshSeq, mSeq]
  have planner : v.planner = m.planner := by rw [hv]
  have vtx : v.tx = { p.tx with queue := v.tx.queue, staging := [], late := [] } := by rw [hv, made]
  have slots_eq : slots = m.planner.plan.slots := by
    rw [← planner]
    show q.planner.plan.slots = _
    rw [hplan]
  have qrecord : ∀ i, q.record i = v.record i := fun i => by rw [hplan]; rfl
  have qentry : ∀ k, q.entry k = v.entry k := fun k => by rw [hplan]; rfl
  have qtx : q.tx = v.tx := by rw [hplan]
  have fragments : v.tx.queue = (List.range slots.length).filterMap (fun i => (slots[i]?).bind (fragment i)) := by
    rw [queue, slots_eq, show m.tx.queue = [] by rw [made], List.nil_append]
    refine planDowns_filterMap (G := fragment) _ (fun i g => ?_) (fun _ _ => rfl) (fun _ => rfl)
    rw [record, freshEq]
    rfl
  have answers : q.pool.answers = p.pool.answers ++ shortIds.filterMap (answerList v.tx.queue f) := by
    rw [hplan]
    show v.pool.answers ++ shortIds.filterMap (answerList v.tx.queue v.planner.plan.frame) = _
    rw [planner, frame, show v.pool.answers = p.pool.answers by rw [hv, made]]
  obtain ⟨sids, lists⟩ := answerLists_spec v.tx.queue f
  refine ⟨by rw [hplan, hv, made], by rw [qtx, vtx, fragments], fun i r hr => ⟨fun g hg hgi => ?_, fun hi => ?_⟩,
    fun i hi => ?_, fun k => ?_, fun k c => ?_,
    shortIds.filterMap (answerList v.tx.queue f), answers, by rw [qtx]; exact sids, by rw [qtx]; exact lists⟩
  · obtain ⟨n, hn⟩ := mem_planDowns.mpr (slots_eq ▸ hg)
    rw [qrecord, ← hgi, ← freshEq]
    exact granted (n, g) hn r (by rw [record, hgi, hr])
  · rw [qrecord, others i fun x hx => hi x.2 (slots_eq ▸ mem_planDowns.mp ⟨x.1, hx⟩), record, hr]
  · rw [qrecord, others i fun x hx e => ?_, record, hi]
    obtain ⟨r, hr⟩ := current.recorded x hx
    rw [e, record, hi] at hr
    cases hr
  · rw [qentry, ← mSeq]
    exact (congrArg (fun e : Entry => { e with credit := (p.entry k).credit, dirty := (p.entry k).dirty })
      (entries k)).trans (entry k)
  · rw [qentry, nextSeq, mSeq]
    congr 1
    rw [slots_eq, planDowns_any (P := m.takesSeq k c) _ (fun g => ?_) (fun _ => rfl) rfl]
    rw [Part.takesSeq, record]

end Sys2Proof.Machine
end

