-- ==== Sys2Proof/Proofs/PlanBuilt.lean ====
section
/-! PROOF. The plan that a build leaves (R67, R70–R75, R79): obligation O22. -/

namespace Sys2Proof.Machine

/-! ### What the hand-off leaves of the build (R82) -/

theorem Part.buildPlan_planner (p : Part) (f : Word) : (p.buildPlan f).planner = (p.planMade f).planner := by
  rw [p.buildPlan_eq]
  exact foldl_keeps Part.planner _ (fun q x => by simp) _ _

/-- The queuing of a fragment leaves every credit and dirty mark (R110). -/
theorem Part.queueFragment_credit (p : Part) (slot : Nat) (g : DownGrant) (k : ShortId) :
    (((p.queueFragment slot g).entry k).credit, ((p.queueFragment slot g).entry k).dirty) =
      ((p.entry k).credit, (p.entry k).dirty) := by
  cases hr : p.record g.record with
  | none => rw [Part.queueFragment_none hr]
  | some r =>
    rw [Part.queueFragment_some hr]
    have stands : ∀ (q : Part) e, (q.withFragment e).entry k = q.entry k := fun _ _ => rfl
    rw [stands]
    split
    · rfl
    · by_cases hk : k = g.sid
      · subst hk
        rw [p.seqTaken_entry_self]
      · rw [p.seqTaken_entry_other hk]

theorem Part.buildPlan_credit (p : Part) (f : Word) (k : ShortId) :
    ((p.buildPlan f).entry k).credit = ((p.planMade f).entry k).credit ∧
      ((p.buildPlan f).entry k).dirty = ((p.planMade f).entry k).dirty := by
  rw [p.buildPlan_eq]
  exact Prod.mk.inj (foldl_keeps (fun q : Part => ((q.entry k).credit, (q.entry k).dirty)) _
    (fun q x => q.queueFragment_credit x.1 x.2 k) _ _)

/-- A build outside ON leaves an empty plan and the roster as it was (R70, log 28). -/
theorem Part.buildPlan_off {p : Part} (h : p.timer.substate ≠ .on) (f : Word) :
    (p.buildPlan f).planner.plan = Plan.blank f ∧ (p.buildPlan f).roster = p.roster := by
  have plan : (p.planMade f).planner.plan = Plan.blank f := by
    rw [Part.planMade_off h]
    rfl
  have noDowns : planDowns (Plan.blank f).slots = [] := by
    refine List.eq_nil_iff_forall_not_mem.mpr fun x hx => ?_
    exact nomatch (List.mem_replicate.mp (mem_planDowns.mp ⟨x.1, hx⟩)).2
  refine ⟨by rw [p.buildPlan_planner, plan], ?_⟩
  rw [p.buildPlan_eq, plan, noDowns]
  show (p.planMade f).roster = p.roster
  rw [Part.planMade_off h]

/-- The roster entries that a build in ON leaves: each with its credit as earned and charged (R75, R79). -/
theorem Part.buildPlan_charged {p : Part} (h : p.timer.substate = .on) (f : Word) (k : ShortId) :
    ((p.buildPlan f).entry k).credit = p.creditLeft k (buildPasses p f).downList ∧
      ((p.buildPlan f).entry k).dirty = p.creditDirty k (buildPasses p f).downList := by
  obtain ⟨polls, rest, planned⟩ := buildPasses_planned p f
  obtain ⟨credit, dirty⟩ := p.buildPlan_credit f k
  rw [credit, dirty, Part.planMade_entry_on h, planned.entries]
  exact ⟨p.chargedEntry_credit k _, p.chargedEntry_dirty k _⟩

theorem Part.buildPlan_slots_on {p : Part} (h : p.timer.substate = .on) (f : Word) :
    (p.buildPlan f).planner.plan.slots = (buildPasses p f).layout := by
  rw [p.buildPlan_planner, Part.planMade_on h]
  rfl

/-! ### The slots, whatever the substate (R66, R70, R81) -/

/-- A car has fewer than 8 down slots when it gets one more (R72, R76, R78). -/
theorem Part.Grantable.few {p : Part} {ups : List ShortId} {l : List DownGrant} {g : DownGrant} (h : p.Grantable ups l g) :
    grantsTo g.sid l < 8 := by
  by_cases hc : g.cls = .stop
  · obtain ⟨-, others⟩ := h.stop hc
    have none : grantsTo g.sid l = 0 := List.countP_eq_zero.mpr fun x hx => by simpa using (others x hx).2.1
    omega
  · obtain ⟨⟨-, -, limit, -⟩, -⟩ := h.picked hc
    exact limit

theorem Part.grantsTo_le {p : Part} {ups : List ShortId} {l : List DownGrant} (h : Chained (p.Grantable ups) l)
    (k : ShortId) : grantsTo k l ≤ 8 := by
  induction l using List.reverseRecOn with
  | nil => exact Nat.zero_le 8
  | append_singleton l g ih =>
    obtain ⟨hl, hg⟩ := h.of_append_one
    have few := hg.few
    rw [grantsTo_append_one]
    split
    · next e => rw [e] at few; omega
    · exact ih hl

/-- The plan that a build leaves is the layout of its grants; outside ON, of none (R70, R81). -/
theorem Part.buildPlan_layout (p : Part) (f : Word) : ∃ (b : Build) (ups : List ShortId),
    (p.buildPlan f).planner.plan.slots = b.layout ∧ b.Tallied p ∧ Chained (p.Grantable ups) b.downList ∧
      ∀ g ∈ b.downList, g.cls ≠ .stop →
        p.planner.h1 + p.planner.h2 + p.planner.h3 + b.downList.length ≤ p.setup.dutyLimit := by
  by_cases on : p.timer.substate = .on
  · obtain ⟨polls, rest, planned⟩ := buildPasses_planned p f
    exact ⟨_, _, Part.buildPlan_slots_on on f, planned.tallied, planned.grants, planned.duty⟩
  · refine ⟨p.startBuild, [], ?_, p.startBuild_stopsGranted.tallied, .nil _, nofun⟩
    rw [(Part.buildPlan_off on f).1]
    rfl

theorem Build.layout_count_up {p : Part} {b : Build} (h : b.Tallied p) (k : ShortId) : b.layout.count (.up k) ≤ 1 := by
  rw [List.count, Build.layout_countP (by rfl)]
  have downs : b.downList.countP (fun g => SlotUse.down g == .up k) = 0 := List.countP_eq_zero.mpr fun g _ => by simp
  have ups : (fun j => SlotUse.up j == .up k) = (· == k) := by
    funext j
    rw [Bool.eq_iff_iff]
    simp
  rw [downs, ups, Nat.zero_add]
  exact List.nodup_iff_count_le_one.mp h.upOnce k

/-! ### O22 -/

/-- The history after a build (R73). -/
theorem Part.buildPlan_history (p : Part) (f : Word) :
    (p.buildPlan f).planner.h1 =
        (if p.timer.silence.silent f then 0 else (p.buildPlan f).planner.plan.slots.countP SlotUse.isDown) ∧
      (p.buildPlan f).planner.h2 = p.planner.h1 ∧ (p.buildPlan f).planner.h3 = p.planner.h2 := by
  obtain ⟨-, downs, -⟩ := p.buildPlan_fits f
  rw [downs, p.buildPlan_planner]
  by_cases on : p.timer.substate = .on
  · rw [Part.planMade_on on]
    exact ⟨rfl, rfl, rfl⟩
  · rw [Part.planMade_off on]
    exact ⟨rfl, rfl, rfl⟩

/-- A build keeps every credit within ±64 (R75, R79). -/
theorem Part.buildPlan_credit_range {p : Part} {k : ShortId} (f : Word) (low : -64 ≤ (p.entry k).credit)
    (high : (p.entry k).credit ≤ 64) :
    -64 ≤ ((p.buildPlan f).entry k).credit ∧ ((p.buildPlan f).entry k).credit ≤ 64 := by
  by_cases on : p.timer.substate = .on
  · rw [(Part.buildPlan_charged on f k).1]
    exact Part.creditLeft_range _ low
  · rw [(p.buildPlan_credit f k).1, Part.planMade_entry_off on]
    exact ⟨low, high⟩

/-- Settles O22, by the grants that the plan lays out and the history and credits that the build leaves. -/
theorem planBuilt : Obligations.PlanBuilt := by
  refine ⟨fun p h => by simp only [Part.frameWork, h, if_true], fun p f => ?_⟩
  intro q plan down
  obtain ⟨b, ups, slots, tallied, grants, duty⟩ := p.buildPlan_layout f
  obtain ⟨length, -⟩ := p.buildPlan_fits f
  obtain ⟨h1, h2, h3⟩ := p.buildPlan_history f
  change plan.slots = b.layout at slots
  have downs : plan.slots.countP SlotUse.isDown = b.downList.length := by
    rw [slots, Build.layout_countP rfl]
    simp [SlotUse.isDown]
  have downsOf : ∀ k, plan.slots.countP (down k) = grantsTo k b.downList := by
    intro k
    rw [slots, Build.layout_countP rfl]
    simp [down, grantsTo]
  refine ⟨fun off => Part.buildPlan_off off f, p.buildPlan_planFrame f, length, fun g hg => ?_, fun k => ⟨?_, ?_⟩,
    fun g hg hc => ?_, h1, h2, h3, fun k low high => Part.buildPlan_credit_range f low high⟩
  · rw [slots, Build.mem_layout_down] at hg
    rw [slots, Build.mem_layout_up]
    exact tallied.answered g hg
  · rw [downsOf]
    exact Part.grantsTo_le grants k
  · rw [slots]
    exact Build.layout_count_up tallied k
  · rw [slots, Build.mem_layout_down] at hg
    rw [downs]
    exact duty g hg hc

end Sys2Proof.Machine
end

