-- ==== Sys2Proof/Proofs/PlanGrants.lean ====
section
/-! PROOF. What a plan built in ON grants (R68, R71, R75–R81): obligation O23. -/

namespace Sys2Proof.Machine

/-! ### The grants by their place in the plan -/

section
variable {p : Part} {f : Word} {b : Build} {polls rest : List ShortId}

/-- Each up slot is a poll or answers a down slot (R72, R77). -/
theorem Build.Planned.polled_or_down (h : b.Planned p f polls rest) {k : ShortId} (hk : k ∈ b.upList) :
    p.polledIn f k ∨ ∃ g, g ∈ b.downList ∧ g.sid = k := by
  rw [h.ups, List.mem_append, List.mem_append] at hk
  obtain (hk | hk) | hk := hk
  · obtain ⟨g, hg, e⟩ := List.mem_map.mp hk
    exact .inr ⟨g, List.mem_of_mem_filter hg, e⟩
  · exact .inl (h.polled k hk)
  · exact .inr (List.mem_map.mp (h.answers.down k hk))

/-- STOP grants stand before all others, each to another car and not of an older message than those before it (R76). -/
theorem Build.Planned.stop_before (h : b.Planned p f polls rest) {m n : Nat} {g x : DownGrant} (hmn : m < n)
    (hg : b.downList[m]? = some g) (hx : b.downList[n]? = some x) (hc : x.cls = .stop) :
    g.cls = .stop ∧ g.sid ≠ x.sid ∧ ∀ r t, p.record g.record = some r → p.record x.record = some t →
      ahead t.adm p.adm.nextAdm ≤ ahead r.adm p.adm.nextAdm := by
  obtain ⟨grantable, mem⟩ := h.grants.before hmn hg hx
  exact (grantable.stop hc).2 g mem

/-- The cars with an up slot when the grant of CONTROL or BULK at a place is made: of those that have one at the end, the
ones to be polled and the ones with a down slot by then (R72, R77). -/
theorem Build.Planned.heldUp_eq (h : b.Planned p f polls rest) {n : Nat} {g : DownGrant} (hg : b.downList[n]? = some g)
    (hc : g.cls ≠ .stop) (k : ShortId) :
    heldUp (b.stopCars ++ polls) (b.downList.take n) k = true ↔
      k ∈ b.upList ∧ (p.polledIn f k ∨ ∃ x ∈ b.downList.take n, x.sid = k) := by
  have stopsBefore : ∀ x ∈ b.downList, x.cls = .stop → x ∈ b.downList.take n := by
    intro x hx hs
    obtain ⟨m, hm⟩ := List.mem_iff_getElem?.mp hx
    rcases Nat.lt_trichotomy m n with lt | rfl | gt
    · exact (h.grants.before lt hm hg).2
    · rw [hm] at hg
      exact absurd hs (Option.some.inj hg ▸ hc)
    · exact absurd (h.stop_before gt hg hm hs).1 hc
  simp only [heldUp, Bool.or_eq_true, decide_eq_true_eq, List.any_eq_true, List.mem_append]
  constructor
  · rintro ((hk | hk) | ⟨x, hx, e⟩)
    · obtain ⟨x, hx, e⟩ := List.mem_map.mp hk
      obtain ⟨hx, hs⟩ := List.mem_filter.mp hx
      exact ⟨e ▸ h.tallied.answered x hx, .inr ⟨x, stopsBefore x hx (by simpa using hs), e⟩⟩
    · exact ⟨by simp [h.ups, hk], .inl (h.polled k hk)⟩
    · exact ⟨e ▸ h.tallied.answered x (List.mem_of_mem_take hx), .inr ⟨x, hx, e⟩⟩
  · rintro ⟨hk, poll | down⟩
    · rw [h.ups, List.mem_append, List.mem_append] at hk
      exact .inl (hk.resolve_right fun hr => h.answers.unpolled k hr poll)
    · exact .inr down

end

/-! ### The statements about the slots -/

/-- The room that the slots of a plan leave for one more down grant to a car (R71). -/
theorem Build.noRoom_iff (b : Build) (k : ShortId) : b.noRoom k ↔ 36 < b.downList.length + 1 +
    (if SlotUse.up k ∈ b.layout then b.upList.length else b.upList.length + 1) + 1 := by
  simp only [Build.noRoom, Build.mem_layout_up]

theorem Build.layout_isUp (b : Build) : b.layout.countP SlotUse.isUp = b.upList.length := by
  rw [Build.layout_countP rfl]
  simp [SlotUse.isUp]

/-- A pass grants its pick, whose credit and the allowance pay for it, and goes on (R79). -/
theorem Build.sharePass_pick {b : Build} {records : Vector (Option MsgRecord) 96} {c : MsgClass} {k : ShortId}
    (h : b.pick records c = some k) (n : Nat) :
    (let g := b.grantDown records k c
     let e := g.entries[k]
     let left := max (-64) (e.credit - 16)
     Build.sharePass records c (n + 1) b =
      Build.sharePass records c n
        { g with
          entries := g.entries.set k { e with credit := left, dirty := e.dirty || decide (left ≠ e.credit) }
          allowance := g.allowance - 1 }) := by
  intro g e left
  rw [Build.sharePass_some h]
  show Build.sharePass records c n { g with
    entries := g.entries.set k e.charged, allowance := g.allowance - 1 } = _
  rw [Entry.charged, Entry.write_credit]

/-! ### O23 -/

/-- Settles O23: the first two parts are read off what the four passes have granted (`buildPasses_planned`) through the
layout, the third is the pick of a pass and the step it makes, the fourth the credit update of one entry. -/
theorem planGrants : Obligations.PlanGrants := by
  refine ⟨fun p f on => ?_, fun p f on => ?_, fun b records c => ?_, fun p k => ?_⟩
  · intro q slots downs ups upsSeq granted noRoom next stopOf polled
    obtain ⟨polls, rest, planned⟩ := buildPasses_planned p f
    have hslots : slots = _ := Part.buildPlan_slots_on on f
    generalize buildPasses p f = b at planned hslots
    have hdowns : downs = b.downList :=
      (congrArg _ hslots).trans (Build.layout_downs (fun _ => rfl) (fun _ => rfl) rfl)
    have hups : ups = b.upList.length := (congrArg _ hslots).trans b.layout_isUp
    have hseq : upsSeq = b.upList :=
      (congrArg (fun l => List.filterMap _ (List.reverse l)) hslots).trans
        (Build.layout_ups (fun _ => rfl) (fun _ => rfl) rfl)
    clear_value downs ups upsSeq
    subst hdowns hups hseq
    clear_value slots
    subst hslots
    have room : ∀ k, b.noRoom k → noRoom k := fun k => (b.noRoom_iff k).mp
    refine ⟨fun n g hg => ⟨Build.layout_getElem?_down hg, planned.tallied.continues n g hg⟩,
      fun k r hr => (planned.stops k r hr).imp_right (room k), fun g hg hc => ?_,
      fun m n g x hmn hg hx hc => planned.stop_before hmn hg hx hc,
      fun k hk => (planned.heard k hk).imp_left Build.mem_layout_up.mpr,
      fun k hk => planned.polled_or_down (Build.mem_layout_up.mp hk), fun m n g x hmn hg hx hc => ?_,
      fun n k hk => Build.layout_getElem?_up hk,
      ⟨polls, rest, planned.ups, planned.sorted, planned.polled, planned.answers.order, planned.answers.unpolled⟩,
      fun k c i r hc hr hs => ?_⟩
    · obtain ⟨n, hn⟩ := planned.grants.exists_of_mem hg
      exact (hn.stop hc).1
    · obtain ⟨grantable, mem⟩ := planned.grants.before hmn hg hx
      exact grantable.control hc g mem
    · have all : granted k c b.downList.length = grantedTo k c b.downList := by
        show grantedTo k c (b.downList.take b.downList.length) = _
        rw [List.take_length]
      exact (planned.shares k c i r hc hr hs).imp (fun h => all ▸ h) (Or.imp_right (Or.imp_right (room k)))
  · intro q slots downs has earns charges granted polled hasUp eligible
    obtain ⟨polls, rest, planned⟩ := buildPasses_planned p f
    have charged := fun k => Part.buildPlan_charged on f k
    have hslots : slots = _ := Part.buildPlan_slots_on on f
    generalize buildPasses p f = b at planned hslots charged
    have hdowns : downs = b.downList :=
      (congrArg _ hslots).trans (Build.layout_downs (fun _ => rfl) (fun _ => rfl) rfl)
    clear_value downs
    subst hdowns
    clear_value slots
    subst hslots
    refine ⟨p.earnedCredit, fun k => ⟨fun h => if_pos ((earns_iff p k).mpr h), fun h => if_neg (mt (earns_iff p k).mp h)⟩,
      fun k => ?_, fun n g hg hc => ?_⟩
    · have all : (b.downList.take b.downList.length) = b.downList := List.take_length
      refine ⟨(charged k).1.trans ?_, (charged k).2.trans ?_⟩
      · show _ = p.creditLeft k (b.downList.take b.downList.length)
        rw [all]
      · show _ = p.creditDirty k (b.downList.take b.downList.length)
        rw [all]
    · have grantable := planned.grants n g hg
      have length : (b.downList.take n).length = n :=
        List.length_take_of_le (List.getElem?_eq_some_iff.mp hg).1.le
      have held : ∀ k, hasUp k n = heldUp (b.stopCars ++ polls) (b.downList.take n) k := by
        intro k
        rw [Bool.eq_iff_iff, planned.heldUp_eq hg hc]
        simp [hasUp, polled, Build.mem_layout_up, Part.polledIn]
      have shares : ∀ k, eligible k g.cls n ↔ p.sharesAt (b.stopCars ++ polls) g.cls (b.downList.take n) k := by
        intro k
        simp only [eligible, held, Part.sharesAt, length]
        rfl
      obtain ⟨shared, best⟩ := grantable.picked hc
      exact ⟨(shares g.sid).mpr shared, fun k hk => best k ((shares k).mp hk)⟩
  · exact ⟨fun k hk => Build.pick_some hk, Build.pick_none, fun n k hk => Build.sharePass_pick hk n⟩
  · intro e has earns
    refine ⟨p.earnedCredit k, fun h => if_pos ((earns_iff p k).mpr h), fun h => if_neg (mt (earns_iff p k).mp h), ?_⟩
    rw [creditUpdate_getElem, Entry.earned, Entry.write_credit]
    rfl

end Sys2Proof.Machine
end
